-- ==== Sys2Proof/Word.lean ====
section
/-! DEFINITION. The few number types of the WP416 model.

Almost everything this part counts (positions, door numbers, charge, milliseconds) is a plain quantity
and is a `Nat`. Only what the manual treats as bits is a bit vector: the bytes of the two links, the
uptime word, the group tag (masked bit by bit) and the sequence rank and console tag, which are carried
as one and two bytes. -/

namespace Sys2Proof

/-- One byte on a field line or a console link. -/
abbrev Byte := BitVec 8

/-- The console tag of an order: 0 to 65535 (R47). -/
abbrev Tag16 := BitVec 16

/-- The uptime word as the part holds it: 32 bits, wrapping (00_scope.md, Time). -/
abbrev Uptime := BitVec 32

end Sys2Proof
end

