-- ==== Sys2Proof/Config.lean ====
section
/-! DEFINITION. What the manual leaves to the silicon: free values, with no body.

Nothing in Lean can compute one of these, so a theorem that mentions one holds whatever it is. -/

namespace Sys2Proof

/-- The silicon revision number that IDENT reports (R197 names the number and states no value). -/
opaque Config.siliconRevision : Nat

/-- Whether a low pulse on RSTN shorter than 10 microseconds is taken as a reset. R199: such a pulse "is
either taken as a full reset or not taken at all". The argument counts the short pulses so far, so each
pulse has a free value of its own. -/
opaque Config.shortPulseTaken : Nat → Bool

/-- The most hand-offs one pass over the agenda takes (see `Sys2Proof.Machine.run`). What is left over
stays on the agenda and is taken by the next step, so the number bounds a step, not an effect. -/
def Config.passBound : Nat := 1048576

end Sys2Proof
end

