-- ==== Sys2Proof/Syntax.lean ====
section
/-! DEFINITION. The commands of the WP416, one constructor per row of spec/opcode_table.json, and the
operands they carry.

The manual gives the envelope of a console message (R186) and no layout of the request bodies, so a
console request carries its fields as the rules name them. A field may name something outside its set
(`Named.outside`, `Naming.outside`), a quantity is any number, and a body may have a length its type does
not allow (`Body.badLength`, R189): every status of the manual can be reached. -/

namespace Sys2Proof

/-- The two console ports (R186). -/
inductive Port where
  | A | B
  deriving DecidableEq, Repr

/-- The four field lines 0 to 3. -/
inductive LineNo where
  | l0 | l1 | l2 | l3
  deriving DecidableEq, Repr

/-- The class of an opening: powered sliding door, hinged door, shell door or hatch. -/
inductive DoorClass where
  | P | H | S
  deriving DecidableEq, Repr

/-- The lifecycle states in which a position holds a record (R1). A FREE position holds none. -/
inductive Lifecycle where
  | enrolled | inService | isolated | retiring
  deriving DecidableEq, Repr

/-- The fault kinds of doors and units, in the severity order of R153, most severe first. -/
inductive FaultKind where
  | ic | lc | ct | ob | sf | ul | ms | pd | ot | lp | rd | lcu
  deriving DecidableEq, Repr

/-- The two permissions (R3). -/
inductive Perm where
  | localOpen | remoteOpen
  deriving DecidableEq, Repr

/-- A subset of {LOCAL_OPEN, REMOTE_OPEN}. -/
structure Perms where
  localOpen : Bool
  remoteOpen : Bool
  deriving DecidableEq, Repr

/-- The kinds of order (R47). -/
inductive OrderKind where
  | close | opening | hold
  deriving DecidableEq, Repr

/-- The supply state of a unit (R97). -/
inductive Supply where
  | mains | stored
  deriving DecidableEq, Repr

/-! ### Operands of console requests -/

/-- One name as a request carries it: a member of its set, or something outside it. -/
inductive Named (α : Type) where
  | is (a : α)
  | outside
  deriving DecidableEq, Repr

/-- A set as a request carries it: the members it names, and whether it names something outside. -/
structure Naming (α : Type) where
  items : List α
  outside : Bool
  deriving DecidableEq, Repr

/-- The body of a request: its fields, or a length the type does not allow (R189). -/
inductive Body (α : Type) where
  | fields (a : α)
  | badLength
  deriving DecidableEq, Repr

/-- The two ways a request names a door record (R7). -/
inductive DoorName where
  | number (n : Nat)
  | position (p : Nat)
  deriving DecidableEq, Repr

/-- Any subset of the configured fields of R3, as ENROL and CHANGE carry them. -/
structure FieldArgs where
  number : Option Nat := none
  cls : Option (Named DoorClass) := none
  /-- Line and station of the field address. -/
  address : Option (Nat × Nat) := none
  zone : Option Nat := none
  rank : Option Byte := none
  staleLimit : Option Nat := none
  tag : Option Byte := none
  enables : Option (Naming FaultKind) := none
  unit : Option Nat := none
  closeCost : Option Nat := none
  openCost : Option Nat := none
  closeAllowance : Option Nat := none
  openAllowance : Option Nat := none
  lead : Option Nat := none
  recloseDelay : Option Nat := none
  passageLimit : Option Nat := none
  perms : Option (Naming Perm) := none
  normallyClosed : Option Bool := none
  deriving DecidableEq, Repr

/-- ENROL (R10): a position, configured fields and the lifecycle asked for. -/
structure EnrolReq where
  position : Nat
  args : FieldArgs
  lifecycle : Option (Named Lifecycle) := none
  deriving DecidableEq, Repr

/-- CHANGE (R14). -/
structure ChangeReq where
  name : DoorName
  args : FieldArgs
  lifecycle : Option (Named Lifecycle) := none
  deriving DecidableEq, Repr

/-- What LIST ZONE and SUMMARY name: a zone or the ship. -/
inductive ZoneName where
  | zone (z : Nat)
  | ship
  deriving DecidableEq, Repr

/-- LIST ZONE (R191). -/
structure ListZoneReq where
  which : ZoneName
  start : Nat
  deriving DecidableEq, Repr

/-- The scope of an order as a request carries it (R47, R49). -/
inductive ScopeArg where
  | ship
  | zones (zs : List Nat)
  | door (number : Nat)
  | group (mask value : Byte)
  | outside
  deriving DecidableEq, Repr

/-- ORDER (R49). -/
structure OrderReq where
  tag : Tag16
  priority : Nat
  kind : Named OrderKind
  scope : ScopeArg
  withdraw : Naming Perm
  deriving DecidableEq, Repr

/-- What ORDER STATUS asks for: a slot or the next unread completion (R195). -/
inductive StatusOf where
  | slot (n : Nat)
  | nextUnread
  deriving DecidableEq, Repr

/-- ORDER STATUS (R195). -/
structure OrderStatusReq where
  which : StatusOf
  memberStart : Nat
  deriving DecidableEq, Repr

/-- A subject as ACK ALARM names it. -/
inductive SubjectName where
  | door (d : DoorName)
  | unit (u : Nat)
  deriving DecidableEq, Repr

/-- ACK ALARM (R156): one entry or all. -/
inductive AckReq where
  | one (subject : SubjectName) (kind : Named FaultKind)
  | all
  deriving DecidableEq, Repr

/-- What CLEAR FLAGS names: a door, a unit or the ship (R143). -/
inductive FlagSubject where
  | door (d : DoorName)
  | unit (u : Nat)
  | ship
  deriving DecidableEq, Repr

/-- CLEAR FLAGS (R143); `kinds = none` stands for all kinds. -/
structure ClearFlagsReq where
  subject : FlagSubject
  kinds : Option (Naming FaultKind)
  deriving DecidableEq, Repr

/-- BULK (R162). -/
structure BulkReq where
  first : Nat
  last : Nat
  zone : Option Nat := none
  unit : Option Nat := none
  cls : Option (Named DoorClass) := none
  mask : Byte := 0
  value1 : Byte := 0
  value2 : Byte := 0
  setLifecycle : Option (Named Lifecycle) := none
  setPerms : Option (Naming Perm) := none
  setUnit : Option Nat := none
  setTag : Option Byte := none
  setNormallyClosed : Option Bool := none
  setEnables : Option (Naming FaultKind) := none
  deriving DecidableEq, Repr

/-- A monitor address as UNIT SET carries it: none, or a line and a station (R97). -/
inductive MonitorArg where
  | none
  | at (line station : Nat)
  deriving DecidableEq, Repr

/-- The set fields of a unit, any subset of them (R97, R98). -/
structure UnitArgs where
  configured : Option Bool := none
  capacity : Option Nat := none
  floor : Option Nat := none
  rate : Option Nat := none
  concurrency : Option Nat := none
  spacing : Option Nat := none
  tolerance : Option Nat := none
  monitor : Option MonitorArg := none
  supply : Option Supply := none
  enables : Option (Naming FaultKind) := none
  deriving DecidableEq, Repr

/-- UNIT SET (R98, R102): a unit, or the ship budget M and E. -/
inductive UnitSetReq where
  | unit (u : Nat) (args : UnitArgs)
  | ship (m e : Option Nat)
  deriving DecidableEq, Repr

/-- UNIT READ (R99): a unit, with a queue start index or none, or the ship budget. -/
inductive UnitReadReq where
  | unit (u : Nat) (start : Option Nat)
  | ship
  deriving DecidableEq, Repr

/-- LINE SET (R121); the rate is given in bit/s. -/
structure LineSetReq where
  line : Nat
  enabled : Option Bool := none
  rate : Option Nat := none
  window : Option Nat := none
  deriving DecidableEq, Repr

/-- One slot record as CALENDAR SET carries it (R134). -/
structure CalSlotArg where
  first : Nat
  last : Nat
  visits : Nat
  deriving DecidableEq, Repr

/-- CALENDAR SET (R134). -/
structure CalendarReq where
  length : Nat
  slots : List CalSlotArg
  deriving DecidableEq, Repr

/-- One byte as a console receiver sees it: its value, and whether it had a framing error (R187). -/
structure LinkByte where
  value : Byte
  framingError : Bool := false
  deriving DecidableEq, Repr

/-! ### The commands -/

/-- The commands: console requests, console link events, pin events, field-line events and timer
expiries. One constructor per row of spec/opcode_table.json. -/
inductive Instr where
  -- console requests (R186)
  | enrol (port : Port) (body : Body EnrolReq)
  | change (port : Port) (body : Body ChangeReq)
  | retire (port : Port) (body : Body DoorName)
  | lookup (port : Port) (body : Body DoorName)
  | listZone (port : Port) (body : Body ListZoneReq)
  | summary (port : Port) (body : Body ZoneName)
  | order (port : Port) (body : Body OrderReq)
  | cancel (port : Port) (body : Body Nat)
  | orderStatus (port : Port) (body : Body OrderStatusReq)
  | readAlarms (port : Port) (body : Body Nat)
  | ackAlarm (port : Port) (body : Body AckReq)
  | clearFlags (port : Port) (body : Body ClearFlagsReq)
  | readChanges (port : Port) (body : Body Unit)
  | bulk (port : Port) (body : Body BulkReq)
  | bulkAbort (port : Port) (body : Body Unit)
  | bulkStatus (port : Port) (body : Body Unit)
  | unitSet (port : Port) (body : Body UnitSetReq)
  | unitRead (port : Port) (body : Body UnitReadReq)
  | lineSet (port : Port) (body : Body LineSetReq)
  | calendarSet (port : Port) (body : Body CalendarReq)
  | commission (port : Port) (body : Body Unit)
  | resweep (port : Port) (body : Body Unit)
  | restart (port : Port) (body : Body Unit)
  | ident (port : Port) (body : Body Unit)
  -- console link events (R187 to R189)
  | badType (port : Port) (type : Byte)
  | overrun (port : Port)
  /-- The bytes that reached the receiver, the last of which makes the bad frame. -/
  | badFrame (port : Port) (bytes : List LinkByte)
  /-- The bytes that reached the receiver before the gap of more than 10 ms. -/
  | consoleByteGap (port : Port) (bytes : List LinkByte)
  | responseSent (port : Port)
  -- pins (R68, R182, R199)
  /-- RSTN is driven low and held low for `micros` microseconds. -/
  | rstnLow (micros : Nat)
  | rstnRelease
  | ecloseInputChange (level : Bool)
  | ecloseDebounceExpiry
  -- field lines (R123)
  | guardEnd (line : LineNo)
  | requestSent (line : LineNo)
  | windowExpiry (line : LineNo)
  | replyReceived (line : LineNo) (bytes : List Byte)
  | replyByteGap (line : LineNo)
  -- timers
  | stalenessDeadlineExpiry (position : Nat)
  | spacingTimerExpiry (unit : Nat)
  | chargeTimerExpiry (unit : Nat)
  | warningLeadExpiry (position : Nat)
  | deadlineExpiry (position : Nat)
  | obstructionPauseExpiry (position : Nat)
  | passageLimitExpiry (position : Nat)
  | recloseDelayExpiry (position : Nat)
  | bulkStepExpiry
  | replyStart (line : LineNo)
  deriving DecidableEq, Repr

end Sys2Proof
end

