-- ==== Sys2Proof/Machine/State.lean ====
section
/-! DEFINITION. The state of the WP416: every block's records, as plain data.

Times. The part's uptime is 32 bits wide (00_scope.md, Time). The model keeps the unbounded count of
milliseconds since reset (`State.clock`), whose low 32 bits are the uptime, and stores every stamp and
every deadline as a value of that count. Ages and remaining times are then plain differences, held at
2^31 - 1 as the manual says.

FREE and unconfigured. A FREE position, a FREE order slot and an unconfigured unit hold nothing beyond
being so (R1, R46, R97): each is the absence of its key from a keyed list in strictly rising key order. -/

namespace Sys2Proof.Machine

open Sys2Proof

/-! ### Door records (R3, R5, R71) -/

/-- The P fields of R3; costs in cu, allowances, lead, delay and limit in seconds. -/
structure PowerFields where
  unit : Nat
  closeCost : Nat
  openCost : Nat
  closeAllowance : Nat
  openAllowance : Nat
  lead : Nat
  recloseDelay : Nat
  passageLimit : Nat
  perms : Perms
  normallyClosed : Bool
  deriving DecidableEq, Repr

/-- The configured fields of R3. `power` is present in class P and absent in classes H and S. -/
structure Configured where
  number : Nat
  cls : DoorClass
  line : LineNo
  station : Nat
  zone : Nat
  rank : Byte
  /-- The staleness limit in milliseconds. -/
  staleLimit : Nat
  tag : Byte
  enables : List FaultKind
  power : Option PowerFields
  deriving DecidableEq, Repr

/-- A station report as it is taken into a record (R26). -/
structure StationReport where
  closedLimit : Bool
  openLimit : Bool
  secured : Bool
  moving : Bool
  obstruction : Bool
  stroke : Option Nat
  faultCode : Nat
  deriving DecidableEq, Repr

/-- The indicated states (R5). -/
inductive Indication where
  | closed | closedUnsecured | opened | movingClose | movingOpen | intermediate | unknown
  deriving DecidableEq, Repr

/-- The qualifiers of 02, section 2.4. -/
inductive Qualifier where
  | stale | unproven | faulted | localPassage | isolated
  deriving DecidableEq, Repr

/-- The motion states (R71). -/
inductive Motion where
  | rest | waitUnit | warning | moving | inLocal | recloseDelay
  deriving DecidableEq, Repr

/-- Why a door waits or moves (R71). -/
inductive Purpose where
  | order | reclose | passage
  deriving DecidableEq, Repr

/-- The indicated state a remote stroke is to reach (R71). -/
inductive Target where
  | closed | opened
  deriving DecidableEq, Repr

/-- The wait reasons (R5). -/
inductive WaitReason where
  | queue | concurrency | spacing | charge | shipLimit | bulkHold
  deriving DecidableEq, Repr

/-- The tiers of the queue key (R75, R105). -/
inductive Tier where
  | emergency | passage | other
  deriving DecidableEq, Repr

/-- The queue priority and tier of a waiting door (R75). -/
structure QueueClass where
  tier : Tier
  priority : Nat
  deriving DecidableEq, Repr

/-- A door record: lifecycle, configured fields and dynamic fields (R1, R3, R5). -/
structure Record where
  lifecycle : Lifecycle
  cfg : Configured
  report : Option StationReport
  /-- Last good reply uptime, as a value of `State.clock`. -/
  lastGood : Option Nat
  missed : Nat
  mark : Bool
  indicated : Indication
  /-- STALE by age: the part of the qualifier that the staleness deadline sets (R33). The other reason
  for STALE is the LC cause, which is in `causes`. -/
  aged : Bool
  causes : List FaultKind
  flags : List FaultKind
  motion : Motion
  purpose : Option Purpose
  target : Option Target
  govSlot : Option Nat
  waitReason : Option WaitReason
  queueClass : Option QueueClass
  /-- The running motion timer, as a value of `State.clock`. -/
  deadline : Option Nat
  attempts : Nat
  heldDebit : Option Nat
  releaseAttempts : Option Nat
  deriving DecidableEq, Repr

/-- Why a retirement completed (R23). -/
inductive FreedReason where
  | immediate | released | noAck
  deriving DecidableEq, Repr

/-- A freed report: the door number and the reason (R23). -/
structure FreedReport where
  number : Nat
  reason : FreedReason
  deriving DecidableEq, Repr

/-! ### Orders (R46 to R48) -/

/-- The scope of an accepted order; `zones` holds distinct zones in ascending order. -/
inductive Scope where
  | ship
  | zones (zs : List Nat)
  | door (number : Nat)
  | group (mask value : Byte)
  deriving DecidableEq, Repr

inductive OrderSource where
  | consoleA | consoleB | hardwired
  deriving DecidableEq, Repr

inductive OrderState where
  | pending | active | suspended | done | cancelled
  deriving DecidableEq, Repr

inductive OrderResult where
  | done | doneWithFailures | cancelled
  deriving DecidableEq, Repr

/-- The reasons for a FAILED outcome (R48). -/
inductive FailReason where
  | timeout | obstructed | fault | isolated | retired | withdrawn | cost | notDrivable
  deriving DecidableEq, Repr

/-- The outcome of a snapshot member (R48). -/
inductive MemberOutcome where
  | uncounted
  | done
  | failed (why : FailReason)
  deriving DecidableEq, Repr

/-- A snapshot member. `freed` is set when its position becomes FREE: from then on it refers to no record
(R23, R48). -/
structure Member where
  position : Nat
  outcome : MemberOutcome
  freed : Bool
  deriving DecidableEq, Repr

/-- One flag for each console port. -/
structure PortFlags where
  a : Bool
  b : Bool
  deriving DecidableEq, Repr

/-- An order record (R47); its slot is its key. -/
structure Order where
  source : OrderSource
  tag : Tag16
  priority : Nat
  kind : OrderKind
  scope : Scope
  withdraw : Perms
  state : OrderState
  arrival : Nat
  /-- Members in ascending position order; absent before the first push. -/
  snapshot : Option (List Member)
  done : Nat
  failed : Nat
  repeats : Nat
  issuing : PortFlags
  result : Option OrderResult
  finished : Option Nat
  unread : PortFlags
  deriving DecidableEq, Repr

/-! ### Power units (R97) -/

structure PowerUnit where
  capacity : Nat
  floor : Nat
  rate : Nat
  concurrency : Nat
  spacing : Nat
  tolerance : Nat
  monitor : Option (LineNo × Nat)
  supply : Supply
  enables : List FaultKind
  /-- Charge in mcu. -/
  charge : Nat
  lastAccrual : Nat
  reconciled : Bool
  strokes : Nat
  lastStart : Option Nat
  /-- Waiting positions, head first. -/
  queue : List Nat
  monitorMissed : Nat
  causes : List FaultKind
  flags : List FaultKind
  chargeTimer : Option Nat
  spacingTimer : Option Nat
  deriving DecidableEq, Repr

/-! ### Field lines (R120 to R137) -/

inductive Rate where
  | r38400 | r115200 | r230400
  deriving DecidableEq, Repr

/-- The reasons a REFUSE carries (R128). -/
inductive RefuseWhy where
  | withdrawn | lowCharge | isolated
  deriving DecidableEq, Repr

/-- The door commands with their arguments (R128). -/
inductive DoorCommand where
  | warn (seconds : Nat)
  | move (target : Target)
  | stop
  | grant
  | refuse (why : RefuseWhy)
  | release
  deriving DecidableEq, Repr

/-- An entry of a line's command queue (R126). -/
structure QueuedCommand where
  position : Nat
  command : DoorCommand
  /-- Sent once: a miss does not queue it again (R184). -/
  once : Bool := false
  deriving DecidableEq, Repr

/-- What an exchange sends (R128). -/
inductive ExchangeKind where
  | poll
  | command (c : DoorCommand)
  deriving DecidableEq, Repr

/-- The target of an exchange, fixed when it is chosen (R125). -/
inductive ExchangeTarget where
  | door (position station : Nat)
  | monitor (unit station : Nat)
  deriving DecidableEq, Repr

inductive ExchangeSource where
  | command | sweep | calendar
  deriving DecidableEq, Repr

/-- The phases of R123. -/
inductive ExchangePhase where
  | sending | window | receiving | guard
  deriving DecidableEq, Repr

/-- The exchange in flight on a line (R123, R125). -/
structure Exchange where
  phase : ExchangePhase
  kind : ExchangeKind
  target : ExchangeTarget
  source : ExchangeSource
  /-- The reply window it was sent with, in ms (R121). -/
  window : Nat
  /-- The record it was chosen for has left its position since (R125). -/
  targetFreed : Bool
  /-- A missed command is not queued again: it was to be sent once (R184), or a warm restart found it in
  flight (R126). -/
  once : Bool
  deriving DecidableEq, Repr

/-- Where a line stands in its calendar round (R135, R136): in the visit of a slot, with the positions
whose records were polled in this visit and the number of its polls, or in the monitor pass, with the least
unit number not yet passed. A position that has been freed since its poll is not among the positions, and
its poll still counts. -/
inductive CalendarPlace where
  | slot (index : Nat) (polled : List Nat) (count : Nat)
  | monitors (next : Nat)
  deriving DecidableEq, Repr

/-- The monitor pass of a sweep walk (R137). -/
inductive SweepMonitors where
  | pending (next : Nat)
  | done
  deriving DecidableEq, Repr

structure SweepWalk where
  active : Bool
  cursor : Nat
  monitors : SweepMonitors
  deriving DecidableEq, Repr

structure Line where
  enabled : Bool
  rate : Rate
  /-- The reply window W in ms. -/
  window : Nat
  queue : List QueuedCommand
  exchange : Option Exchange
  place : CalendarPlace
  /-- The pointer of each slot in use (R135). -/
  pointers : List Nat
  sweep : SweepWalk
  deriving DecidableEq, Repr

/-- One value for each field line. -/
structure PerLine (α : Type) where
  l0 : α
  l1 : α
  l2 : α
  l3 : α
  deriving DecidableEq, Repr

/-- A slot of the polling calendar (R134). -/
structure CalSlot where
  first : Nat
  last : Nat
  visits : Nat
  deriving DecidableEq, Repr

/-! ### Alarms (R153) -/

inductive Subject where
  | door (number : Nat)
  | unit (u : Nat)
  deriving DecidableEq, Repr

inductive AlarmState where
  | unackActive | ackActive | unackCleared
  deriving DecidableEq, Repr

structure Alarm where
  subject : Subject
  kind : FaultKind
  state : AlarmState
  raised : Nat
  deriving DecidableEq, Repr

/-! ### The bulk walk (R161, R162) -/

/-- Range, criteria and commands of a walk, as accepted. -/
structure BulkPlan where
  first : Nat
  last : Nat
  zone : Option Nat
  unit : Option Nat
  cls : Option DoorClass
  mask : Byte
  value1 : Byte
  value2 : Byte
  setLifecycle : Option Lifecycle
  setPerms : Option Perms
  setUnit : Option Nat
  setTag : Option Byte
  setNormallyClosed : Option Bool
  setEnables : Option (List FaultKind)
  deriving DecidableEq, Repr

inductive WalkState where
  | idle | running | ended
  deriving DecidableEq, Repr

inductive WalkResult where
  | complete | aborted
  deriving DecidableEq, Repr

/-- The four counts of a walk. -/
structure WalkCounts where
  visited : Nat
  matched : Nat
  changed : Nat
  skipped : Nat
  deriving DecidableEq, Repr

/-- The walk record. `idle` is the manual's NONE, in which the plan and the counts are absent. -/
structure Walk where
  state : WalkState
  number : Nat
  plan : Option BulkPlan
  cursor : Nat
  stepTimer : Option Nat
  counts : Option WalkCounts
  result : Option WalkResult
  deriving DecidableEq, Repr

/-! ### Phase and summaries (R38, R39, R174) -/

inductive Phase where
  | build | sweep | service
  deriving DecidableEq, Repr

inductive SummaryState where
  | notClosed | unproven | closed | empty
  deriving DecidableEq, Repr

/-- The five counts of a summary and its state. -/
structure Summary where
  total : Nat
  proven : Nat
  notClosed : Nat
  unproven : Nat
  moving : Nat
  state : SummaryState
  deriving DecidableEq, Repr

/-- The three attention conditions of a port (R198). -/
structure Conditions where
  changes : Bool
  alarms : Bool
  completions : Bool
  deriving DecidableEq, Repr

/-! ### Responses (R186, R190): the contents each rule names -/

inductive Status where
  | ok | clamped | absorbed | badField | notFound | duplicate | busy | noSlot | wrongPhase | priority
  | badType
  deriving DecidableEq, Repr

/-- A lifecycle as a response reports it, FREE included. -/
inductive Reached where
  | free
  | holds (l : Lifecycle)
  deriving DecidableEq, Repr

/-- The whole record as LOOKUP reports it (R13). -/
structure RecordReport where
  position : Nat
  lifecycle : Lifecycle
  cfg : Configured
  report : Option StationReport
  lastGoodAge : Option Nat
  missed : Nat
  mark : Bool
  indicated : Indication
  qualifiers : List Qualifier
  causes : List FaultKind
  flags : List FaultKind
  motion : Motion
  target : Option Target
  purpose : Option Purpose
  govSlot : Option Nat
  waitReason : Option WaitReason
  remaining : Option Nat
  attempts : Nat
  heldDebit : Option Nat
  releaseAttempts : Option Nat
  deriving DecidableEq, Repr

/-- An entry of LIST ZONE (R191). -/
structure ListEntry where
  position : Nat
  number : Nat
  cls : DoorClass
  lifecycle : Lifecycle
  indicated : Indication
  qualifiers : List Qualifier
  deriving DecidableEq, Repr

/-- A door of the ship SUMMARY that is not proven closed (R192). -/
structure OpenDoor where
  number : Nat
  position : Nat
  indicated : Indication
  qualifiers : List Qualifier
  deriving DecidableEq, Repr

/-- The ship SUMMARY (R192). -/
structure ShipReport where
  summary : Summary
  zones : List SummaryState
  phase : Phase
  outstanding : Option Nat
  allClosed : Bool
  overflow : Bool
  /-- Slot and priority, bottom to top. -/
  stack : List (Nat × Nat)
  pendingOrders : List Nat
  openCount : Nat
  openDoors : List OpenDoor
  deriving DecidableEq, Repr

/-- A snapshot member as ORDER STATUS reports it; the door number is absent once its position was freed. -/
structure MemberReport where
  position : Nat
  number : Option Nat
  outcome : MemberOutcome
  deriving DecidableEq, Repr

/-- An order as ORDER STATUS reports it (R195). -/
structure OrderReport where
  slot : Nat
  source : OrderSource
  tag : Tag16
  priority : Nat
  kind : OrderKind
  scope : Scope
  withdraw : Perms
  state : OrderState
  onTop : Bool
  members : Nat
  done : Nat
  failed : Nat
  repeats : Nat
  issuing : PortFlags
  result : Option OrderResult
  finishedAge : Option Nat
  listed : List MemberReport
  deriving DecidableEq, Repr

/-- An alarm entry as READ ALARMS reports it (R194); the position is absent for a unit. -/
structure AlarmReport where
  index : Nat
  subject : Subject
  position : Option Nat
  kind : FaultKind
  state : AlarmState
  age : Nat
  deriving DecidableEq, Repr

/-- A position as READ CHANGES reports it (R193). -/
inductive ChangeReport where
  | holds (position number : Nat) (lifecycle : Lifecycle) (cls : DoorClass) (indicated : Indication)
      (qualifiers : List Qualifier) (motion : Motion) (target : Option Target)
      (causes flags : List FaultKind)
  | freed (position number : Nat) (reason : FreedReason)
  deriving DecidableEq, Repr

/-- A waiting door as UNIT READ reports it (R99). -/
structure WaitingDoor where
  number : Nat
  position : Nat
  reason : Option WaitReason
  purpose : Option Purpose
  target : Option Target
  queueClass : Option QueueClass
  deriving DecidableEq, Repr

/-- A unit as UNIT READ reports it (R99). -/
structure UnitReport where
  number : Nat
  configured : Bool
  capacity : Nat
  floor : Nat
  rate : Nat
  concurrency : Nat
  spacing : Nat
  tolerance : Nat
  monitor : Option (LineNo × Nat)
  supply : Supply
  enables : List FaultKind
  visible : Nat
  charge : Nat
  lastAccrual : Uptime
  reconciled : Bool
  strokes : Nat
  lastStartAge : Option Nat
  monitorMissed : Nat
  causes : List FaultKind
  flags : List FaultKind
  chargeRemaining : Option Nat
  spacingRemaining : Option Nat
  waiting : Nat
  doors : List WaitingDoor
  deriving DecidableEq, Repr

/-- An entry of a command queue as LINE SET reports it (R121). -/
structure CommandReport where
  number : Option Nat
  position : Nat
  command : DoorCommand
  deriving DecidableEq, Repr

/-- A line as LINE SET reports it (R121). -/
structure LineReport where
  line : LineNo
  enabled : Bool
  rate : Rate
  window : Nat
  queued : Nat
  commands : List CommandReport
  exchange : Option (ExchangeKind × ExchangeTarget × ExchangeSource)
  /-- The current calendar slot; absent in the monitor pass. -/
  slot : Option Nat
  pointers : List Nat
  sweepActive : Bool
  sweepCursor : Nat
  deriving DecidableEq, Repr

/-- IDENT (R197). -/
structure IdentReport where
  vendor : String
  part : String
  revision : Nat
  phase : Phase
  eclose : Bool
  uptime : Uptime
  port : Port
  badFrames : Nat
  overruns : Nat
  conditions : Conditions
  deriving DecidableEq, Repr

/-- The walk record as BULK, BULK ABORT and BULK STATUS report it (R172); in NONE only the state and the
number 0. -/
structure WalkReport where
  state : WalkState
  number : Nat
  plan : Option BulkPlan
  cursor : Option Nat
  toNextVisit : Option Nat
  counts : Option WalkCounts
  result : Option WalkResult
  deriving DecidableEq, Repr

/-- The contents of a response (R190 and the rules it names). -/
inductive Content where
  | empty
  | echo (position : Nat) (number : Option Nat)
  | enrolled (position number : Nat) (lifecycle : Lifecycle) (uncovered : Bool)
  | record (r : RecordReport)
  | retired (position number : Nat) (reached : Reached)
  | listing (total : Nat) (entries : List ListEntry)
  | zone (summary : Summary)
  | ship (r : ShipReport)
  | order (slot : Nat) (tag : Tag16) (state : OrderState) (withdraw : Perms) (repeats : Option Nat)
  | cancelled (tag : Tag16) (state : OrderState) (members done failed : Nat)
      (result : Option OrderResult)
  | orderStatus (r : OrderReport)
  | alarms (count : Nat) (overflow : Bool) (unacknowledged : Nat) (entries : List AlarmReport)
  | acknowledged (acked removed : Nat) (overflow : Bool)
  | flagsLeft (flags : List FaultKind)
  | flagsCleared (cleared kept : Nat)
  | changes (reports : List ChangeReport) (left : Nat)
  | walk (r : WalkReport)
  | unit (r : UnitReport)
  | budget (m e strokes : Nat)
  | line (r : LineReport)
  | calendar (length : Nat) (slots : List CalSlot) (uncovered : Nat)
  | phase (reached : Phase) (outstanding : Option Nat)
  | ident (r : IdentReport)
  deriving DecidableEq, Repr

/-- A response: the type byte (request type plus 0x80), the status and the contents (R186). -/
structure Response where
  type : Byte
  status : Status
  content : Content
  deriving DecidableEq, Repr

/-! ### Console ports (R187, R188, R196) -/

/-- The receiver of a port. `length` is the manual's LENGTH; `body` and `check` hold the length byte and
the bytes received so far. -/
inductive Receiver where
  | hunt
  | length
  | body (length : Byte) (held : List Byte)
  | check (length : Byte) (held : List Byte)
  deriving DecidableEq, Repr

/-- The service state: IDLE, or SERVING with the response being sent. -/
inductive Service where
  | idle
  | serving (r : Response)
  deriving DecidableEq, Repr

structure PortState where
  receiver : Receiver
  service : Service
  badFrames : Nat
  overruns : Nat
  /-- Positions that carry this port's change mark, ascending (R43, R44). -/
  marks : List Nat
  /-- This port's copies of the freed reports, by position (R23). -/
  freed : List (Nat × FreedReport)
  deriving DecidableEq, Repr

/-! ### What the part shows: pins and kept counts -/

/-- A transmit pin: it idles high, or sends (R199). -/
inductive Txd (α : Type) where
  | idleHigh
  | sends (a : α)
  deriving DecidableEq, Repr

/-- The level of an output pin, or floating (R199). -/
inductive Level where
  | low | high | floats
  deriving DecidableEq, Repr

/-- The output pins, and the counts and conditions that R38 to R40, R178 and R198 say are kept current.
They are driven at the end of every event from the state it leaves. -/
structure Outputs where
  allClosed : Bool
  attnA : Bool
  attnB : Bool
  /-- FLn_DE (R199). -/
  driveEnable : PerLine Bool
  /-- FLn_TXD, with the bytes of the request being sent (R128, R199). -/
  lineTxd : PerLine (Txd (List Byte))
  /-- CA_TXD and CB_TXD, with the response being sent (R188, R199). -/
  consoleTxdA : Txd Response
  consoleTxdB : Txd Response
  /-- Zones 1 to 24 in order. -/
  zones : List Summary
  ship : Summary
  outstanding : Nat
  conditionsA : Conditions
  conditionsB : Conditions
  deriving DecidableEq, Repr

/-! ### Hand-offs -/

/-- A hand-off between the blocks that the event in hand still has to take. The rules describe one event
as a chain of hand-offs; the agenda of the state holds those not yet taken, in order. -/
inductive Task where
  /-- A unit evaluates its queue (R107). -/
  | evalQueue (unit : Nat)
  /-- A freeing of ship budget, by a stroke end on a unit or by a rise of M or E (R112, R114). -/
  | freed (unit : Option Nat)
  /-- The end of a bulk walk at the power-unit accounts (R170). -/
  | walkEnded
  /-- The ship-budget arbiter with its remaining candidates (R114). -/
  | arbiter (units : List Nat)
  /-- The motion supervisor takes an admission (R77). -/
  | admitted (position cost : Nat)
  /-- The unit judges UL (R104). -/
  | judgeUL (unit : Nat)
  /-- The evaluation of R59 of a door that came to rest. -/
  | evalRest (position : Nat)
  /-- An order completes if every member is counted (R63). -/
  | complete (slot : Nat)
  /-- After a pop, the pending head is pushed or the new top resumed (R57). -/
  | nextTop
  /-- A door has become undrivable (R93). -/
  | undrivable (position : Nat)
  /-- Step 3 of R140 for a door cause. -/
  | reportCause (position : Nat) (kind : FaultKind)
  /-- A door cause is handed over as present or absent (R140, R141). -/
  | setCause (position : Nat) (kind : FaultKind) (present : Bool)
  /-- The indicated state is handed to the motion supervisor (R32, R80). -/
  | motionSees (position : Nat) (state : Indication)
  /-- The indicated state is handed to the fault and alarm unit (R32, R144). -/
  | faultSees (position : Nat) (state : Indication)
  /-- The obstruction flag of a reply is acted on (R82). -/
  | obstruction (position : Nat)
  /-- The local request and release flags of a reply are acted on (R85). -/
  | localFlags (position : Nat) (request release : Bool)
  /-- The check of R86 of a door brought to rest. -/
  | localCheck (position : Nat)
  /-- A dropped command is handed to its owner (R127); `late` when its line was disabled with it queued. -/
  | dropped (position : Nat) (command : DoorCommand) (late : Bool)
  /-- A line has been disabled: its waiting, passing and reclosing doors (R94). -/
  | lineLost (line : LineNo)
  /-- After the LC of a third miss: the missed command and an older unsent entry are dropped (R133). -/
  | contactLost (line : LineNo) (position : Nat) (missed unsent : Option DoorCommand)
  /-- A retirement completes (R23). -/
  | retirementEnds (position : Nat) (reason : FreedReason)
  /-- The visit of the bulk walk is over: it advances or completes (R164). -/
  | walkAdvances
  deriving DecidableEq, Repr

/-! ### The state -/

/-- The whole state of the part, and the queue of commands that wait for it. -/
structure State where
  /-- Commands waiting, first in, first out. -/
  pending : List Instr
  /-- RSTN is low: the part is in reset and takes no event (R182). -/
  inReset : Bool
  /-- Milliseconds since the power-on reset; its low 32 bits are the uptime. -/
  clock : Nat
  /-- Hand-offs of the last event not yet taken (the model's own; see `run`). -/
  agenda : List Task
  /-- Short RSTN pulses so far (the model's own: it selects a free value of Config). -/
  shortPulses : Nat
  -- door table
  records : List (Nat × Record)
  /-- The directory: (door number, position) in ascending door-number order (R6). -/
  directory : List (Nat × Nat)
  /-- The zone lists, by zone 1 to 24; a zone with no record is not listed (R8). -/
  zoneLists : List (Nat × List Nat)
  -- order engine
  slots : List (Nat × Order)
  /-- The stacked slots, top first (R53). -/
  stack : List Nat
  /-- The pending list, head first (R54). -/
  pendingOrders : List Nat
  arrivals : Nat
  eclosePin : Bool
  ecloseState : Bool
  ecloseTimer : Option Nat
  -- power-unit accounts
  units : List (Nat × PowerUnit)
  shipM : Nat
  shipE : Nat
  shipStrokes : Nat
  -- field lines
  lines : PerLine Line
  calendar : List CalSlot
  -- fault and alarm unit
  alarms : List Alarm
  overflow : Bool
  -- bulk update engine, phase control
  walk : Walk
  phase : Phase
  -- console ports
  portA : PortState
  portB : PortState
  outputs : Outputs
  deriving DecidableEq, Repr

/-- Why the machine stops with a fault: never. Every command of this part has an effect on every state
(at the least none, where its event cannot occur), so no meaning raises a fault. -/
inductive Fault where
  deriving DecidableEq, Repr

/-- Why a command is refused. `notModelled` is raised by an arm of `exec` whose command has no meaning
yet; it is safe (the machine stops where the part goes on), and no arm raises it. -/
inductive Refusal where
  | notModelled (mnemonic : String)
  deriving DecidableEq, Repr

/-! ### Power-on reset (R182) -/

def Summary.none : Summary :=
  { total := 0, proven := 0, notClosed := 0, unproven := 0, moving := 0, state := .empty }

def Conditions.none : Conditions := { changes := false, alarms := false, completions := false }

/-- A line after power-on reset (R120). -/
def Line.reset : Line :=
  { enabled := true, rate := .r115200, window := 10, queue := [], exchange := none,
    place := .slot 0 [] 0, pointers := [0],
    sweep := { active := false, cursor := 0, monitors := .pending 0 } }

/-- A port after power-on reset (R45, R187, R188, R196). -/
def PortState.reset : PortState :=
  { receiver := .hunt, service := .idle, badFrames := 0, overruns := 0, marks := [], freed := [] }

/-- The walk record after power-on reset (R161). -/
def Walk.reset : Walk :=
  { state := .idle, number := 0, plan := none, cursor := 0, stepTimer := none,
    counts := none, result := none }

/-- The outputs after power-on reset: every output deasserted, every TXD pin idle high, every summary EMPTY
(R40, R182, R199). -/
def Outputs.reset : Outputs :=
  { allClosed := false, attnA := false, attnB := false,
    driveEnable := { l0 := false, l1 := false, l2 := false, l3 := false },
    lineTxd := { l0 := .idleHigh, l1 := .idleHigh, l2 := .idleHigh, l3 := .idleHigh },
    consoleTxdA := .idleHigh, consoleTxdB := .idleHigh,
    zones := List.replicate 24 Summary.none, ship := Summary.none, outstanding := 0,
    conditionsA := Conditions.none, conditionsB := Conditions.none }

/-- The part right after a power-on reset: RSTN has gone high, uptime is 0, and every block holds what
the table of R182 gives. The level of the ECLOSE pin is outside the part; here it is low. -/
def State.reset : State :=
  { pending := [], inReset := false, clock := 0, agenda := [], shortPulses := 0,
    records := [], directory := [], zoneLists := [],
    slots := [], stack := [], pendingOrders := [], arrivals := 0,
    eclosePin := false, ecloseState := false, ecloseTimer := none,
    units := [], shipM := 8, shipE := 4, shipStrokes := 0,
    lines := { l0 := Line.reset, l1 := Line.reset, l2 := Line.reset, l3 := Line.reset },
    calendar := [{ first := 0, last := 255, visits := 1 }],
    alarms := [], overflow := false,
    walk := Walk.reset, phase := .build,
    portA := PortState.reset, portB := PortState.reset, outputs := Outputs.reset }

end Sys2Proof.Machine
end

