-- ==== Sys2Proof/Machine/Keyed.lean ====
section
/-! DEFINITION. Keyed lists: the canonical form in which State holds what is stored by number (records by
position, orders by slot, units by number), and sorted lists of numbers without duplicates. -/

namespace Sys2Proof.Machine

/-- The value stored under a key. -/
def Keyed.get? {α : Type} : List (Nat × α) → Nat → Option α
  | [], _ => none
  | (j, a) :: m, k => if j = k then some a else Keyed.get? m k

/-- Store a value under a key, keeping the keys in rising order. -/
def Keyed.put {α : Type} : List (Nat × α) → Nat → α → List (Nat × α)
  | [], k, a => [(k, a)]
  | (j, b) :: m, k, a =>
    if k < j then (k, a) :: (j, b) :: m
    else if k = j then (k, a) :: m
    else (j, b) :: Keyed.put m k a

/-- Remove what is stored under a key. -/
def Keyed.remove {α : Type} (m : List (Nat × α)) (k : Nat) : List (Nat × α) :=
  m.filter fun e => decide (e.1 ≠ k)

/-- The canonical form: keys strictly rising. -/
def Keyed.wf {α : Type} : List (Nat × α) → Bool
  | [] => true
  | [_] => true
  | a :: b :: m => decide (a.1 < b.1) && Keyed.wf (b :: m)

/-- Insert a number in a rising list without duplicates. -/
def insertNat (n : Nat) : List Nat → List Nat
  | [] => [n]
  | m :: l => if n < m then n :: m :: l else if n = m then m :: l else m :: insertNat n l

/-- Remove a number from a list. -/
def removeNat (n : Nat) (l : List Nat) : List Nat := l.filter fun m => decide (m ≠ n)

/-- Insert before the first element that does not come before the new one. -/
def insertBy {α : Type} (before : α → α → Bool) (a : α) : List α → List α
  | [] => [a]
  | b :: l => if before b a then b :: insertBy before a l else a :: b :: l

/-- Insertion sort. -/
def sortBy {α : Type} (before : α → α → Bool) : List α → List α
  | [] => []
  | a :: l => insertBy before a (sortBy before l)

/-- Add one, saturating. -/
def satInc (top n : Nat) : Nat := min top (n + 1)

/-- Bring a quantity to the nearest end of its range (00_scope.md, Out-of-range values). -/
def clampTo (lo hi n : Nat) : Nat := max lo (min hi n)

/-! ### One value per port or line -/

def PortFlags.get (f : PortFlags) : Port → Bool
  | .A => f.a
  | .B => f.b

def PortFlags.set (f : PortFlags) (port : Port) (v : Bool) : PortFlags :=
  match port with
  | .A => { f with a := v }
  | .B => { f with b := v }

def PortFlags.neither : PortFlags := { a := false, b := false }

def PerLine.get {α : Type} (q : PerLine α) : LineNo → α
  | .l0 => q.l0
  | .l1 => q.l1
  | .l2 => q.l2
  | .l3 => q.l3

def PerLine.set {α : Type} (q : PerLine α) (n : LineNo) (v : α) : PerLine α :=
  match n with
  | .l0 => { q with l0 := v }
  | .l1 => { q with l1 := v }
  | .l2 => { q with l2 := v }
  | .l3 => { q with l3 := v }

def PerLine.map {α β : Type} (f : α → β) (q : PerLine α) : PerLine β :=
  { l0 := f q.l0, l1 := f q.l1, l2 := f q.l2, l3 := f q.l3 }

/-- The line a number names; 0 to 3. -/
def lineOf (n : Nat) : Option LineNo :=
  match n with
  | 0 => some .l0
  | 1 => some .l1
  | 2 => some .l2
  | 3 => some .l3
  | _ => none

def allLines : List LineNo := [.l0, .l1, .l2, .l3]

end Sys2Proof.Machine

namespace Sys2Proof

/-! ### Fault kinds -/

/-- All kinds, in the severity order of R153. -/
def allKinds : List FaultKind :=
  [.ic, .lc, .ct, .ob, .sf, .ul, .ms, .pd, .ot, .lp, .rd, .lcu]

/-- The place of a kind in the severity order. -/
def FaultKind.severity : FaultKind → Nat
  | .ic => 0 | .lc => 1 | .ct => 2 | .ob => 3 | .sf => 4 | .ul => 5
  | .ms => 6 | .pd => 7 | .ot => 8 | .lp => 9 | .rd => 10 | .lcu => 11

def FaultKind.isUnit : FaultKind → Bool
  | .ul | .rd | .ms | .lcu => true
  | .ic | .lc | .ct | .ob | .sf | .pd | .ot | .lp => false

/-- The kinds a door's enables and flags range over (R3): every door kind but IC. -/
def FaultKind.maskable (k : FaultKind) : Bool := !k.isUnit && decide (k ≠ .ic)

/-- The kinds that make a door undrivable (R150). -/
def FaultKind.stops : FaultKind → Bool
  | .ic | .lc | .sf => true
  | .ct | .ob | .ul | .ms | .pd | .ot | .lp | .rd | .lcu => false

/-- Sets of kinds are lists in severity order. -/
def addKind (k : FaultKind) (ks : List FaultKind) : List FaultKind :=
  allKinds.filter fun j => decide (j = k) || ks.contains j

def dropKind (k : FaultKind) (ks : List FaultKind) : List FaultKind :=
  ks.filter fun j => decide (j ≠ k)

def kindSet (ks : List FaultKind) : List FaultKind := allKinds.filter fun j => ks.contains j

def maskableKinds : List FaultKind := allKinds.filter FaultKind.maskable
def unitKinds : List FaultKind := allKinds.filter FaultKind.isUnit

/-! ### Permissions -/

def Perms.none : Perms := { localOpen := false, remoteOpen := false }
def Perms.all : Perms := { localOpen := true, remoteOpen := true }

def permSet (ps : List Perm) : Perms :=
  { localOpen := ps.contains .localOpen, remoteOpen := ps.contains .remoteOpen }

end Sys2Proof

namespace Sys2Proof.Machine

/-! ### Time (00_scope.md) -/

/-- The age of a stored uptime, held at 2^31 - 1 ms once it reaches that value. -/
def heldAge (now t : Nat) : Nat := min (now - t) 2147483647

/-- A timer is due once its uptime has come. -/
def due (now : Nat) (timer : Option Nat) : Bool :=
  match timer with
  | some t => decide (t ≤ now)
  | none => false

end Sys2Proof.Machine
end

