-- ==== Sys2Proof/Machine/Wire.lean ====
section
/-! DEFINITION. The bytes on the links: the frames of the field lines (R128, R129), and the envelope of the
console ports (R186) with the receiver that frames incoming bytes into messages (R187).

The manual gives the envelope of a console message and, for a body, that its fields come in a fixed order
and that a number of more than one byte is sent high byte first. Which number stands where, and in how many
bytes, is free: `Config.contentLayout` here and the readers of Envelope.lean have no body, so nothing rests
on a layout. -/

namespace Sys2Proof

open Sys2Proof.Machine

/-- A number of a body, with the bytes it takes. -/
structure WireNumber where
  width : Nat
  value : Nat
  deriving DecidableEq, Repr

/-- The numbers that the contents of a response are sent as, in their order. The manual gives no layout. -/
opaque Config.contentLayout : Content → List WireNumber

end Sys2Proof

namespace Sys2Proof.Machine

/-! ### Field-line frames (R128, R129) -/

/-- The kind byte. -/
def ExchangeKind.code : ExchangeKind → Byte
  | .poll => 0x01
  | .command (.warn _) => 0x02
  | .command (.move _) => 0x03
  | .command .stop => 0x04
  | .command .grant => 0x05
  | .command (.refuse _) => 0x06
  | .command .release => 0x07

def RefuseWhy.code : RefuseWhy → Byte
  | .withdrawn => 0x01
  | .lowCharge => 0x02
  | .isolated => 0x03

/-- The argument byte. -/
def ExchangeKind.argument : ExchangeKind → Byte
  | .command (.warn n) => BitVec.ofNat 8 n
  | .command (.move .closed) => 0x01
  | .command (.move .opened) => 0x02
  | .command (.refuse why) => why.code
  | .poll | .command .stop | .command .grant | .command .release => 0x00

/-- The check: the sum of the bytes modulo 65536. -/
def frameCheck (bytes : List Byte) : Nat := (bytes.foldl (fun n b => n + b.toNat) 0) % 65536

/-- The station a target's request is addressed to. -/
def ExchangeTarget.station : ExchangeTarget → Nat
  | .door _ st => st
  | .monitor _ st => st

/-- The 6-byte request frame of an exchange (R128). -/
def Exchange.request (x : Exchange) : List Byte :=
  let front : List Byte := [0xA5, BitVec.ofNat 8 x.target.station, x.kind.code, x.kind.argument]
  front ++ [BitVec.ofNat 8 (frameCheck front / 256), BitVec.ofNat 8 (frameCheck front % 256)]

/-- The fields of a good reply: the flags byte, the stroke byte and the data word. -/
structure ReplyFields where
  flags : Byte
  stroke : Byte
  data : Nat
  deriving DecidableEq, Repr

/-- A reply is good when its sync, station, kind and check are right (R129). -/
def Exchange.goodReply (x : Exchange) (bytes : List Byte) : Option ReplyFields :=
  match bytes with
  | [b0, b1, b2, b3, b4, b5, b6, b7, b8] =>
    if b0 = 0x5A ∧ b1 = BitVec.ofNat 8 x.target.station ∧ b2 = x.kind.code
        ∧ frameCheck [b0, b1, b2, b3, b4, b5, b6] = b7.toNat * 256 + b8.toNat then
      some { flags := b3, stroke := b4, data := b5.toNat * 256 + b6.toNat }
    else none
  | _ => none

/-- The report of a door station's reply; the stroke is present for class P from 0 to 100 (R26). -/
def ReplyFields.report (f : ReplyFields) (cls : DoorClass) : StationReport :=
  { closedLimit := f.flags.getLsbD 0, openLimit := f.flags.getLsbD 1, secured := f.flags.getLsbD 2,
    moving := f.flags.getLsbD 6, obstruction := f.flags.getLsbD 5,
    stroke := if cls = .P ∧ f.stroke.toNat ≤ 100 then some f.stroke.toNat else none,
    faultCode := f.data }

def ReplyFields.localRequest (f : ReplyFields) : Bool := f.flags.getLsbD 3
def ReplyFields.localRelease (f : ReplyFields) : Bool := f.flags.getLsbD 4
def ReplyFields.mainsPresent (f : ReplyFields) : Bool := f.flags.getLsbD 7

/-! ### The console envelope (R186) -/

/-- The sync byte of a console message. -/
def consoleSync : Byte := 0xC3

/-- The status codes. -/
def Status.code : Status → Byte
  | .ok => 0x00
  | .clamped => 0x01
  | .absorbed => 0x02
  | .badField => 0x03
  | .notFound => 0x04
  | .duplicate => 0x05
  | .busy => 0x06
  | .noSlot => 0x07
  | .wrongPhase => 0x08
  | .priority => 0x09
  | .badType => 0x0A

/-- The sum of the bytes of a message, without the sync byte, modulo 256. -/
def messageCheck (length : Byte) (held : List Byte) : Byte := held.foldl (fun n b => n + b) length

/-- A message on the wire: sync, length, the bytes from the type to the last byte of the body, check. -/
def envelope (held : List Byte) : List Byte :=
  let length := BitVec.ofNat 8 held.length
  [consoleSync, length] ++ held ++ [messageCheck length held]

/-- A number in its bytes, high byte first (R186). -/
def numberBytes : (width value : Nat) → List Byte
  | 0, _ => []
  | n + 1, value => BitVec.ofNat 8 (value / 256 ^ n) :: numberBytes n value

/-- The number that bytes are, high byte first (R186). -/
def numberOf (bytes : List Byte) : Nat := bytes.foldl (fun n b => n * 256 + b.toNat) 0

/-- The bytes of the contents of a response, at most 248 (R186); empty contents have none. -/
def Content.bytes (c : Content) : List Byte :=
  if c = .empty then []
  else ((Config.contentLayout c).flatMap fun n => numberBytes n.width n.value).take 248

/-- The bytes of a response as it is sent: type, status and contents in their envelope. -/
def Response.frame (r : Response) : List Byte :=
  envelope ([r.type, r.status.code] ++ r.content.bytes)

/-! ### The receiver (R187) -/

/-- What a receiver makes of a byte: it goes on, or the byte completes a message, given from its type on,
or makes a bad frame. -/
inductive Fed where
  | more (r : Receiver)
  | complete (held : List Byte)
  | bad
  deriving DecidableEq, Repr

/-- One byte at a receiver: the table of R187. -/
def Receiver.feed (r : Receiver) (b : LinkByte) : Fed :=
  match r with
  | .hunt => if !b.framingError && decide (b.value = consoleSync) then .more .length else .more .hunt
  | .length =>
    if b.framingError then .bad
    else if 1 ≤ b.value.toNat ∧ b.value.toNat ≤ 250 then .more (.body b.value []) else .bad
  | .body len held =>
    if b.framingError then .bad
    else
      let held := held ++ [b.value]
      if List.length held ≥ len.toNat then .more (.check len held) else .more (.body len held)
  | .check len held =>
    if b.framingError then .bad
    else if b.value = messageCheck len held then .complete held else .bad

end Sys2Proof.Machine
end

