-- ==== Sys2Proof/Machine/Flags.lean ====
section
/-! DEFINITION. What is derived from the records: the indicated state and its findings (R28 to R31),
qualifiers (R33 to R37), summaries (R38, R39), the sweep count (R178), the attention conditions (R198) and
the outputs. -/

namespace Sys2Proof.Machine

/-! ### One record -/

def Record.has (r : Record) (k : FaultKind) : Bool := r.causes.contains k

/-- Undrivable while IC, LC or SF is present (R150). -/
def Record.undrivable (r : Record) : Bool := r.has .ic || r.has .lc || r.has .sf

/-- STALE: the last good reply is older than the staleness limit, or LC is present (R33). -/
def Record.stale (r : Record) : Bool := r.aged || r.has .lc

/-- The qualifiers of section 2.4. -/
def Record.qualifiers (r : Record) : List Qualifier :=
  (if r.stale then [.stale] else [])
    ++ (if r.mark then [] else [.unproven])
    ++ (if r.causes = [] then [] else [.faulted])
    ++ (if r.motion = .inLocal ∨ r.motion = .recloseDelay then [.localPassage] else [])
    ++ (if r.lifecycle = .isolated then [.isolated] else [])

/-- The items whose change sets both change marks (R43). -/
def Record.visible (r : Record) :
    Indication × List Qualifier × Motion × Lifecycle × List FaultKind × List FaultKind :=
  (r.indicated, r.qualifiers, r.motion, r.lifecycle, r.causes, r.flags)

/-- The age of the last good reply exceeds the limit (R33). -/
def Record.overAge (r : Record) (now : Nat) : Bool :=
  match r.lastGood with
  | some t => decide (heldAge now t > r.cfg.staleLimit)
  | none => false

/-- The expiry of the staleness deadline: last good reply uptime plus limit plus 1 ms (R33). -/
def Record.staleDeadline (r : Record) : Option Nat :=
  r.lastGood.map fun t => t + r.cfg.staleLimit + 1

/-- The fault condition a report presents (R29, R31). -/
inductive Finding where
  | sound | contradiction | disagreement
  deriving DecidableEq, Repr

/-- The bands of R29. -/
inductive Band where
  | closedBand | travel | openBand | absent
  deriving DecidableEq, Repr

def bandOf (stroke : Option Nat) : Band :=
  match stroke with
  | none => .absent
  | some n => if n ≤ 3 then .closedBand else if n ≤ 96 then .travel else .openBand

/-- The travel state of R30, from motion state and target. -/
def travelState (m : Motion) (t : Option Target) : Indication :=
  if m = .moving then
    match t with
    | some .closed => .movingClose
    | some .opened => .movingOpen
    | none => .intermediate
  else .intermediate

/-- The table of R29. -/
def deriveP (rep : StationReport) (m : Motion) (t : Option Target) : Indication × Finding :=
  match rep.closedLimit, rep.openLimit with
  | true, true => (.unknown, .contradiction)
  | true, false =>
    if bandOf rep.stroke = .closedBand then (.closed, .sound) else (.intermediate, .disagreement)
  | false, true =>
    if bandOf rep.stroke = .openBand then (.opened, .sound) else (.intermediate, .disagreement)
  | false, false =>
    if bandOf rep.stroke = .travel then (travelState m t, .sound) else (.intermediate, .disagreement)

/-- The table of R31. -/
def deriveHS (rep : StationReport) : Indication × Finding :=
  match rep.closedLimit, rep.openLimit with
  | true, true => (.unknown, .contradiction)
  | true, false => (if rep.secured then .closed else .closedUnsecured, .sound)
  | false, true => (.opened, .sound)
  | false, false => (.intermediate, .sound)

/-- The derivation of R28 to R31. -/
def Record.derived (r : Record) : Indication × Finding :=
  match r.report with
  | none => (.unknown, .sound)
  | some rep =>
    match r.cfg.cls with
    | .P => deriveP rep r.motion r.target
    | .H => deriveHS rep
    | .S => deriveHS rep

/-- Proven closed (R37). -/
def Record.provenClosed (r : Record) : Bool :=
  decide (r.indicated = .closed) && !r.stale && r.mark

/-- Counted in the summaries: ENROLLED, IN_SERVICE or ISOLATED (R38). -/
def Record.counted (r : Record) : Bool := decide (r.lifecycle ≠ .retiring)

/-- Unproven, by the first test of R38. -/
def Record.countsUnproven (r : Record) : Bool :=
  decide (r.lifecycle = .enrolled) || r.stale || !r.mark

/-! ### Summaries -/

/-- The state of a summary, decided by its counts in the order of R39. -/
def summaryState (total notClosed unproven : Nat) : SummaryState :=
  if notClosed > 0 then .notClosed
  else if unproven > 0 then .unproven
  else if total > 0 then .closed
  else .empty

/-- The summary of a list of records (R38, R39). -/
def summarize (rs : List Record) : Summary :=
  let cs := rs.filter Record.counted
  let unproven := cs.countP Record.countsUnproven
  let proven := cs.countP fun r => !r.countsUnproven && decide (r.indicated = .closed)
  let notClosed := cs.countP fun r => !r.countsUnproven && decide (r.indicated ≠ .closed)
  let moving := cs.countP fun r =>
    decide (r.indicated = .movingClose) || decide (r.indicated = .movingOpen)
  { total := cs.length, proven := proven, notClosed := notClosed, unproven := unproven,
    moving := moving, state := summaryState cs.length notClosed unproven }

def State.allRecords (s : State) : List Record := s.records.map Prod.snd

def State.zoneSummary (s : State) (z : Nat) : Summary :=
  summarize (s.allRecords.filter fun r => decide (r.cfg.zone = z))

def State.shipSummary (s : State) : Summary := summarize s.allRecords

/-- The 24 zone summaries, zones 1 to 24. -/
def State.zoneSummaries (s : State) : List Summary :=
  (List.range 24).map fun i => s.zoneSummary (i + 1)

/-- The condition of ALLCLOSED (R41). -/
def State.allClosedCond (s : State) : Bool :=
  decide (s.phase = .service) && decide (s.shipSummary.state = .closed)

/-! ### The sweep -/

/-- Outstanding while the phase is SWEEP (R178). -/
def Record.unswept (r : Record) : Bool :=
  decide (r.lifecycle ≠ .retiring) && !r.mark && !r.has .lc

/-- The number of outstanding records (R178). -/
def State.outstandingCount (s : State) : Nat :=
  if s.phase = .sweep then s.allRecords.countP Record.unswept else 0

/-! ### Attention (R198) -/

def Alarm.unacknowledged (a : Alarm) : Bool := decide (a.state ≠ .ackActive)

def State.portState (s : State) : Port → PortState
  | .A => s.portA
  | .B => s.portB

/-- The three conditions of a port (R198). -/
def State.conditions (s : State) (port : Port) : Conditions :=
  { changes := !(s.portState port).marks.isEmpty,
    alarms := s.alarms.any Alarm.unacknowledged,
    completions := s.slots.any fun e => e.2.unread.get port }

def Conditions.any (c : Conditions) : Bool := c.changes || c.alarms || c.completions

/-! ### The outputs -/

/-- FLn_DE is high through the SENDING phase of an exchange (R199). -/
def Line.driving (l : Line) : Bool :=
  match l.exchange with
  | some x => decide (x.phase = .sending)
  | none => false

/-- FLn_TXD: the request frame through the SENDING phase, idle high between frames (R128, R199). -/
def Line.txd (l : Line) : Txd (List Byte) :=
  match l.exchange with
  | some x => if x.phase = .sending then .sends x.request else .idleHigh
  | none => .idleHigh

/-- A console TXD pin: the response while the port serves, idle high between frames (R188, R199). -/
def PortState.txd (ps : PortState) : Txd Response :=
  match ps.service with
  | .serving r => .sends r
  | .idle => .idleHigh

/-- ALLCLOSED drives high while asserted and low while deasserted (R199). -/
def Outputs.allClosedLevel (o : Outputs) : Level := if o.allClosed then .high else .low

/-- An ATTN pin pulls low while asserted and floats while deasserted (R199). -/
def attnLevel (asserted : Bool) : Level := if asserted then .low else .floats

/-- An FLn_DE pin is driven high or low (R199). -/
def driveLevel (enabled : Bool) : Level := if enabled then .high else .low

/-- What the part shows in a state. In reset every output is deasserted (R182) and every TXD pin idles high
(R199). -/
def State.outputsNow (s : State) : Outputs :=
  if s.inReset then Outputs.reset
  else
    { allClosed := s.allClosedCond,
      attnA := (s.conditions .A).any, attnB := (s.conditions .B).any,
      driveEnable := s.lines.map Line.driving,
      lineTxd := s.lines.map Line.txd,
      consoleTxdA := s.portA.txd, consoleTxdB := s.portB.txd,
      zones := s.zoneSummaries, ship := s.shipSummary, outstanding := s.outstandingCount,
      conditionsA := s.conditions .A, conditionsB := s.conditions .B }

/-- Drive the outputs and the kept counts from the state as it stands. -/
def State.drive (s : State) : State := { s with outputs := s.outputsNow }

end Sys2Proof.Machine
end

