-- ==== Sys2Proof/Machine/Ops.lean ====
section
/-! DEFINITION. The named operations over the state: the agenda, records and their change marks, units,
lines, ports, the directory and the zone lists, causes, alarms and flags. A block has no exception entry: a
fault is a cause on a record or a unit, and this file says how one is raised, reported and removed. -/

namespace Sys2Proof.Machine

/-! ### The agenda -/

/-- Hand-offs to be taken at once, before any that already wait. -/
def State.first (s : State) (ts : List Task) : State := { s with agenda := ts ++ s.agenda }

/-- Hand-offs to be taken when those that already wait have been taken. -/
def State.later (s : State) (ts : List Task) : State := { s with agenda := s.agenda ++ ts }

/-! ### Access -/

def State.rec? (s : State) (p : Nat) : Option Record := Keyed.get? s.records p
def State.unit? (s : State) (u : Nat) : Option PowerUnit := Keyed.get? s.units u
def State.order? (s : State) (slot : Nat) : Option Order := Keyed.get? s.slots slot
def State.line (s : State) (n : LineNo) : Line := s.lines.get n

def State.putRec (s : State) (p : Nat) (r : Record) : State :=
  { s with records := Keyed.put s.records p r }

def State.putUnit (s : State) (u : Nat) (w : PowerUnit) : State :=
  { s with units := Keyed.put s.units u w }

def State.putOrder (s : State) (slot : Nat) (o : Order) : State :=
  { s with slots := Keyed.put s.slots slot o }

def State.putLine (s : State) (n : LineNo) (l : Line) : State :=
  { s with lines := s.lines.set n l }

def State.putPort (s : State) (port : Port) (ps : PortState) : State :=
  match port with
  | .A => { s with portA := ps }
  | .B => { s with portB := ps }

def State.modPort (s : State) (port : Port) (f : PortState → PortState) : State :=
  s.putPort port (f (s.portState port))

def State.modUnit (s : State) (u : Nat) (f : PowerUnit → PowerUnit) : State :=
  match s.unit? u with
  | some w => s.putUnit u (f w)
  | none => s

def State.modOrder (s : State) (slot : Nat) (f : Order → Order) : State :=
  match s.order? slot with
  | some o => s.putOrder slot (f o)
  | none => s

def State.modLine (s : State) (n : LineNo) (f : Line → Line) : State := s.putLine n (f (s.line n))

def State.modAllLines (s : State) (f : Line → Line) : State := { s with lines := s.lines.map f }

/-- The uptime word (00_scope.md, Time). -/
def State.uptime (s : State) : Uptime := BitVec.ofNat 32 s.clock

/-- The power unit a record names; a record of class H or S names none. -/
def Record.unit? (r : Record) : Option Nat := r.cfg.power.map PowerFields.unit

/-! ### Change marks (R43) -/

def PortState.addMark (ps : PortState) (p : Nat) : PortState := { ps with marks := insertNat p ps.marks }

/-- Both ports' change marks are set on a position. -/
def State.markBoth (s : State) (p : Nat) : State :=
  { s with portA := s.portA.addMark p, portB := s.portB.addMark p }

/-- Alter a record; both marks are set when one of the items of R43 changes. -/
def State.modRec (s : State) (p : Nat) (f : Record → Record) : State :=
  match s.rec? p with
  | some r =>
    if (f r).visible = r.visible then s.putRec p (f r) else (s.putRec p (f r)).markBoth p
  | none => s

/-! ### Directory and zone lists (R6, R8, R9) -/

/-- The order of a zone list: sequence rank, then door number. -/
def State.zoneBefore (s : State) (p q : Nat) : Bool :=
  match s.rec? p, s.rec? q with
  | some a, some b =>
    decide (a.cfg.rank.toNat < b.cfg.rank.toNat)
      || (decide (a.cfg.rank.toNat = b.cfg.rank.toNat) && decide (a.cfg.number < b.cfg.number))
  | _, _ => false

/-- The positions of a zone, in the order of its list. -/
def State.zoneList (s : State) (z : Nat) : List Nat := (Keyed.get? s.zoneLists z).getD []

def State.putZoneList (s : State) (z : Nat) (ps : List Nat) : State :=
  { s with zoneLists := if ps = [] then Keyed.remove s.zoneLists z else Keyed.put s.zoneLists z ps }

/-- Insert a position in a zone's list at the place its record's rank and number take. -/
def State.joinZone (s : State) (z p : Nat) : State :=
  s.putZoneList z (insertBy s.zoneBefore p (s.zoneList z))

def State.leaveZone (s : State) (z p : Nat) : State := s.putZoneList z (removeNat p (s.zoneList z))

/-- Insert a pair in the directory at its door number's place (R6). -/
def State.joinDirectory (s : State) (number p : Nat) : State :=
  { s with directory := Keyed.put s.directory number p }

def State.leaveDirectory (s : State) (number : Nat) : State :=
  { s with directory := Keyed.remove s.directory number }

/-! ### The alarm list (R153 to R159) -/

def Subject.before : Subject → Subject → Bool
  | .door a, .door b => decide (a < b)
  | .door _, .unit _ => true
  | .unit _, .door _ => false
  | .unit a, .unit b => decide (a < b)

/-- The order of R153: severity of kind, then raised uptime oldest first, then subject. -/
def Alarm.before (now : Nat) (a b : Alarm) : Bool :=
  if a.kind.severity < b.kind.severity then true
  else if a.kind.severity > b.kind.severity then false
  else if heldAge now a.raised > heldAge now b.raised then true
  else if heldAge now a.raised < heldAge now b.raised then false
  else a.subject.before b.subject

/-- The alarm list in its order at the present uptime. -/
def State.alarmList (s : State) : List Alarm := sortBy (Alarm.before s.clock) s.alarms

def Alarm.isFor (a : Alarm) (subject : Subject) (k : FaultKind) : Bool :=
  decide (a.subject = subject) && decide (a.kind = k)

def State.alarm? (s : State) (subject : Subject) (k : FaultKind) : Option Alarm :=
  s.alarms.find? fun a => a.isFor subject k

/-- List an entry, or fail on a full list and set the overflow indicator (R154, R158). -/
def State.listAlarm (s : State) (subject : Subject) (k : FaultKind) : State :=
  let entry : Alarm := { subject := subject, kind := k, state := .unackActive, raised := s.clock }
  if s.alarms.length < 64 then { s with alarms := insertBy (Alarm.before s.clock) entry s.alarms }
  else { s with overflow := true }

/-- Give the entry of a pair a new state. -/
def State.setAlarm (s : State) (subject : Subject) (k : FaultKind) (st : AlarmState) : State :=
  { s with alarms := s.alarms.map fun a => if a.isFor subject k then { a with state := st } else a }

/-- A pair that should be listed and is not: present, enabled or IC, with no entry (R159). -/
def State.qualifies (s : State) (subject : Subject) (causes enables : List FaultKind)
    (k : FaultKind) : Bool :=
  causes.contains k && (decide (k = .ic) || enables.contains k) && (s.alarm? subject k).isNone

/-- The first qualifying pair: records by position, then units by number, kinds by severity (R159). -/
def State.unlisted (s : State) : Option (Subject × FaultKind) :=
  let ofDoor := fun (e : Nat × Record) =>
    (allKinds.filter (s.qualifies (.door e.2.cfg.number) e.2.causes e.2.cfg.enables)).map
      fun k => (Subject.door e.2.cfg.number, k)
  let ofUnit := fun (e : Nat × PowerUnit) =>
    (allKinds.filter (s.qualifies (.unit e.1) e.2.causes e.2.enables)).map
      fun k => (Subject.unit e.1, k)
  (s.records.flatMap ofDoor ++ s.units.flatMap ofUnit).head?

/-- The relist scan (R159). -/
def State.relist (s : State) : State :=
  match s.unlisted with
  | some (subject, k) => s.listAlarm subject k
  | none => { s with overflow := false }

/-- The entry of a pair leaves the list, and the relist scan runs (R155, R157). -/
def State.removeAlarm (s : State) (subject : Subject) (k : FaultKind) : State :=
  if (s.alarm? subject k).isSome then
    State.relist { s with alarms := s.alarms.filter fun a => !a.isFor subject k }
  else s

/-- `n` relist scans. -/
def State.relistTimes (s : State) : Nat → State
  | 0 => s
  | n + 1 => (s.relist).relistTimes n

/-- Every entry of a subject leaves, and then one scan runs for each (R157). -/
def State.removeAlarmsOf (s : State) (subject : Subject) : State :=
  let n := s.alarms.countP fun a => decide (a.subject = subject)
  State.relistTimes
    { s with alarms := s.alarms.filter fun a => decide (a.subject ≠ subject) } n

/-- The report of a present cause by listing (R140 step 3, R155). -/
def State.listCause (s : State) (subject : Subject) (k : FaultKind) : State :=
  match s.alarm? subject k with
  | some a => if a.state = .unackCleared then s.setAlarm subject k .unackActive else s
  | none => s.listAlarm subject k

/-- The entry of a cause that has become absent (R141, R155). -/
def State.clearCause (s : State) (subject : Subject) (k : FaultKind) : State :=
  match s.alarm? subject k with
  | some a =>
    match a.state with
    | .unackActive => s.setAlarm subject k .unackCleared
    | .ackActive => s.removeAlarm subject k
    | .unackCleared => s
  | none => s

/-! ### Door causes (R139 to R142) -/

/-- Step 3 of R140 for a present cause: an enabled kind, or IC, is listed; a masked kind sets its sticky
flag. -/
def State.reportDoorCause (s : State) (p : Nat) (k : FaultKind) : State :=
  match s.rec? p with
  | some r =>
    if ¬ r.has k then s
    else if k = .ic ∨ r.cfg.enables.contains k then s.listCause (.door r.cfg.number) k
    else s.modRec p fun r => { r with flags := addKind k r.flags }
  | none => s

/-- A door cause becomes present (R140). The first of IC, LC and SF makes the door undrivable, which is
handed to the motion supervisor before the cause is reported. The report comes after what the supervisor hands
on, too: DESIGN CHOICE, log entry 17. -/
def State.causeOn (s : State) (p : Nat) (k : FaultKind) : State :=
  match s.rec? p with
  | some r =>
    if r.has k then s
    else
      let s := s.modRec p fun r => { r with causes := addKind k r.causes }
      if k.stops && !r.undrivable then s.first [.undrivable p, .reportCause p k]
      else s.reportDoorCause p k
  | none => s

/-- A door cause becomes absent (R141). -/
def State.causeOff (s : State) (p : Nat) (k : FaultKind) : State :=
  match s.rec? p with
  | some r =>
    if r.has k then
      (s.modRec p fun r => { r with causes := dropKind k r.causes }).clearCause (.door r.cfg.number) k
    else s
  | none => s

def State.setDoorCause (s : State) (p : Nat) (k : FaultKind) (present : Bool) : State :=
  if present then s.causeOn p k else s.causeOff p k

/-- One kind of a door's enables is switched on or off (R142). -/
def State.switchDoorEnable (s : State) (p : Nat) (on : Bool) (k : FaultKind) : State :=
  match s.rec? p with
  | some r =>
    let subject := Subject.door r.cfg.number
    if on = r.cfg.enables.contains k then s
    else if on then
      let s := s.modRec p fun r => { r with cfg := { r.cfg with enables := addKind k r.cfg.enables } }
      if r.has k && (s.alarm? subject k).isNone then s.listAlarm subject k else s
    else
      let held := (s.alarm? subject k).isSome
      let s := s.modRec p fun r => { r with cfg := { r.cfg with enables := dropKind k r.cfg.enables } }
      let s := if held || r.has k then s.modRec p fun r => { r with flags := addKind k r.flags } else s
      s.removeAlarm subject k
  | none => s

/-- A new set of enables, its kinds taken in severity order (R142). -/
def State.setDoorEnables (s : State) (p : Nat) (new : List FaultKind) : State :=
  maskableKinds.foldl (fun s k => s.switchDoorEnable p (new.contains k) k) s

/-! ### Unit causes (R118, R152) -/

/-- A unit cause becomes present or absent. -/
def State.setUnitCause (s : State) (u : Nat) (k : FaultKind) (present : Bool) : State :=
  match s.unit? u with
  | some w =>
    if present = w.causes.contains k then s
    else if present then
      let s := s.putUnit u { w with causes := addKind k w.causes }
      if w.enables.contains k then s.listCause (.unit u) k
      else s.modUnit u fun w => { w with flags := addKind k w.flags }
    else (s.putUnit u { w with causes := dropKind k w.causes }).clearCause (.unit u) k
  | none => s

/-- One kind of a unit's enables is switched on or off (R142). -/
def State.switchUnitEnable (s : State) (u : Nat) (on : Bool) (k : FaultKind) : State :=
  match s.unit? u with
  | some w =>
    if on = w.enables.contains k then s
    else if on then
      let s := s.putUnit u { w with enables := addKind k w.enables }
      if w.causes.contains k && (s.alarm? (.unit u) k).isNone then s.listAlarm (.unit u) k else s
    else
      let held := (s.alarm? (.unit u) k).isSome
      let flags := if held || w.causes.contains k then addKind k w.flags else w.flags
      let s := s.putUnit u { w with enables := dropKind k w.enables, flags := flags }
      s.removeAlarm (.unit u) k
  | none => s

def State.setUnitEnables (s : State) (u : Nat) (new : List FaultKind) : State :=
  unitKinds.foldl (fun s k => s.switchUnitEnable u (new.contains k) k) s

end Sys2Proof.Machine
end

