-- ==== Sys2Proof/Machine/Units.lean ====
section
/-! DEFINITION. The power-unit accounts: accrual, UL, the wait queue and its key, the admission tests and
the candidates of the ship-budget arbiter (R97 to R119), with the admission hold of the bulk walk (R163,
R167). What an admission or a refusal does to the door is the motion supervisor's (Motion.lean). -/

namespace Sys2Proof.Machine

/-! ### Charge (R103, R104) -/

/-- The visible charge Qv in cu. -/
def PowerUnit.visible (w : PowerUnit) : Nat := w.charge / 1000

/-- Accrual up to now (R103). -/
def PowerUnit.accrue (w : PowerUnit) (now : Nat) : PowerUnit :=
  match w.supply with
  | .mains =>
    { w with charge := min (1000 * w.capacity) (w.charge + w.rate * heldAge now w.lastAccrual),
             lastAccrual := now }
  | .stored => { w with lastAccrual := now }

/-- Judge UL; an unreconciled unit does not judge it (R104). -/
def State.judgeUL (s : State) (u : Nat) : State :=
  match s.unit? u with
  | some w => if w.reconciled then s.setUnitCause u .ul (decide (w.visible < w.floor)) else s
  | none => s

/-- An event touches a unit: it accrues, and judges UL on the charge so changed (R103, R104). -/
def State.touchUnit (s : State) (u : Nat) : State :=
  (s.modUnit u fun w => w.accrue s.clock).judgeUL u

/-! ### The bulk walk's hold (R163, R167) -/

/-- The criteria of R163. -/
def BulkPlan.matches (b : BulkPlan) (r : Record) : Bool :=
  (match b.zone with
    | some z => decide (r.cfg.zone = z)
    | none => true)
  && (match b.unit with
    | some u => decide (r.unit? = some u)
    | none => true)
  && (match b.cls with
    | some c => decide (r.cfg.cls = c)
    | none => true)
  && (decide (r.cfg.tag &&& b.mask = b.value1) || decide (r.cfg.tag &&& b.mask = b.value2))

/-- The bulk update engine's answer to test 5 (R167). -/
def State.bulkHolds (s : State) (p : Nat) (r : Record) : Bool :=
  match s.walk.state, s.walk.plan with
  | .running, some b => decide (b.first ≤ p) && decide (p ≤ b.last) && b.matches r
  | _, _ => false

/-! ### The queue key (R105) -/

def Tier.rank : Tier → Nat
  | .emergency => 0
  | .passage => 1
  | .other => 2

/-- The queue key: tier, priority descending, sequence rank, door number; the lesser key comes first. -/
def Record.queueKey (r : Record) : Nat × Nat × Nat × Nat :=
  let c := r.queueClass.getD { tier := .other, priority := 0 }
  (c.tier.rank, 7 - c.priority, r.cfg.rank.toNat, r.cfg.number)

def keyBefore (a b : Nat × Nat × Nat × Nat) : Bool :=
  if a.1 ≠ b.1 then decide (a.1 < b.1)
  else if a.2.1 ≠ b.2.1 then decide (a.2.1 < b.2.1)
  else if a.2.2.1 ≠ b.2.2.1 then decide (a.2.2.1 < b.2.2.1)
  else decide (a.2.2.2 < b.2.2.2)

/-- The order of a wait queue. -/
def State.queueBefore (s : State) (p q : Nat) : Bool :=
  match s.rec? p, s.rec? q with
  | some a, some b => keyBefore a.queueKey b.queueKey
  | _, _ => false

/-! ### Queue changes (R106) -/

/-- Replace a unit's queue. The change touches the unit, which accrues first and judges UL (R103, R104). A
change of its head is handed to the unit, which will evaluate its queue; a door that ceases to be the head
while it waits takes the reason QUEUE. -/
def State.setQueue (s : State) (u : Nat) (q : List Nat) : State :=
  let s := s.touchUnit u
  match s.unit? u with
  | some w =>
    let s := s.putUnit u { w with queue := q }
    if w.queue.head? = q.head? then s
    else
      let s :=
        match w.queue.head? with
        | some h =>
          if q.contains h then s.modRec h fun r => { r with waitReason := some .queue } else s
        | none => s
      s.later [.evalQueue u]
  | none => s

def State.queueOf (s : State) (u : Nat) : List Nat :=
  match s.unit? u with
  | some w => w.queue
  | none => []

/-- A door joins a unit's queue at the place its key gives. -/
def State.joinQueue (s : State) (u p : Nat) : State :=
  s.setQueue u (insertBy s.queueBefore p (s.queueOf u))

/-- A door leaves a unit's queue. -/
def State.leaveQueue (s : State) (u p : Nat) : State := s.setQueue u (removeNat p (s.queueOf u))

/-- A waiting door whose key has changed is removed and inserted at its new place. -/
def State.replaceInQueue (s : State) (u p : Nat) : State :=
  s.setQueue u (insertBy s.queueBefore p (removeNat p (s.queueOf u)))

/-! ### The admission tests (R107 to R109) -/

/-- The cost debited: the close cost for target CLOSED, else the open cost (R107). -/
def Record.strokeCost (r : Record) (pf : PowerFields) : Nat :=
  match r.purpose, r.target with
  | some .passage, _ => pf.openCost
  | _, some .closed => pf.closeCost
  | _, _ => pf.openCost

/-- The need of the head (R108). -/
def Record.strokeNeed (r : Record) (pf : PowerFields) (floor : Nat) : Nat :=
  match r.purpose, r.target with
  | some .passage, _ => pf.openCost + pf.closeCost + floor
  | _, some .closed =>
    if (r.queueClass.map QueueClass.tier) = some .emergency then pf.closeCost
    else pf.closeCost + floor
  | _, _ => pf.openCost + pf.closeCost + floor

/-- What the test of a unit's head gives. -/
inductive Verdict where
  | empty
  | impossible (p : Nat)
  | waits (p : Nat) (why : WaitReason)
  | passes (p cost : Nat)
  deriving DecidableEq, Repr

/-- Tests 1 to 5 of R107, in order; the first that fails gives the reason. -/
def State.failedTest (s : State) (w : PowerUnit) (p : Nat) (r : Record) (pf : PowerFields) :
    Option WaitReason :=
  if ¬ w.strokes < w.concurrency then some .concurrency
  else if (match w.lastStart with
      | some t => decide (heldAge s.clock t < w.spacing)
      | none => false) then some .spacing
  else if ¬ (w.reconciled ∧ r.strokeNeed pf w.floor ≤ w.visible) then some .charge
  else if ¬ (s.shipStrokes < s.shipM
      ∨ ((r.queueClass.map QueueClass.tier) = some .emergency ∧ s.shipStrokes < s.shipM + s.shipE)) then
    some .shipLimit
  else if s.bulkHolds p r then some .bulkHold
  else none

/-- The test of a unit's head: impossible cost first (R109), then the admission tests (R107). -/
def State.headTest (s : State) (u : Nat) : Verdict :=
  match s.unit? u with
  | none => .empty
  | some w =>
    match w.queue with
    | [] => .empty
    | p :: _ =>
      match s.rec? p with
      | none => .empty
      | some r =>
        match r.cfg.power with
        | none => .empty
        | some pf =>
          if r.strokeNeed pf w.floor > w.capacity then .impossible p
          else
            match s.failedTest w p r pf with
            | some why => .waits p why
            | none => .passes p (r.strokeCost pf)

/-- The start of every evaluation: accrual, and both timers cancelled (R107). -/
def State.startEvaluation (s : State) (u : Nat) : State :=
  (s.touchUnit u).modUnit u fun w => { w with chargeTimer := none, spacingTimer := none }

/-- Division rounded up. -/
def ceilDiv (a b : Nat) : Nat := (a + b - 1) / b

/-- The timers of R110 after a failed test; at most one of the two runs. -/
def State.armTimer (s : State) (u p : Nat) (why : WaitReason) : State :=
  match s.unit? u, s.rec? p with
  | some w, some r =>
    match why with
    | .spacing =>
      let since := match w.lastStart with
        | some t => heldAge s.clock t
        | none => 0
      s.putUnit u { w with spacingTimer := some (s.clock + (w.spacing - since)) }
    | .charge =>
      match r.cfg.power with
      | some pf =>
        if w.reconciled ∧ w.supply = .mains ∧ w.rate > 0 ∧ r.purpose ≠ some .passage then
          s.putUnit u { w with
            chargeTimer := some
              (s.clock + ceilDiv (r.strokeNeed pf w.floor * 1000 - w.charge) w.rate) }
        else s
      | none => s
    | .queue | .concurrency | .shipLimit | .bulkHold => s
  | _, _ => s

/-- The head stays and waits with the reason of the first test it failed (R107, R110). -/
def State.headWaits (s : State) (u p : Nat) (why : WaitReason) : State :=
  (s.modRec p fun r => { r with waitReason := some why }).armTimer u p why

/-- The account's part of an admission: the debit, the stroke counts, the last start, and the door out of
the queue (R107). -/
def State.debit (s : State) (u p cost : Nat) : State :=
  let s := s.modUnit u fun w =>
    { w with charge := w.charge - 1000 * cost, strokes := w.strokes + 1,
             lastStart := some s.clock, queue := removeNat p w.queue }
  { s with shipStrokes := s.shipStrokes + 1 }

/-- The account's part of a stroke end: accrual, the refund capped at the capacity, and both stroke
counts lowered (R104, R112). The accrual that comes first judges UL on the charge before the refund, and the
refund judges it again: DESIGN CHOICE, log entry 65. -/
def State.creditStroke (s : State) (u refund : Nat) : State :=
  let s := (s.touchUnit u).modUnit u fun w =>
    { w with charge := if refund = 0 then w.charge else min (1000 * w.capacity) (w.charge + 1000 * refund),
             strokes := w.strokes - 1 }
  State.judgeUL { s with shipStrokes := s.shipStrokes - 1 } u

/-! ### The ship-budget arbiter's candidates (R114) -/

/-- The head of a unit's queue. -/
def State.headOf (s : State) (u : Nat) : Option Nat := (s.queueOf u).head?

def State.headReason (s : State) (u : Nat) : Option WaitReason :=
  match s.headOf u with
  | some p => (s.rec? p).bind Record.waitReason
  | none => none

/-- The units that a freeing still to be served, or a run of the arbiter in progress, makes candidates. -/
def Task.arbiterUnits : Task → List Nat
  | .freed ended => ended.toList
  | .arbiter us => us
  | _ => []

/-- A freeing still to be served, or a run of the arbiter in progress. -/
def Task.ofArbiter : Task → Bool
  | .freed _ => true
  | .arbiter _ => true
  | _ => false

/-- Units whose head waits with SHIP_LIMIT, and the units whose strokes ended: the one of the freeing in hand
and those of the freeings that still wait, which one run serves together (log entry 16). -/
def State.candidates (s : State) (ended : Option Nat) : List Nat :=
  (s.units.map Prod.fst).filter fun u =>
    decide (s.headReason u = some .shipLimit) || decide (ended = some u)
      || (s.agenda.flatMap Task.arbiterUnits).contains u

/-- Every configured unit whose queue is not empty (R170). -/
def State.waitingUnits (s : State) : List Nat :=
  (s.units.map Prod.fst).filter fun u => !(s.queueOf u).isEmpty

/-- The candidate whose head has the best queue key. -/
def State.bestOf (s : State) : List Nat → Option Nat
  | [] => none
  | u :: us =>
    match s.headOf u, s.bestOf us with
    | none, best => best
    | some _, none => some u
    | some p, some v =>
      match s.headOf v with
      | some q => if s.queueBefore q p then some v else some u
      | none => some u

end Sys2Proof.Machine
end

