-- ==== Sys2Proof/Machine/Lines.lean ====
section
/-! DEFINITION. The field line controllers: the command queue (R126), the choice of the next exchange with the calendar walk, the monitor pass and the sweep walk (R124,
R135 to R137). -/

namespace Sys2Proof.Machine

/-! ### The command queue (R126) -/

/-- A command for the door at a position is in flight: its exchange has not ended its guard. -/
def Line.commandInFlight (l : Line) (p : Nat) : Bool :=
  match l.exchange with
  | some x =>
    match x.kind, x.target with
    | .command _, .door q _ => decide (q = p) && !x.targetFreed
    | _, _ => false
  | none => false

def Line.hasUnsent (l : Line) (p : Nat) : Bool := l.queue.any fun e => decide (e.position = p)

/-- The placement of R126: in place of an unsent entry, at the head behind a command in flight, or at
the tail. -/
def Line.enqueue (l : Line) (p : Nat) (c : DoorCommand) (once : Bool := false) : Line :=
  let entry : QueuedCommand := { position := p, command := c, once := once }
  if l.hasUnsent p then
    { l with queue := l.queue.map fun e => if e.position = p then entry else e }
  else if l.commandInFlight p then { l with queue := entry :: l.queue }
  else { l with queue := l.queue ++ [entry] }

/-- A command for a door is handed to its line. A disabled line drops it at once (R122, R127). -/
def State.queueCommand (s : State) (p : Nat) (c : DoorCommand) : State :=
  match s.rec? p with
  | some r =>
    if (s.line r.cfg.line).enabled then s.modLine r.cfg.line fun l => l.enqueue p c
    else s.first [.dropped p c false]
  | none => s

/-- A missed command is queued again at the tail, unless the door has an unsent entry (R22, R132), also on a line
that was disabled meanwhile (R122), where it waits unsent until the line is enabled: DEDUCED, log entry 68. -/
def State.requeue (s : State) (n : LineNo) (p : Nat) (c : DoorCommand) : State :=
  if (s.line n).hasUnsent p then s
  else s.modLine n fun l => { l with queue := l.queue ++ [{ position := p, command := c }] }

/-- A command for the record is queued or in flight on its line (R17, R18). -/
def State.commandOutstanding (s : State) (p : Nat) (r : Record) : Bool :=
  (s.line r.cfg.line).hasUnsent p || (s.line r.cfg.line).commandInFlight p

/-! ### Choosing the next exchange (R124) -/

/-- The record's station hangs on the line and is polled: non-FREE and not RETIRING (R135). -/
def Record.polledOn (r : Record) (n : LineNo) : Bool :=
  decide (r.cfg.line = n) && decide (r.lifecycle ≠ .retiring)

/-- Due for the sweep on a line (R137). -/
def Record.dueOn (r : Record) (n : LineNo) : Bool :=
  r.polledOn n && !r.mark && decide (r.missed < 3)

/-- The first record, in position order, that meets a test. -/
def State.firstRecord (s : State) (ok : Nat → Record → Bool) : Option (Nat × Record) :=
  s.records.find? fun e => ok e.1 e.2

/-- The first configured unit at or after a number whose monitor is on the line, with its station. -/
def State.nextMonitor (s : State) (n : LineNo) (from_ : Nat) : Option (Nat × Nat) :=
  (s.units.filterMap fun e =>
    match e.2.monitor with
    | some (m, st) => if m = n ∧ from_ ≤ e.1 then some (e.1, st) else none
    | none => none).head?

/-- A new exchange on a line. -/
def Line.begin (l : Line) (kind : ExchangeKind) (target : ExchangeTarget) (source : ExchangeSource)
    (once : Bool := false) : Line :=
  let x : Exchange :=
    { phase := .sending, kind := kind, target := target, source := source, window := l.window,
      targetFreed := false, once := once }
  { l with exchange := some x }

/-- The poll of a door record. -/
def Line.poll (l : Line) (p : Nat) (r : Record) (source : ExchangeSource) : Line :=
  l.begin .poll (.door p r.cfg.station) source

/-- The command at the head of the queue is sent (R126). -/
def State.commandExchange (s : State) (l : Line) : Option Line :=
  match l.queue with
  | [] => none
  | e :: rest =>
    match s.rec? e.position with
    | some r =>
      some (Line.begin { l with queue := rest } (.command e.command) (.door e.position r.cfg.station)
        .command e.once)
    | none => none

/-- A sweep poll of the first due record at or above a cursor. The cursor after a poll of position 255 is held
as 256: DESIGN CHOICE, log entry 56. -/
def State.sweepFrom (s : State) (n : LineNo) (l : Line) (cursor : Nat) : Option Line :=
  match s.firstRecord fun p r => decide (cursor ≤ p) && r.dueOn n with
  | some (p, r) =>
    some (Line.poll { l with sweep := { l.sweep with cursor := p + 1 } } p r .sweep)
  | none => none

/-- The sweep walk of R137. The line it answers with holds a new exchange, or has its walk ended. A record
that becomes due during the monitor pass is polled before the monitors that are left, and a unit configured
during the pass is polled in it if its number has not been passed: DESIGN CHOICE, log entry 53. A walk with
nothing left to poll becomes inactive here, when the line next chooses with no command waiting: DESIGN
CHOICE, log entry 57. -/
def State.sweepExchange (s : State) (n : LineNo) (l : Line) : Line :=
  match s.sweepFrom n l l.sweep.cursor with
  | some l' => l'
  | none =>
    let wrap := fun (l : Line) =>
      match s.sweepFrom n l 0 with
      | some l' => l'
      | none => { l with sweep := { active := false, cursor := 0, monitors := .done } }
    match l.sweep.monitors with
    | .done => wrap l
    | .pending next =>
      match s.nextMonitor n next with
      | some (u, st) =>
        Line.begin { l with sweep := { l.sweep with monitors := .pending (u + 1) } }
          .poll (.monitor u st) .sweep
      | none => wrap { l with sweep := { l.sweep with monitors := .done } }

/-- The record a visit polls next: the first eligible one at or after the pointer, then from the first
position up to it, among those not yet polled in the visit (R135). -/
def State.visitRecord (s : State) (n : LineNo) (c : CalSlot) (pointer : Nat) (polled : List Nat) :
    Option (Nat × Record) :=
  let ok := fun (p : Nat) (r : Record) =>
    decide (c.first ≤ p) && decide (p ≤ c.last) && r.polledOn n && !polled.contains p
  match s.firstRecord fun p r => ok p r && decide (pointer ≤ p) with
  | some e => some e
  | none => s.firstRecord ok

/-- A visit that has begun is over: its polls are made, or no unpolled eligible record remains (R135). -/
def State.visitOver (s : State) (n : LineNo) (l : Line) (i : Nat) (polled : List Nat) (count : Nat) :
    Bool :=
  match s.calendar[i]? with
  | some c =>
    decide (0 < count)
      && (decide (c.visits ≤ count)
        || (s.visitRecord n c (l.pointers[i]?.getD c.first) polled).isNone)
  | none => false

/-- A monitor pass with no monitor left has returned to slot 0 (R136). -/
def State.closePass (s : State) (n : LineNo) (next : Nat) : CalendarPlace :=
  if (s.nextMonitor n next).isSome then .monitors next else .slot 0 [] 0

/-- The place of a line once a visit or a monitor pass that is over has been left: the next slot, the
monitor pass after the last one, or slot 0 (R135, R136). The line leaves it at its next choice and not at the last
poll or its outcome: DESIGN CHOICE, log entry 69. -/
def State.closePlace (s : State) (n : LineNo) (l : Line) : CalendarPlace :=
  match l.place with
  | .monitors next => s.closePass n next
  | .slot i polled count =>
    if s.visitOver n l i polled count then
      if i + 1 < s.calendar.length then .slot (i + 1) [] 0 else s.closePass n 0
    else .slot i polled count

/-- The calendar walk from where the line stands, through at most `fuel` slots and passes (R135, R136).
With no eligible record and no monitor it finds nothing. -/
def State.calendarExchange (s : State) (n : LineNo) (l : Line) : Nat → Option Line
  | 0 => none
  | fuel + 1 =>
    match l.place with
    | .monitors next =>
      match s.nextMonitor n next with
      | some (u, st) =>
        some (Line.begin { l with place := .monitors (u + 1) } .poll (.monitor u st) .calendar)
      | none => s.calendarExchange n { l with place := .slot 0 [] 0 } fuel
    | .slot i polled count =>
      match s.calendar[i]? with
      | none => s.calendarExchange n { l with place := .monitors 0 } fuel
      | some c =>
        let found :=
          if count < c.visits then
            s.visitRecord n c (l.pointers[i]?.getD c.first) polled
          else none
        match found with
        | some (p, r) =>
          let next := if p + 1 > c.last then c.first else p + 1
          some (Line.poll
            { l with place := .slot i (p :: polled) (count + 1), pointers := l.pointers.set i next }
            p r .calendar)
        | none => s.calendarExchange n { l with place := .slot (i + 1) [] 0 } fuel

/-- The choice of R124: a command, the sweep while the phase is SWEEP, the calendar. -/
def State.nextExchange (s : State) (n : LineNo) (l : Line) : Line :=
  match s.commandExchange l with
  | some l' => l'
  | none =>
    let swept := if s.phase = .sweep ∧ l.sweep.active then s.sweepExchange n l else l
    if swept.exchange.isSome then swept
    else (s.calendarExchange n swept (s.calendar.length + 3)).getD swept

/-- A line whose calendar visit or monitor pass, if it is over, has been left. -/
def State.closedLine (s : State) (n : LineNo) (l : Line) : Line :=
  { l with place := s.closePlace n l }

/-- The arbiter of a line with no exchange in flight (R124). A visit or pass that the last exchange has
brought to its end is left first, whatever is chosen. -/
def State.chooseExchange (s : State) (n : LineNo) : Line :=
  let l := s.line n
  if ¬ l.enabled ∨ s.phase = .build ∨ l.exchange.isSome then l
  else s.nextExchange n (s.closedLine n l)

/-- Every idle line chooses. -/
def State.arbitrate (s : State) : State :=
  let s := s.putLine .l0 (s.chooseExchange .l0)
  let s := s.putLine .l1 (s.chooseExchange .l1)
  let s := s.putLine .l2 (s.chooseExchange .l2)
  s.putLine .l3 (s.chooseExchange .l3)

/-- An inactive sweep walk becomes active again with its monitor pass done, while the phase is SWEEP, when
a record becomes due on the line (R137). -/
def State.rejoinSweep (s : State) (p : Nat) : State :=
  match s.rec? p with
  | some r =>
    if s.phase = .sweep ∧ r.dueOn r.cfg.line ∧ ¬ (s.line r.cfg.line).sweep.active then
      s.modLine r.cfg.line fun l =>
        { l with sweep := { active := true, cursor := 0, monitors := .done } }
    else s
  | none => s

/-- Every sweep walk becomes inactive (R137, R178). Its cursor and monitor pass stay where they stood: DESIGN
CHOICE, log entry 60. -/
def State.stopSweeps (s : State) : State :=
  s.modAllLines fun l => { l with sweep := { l.sweep with active := false } }

/-- Every sweep walk becomes active, cursor 0, monitor pass pending (R137). -/
def State.startSweeps (s : State) : State :=
  s.modAllLines fun l => { l with sweep := { active := true, cursor := 0, monitors := .pending 0 } }

/-- The first positions of the slots in use. -/
def State.slotFirsts (s : State) : List Nat := s.calendar.map CalSlot.first

end Sys2Proof.Machine
end

