-- ==== Sys2Proof/Machine/Stack.lean ====
section
/-! DEFINITION. What the stacked orders say of a door: its governing order, its effective permissions and
its closure (R65 to R67), the queue priority and tier they give it (R75), and the counting of a member
(R48, R62). -/

namespace Sys2Proof.Machine

/-- The snapshot holds the record at a position; a member whose position was freed refers to none. -/
def Order.holds (o : Order) (p : Nat) : Bool :=
  match o.snapshot with
  | some ms => ms.any fun m => decide (m.position = p) && !m.freed
  | none => false

def State.slotHolds (s : State) (slot p : Nat) : Bool :=
  match s.order? slot with
  | some o => o.holds p
  | none => false

/-- The governing order of a door: the highest stacked order whose snapshot holds it (R65). The stack is
held top first, and its priorities fall from the top. -/
def State.governing (s : State) (p : Nat) : Option Nat := s.stack.find? fun k => s.slotHolds k p

def State.priorityOf (s : State) (slot : Nat) : Nat :=
  match s.order? slot with
  | some o => o.priority
  | none => 0

def State.kindOf (s : State) (slot : Nat) : Option OrderKind := (s.order? slot).map Order.kind

/-- The governing priority; 0 with no governing order (R65). -/
def State.govPriority (s : State) (p : Nat) : Nat :=
  match s.governing p with
  | some k => s.priorityOf k
  | none => 0

/-- The effective permissions of a class P door (R66). -/
def State.effectivePerms (s : State) (p : Nat) (pf : PowerFields) : Perms :=
  let withdrawn := fun (which : Perms → Bool) => s.stack.any fun k =>
    match s.order? k with
    | some o => o.holds p && which o.withdraw
    | none => false
  { localOpen := pf.perms.localOpen && !withdrawn Perms.localOpen,
    remoteOpen := pf.perms.remoteOpen && !withdrawn Perms.remoteOpen }

/-- The highest stacked CLOSE order that holds a door. -/
def State.stackedClose (s : State) (p : Nat) : Option Nat :=
  s.stack.find? fun k => s.slotHolds k p && decide (s.kindOf k = some .close)

/-- Under closure (R67). -/
def State.underClosure (s : State) (p : Nat) (pf : PowerFields) : Bool :=
  pf.normallyClosed || (s.stackedClose p).isSome

/-- The queue priority and tier of a waiting door (R75). -/
def State.queueClassFor (s : State) (p : Nat) (purpose : Option Purpose) (target : Option Target) :
    QueueClass :=
  match purpose with
  | some .passage => { tier := .passage, priority := s.govPriority p }
  | some .reclose =>
    let priority := match s.stackedClose p with
      | some k => s.priorityOf k
      | none => 0
    { tier := if priority ≥ 6 then .emergency else .other, priority := priority }
  | some .order | none =>
    let priority := s.govPriority p
    { tier := if target = some .closed ∧ priority ≥ 6 then .emergency else .other,
      priority := priority }

/-! ### Counting (R48, R62) -/

def Member.counts (m : Member) (p : Nat) : Bool :=
  decide (m.position = p) && !m.freed && decide (m.outcome = .uncounted)

/-- The order holds the door uncounted. -/
def Order.uncounted (o : Order) (p : Nat) : Bool :=
  match o.snapshot with
  | some ms => ms.any fun m => m.counts p
  | none => false

/-- Count a member; a HOLD counts none (R48). -/
def Order.count (o : Order) (p : Nat) (outcome : MemberOutcome) : Order :=
  if o.kind ≠ .hold ∧ o.uncounted p then
    { o with
      snapshot := o.snapshot.map fun ms =>
        ms.map fun m => if m.counts p then { m with outcome := outcome } else m
      done := if outcome = .done then o.done + 1 else o.done
      failed := if outcome = .done then o.failed else o.failed + 1 }
  else o

/-- Count a member of a stacked order. -/
def State.countMember (s : State) (slot p : Nat) (outcome : MemberOutcome) : State :=
  if s.stack.contains slot then s.modOrder slot fun o => o.count p outcome else s

/-- Charge the order named by a governing order slot with a failure, if the slot names one (R62). -/
def State.charge (s : State) (slot : Option Nat) (p : Nat) (why : FailReason) : State :=
  match slot with
  | some k => s.countMember k p (.failed why)
  | none => s

/-- Charge every stacked order that holds the door uncounted (R17, R21). -/
def State.chargeAll (s : State) (p : Nat) (why : FailReason) : State :=
  s.stack.foldl (fun s k => s.countMember k p (.failed why)) s

/-- The completion checks that follow a charge. -/
def completionOf (slot : Option Nat) : List Task :=
  match slot with
  | some k => [.complete k]
  | none => []

end Sys2Proof.Machine
end

