-- ==== Sys2Proof/Machine/Motion.lean ====
section
/-! DEFINITION. The motion supervisor (04): strokes and their ends, targets and waits, admission, warning
and movement, obstructions, local passage, the reclose decision, undrivability and dropped commands; and
the derivation of the indication that follows a motion change (R27). -/

namespace Sys2Proof.Machine

/-! ### The indicated state handed on (R32) -/

/-- The fault and alarm unit sees an indicated state: CLOSED removes CT, OPEN removes OT (R144). -/
def State.faultSees (s : State) (p : Nat) (st : Indication) : State :=
  match st with
  | .closed => s.causeOff p .ct
  | .opened => s.causeOff p .ot
  | .closedUnsecured | .movingClose | .movingOpen | .intermediate | .unknown => s

/-- A motion change derives the indication: a change into or out of MOVING, or of the target in MOVING. -/
def Record.motionDerives (before after : Record) : Bool :=
  (decide (before.motion = .moving) || decide (after.motion = .moving))
    && decide ((before.motion, before.target) ≠ (after.motion, after.target))
    && !after.stale

/-- Alter the motion fields of a record. The indication is derived where R27 says so, unless STALE holds
it, and the derived state is handed to the fault and alarm unit. -/
def State.moveRec (s : State) (p : Nat) (f : Record → Record) : State :=
  match s.rec? p with
  | some r =>
    if r.motionDerives (f r) then
      let st := (f r).derived.1
      (s.modRec p fun r => { f r with indicated := st }).faultSees p st
    else s.modRec p f
  | none => s

/-! ### Rest and stroke ends (R72, R73, R76) -/

/-- A door in REST with no pause: target, slot, purpose, wait, timer and debit cleared. -/
def Record.toRest (r : Record) : Record :=
  { r with motion := .rest, purpose := none, target := none, govSlot := none, waitReason := none,
           queueClass := none, deadline := none, heldDebit := none }

/-- The freeing of ship budget that follows a stroke end. -/
def Record.freeing (r : Record) : List Task := [.freed r.unit?]

/-- A stroke ends: the timer is cancelled, the debit cleared and refunded where due, the stroke returned
to the unit and the ship, and the door enters the motion state that `f` gives it (R72, R73). -/
def State.endStroke (s : State) (p : Nat) (refund : Bool) (f : Record → Record) : State :=
  match s.rec? p with
  | some r =>
    let s := s.moveRec p fun r => { f r with heldDebit := none }
    match r.unit? with
    | some u => s.creditStroke u (if refund then r.heldDebit.getD 0 else 0)
    | none => s
  | none => s

/-- A door leaves WAIT_UNIT for REST, out of its unit's queue (R76). -/
def State.leaveWait (s : State) (p : Nat) : State :=
  match s.rec? p with
  | some r =>
    let s := s.moveRec p Record.toRest
    match r.unit? with
    | some u => s.leaveQueue u p
    | none => s
  | none => s

/-! ### Targets and waits (R74, R75) -/

/-- A door enters WAIT_UNIT and is handed to its unit. -/
def State.enterWait (s : State) (p : Nat) (purpose : Purpose) (target : Option Target)
    (govSlot : Option Nat) : State :=
  match (s.rec? p).bind Record.unit? with
  | some u =>
    let s := s.moveRec p fun r =>
      { r with motion := .waitUnit, purpose := some purpose, target := target, govSlot := govSlot,
               waitReason := some .queue,
               queueClass := some (s.queueClassFor p (some purpose) target), deadline := none }
    s.joinQueue u p
  | none => s

/-- A door is given a target (R74). -/
def State.giveTarget (s : State) (p : Nat) (t : Target) (purpose : Purpose) : State :=
  s.enterWait p purpose (some t) (s.governing p)

/-- The queue priority and tier are computed again after a change of the stack (R65, R75). A door whose key stays
is not placed anew, and its unit is not touched: DESIGN CHOICE, log entry 70. -/
def State.rekey (s : State) (p : Nat) : State :=
  match s.rec? p with
  | some r =>
    if r.motion = .waitUnit ∧ r.queueClass ≠ some (s.queueClassFor p r.purpose r.target) then
      let s := s.modRec p fun r => { r with queueClass := some (s.queueClassFor p r.purpose r.target) }
      match r.unit? with
      | some u => s.replaceInQueue u p
      | none => s
    else s
  | none => s

/-! ### Admission, warning, movement (R77 to R81) -/

/-- The door has reached its target without a report: the stroke ends with a refund (R79), then OB is removed. UL
is judged before that scan, at the stroke end: DESIGN CHOICE, log entries 63, 65. -/
def State.alreadyThere (s : State) (p : Nat) (r : Record) : State :=
  let s := s.endStroke p true fun r => { r.toRest with attempts := 0 }
  (s.causeOff p .ob).first (r.freeing ++ [.evalRest p])

/-- A door passes into MOVING, or ends its stroke if it is already at its target (R79). -/
def State.enterMoving (s : State) (p : Nat) : State :=
  match s.rec? p with
  | some r =>
    match r.cfg.power, r.target with
    | some pf, some t =>
      if (t = .closed ∧ r.indicated = .closed) ∨ (t = .opened ∧ r.indicated = .opened) then
        s.alreadyThere p r
      else
        let allowance := if t = .closed then pf.closeAllowance else pf.openAllowance
        let s := s.moveRec p fun r =>
          { r with motion := .moving, deadline := some (s.clock + allowance * 1000) }
        s.queueCommand p (.move t)
    | _, _ => s
  | none => s

/-- The motion supervisor takes an admission (R77). -/
def State.takeAdmission (s : State) (p cost : Nat) : State :=
  match s.rec? p with
  | some r =>
    match r.cfg.power with
    | some pf =>
      let taken := fun (r : Record) =>
        { r with heldDebit := some cost, waitReason := none, queueClass := none }
      if r.purpose = some .passage then
        let s := s.moveRec p fun r =>
          { taken r with motion := .inLocal, deadline := some (s.clock + pf.passageLimit * 1000) }
        (s.causeOff p .ot).queueCommand p .grant
      else if pf.lead > 0 then
        let s := s.moveRec p fun r =>
          { taken r with motion := .warning, deadline := some (s.clock + pf.lead * 1000) }
        (s.causeOff p .ot).queueCommand p (.warn pf.lead)
      else ((s.moveRec p taken).causeOff p .ot).enterMoving p
    | none => s
  | none => s

/-- A MOVING door is handed the indicated state; equal to its target, it ends the stroke (R80). At the stroke end
the re-derivation removes CT or OT first, then the unit judges UL, then OB is removed, each with its relist scan:
DESIGN CHOICE, log entry 63. The arbiter's run for the freed stroke and the evaluation of R59 are taken before the SF
cause and the flags of the same reply, so these meet a door that waits or moves again at once (R85, R147): DESIGN
CHOICE, log entry 74. -/
def State.motionSees (s : State) (p : Nat) (st : Indication) : State :=
  match s.rec? p with
  | some r =>
    if r.motion = .moving
        ∧ ((r.target = some .closed ∧ st = .closed) ∨ (r.target = some .opened ∧ st = .opened)) then
      let s := s.endStroke p false fun r => { r.toRest with attempts := 0 }
      (s.causeOff p .ob).first (r.freeing ++ [.evalRest p])
    else s
  | none => s

/-- A cause whose substitute action is the motion supervisor's own is taken by the steps of R140: the cause
is added, the action `f` follows, and the cause is reported, before what the stroke end hands on is taken:
DESIGN CHOICE, log entry 17. A cause that is present already changes nothing at the fault and alarm unit
(R139). -/
def State.causeAround (s : State) (p : Nat) (k : FaultKind) (f : State → State) : State :=
  if (s.rec? p).any fun r => r.has k then f s
  else (f (s.modRec p fun r => { r with causes := addKind k r.causes })).reportDoorCause p k

/-- The deadline of a MOVING door expires (R81, R144). -/
def State.deadlineExpires (s : State) (p : Nat) (r : Record) : State :=
  let s := s.queueCommand p .stop
  let s := s.causeAround p (if r.target = some .opened then .ot else .ct) fun s =>
    (s.endStroke p false Record.toRest).charge r.govSlot p .timeout
  s.first (r.freeing ++ completionOf r.govSlot ++ [.evalRest p])

/-- The obstruction flag of a reply to a MOVING door (R82, R147). What the stroke end hands on is taken before the
local flags of the same reply (R85): DESIGN CHOICE, log entry 74. -/
def State.obstructed (s : State) (p : Nat) : State :=
  match s.rec? p with
  | some r =>
    if r.motion = .moving then
      let s := s.queueCommand p .stop
      let attempts := min 3 (r.attempts + 1)
      if attempts < 3 then
        let s := s.causeAround p .ob fun s => s.endStroke p false fun r =>
          { r.toRest with attempts := attempts, purpose := r.purpose, deadline := some (s.clock + 5000) }
        s.first r.freeing
      else
        let s := s.causeAround p .ob fun s =>
          (s.endStroke p false fun r => { r.toRest with attempts := attempts }).charge r.govSlot p .obstructed
        s.first (r.freeing ++ completionOf r.govSlot ++ [.evalRest p])
    else s
  | none => s

/-! ### Local passage (R85 to R90) -/

/-- The check of a local request for a door in REST (R86). A door that was brought to rest for it and
stays there is evaluated (R87). -/
def State.checkPassage (s : State) (p : Nat) (brought : Bool) : State :=
  match s.rec? p with
  | some r =>
    match r.cfg.power with
    | some pf =>
      let s := s.modRec p fun r => { r with purpose := none, deadline := none }
      if r.has .ic ∨ r.has .sf ∨ ¬ (s.effectivePerms p pf).localOpen then
        (s.queueCommand p (.refuse .withdrawn)).first (if brought then [.evalRest p] else [])
      else s.enterWait p .passage none none
    | none => s
  | none => s

/-- A local request, by motion state (R86, R87). -/
def State.localRequest (s : State) (p : Nat) : State :=
  match s.rec? p with
  | some r =>
    match r.motion with
    | .rest => s.checkPassage p false
    | .waitUnit => if r.purpose = some .passage then s else (s.leaveWait p).first [.localCheck p]
    | .warning => (s.endStroke p true Record.toRest).first (r.freeing ++ [.localCheck p])
    | .moving =>
      if r.target = some .opened then s
      else
        ((s.queueCommand p .stop).endStroke p false Record.toRest).first
          (r.freeing ++ [.localCheck p])
    | .inLocal => s
    | .recloseDelay => (s.moveRec p Record.toRest).first [.localCheck p]
  | none => s

/-- The check of a door brought to rest for a request. If the freed stroke set the door in motion again
in the meantime, the request meets it in the state it is in. -/
def State.localCheck (s : State) (p : Nat) : State :=
  match s.rec? p with
  | some r => if r.motion = .rest then s.checkPassage p true else s.localRequest p
  | none => s

/-- A local release, by motion state (R90). Whether the door is under closure is asked before the stroke end frees
the ship budget: DESIGN CHOICE, log entry 64. -/
def State.localRelease (s : State) (p : Nat) : State :=
  match s.rec? p with
  | some r =>
    match r.motion, r.cfg.power with
    | .inLocal, some pf =>
      if s.underClosure p pf then
        let s := s.endStroke p false fun r =>
          { r.toRest with motion := .recloseDelay, deadline := some (s.clock + pf.recloseDelay * 1000) }
        s.first r.freeing
      else (s.endStroke p false Record.toRest).first (r.freeing ++ [.evalRest p])
    | .waitUnit, _ =>
      if r.purpose = some .passage then (s.leaveWait p).first [.evalRest p] else s
    | _, _ => s
  | none => s

/-- The local flags of a good reply (R85), and the removal of LP by a release (R148), which comes before what
the release does to the door: DESIGN CHOICE, log entry 54. -/
def State.localFlags (s : State) (p : Nat) (request release : Bool) : State :=
  match s.rec? p with
  | some r =>
    match r.cfg.power with
    | none => s
    | some _ =>
      let s := if release then s.causeOff p .lp else s
      if r.lifecycle = .isolated then
        if request then s.queueCommand p (.refuse .isolated) else s
      else if release ∧ (¬ request ∨ r.motion = .inLocal
          ∨ (r.motion = .waitUnit ∧ r.purpose = some .passage)) then s.localRelease p
      else if request then s.localRequest p
      else s
  | none => s

/-! ### The reclose decision (R92) -/

/-- The governing order is an ACTIVE CLOSE or OPEN order in which the door is uncounted (R92 test 4). -/
def State.activeHoldsUncounted (s : State) (p : Nat) : Bool :=
  match (s.governing p).bind s.order? with
  | some o => decide (o.state = .active) && decide (o.kind ≠ .hold) && o.uncounted p
  | none => false

/-- The reclose decision (R92). -/
def State.recloseDecision (s : State) (p : Nat) : State :=
  match s.rec? p with
  | some r =>
    match r.cfg.power with
    | some pf =>
      if r.undrivable ∨ (s.governing p).bind s.kindOf = some .hold ∨ ¬ s.underClosure p pf
          ∨ s.activeHoldsUncounted p ∨ r.indicated = .closed then
        (s.moveRec p Record.toRest).first [.evalRest p]
      else s.giveTarget p .closed .reclose
    | none => s
  | none => s

/-- The expiry of an obstruction pause (R83). -/
def State.pauseExpires (s : State) (p : Nat) (r : Record) : State :=
  if r.purpose = some .reclose then s.recloseDecision p
  else (s.moveRec p Record.toRest).first [.evalRest p]

/-! ### Undrivability, dropped commands, line losses (R93, R94) -/

/-- A door has become undrivable (R93). -/
def State.becomesUndrivable (s : State) (p : Nat) : State :=
  match s.rec? p with
  | some r =>
    let charged := completionOf r.govSlot ++ [.evalRest p]
    match r.motion with
    | .rest => s
    | .waitUnit =>
      if r.purpose = some .passage then
        ((s.leaveWait p).first [.evalRest p]).queueCommand p (.refuse .withdrawn)
      else ((s.leaveWait p).charge r.govSlot p .fault).first charged
    | .warning =>
      ((s.endStroke p true Record.toRest).charge r.govSlot p .fault).first (r.freeing ++ charged)
    | .moving =>
      ((s.queueCommand p .stop).endStroke p false Record.toRest).first (r.freeing ++ [.evalRest p])
    | .inLocal => (s.endStroke p false Record.toRest).first (r.freeing ++ [.evalRest p])
    | .recloseDelay => (s.moveRec p Record.toRest).first [.evalRest p]
  | none => s

/-- A dropped command at the motion supervisor (R94). With `late`, the ship budget it frees is handed on
after the other entries that the disabling of a line dropped. -/
def State.commandDropped (s : State) (p : Nat) (c : DoorCommand) (late : Bool) : State :=
  match s.rec? p with
  | some r =>
    let ended := fun (s : State) (after : List Task) =>
      if late then (s.first after).later r.freeing else s.first (r.freeing ++ after)
    match c, r.motion with
    | .warn _, .warning =>
      ended ((s.endStroke p true Record.toRest).charge r.govSlot p .fault)
        (completionOf r.govSlot ++ [.evalRest p])
    | .move _, .moving =>
      ended ((s.endStroke p false Record.toRest).charge r.govSlot p .fault)
        (completionOf r.govSlot ++ [.evalRest p])
    | .grant, .inLocal => ended (s.endStroke p false Record.toRest) [.evalRest p]
    | _, _ => s
  | none => s

/-- A door bound to a line that has been disabled (R94). -/
def State.doorLineLost (s : State) (p : Nat) : State :=
  match s.rec? p with
  | some r =>
    match r.motion with
    | .waitUnit =>
      if r.purpose = some .passage then (s.leaveWait p).later [.evalRest p]
      else
        ((s.leaveWait p).charge r.govSlot p .fault).later (completionOf r.govSlot ++ [.evalRest p])
    | .inLocal => (s.endStroke p false Record.toRest).later (r.freeing ++ [.evalRest p])
    | .recloseDelay => (s.moveRec p Record.toRest).later [.evalRest p]
    | .rest | .warning | .moving => s
  | none => s

/-- Every door bound to a line that has been disabled (R94). They are taken in position order: DESIGN
CHOICE, log entry 48. -/
def State.lineLost (s : State) (n : LineNo) : State :=
  ((s.records.filter fun e => decide (e.2.cfg.line = n)).map Prod.fst).foldl
    (fun s p => s.doorLineLost p) s

end Sys2Proof.Machine
end

