-- ==== Sys2Proof/Machine/Orders.lean ====
section
/-! DEFINITION. The order engine (03): evaluation, activation, suspension, push, pop, completion, and the
hardwired order of the ECLOSE input. -/

namespace Sys2Proof.Machine

/-! ### Evaluation (R58, R59) -/

/-- The target an order gives its doors; a HOLD gives none (R58). -/
def targetOf : OrderKind → Option Target
  | .close => some .closed
  | .opening => some .opened
  | .hold => none

/-- The indicated state equals the target. -/
def Indication.isTarget (st : Indication) (t : Target) : Bool :=
  match t with
  | .closed => decide (st = .closed)
  | .opened => decide (st = .opened)

/-- One uncounted member is evaluated by the tests of R58, in turn. -/
def State.evaluateMember (s : State) (slot p : Nat) : State :=
  match s.order? slot, s.rec? p with
  | some o, some r =>
    match targetOf o.kind with
    | none => s
    | some t =>
      if o.uncounted p then
        if r.indicated.isTarget t then s.countMember slot p .done
        else
          match r.cfg.power with
          | none => s.countMember slot p (.failed .notDrivable)
          | some pf =>
            if r.lifecycle ≠ .inService then s.countMember slot p (.failed .notDrivable)
            else if r.undrivable then s.countMember slot p (.failed .fault)
            else if t = .opened ∧ ¬ (s.effectivePerms p pf).remoteOpen then
              s.countMember slot p (.failed .withdrawn)
            else if r.motion ≠ .rest ∨ r.deadline.isSome then s
            else s.giveTarget p t .order
      else s
  | _, _ => s

/-- The evaluation of R59: the ACTIVE order, if it holds the door uncounted, evaluates it. -/
def State.evaluateAtRest (s : State) (p : Nat) : State :=
  match s.stack with
  | [] => s
  | top :: _ => (s.evaluateMember top p).first [.complete top]

/-! ### Activation (R58, R60) -/

/-- The positions of an order's snapshot that still refer to records. -/
def Order.positions (o : Order) : List Nat :=
  match o.snapshot with
  | some ms => (ms.filter fun m => !m.freed).map Member.position
  | none => []

/-- A HOLD stops one member's remote motion (R60). -/
def State.holdMember (s : State) (p : Nat) : State :=
  match s.rec? p with
  | some r =>
    match r.motion with
    | .waitUnit => if r.purpose = some .passage then s else s.leaveWait p
    | .warning => (s.endStroke p true Record.toRest).later r.freeing
    | .moving => ((s.queueCommand p .stop).endStroke p false Record.toRest).later r.freeing
    | .rest | .inLocal | .recloseDelay => s
  | none => s

/-- An order that has become ACTIVE acts on its members (R58, R60): a CLOSE or OPEN order evaluates them, and
a HOLD stops them, in ascending position order. DESIGN CHOICE, log entry 47. -/
def State.activate (s : State) (slot : Nat) : State :=
  match s.order? slot with
  | some o =>
    match o.kind with
    | .hold => o.positions.foldl (fun s p => s.holdMember p) s
    | .close => o.positions.foldl (fun s p => s.evaluateMember slot p) s
    | .opening => o.positions.foldl (fun s p => s.evaluateMember slot p) s
  | none => s

/-! ### Suspension and cancel of running work (R61, R64) -/

/-- Positions whose record names a slot as its governing order. -/
def State.governedBy (s : State) (slot : Nat) : List Nat :=
  (s.records.filter fun e => decide (e.2.govSlot = some slot)).map Prod.fst

/-- A remote waiter returns to REST when its governing order is suspended, or is cancelled while it is SUSPENDED
(R61, row 1 of R76). -/
def State.suspendDoor (s : State) (p : Nat) : State :=
  match s.rec? p with
  | some r => if r.motion = .waitUnit ∧ r.purpose ≠ some .passage then s.leaveWait p else s
  | none => s

/-- The remote waiters that a slot governs return to REST, in ascending position order: DESIGN CHOICE, log
entry 47. -/
def State.restWaiters (s : State) (slot : Nat) : State :=
  (s.governedBy slot).foldl (fun s p => s.suspendDoor p) s

/-- A cancelled ACTIVE order's waiters and warnings return to REST (R64). -/
def State.cancelDoor (s : State) (p : Nat) : State :=
  match s.rec? p with
  | some r =>
    match r.motion with
    | .waitUnit => if r.purpose = some .passage then s else s.leaveWait p
    | .warning => (s.endStroke p true Record.toRest).later r.freeing
    | .rest | .moving | .inLocal | .recloseDelay => s
  | none => s

/-! ### Governing orders after a change of the stack (R65) -/

/-- One door's governing order is computed again; `old` is the state before the stack changed. A change
clears the attempt count (R83), and a waiting door is keyed anew (R75). -/
def State.regovernDoor (s old : State) (p : Nat) : State :=
  match s.rec? p with
  | some _ =>
    let now := s.governing p
    (s.modRec p fun r =>
      { r with govSlot := if r.target.isSome then now else none
               attempts := if old.governing p = now then r.attempts else 0 }).rekey p
  | none => s

/-- The members of the order concerned (R65), in ascending position order: DESIGN CHOICE, log entry 47. -/
def State.regovern (s old : State) (slot : Nat) : State :=
  match s.order? slot with
  | some o => o.positions.foldl (fun s p => s.regovernDoor old p) s
  | none => s

/-! ### Push, pop, completion (R55 to R57, R63) -/

/-- Whether a scope selects a record (R56). -/
def Scope.selects (sc : Scope) (r : Record) : Bool :=
  match sc with
  | .ship => true
  | .zones zs => zs.contains r.cfg.zone
  | .door n => decide (r.cfg.number = n)
  | .group mask value => decide (r.cfg.tag &&& mask = value)

/-- The snapshot of a scope: records ENROLLED, IN_SERVICE or ISOLATED, by position (R56). A DOOR scope
resolves its door number through the directory (R7). -/
def State.snapshotOf (s : State) (sc : Scope) : List Member :=
  let take := fun (p : Nat) => ({ position := p, outcome := .uncounted, freed := false } : Member)
  match sc with
  | .door n =>
    match Keyed.get? s.directory n with
    | some p =>
      match s.rec? p with
      | some r => if r.counted then [take p] else []
      | none => []
    | none => []
  | .ship | .zones _ | .group _ _ =>
    (s.records.filter fun e => e.2.counted && sc.selects e.2).map fun e => take e.1

def State.arrivalOf (s : State) (slot : Nat) : Nat :=
  match s.order? slot with
  | some o => o.arrival
  | none => 0

/-- The pending list with an order inserted: priority descending, then arrival ascending (R54). -/
def State.enterPending (s : State) (slot : Nat) : State :=
  let before := fun (a b : Nat) =>
    decide (s.priorityOf a > s.priorityOf b)
      || (decide (s.priorityOf a = s.priorityOf b)
          && decide (s.arrivalOf a < s.arrivalOf b))
  { s with pendingOrders := insertBy before slot s.pendingOrders }

/-- Step 1 of R55: the former top becomes SUSPENDED, and its waiting doors leave their queues (R61). A new top that
the pop above it left SUSPENDED stays so, and its waiting doors, those of a reclose stroke, leave their queues all the
same when the pending head is pushed over it (R57): DESIGN CHOICE, log entry 72. -/
def State.suspendTop (s : State) : State :=
  match s.stack with
  | top :: _ =>
    (s.modOrder top fun o => { o with state := .suspended }).restWaiters top
  | [] => s

/-- Steps 2 and 3 of R55: the order takes its place on top and is ACTIVE, with its snapshot. -/
def State.placeOnTop (s : State) (slot : Nat) : State :=
  let s := { s with stack := slot :: s.stack, pendingOrders := removeNat slot s.pendingOrders }
  s.modOrder slot fun o =>
    { o with state := .active, snapshot := some (o.snapshot.getD (s.snapshotOf o.scope)) }

/-- A push (R55). The completion check of step 6 is handed on. -/
def State.pushOrder (s : State) (slot : Nat) : State :=
  let suspended := s.suspendTop
  let placed := suspended.placeOnTop slot
  ((placed.regovern suspended slot).activate slot).first [.complete slot]

/-- After a pop: the pending head is pushed, or the new top is resumed (R57). In BUILD nothing is
pushed (R55). -/
def State.nextTop (s : State) : State :=
  match s.pendingOrders, s.stack with
  | [], [] => s
  | head :: _, [] => if s.phase = .build then s else s.pushOrder head
  | [], top :: _ =>
    ((s.modOrder top fun o => { o with state := .active }).activate top).first [.complete top]
  | head :: _, top :: _ =>
    if s.phase ≠ .build ∧ s.priorityOf head > s.priorityOf top then s.pushOrder head
    else ((s.modOrder top fun o => { o with state := .active }).activate top).first [.complete top]

/-- An order finishes: its state, result and finished uptime are set, and its completion is unread on its
issuing ports (R63, R64). -/
def State.finishOrder (s : State) (slot : Nat) (st : OrderState) (res : OrderResult) : State :=
  s.modOrder slot fun o =>
    { o with state := st, result := some res, finished := some s.clock, unread := o.issuing }

/-- An order leaves the stack; its members' governing orders follow (R57, R65). -/
def State.leaveStack (s : State) (slot : Nat) : State :=
  State.regovern { s with stack := removeNat slot s.stack } s slot

/-- The order has every member counted (R63). A HOLD never completes (R60), and one whose snapshot is empty
is none the less kept on the stack. DESIGN CHOICE, log entry 46. -/
def Order.complete (o : Order) : Bool :=
  match o.snapshot with
  | some ms => decide (o.kind ≠ .hold) && decide (o.done + o.failed = ms.length)
  | none => false

/-- A stacked order completes if every member is counted (R63). -/
def State.completeOrder (s : State) (slot : Nat) : State :=
  match s.order? slot with
  | some o =>
    if s.stack.contains slot && o.complete then
      let popped := s.stack.head? = some slot
      let s := s.finishOrder slot .done (if o.failed = 0 then .done else .doneWithFailures)
      let s := s.leaveStack slot
      if popped then s.first [.nextTop] else s
    else s
  | none => s

/-! ### Acceptance (R52, R69) -/

/-- An accepted order takes its slot and the next arrival number, and is pushed or placed in the pending
list (R52). -/
def State.acceptOrder (s : State) (slot : Nat) (o : Order) : State :=
  let s := { s with slots := Keyed.put s.slots slot { o with arrival := s.arrivals + 1 },
                    arrivals := s.arrivals + 1 }
  let onTop : Bool := match s.stack with
    | [] => true
    | top :: _ => decide (o.priority > s.priorityOf top)
  if s.phase ≠ .build ∧ onTop = true then s.pushOrder slot else s.enterPending slot

/-- The hardwired order (R69). -/
def hardwiredOrder : Order :=
  { source := .hardwired, tag := 0, priority := 7, kind := .close, scope := .ship,
    withdraw := { localOpen := false, remoteOpen := true }, state := .pending, arrival := 0,
    snapshot := none, done := 0, failed := 0, repeats := 0, issuing := { a := true, b := true },
    result := none, finished := none, unread := PortFlags.neither }

/-- The hardwired order is created in slot 15 (R69, R70). -/
def State.createHardwired (s : State) : State := s.acceptOrder 15 hardwiredOrder

def OrderState.live : OrderState → Bool
  | .pending | .active | .suspended => true
  | .done | .cancelled => false

/-- An assertion edge of ECLOSE acts on slot 15 (R69). -/
def State.assertionEdge (s : State) : State :=
  match s.order? 15 with
  | some o =>
    if o.state.live then s.putOrder 15 { o with repeats := satInc 65535 o.repeats }
    else s.createHardwired
  | none => s.createHardwired

end Sys2Proof.Machine
end

