-- ==== Sys2Proof/Machine/Table.lean ====
section
/-! DEFINITION. The end of a retirement (R22, R23), and the evaluation of unit queues and the ship-budget
arbiter, which join the accounts, the order engine and the motion supervisor (R107, R109, R114). -/

namespace Sys2Proof.Machine

/-! ### Retirement completion (R23) -/

def Exchange.isFor (x : Exchange) (p : Nat) : Bool :=
  match x.target with
  | .door q _ => decide (q = p)
  | .monitor _ _ => false

/-- A visit forgets a freed record: a record later enrolled at its position is eligible as a new one
(R138). -/
def CalendarPlace.forget (place : CalendarPlace) (p : Nat) : CalendarPlace :=
  match place with
  | .slot i polled count => .slot i (removeNat p polled) count
  | .monitors next => .monitors next

/-- A line forgets a freed record: its unsent command, the claim of an exchange in flight, and its poll in
the present visit. -/
def Line.forget (l : Line) (p : Nat) : Line :=
  { l with
    queue := l.queue.filter fun e => decide (e.position ≠ p)
    exchange := l.exchange.map fun x => if x.isFor p then { x with targetFreed := true } else x
    place := l.place.forget p }

/-- A freed position ceases to be a member of every snapshot (R23). -/
def Order.forget (o : Order) (p : Nat) : Order :=
  { o with snapshot := o.snapshot.map fun ms =>
      ms.map fun m => if m.position = p then { m with freed := true } else m }

def PortState.addFreed (ps : PortState) (p : Nat) (f : FreedReport) : PortState :=
  { ps with marks := insertNat p ps.marks, freed := Keyed.put ps.freed p f }

/-- The position of a record becomes FREE (R23): the record leaves the directory and its zone list, every
snapshot and line forgets it, and both ports get its freed report. -/
def State.freePosition (s : State) (p : Nat) (r : Record) (why : FreedReason) : State :=
  let s := (s.leaveZone r.cfg.zone p).leaveDirectory r.cfg.number
  let s := { s with records := Keyed.remove s.records p
                    slots := s.slots.map fun (e : Nat × Order) => (e.1, e.2.forget p) }
  let s := s.modAllLines fun l => l.forget p
  let report : FreedReport := { number := r.cfg.number, reason := why }
  { s with portA := s.portA.addFreed p report, portB := s.portB.addFreed p report }

/-- The retirement of the record at a position completes (R23). The scans for its alarm entries run after
the position has become FREE (R157). -/
def State.retirementEnds (s : State) (p : Nat) (why : FreedReason) : State :=
  match s.rec? p with
  | some r => (s.freePosition p r why).removeAlarmsOf (.door r.cfg.number)
  | none => s

/-- A dropped command is handed to its owner (R127). -/
def State.dropCommand (s : State) (p : Nat) (c : DoorCommand) (late : Bool) : State :=
  match c with
  | .release => s.retirementEnds p .noAck
  | .warn _ | .move _ | .stop | .grant | .refuse _ => s.commandDropped p c late

/-! ### Heads that are turned away (R88, R109) -/

/-- A head leaves the queue for REST without a change at the queue head being handed on: the unit itself
goes on to its new head. -/
def State.takeHead (s : State) (u p : Nat) : State :=
  (s.moveRec p Record.toRest).modUnit u fun w => { w with queue := removeNat p w.queue }

/-- A head that can never be met, or a local waiter that fails the charge test, is turned away: failed
COST for its governing order, or refused LOW_CHARGE (R88, R109). The door is evaluated (R59), and its order
completed where it can be, before the unit goes on to its new head: DESIGN CHOICE, log entry 49. -/
def State.turnAway (s : State) (u p : Nat) : State :=
  match s.rec? p with
  | some r =>
    if r.purpose = some .passage then
      ((s.takeHead u p).first [.evalRest p]).queueCommand p (.refuse .lowCharge)
    else
      ((s.takeHead u p).charge r.govSlot p .cost).first (completionOf r.govSlot ++ [.evalRest p])
  | none => s

/-- A local waiter that fails the charge test is turned away; any other failed head waits (R88, R107). -/
def State.leavesOnFail (s : State) (p : Nat) (why : WaitReason) : Bool :=
  decide (why = .charge) && decide ((s.rec? p).bind Record.purpose = some .passage)

/-! ### The evaluation of a unit's queue (R107) -/

/-- One head is tested. An admission or a head turned away hands the new head on to the next test; a door
turned away is evaluated before that test and may be in the queue again by then (log entry 49). -/
def State.evaluateQueue (s : State) (u : Nat) : State :=
  let s := s.startEvaluation u
  match s.headTest u with
  | .empty => s
  | .impossible p => (s.first [.evalQueue u]).turnAway u p
  | .waits p why =>
    if s.leavesOnFail p why then (s.first [.evalQueue u]).turnAway u p else s.headWaits u p why
  | .passes p cost => (s.debit u p cost).first [.admitted p cost, .judgeUL u, .evalQueue u]

/-! ### The ship-budget arbiter (R114) -/

/-- One turn of the arbiter: the candidate with the best head is tested. Strokes that a HOLD ends during a run
lower the count at once, and their freeings wait until the run is over: DESIGN CHOICE, log entry 16. When it
stops, the other candidates evaluate their queues in ascending unit number: DESIGN CHOICE, log entry 59. -/
def State.arbiterTurn (s : State) (us : List Nat) : State :=
  match s.bestOf us with
  | none => s
  | some u =>
    let rest := removeNat u us
    let s := s.startEvaluation u
    match s.headTest u with
    | .empty => s.first [.arbiter rest]
    | .impossible p => ((s.first [.arbiter rest]).turnAway u p).later [.evalQueue u]
    | .waits p why =>
      if s.leavesOnFail p why then
        ((s.first [.arbiter rest]).turnAway u p).later [.evalQueue u]
      else if why = .shipLimit then
        let s := s.headWaits u p why
        let others := rest.filter fun v => decide (s.headReason v ≠ some .shipLimit)
        s.first (others.map Task.evalQueue)
      else (s.headWaits u p why).first [.arbiter rest]
    | .passes p cost => (s.debit u p cost).first [.admitted p cost, .judgeUL u, .arbiter us]

/-- A freeing of ship budget (R114). Every freeing that still waits is served by the same run, and a run in
progress goes on in it: the strokes of one event are handed out together, best head first. DESIGN CHOICE, log
entry 16. -/
def State.serveFreed (s : State) (ended : Option Nat) : State :=
  State.arbiterTurn { s with agenda := s.agenda.filter fun t => !t.ofArbiter } (s.candidates ended)

end Sys2Proof.Machine
end

