-- ==== Sys2Proof/Machine/Replies.lean ====
section
/-! DEFINITION. The outcome of an exchange (R125, R129 to R133): good replies and misses, of doors and of
monitors. -/

namespace Sys2Proof.Machine

/-! ### Targets that still stand (R125) -/

/-- The record an exchange was chosen for still stands as it was: the same record, at the same field
address, and not RETIRING unless the exchange is its RELEASE. -/
def Exchange.doorStands (x : Exchange) (n : LineNo) (station : Nat) (r : Record) : Bool :=
  !x.targetFreed && decide (r.cfg.line = n) && decide (r.cfg.station = station)
    && (decide (r.lifecycle ≠ .retiring) || decide (x.kind = .command .release))

/-- The unit is configured with the same monitor address (R100, R125). One that was deconfigured and configured
again, or moved away and back, while its poll was in flight counts as still configured there: DESIGN CHOICE, log
entry 67. -/
def PowerUnit.monitorStands (w : PowerUnit) (n : LineNo) (station : Nat) : Bool :=
  decide (w.monitor = some (n, station))

/-! ### Doors (R130, R132, R133) -/

/-- Steps 1 to 3 of R130: report, last good reply uptime, missed count, sweep mark and lifecycle. -/
def Record.takeReport (r : Record) (f : ReplyFields) (now : Nat) (phase : Phase) : Record :=
  { r with
    report := some (f.report r.cfg.cls)
    lastGood := some now
    aged := false
    missed := 0
    mark := r.mark || decide (phase = .sweep)
    lifecycle := if r.lifecycle = .enrolled then .inService else r.lifecycle }

/-- The indication is derived from the report and its findings and state are handed on (R32). At a CHANGE of class
they are taken after its alarm enables have been switched: DESIGN CHOICE, log entry 25. -/
def State.deriveJudged (s : State) (p : Nat) (after : List Task) : State :=
  match s.rec? p with
  | some r =>
    let d := r.derived
    let judged : List Task :=
      if r.report.isSome then
        [.setCause p .ic (decide (d.2 = .contradiction)), .setCause p .pd (decide (d.2 = .disagreement))]
      else [.setCause p .ic false, .setCause p .pd false]
    (s.modRec p fun r => { r with indicated := d.1 }).first
      (judged ++ [.motionSees p d.1, .faultSees p d.1] ++ after)
  | none => s

/-- The indication is derived where only the state is handed on: the removal of STALE (R32). At a CHANGE of the
staleness limit it is taken after the alarm enables have been switched: DESIGN CHOICE, log entry 25. -/
def State.deriveUnjudged (s : State) (p : Nat) : State :=
  match s.rec? p with
  | some r =>
    let st := r.derived.1
    (s.modRec p fun r => { r with indicated := st }).first [.motionSees p st, .faultSees p st]
  | none => s

/-- A good reply is taken into a door record, in the order of R85 and R130. Each step is taken with what it hands on
at once, the arbiter's run and the evaluation of R59 among it, before the next step: DESIGN CHOICE, log entry 74. -/
def State.goodDoorReply (s : State) (p : Nat) (f : ReplyFields) : State :=
  let s := s.modRec p fun r => r.takeReport f s.clock s.phase
  let s := s.causeOff p .lc
  let obstruction : List Task := if (f.report .P).obstruction then [.obstruction p] else []
  s.deriveJudged p
    ([.setCause p .sf (decide (f.data > 0))] ++ obstruction
      ++ [.localFlags p f.localRequest f.localRelease])

/-- The command an exchange carries. -/
def ExchangeKind.command? : ExchangeKind → Option DoorCommand
  | .poll => none
  | .command c => some c

/-- R93 queues a command for the door: a STOP in MOVING, a REFUSE in a wait for passage. Such a command
takes the place of an unsent entry, which then is not there to be dropped. -/
def Record.stopsOnLoss (r : Record) : Bool :=
  !r.undrivable && (decide (r.motion = .moving)
    || (decide (r.motion = .waitUnit) && decide (r.purpose = some .passage)))

/-- A miss on an exchange with a door record that is not RETIRING (R132, R133). -/
def State.doorMiss (s : State) (n : LineNo) (p : Nat) (r : Record) (x : Exchange) : State :=
  let s := s.modRec p fun r => { r with missed := min 3 (r.missed + 1) }
  let command := x.kind.command?
  if r.missed + 1 < 3 then
    match command with
    | some c => if x.once then s else s.requeue n p c
    | none => s
  else if r.missed = 2 then
    let unsent :=
      if r.stopsOnLoss then none
      else ((s.line n).queue.find? fun e => decide (e.position = p)).map QueuedCommand.command
    s.first [.setCause p .lc true, .contactLost n p command unsent]
  else
    match command with
    | some c => s.first [.dropped p c false]
    | none => s

/-- The drops that follow the LC of a third miss: the missed command, then an older unsent entry (R133). -/
def State.contactLost (s : State) (n : LineNo) (p : Nat) (missed unsent : Option DoorCommand) : State :=
  let drop := fun (c : Option DoorCommand) =>
    match c with
    | some c => [Task.dropped p c false]
    | none => []
  let s :=
    if unsent.isSome then
      s.modLine n fun l => { l with queue := l.queue.filter fun e => decide (e.position ≠ p) }
    else s
  s.first (drop missed ++ drop unsent)

/-- A miss on the RELEASE of a RETIRING record (R22). -/
def State.releaseMiss (s : State) (n : LineNo) (p : Nat) (r : Record) : State :=
  let attempts := r.releaseAttempts.getD 0 + 1
  if attempts ≥ 3 then s.retirementEnds p .noAck
  else
    (s.modRec p fun r => { r with releaseAttempts := some attempts }).requeue n p .release

/-! ### Monitors (R115 to R117) -/

/-- A good monitor reply (R115, R116). -/
def State.monitorReply (s : State) (u : Nat) (mv : Nat) (mains : Bool) : State :=
  let s := s.touchUnit u
  let s :=
    match s.unit? u with
    | some w =>
      if w.reconciled then
        let apart := (w.visible - mv) + (mv - w.visible)
        (s.setUnitCause u .rd (decide (apart > w.tolerance))).modUnit u fun w =>
          { w with charge := min w.charge (1000 * mv) }
      else
        (s.setUnitCause u .rd false).modUnit u fun w =>
          { w with charge := 1000 * min mv w.capacity, reconciled := true }
    | none => s
  let s := s.modUnit u fun w => { w with supply := if mains then .mains else .stored, monitorMissed := 0 }
  let s := (s.setUnitCause u .ms (!mains)).setUnitCause u .lcu false
  (s.judgeUL u).first [.evalQueue u]

/-- A miss on a monitor poll (R117). -/
def State.monitorMiss (s : State) (u : Nat) : State :=
  let s := (s.touchUnit u).modUnit u fun w => { w with monitorMissed := min 3 (w.monitorMissed + 1) }
  match s.unit? u with
  | some w => if w.monitorMissed = 3 then s.setUnitCause u .lcu true else s
  | none => s

/-! ### The outcome of an exchange -/

/-- The outcome is taken into the target, if the target still stands (R125, R129). -/
def State.takeOutcome (s : State) (n : LineNo) (x : Exchange) (reply : Option ReplyFields) : State :=
  match x.target with
  | .door p station =>
    match s.rec? p with
    | some r =>
      if x.doorStands n station r then
        match reply with
        | some f =>
          if r.lifecycle = .retiring then s.retirementEnds p .released else s.goodDoorReply p f
        | none => if r.lifecycle = .retiring then s.releaseMiss n p r else s.doorMiss n p r x
      else s
    | none => s
  | .monitor u station =>
    match s.unit? u with
    | some w =>
      if w.monitorStands n station then
        match reply with
        | some f => s.monitorReply u f.data f.mainsPresent
        | none => s.monitorMiss u
      else s
    | none => s

/-- The exchange of a line passes to a phase. -/
def Line.toPhase (l : Line) (ph : ExchangePhase) : Line :=
  { l with exchange := l.exchange.map fun x => { x with phase := ph } }

/-- An exchange ends: the guard begins and the outcome is taken (R123). -/
def State.endExchange (s : State) (n : LineNo) (x : Exchange) (reply : Option ReplyFields) : State :=
  (s.modLine n fun l => l.toPhase .guard).takeOutcome n x reply

/-- The exchange in flight on a line, if it is in a phase. -/
def State.exchangeIn (s : State) (n : LineNo) (ph : ExchangePhase) : Option Exchange :=
  match (s.line n).exchange with
  | some x => if x.phase = ph then some x else none
  | none => none

end Sys2Proof.Machine
end

