-- ==== Sys2Proof/Machine/Operands.lean ====
section
/-! DEFINITION. The operand forms of requests: the naming of a record (R7), identifiers and sets (R3, R11),
quantities and their clamping (00_scope.md, R3), addresses in use (R4). -/

namespace Sys2Proof.Machine

/-! ### Names (R7) -/

/-- How a record name resolves. -/
inductive Resolved where
  | badField
  | notFound
  | found (p : Nat) (r : Record)
  deriving DecidableEq, Repr

def State.resolvePosition (s : State) (p : Nat) : Resolved :=
  match s.rec? p with
  | some r => .found p r
  | none => .notFound

/-- A door number or a position names a record, whatever its lifecycle (R7). -/
def State.resolve (s : State) (d : DoorName) : Resolved :=
  match d with
  | .number n =>
    if n < 1 ∨ n > 4095 then .badField
    else
      match Keyed.get? s.directory n with
      | some p => s.resolvePosition p
      | none => .notFound
  | .position p => if p > 255 then .badField else s.resolvePosition p

/-- The name lies in its range. -/
def nameInRange : DoorName → Bool
  | .number n => decide (1 ≤ n) && decide (n ≤ 4095)
  | .position p => decide (p ≤ 255)

/-! ### Quantities -/

/-- A quantity as used, and whether it was clamped: a given value brought into its range, or else the
value it has by default. -/
def quantity (lo hi : Nat) (given : Option Nat) (default : Nat) : Nat × Bool :=
  match given with
  | some n => (clampTo lo hi n, decide (clampTo lo hi n ≠ n))
  | none => (default, false)

/-- The P fields with the carried quantities, permissions and setting over them, and whether one was
clamped (R3). The unit is not among them. -/
def PowerFields.withArgs (pf : PowerFields) (a : FieldArgs) : PowerFields × Bool :=
  let cc := quantity 1 4000 a.closeCost pf.closeCost
  let oc := quantity 1 4000 a.openCost pf.openCost
  let ca := quantity 5 120 a.closeAllowance pf.closeAllowance
  let oa := quantity 5 120 a.openAllowance pf.openAllowance
  let ld := quantity 0 20 a.lead pf.lead
  let rd := quantity 2 30 a.recloseDelay pf.recloseDelay
  let pl := quantity 10 600 a.passageLimit pf.passageLimit
  ({ unit := pf.unit, closeCost := cc.1, openCost := oc.1, closeAllowance := ca.1,
     openAllowance := oa.1, lead := ld.1, recloseDelay := rd.1, passageLimit := pl.1,
     perms := match a.perms with
       | some n => permSet n.items
       | none => pf.perms
     normallyClosed := a.normallyClosed.getD pf.normallyClosed },
   cc.2 || oc.2 || ca.2 || oa.2 || ld.2 || rd.2 || pl.2)

/-- The P fields at their defaults (R3), for a unit; the costs have none and are given. -/
def PowerFields.defaults (unit : Nat) : PowerFields :=
  { unit := unit, closeCost := 1, openCost := 1, closeAllowance := 40, openAllowance := 40, lead := 5,
    recloseDelay := 10, passageLimit := 120, perms := Perms.all, normallyClosed := false }

/-! ### Identifiers and sets (R3, R11) -/

/-- A set of alarm enables names maskable door kinds only. -/
def enablesOk (a : Option (Naming FaultKind)) : Bool :=
  match a with
  | some n => !n.outside && n.items.all FaultKind.maskable
  | none => true

def unitEnablesOk (a : Option (Naming FaultKind)) : Bool :=
  match a with
  | some n => !n.outside && n.items.all FaultKind.isUnit
  | none => true

def permsOk (a : Option (Naming Perm)) : Bool :=
  match a with
  | some n => !n.outside
  | none => true

/-- A unit number names a configured unit. -/
def State.unitOk (s : State) (u : Option Nat) : Bool :=
  match u with
  | some u => decide (u ≤ 31) && (s.unit? u).isSome
  | none => true

def addressOk (a : Option (Nat × Nat)) : Bool :=
  match a with
  | some (l, st) => (lineOf l).isSome && decide (1 ≤ st) && decide (st ≤ 64)
  | none => true

def inRange (lo hi : Nat) (n : Option Nat) : Bool :=
  match n with
  | some n => decide (lo ≤ n) && decide (n ≤ hi)
  | none => true

/-- The identifiers and sets of the fields present in every class are in range. -/
def FieldArgs.commonOk (a : FieldArgs) : Bool :=
  inRange 1 4095 a.number && decide (a.cls ≠ some .outside) && addressOk a.address
    && inRange 1 24 a.zone && enablesOk a.enables

/-- The permissions lie in their set and the unit in its range (R3). -/
def FieldArgs.powerFormOk (a : FieldArgs) : Bool := permsOk a.perms && inRange 0 31 a.unit

/-- The identifiers and sets of the P fields, which only class P judges (R3, R11). -/
def State.powerArgsOk (s : State) (a : FieldArgs) : Bool := permsOk a.perms && s.unitOk a.unit

/-! ### Addresses in use (R4) -/

/-- A field address is held by a record other than the one at `except`, or is a monitor address. -/
def State.addressTaken (s : State) (n : LineNo) (station : Nat) (except : Option Nat) : Bool :=
  (s.records.any fun e =>
      decide (some e.1 ≠ except) && decide (e.2.cfg.line = n) && decide (e.2.cfg.station = station))
    || (s.units.any fun e => decide (e.2.monitor = some (n, station)))

/-- No slot range of the calendar holds a position (R12, R134). -/
def State.uncovered (s : State) (p : Nat) : Bool :=
  !(s.calendar.any fun c => decide (c.first ≤ p) && decide (p ≤ c.last))

end Sys2Proof.Machine
end

