-- ==== Sys2Proof/Machine/Changes.lean ====
section
/-! DEFINITION. Changes to a record (R9, R14 to R20), as CHANGE and the bulk walk make them, and the bulk
walk itself (R164 to R166, R169, R170). -/

namespace Sys2Proof.Machine

/-! ### Lifecycle (R19, R20) -/

/-- The record becomes ISOLATED, and its motion ends by its motion state (R19). A waiter of purpose LOCAL
has no governing order slot, so no order is charged for it, and an ACTIVE order that holds it uncounted
evaluates it at once, as R59 does for every door that comes to REST. DESIGN CHOICE, log entry 45. -/
def State.isolate (s : State) (p : Nat) : State :=
  match s.rec? p with
  | some r =>
    let isolated := fun (r : Record) => { r with lifecycle := Lifecycle.isolated }
    let ended := fun (r : Record) => { r with lifecycle := Lifecycle.isolated, attempts := 0 }
    let charged := completionOf r.govSlot ++ [.evalRest p]
    if r.lifecycle = .isolated then s
    else
      match r.motion with
      | .rest =>
        let s := s.modRec p fun r => { isolated r with purpose := none, deadline := none }
        (s.charge s.stack.head? p .isolated).first (completionOf s.stack.head?)
      | .waitUnit =>
        (((s.leaveWait p).modRec p ended).charge r.govSlot p .isolated).first charged
      | .warning =>
        (((s.endStroke p true Record.toRest).modRec p ended).charge r.govSlot p .isolated).first
          (r.freeing ++ charged)
      | .moving =>
        let s := (s.queueCommand p .stop).endStroke p false Record.toRest
        ((s.modRec p ended).charge r.govSlot p .isolated).first (r.freeing ++ charged)
      | .inLocal | .recloseDelay => s
  | none => s

/-- The record leaves isolation, in REST, and an ACTIVE order that holds it uncounted evaluates it
(R20, R59). -/
def State.unisolate (s : State) (p : Nat) : State :=
  match s.rec? p with
  | some r =>
    if r.lifecycle = .isolated then
      (s.modRec p fun r =>
        { r with lifecycle := if r.lastGood.isSome then .inService else .enrolled }).later [.evalRest p]
    else s
  | none => s

/-! ### Configured fields (R9, R15 to R18) -/

def State.modCfg (s : State) (p : Nat) (f : Configured → Configured) : State :=
  s.modRec p fun r => { r with cfg := f r.cfg }

def State.modPower (s : State) (p : Nat) (f : PowerFields → PowerFields) : State :=
  s.modCfg p fun c => { c with power := c.power.map f }

/-- A record leaves its zone's list and takes its place by a new zone and rank (R9). -/
def State.rezone (s : State) (p : Nat) (r : Record) (zone : Nat) (rank : Byte) : State :=
  (((s.leaveZone r.cfg.zone p).modCfg p fun c => { c with zone := zone, rank := rank })).joinZone zone p

/-- A new zone and rank: the zone lists follow, and a waiting door is placed anew (R9). Where the zone alone is new
its key and its place stay, and the placing is none the less a queue change of R106 that touches the unit, which
accrues and judges UL (R103, R104): DESIGN CHOICE, log entry 70. -/
def State.setZoneRank (s : State) (p zone : Nat) (rank : Byte) : State :=
  match s.rec? p with
  | some r =>
    let s := s.rezone p r zone rank
    if r.motion = .waitUnit then
      match r.unit? with
      | some u => s.replaceInQueue u p
      | none => s
    else s
  | none => s

/-- A new staleness limit: STALE by age is judged against it at once, and its removal derives the
indication (R34), whose state is handed on behind the other fields of the CHANGE: DESIGN CHOICE, log entry 25. -/
def State.setStaleLimit (s : State) (p limit : Nat) : State :=
  match s.rec? p with
  | some r =>
    let after := { r with cfg := { r.cfg with staleLimit := limit } }
    let aged := after.overAge s.clock
    let s := s.modRec p fun r => { r with cfg := { r.cfg with staleLimit := limit }, aged := aged }
    if r.stale && !{ after with aged := aged }.stale then s.deriveUnjudged p else s
  | none => s

/-- A new power unit; a waiting door changes queues (R18). -/
def State.setUnit (s : State) (p u : Nat) : State :=
  match s.rec? p with
  | some r =>
    if r.unit? = some u then s
    else if r.motion = .waitUnit then
      let s := match r.unit? with
        | some old => s.leaveQueue old p
        | none => s
      let s := s.modRec p fun r => { r with waitReason := some .queue }
      (s.modPower p fun pf => { pf with unit := u }).joinQueue u p
    else s.modPower p fun pf => { pf with unit := u }
  | none => s

/-- The field address changes; the record joins the walks of its line (R17, R138). -/
def State.setAddress (s : State) (p : Nat) (n : LineNo) (station : Nat) : State :=
  (s.modCfg p fun c => { c with line := n, station := station }).rejoinSweep p

/-- The class changes, with the P fields the new class has (R17, R151). The causes are removed in the order
CT, OB, OT, LP, the severity order of R153, each with its relist scan, and the orders charged NOT_DRIVABLE are
checked for completion after that and after the hand-offs of the new class: DESIGN CHOICE, log entry 55. The last
report is kept whole, its stroke too when the record becomes class H or S: DESIGN CHOICE, log entry 62. PD and IC
are judged behind the other fields of the CHANGE: DESIGN CHOICE, log entry 25. -/
def State.setClass (s : State) (p : Nat) (cls : DoorClass) (power : Option PowerFields) : State :=
  match s.rec? p with
  | some r =>
    if cls = r.cfg.cls then s
    else
      let s :=
        if r.cfg.cls = .P then
          let s := s.chargeAll p .notDrivable
          let s := s.modRec p fun r => { r with purpose := none, deadline := none }
          let s := (((s.causeOff p .ct).causeOff p .ob).causeOff p .ot).causeOff p .lp
          s.first (s.stack.map Task.complete)
        else s
      (s.modCfg p fun c => { c with cls := cls, power := power }).deriveJudged p []
  | none => s

/-- A change of the cost of a waiting head is a change at the queue head (R15, R106). The cost is not in the key
(R105), so no door is placed anew, the head or another, and the unit is touched by the evaluation alone: DESIGN
CHOICE, log entry 70. -/
def State.costChanged (s : State) (p : Nat) (old : Option PowerFields) : State :=
  match s.rec? p with
  | some r =>
    match r.cfg.power, old with
    | some pf, some o =>
      if (pf.closeCost, pf.openCost) ≠ (o.closeCost, o.openCost) ∧ r.motion = .waitUnit
          ∧ s.headOf pf.unit = some p then
        s.later [.evalQueue pf.unit]
      else s
    | _, _ => s
  | none => s

/-! ### The bulk walk (R164 to R166) -/

/-- Set lifecycle ISOLATED is refused in LOCAL and RECLOSE_DELAY (R19). -/
def Record.isolationBusy (r : Record) : Bool :=
  decide (r.lifecycle ≠ .isolated)
    && (decide (r.motion = .inLocal) || decide (r.motion = .recloseDelay))

/-- A change of unit is refused in a stroke or a reclose delay, and with a command outstanding (R18). -/
def State.unitBusy (s : State) (p : Nat) (r : Record) : Bool :=
  !(decide (r.motion = .rest) || decide (r.motion = .waitUnit)) || s.commandOutstanding p r

/-- The commands of a plan that one record takes, once those its class does not have are ignored and
those that a CHANGE would refuse are skipped (R166); `skipped` says that one was skipped. -/
structure VisitPlan where
  lifecycle : Option Lifecycle
  perms : Option Perms
  unit : Option Nat
  tag : Option Byte
  normallyClosed : Option Bool
  enables : Option (List FaultKind)
  skipped : Bool
  deriving DecidableEq, Repr

/-- The plan of the walk for one record (R166). Set power unit is skipped where its unit is unconfigured at the
visit; a unit that was deconfigured and configured again since the BULK is taken, as a CHANGE would take it: DESIGN
CHOICE, log entry 75. -/
def State.visitPlan (s : State) (p : Nat) (r : Record) (b : BulkPlan) : VisitPlan :=
  let isP := r.cfg.power.isSome
  let lifecycleBad := decide (b.setLifecycle = some .isolated) && r.isolationBusy
  let unitGiven := isP && b.setUnit.isSome
  let unitBad := unitGiven && (s.unitBusy p r || !s.unitOk b.setUnit)
  { lifecycle := if lifecycleBad then none else b.setLifecycle
    perms := if isP then b.setPerms else none
    unit := if unitGiven && !unitBad then b.setUnit else none
    tag := b.setTag
    normallyClosed := if isP then b.setNormallyClosed else none
    enables := b.setEnables
    skipped := lifecycleBad || unitBad }

/-- At least one command is applied. -/
def VisitPlan.applies (v : VisitPlan) : Bool :=
  v.lifecycle.isSome || v.perms.isSome || v.unit.isSome || v.tag.isSome || v.normallyClosed.isSome
    || v.enables.isSome

def State.visitUnit (s : State) (p : Nat) (unit : Option Nat) : State :=
  match unit with
  | some u => s.setUnit p u
  | none => s

def State.visitEnables (s : State) (p : Nat) (enables : Option (List FaultKind)) : State :=
  match enables with
  | some ks => s.setDoorEnables p ks
  | none => s

/-- The applied commands, with the effects of one CHANGE that carries them; isolation comes before the
change of unit, so that an isolated waiter joins no queue (R166). -/
def State.applyVisit (s : State) (p : Nat) (v : VisitPlan) : State :=
  let s := if v.lifecycle = some .isolated then s.isolate p else s
  let s := s.modPower p fun pf =>
    { pf with perms := v.perms.getD pf.perms, normallyClosed := v.normallyClosed.getD pf.normallyClosed }
  let s := s.modCfg p fun c => { c with tag := v.tag.getD c.tag }
  let s := s.visitUnit p v.unit
  let s := s.visitEnables p v.enables
  if v.lifecycle = some .inService then s.unisolate p else s

def State.modWalk (s : State) (f : Walk → Walk) : State := { s with walk := f s.walk }

/-- Alter the counts of the walk; a walk record in NONE has none. -/
def Walk.count (w : Walk) (f : WalkCounts → WalkCounts) : Walk := { w with counts := w.counts.map f }

/-- The visit of the position under the cursor (R165). -/
def State.visit (s : State) (b : BulkPlan) : State :=
  let p := s.walk.cursor
  match s.rec? p with
  | some r =>
    if r.lifecycle = .retiring then s
    else
      let s := s.modWalk fun w => w.count fun c => { c with visited := c.visited + 1 }
      if b.matches r then
        let v := s.visitPlan p r b
        let s := s.modWalk fun w => w.count fun c =>
          { c with matched := c.matched + 1
                   skipped := if v.skipped then c.skipped + 1 else c.skipped
                   changed := if !v.skipped && v.applies then c.changed + 1 else c.changed }
        let s := s.applyVisit p v
        if v.applies then s.markBoth p else s
      else s
  | none => s

/-- The walk ends (R169). -/
def State.endWalk (s : State) (res : WalkResult) : State :=
  s.modWalk fun w => { w with state := .ended, result := some res, stepTimer := none }

/-- After the visit the walk completes at its last position, or the cursor moves on and the step timer is
armed for 1 ms (R164, R170). -/
def State.walkAdvances (s : State) : State :=
  match s.walk.state, s.walk.plan with
  | .running, some b =>
    if s.walk.cursor ≥ b.last then (s.endWalk .complete).first [.walkEnded]
    else s.modWalk fun w => { w with cursor := w.cursor + 1, stepTimer := some (s.clock + 1) }
  | _, _ => s

/-- The expiry of the step timer: the visit, then the advance (R164). -/
def State.walkStep (s : State) (b : BulkPlan) : State :=
  State.later ((s.modWalk fun w => { w with stepTimer := none }).visit b) [.walkAdvances]

end Sys2Proof.Machine
end

