-- ==== Sys2Proof/Machine/Cascade.lean ====
section
/-! DEFINITION. One event: the hand-offs of the agenda are taken until none is left, the sweep ends if it
can, idle lines choose, the response is composed and the outputs are driven. -/

namespace Sys2Proof.Machine

/-- What a hand-off does at the block it is handed to. -/
def State.handOff (s : State) (t : Task) : State :=
  match t with
  | .evalQueue u => s.evaluateQueue u
  | .freed u => s.serveFreed u
  | .walkEnded => s.arbiterTurn s.waitingUnits
  | .arbiter us => s.arbiterTurn us
  | .admitted p cost => s.takeAdmission p cost
  | .judgeUL u => s.judgeUL u
  | .evalRest p => s.evaluateAtRest p
  | .complete slot => s.completeOrder slot
  | .nextTop => s.nextTop
  | .undrivable p => s.becomesUndrivable p
  | .reportCause p k => s.reportDoorCause p k
  | .setCause p k present => s.setDoorCause p k present
  | .motionSees p st => s.motionSees p st
  | .faultSees p st => s.faultSees p st
  | .obstruction p => s.obstructed p
  | .localFlags p request release => s.localFlags p request release
  | .localCheck p => s.localCheck p
  | .dropped p c late => s.dropCommand p c late
  | .lineLost n => s.lineLost n
  | .contactLost n p missed unsent => s.contactLost n p missed unsent
  | .retirementEnds p why => s.retirementEnds p why
  | .walkAdvances => s.walkAdvances

def Task.isFreed : Task → Bool
  | .freed _ => true
  | _ => false

/-- A hand-off that waits for others. The evaluation of a unit's queue waits while a freeing of ship budget
is still to be taken, so that the freed stroke is served through the arbiter and not before it (R114). The
advance of the bulk walk comes after all the rest of the visit (R164). -/
def State.mustWait (s : State) (t : Task) : Bool :=
  match t with
  | .evalQueue _ => s.agenda.any Task.isFreed
  | .walkAdvances => s.agenda.any fun t => decide (t ≠ .walkAdvances)
  | _ => false

/-- Take one hand-off, or put it behind the others where it must wait for them. -/
def State.take (s : State) (t : Task) : State := if s.mustWait t then s.later [t] else s.handOff t

/-- Take hand-offs from the front of the agenda, at most `n` of them. -/
def run : Nat → State → State
  | 0, s => s
  | n + 1, s =>
    match s.agenda with
    | [] => s
    | t :: ts => run n (State.take { s with agenda := ts } t)

/-- The sweep ends when no record is outstanding, and the phase becomes SERVICE (R178). -/
def State.endSweep (s : State) : State :=
  if s.phase = .sweep ∧ s.outstandingCount = 0 then State.stopSweeps { s with phase := .service }
  else s

/-- An event runs to its end: every hand-off, the sweep end, and the choice of each idle line (R124). -/
def State.settle (s : State) : State := ((run Config.passBound s).endSweep).arbitrate

/-- An event that is no console request. In reset the part takes no event (R182); where `f` finds that the
event cannot occur, nothing changes. -/
def State.event (s : State) (f : State → Option State) : State :=
  if s.inReset then s
  else
    match f s with
    | some s' => s'.settle.drive
    | none => s

/-! ### Console requests (R188 to R190) -/

/-- What a block answers to a request it takes: an answer that changes no state, or a change of state with
the answer composed from the state the event leaves (R189). -/
inductive Served where
  | answer (status : Status) (content : Content)
  | change (s : State) (reply : State → Status × Content)

/-- A refusal with a status and no further contents. -/
def Served.refuse (status : Status) : Served := .answer status .empty

/-- The port becomes SERVING with a response (R188); its receiver is back in HUNT (R187). The type byte is the
sum modulo 256, which only a BAD_TYPE of a type of 0x80 or above shows: DESIGN CHOICE, log entry 58. -/
def PortState.respond (ps : PortState) (code : Nat) (answer : Status × Content) : PortState :=
  { ps with
    receiver := .hunt
    service := .serving
      { type := BitVec.ofNat 8 (code + 0x80), status := answer.1, content := answer.2 } }

/-- A message that completes on a SERVING port is dropped unanswered (R188). -/
def PortState.overrun (ps : PortState) : PortState :=
  { ps with receiver := .hunt, overruns := satInc 65535 ps.overruns }

def PortState.isIdle (ps : PortState) : Bool := decide (ps.service = .idle)

/-- A console request of a known type, at the completion of its message (R188, R189). -/
def State.request {α : Type} (s : State) (port : Port) (code : Nat) (body : Body α)
    (serve : α → State → Served) : State :=
  if s.inReset then s
  else if ¬ (s.portState port).isIdle then (s.modPort port PortState.overrun).drive
  else
    match body with
    | .badLength => (s.modPort port fun ps => ps.respond code (.badField, .empty)).drive
    | .fields a =>
      match serve a s with
      | .answer status content =>
        (s.modPort port fun ps => ps.respond code (status, content)).drive
      | .change s' reply =>
        let t := s'.settle
        (t.modPort port fun ps => ps.respond code (reply t)).drive

end Sys2Proof.Machine
end

