-- ==== Sys2Proof/Machine/Clock.lean ====
section
/-! DEFINITION. What the part does when no command waits: the millisecond count goes on, and the timers
that come due put their expiries in the queue of commands. -/

namespace Sys2Proof.Machine

/-- The expiry of the motion timer of a door, by the motion state that armed it. -/
def Motion.expiry (m : Motion) (p : Nat) : Option Instr :=
  match m with
  | .rest => some (.obstructionPauseExpiry p)
  | .waitUnit => none
  | .warning => some (.warningLeadExpiry p)
  | .moving => some (.deadlineExpiry p)
  | .inLocal => some (.passageLimitExpiry p)
  | .recloseDelay => some (.recloseDelayExpiry p)

/-- The expiries due on a record: its staleness deadline, then its motion timer. -/
def Record.dueCommands (now : Nat) (e : Nat × Record) : List Instr :=
  (if due now e.2.staleDeadline && !e.2.aged then [.stalenessDeadlineExpiry e.1] else [])
    ++ (if due now e.2.deadline then (e.2.motion.expiry e.1).toList else [])

/-- The expiries due on a unit. -/
def PowerUnit.dueCommands (now : Nat) (e : Nat × PowerUnit) : List Instr :=
  (if due now e.2.spacingTimer then [.spacingTimerExpiry e.1] else [])
    ++ (if due now e.2.chargeTimer then [.chargeTimerExpiry e.1] else [])

/-- Every expiry due, records by position, then units, the bulk walk and the ECLOSE input. -/
def State.dueCommands (s : State) : List Instr :=
  s.records.flatMap (Record.dueCommands s.clock)
    ++ s.units.flatMap (PowerUnit.dueCommands s.clock)
    ++ (if due s.clock s.walk.stepTimer then [.bulkStepExpiry] else [])
    ++ (if due s.clock s.ecloseTimer then [.ecloseDebounceExpiry] else [])

/-- One millisecond passes: the count goes on, and the expiries due join the queue. -/
def State.advance (s : State) : State :=
  { s with clock := s.clock + 1
           pending := s.pending ++ State.dueCommands { s with clock := s.clock + 1 } }

/-- The step of a part with no command waiting. In reset nothing happens; hand-offs of the last event that
are still on the agenda are taken; otherwise a millisecond passes. -/
def State.tick (s : State) : State :=
  if s.inReset then s
  else if s.agenda ≠ [] then s.settle.drive
  else s.advance.drive

end Sys2Proof.Machine
end

