-- ==== Sys2Proof/Machine/Reports.lean ====
section
/-! DEFINITION. The contents of responses: the whole record (R13), list entries (R191), the ship summary
(R192), orders (R195), alarms (R194), changes (R193), units (R99), lines (R121) and the walk (R172). -/

namespace Sys2Proof.Machine

/-- OK, or CLAMPED where a quantity was clamped (R189). -/
def okOr (clamped : Bool) : Status := if clamped then .clamped else .ok

/-- The time remaining to an uptime, in milliseconds. -/
def remainingTo (now : Nat) (timer : Option Nat) : Option Nat := timer.map fun t => t - now

/-- The whole record (R13). -/
def State.recordReport (s : State) (p : Nat) (r : Record) : RecordReport :=
  { position := p, lifecycle := r.lifecycle, cfg := r.cfg, report := r.report,
    lastGoodAge := r.lastGood.map (heldAge s.clock), missed := r.missed, mark := r.mark,
    indicated := r.indicated, qualifiers := r.qualifiers, causes := r.causes, flags := r.flags,
    motion := r.motion, target := r.target, purpose := r.purpose, govSlot := r.govSlot,
    waitReason := r.waitReason, remaining := remainingTo s.clock r.deadline, attempts := r.attempts,
    heldDebit := r.heldDebit, releaseAttempts := r.releaseAttempts }

/-- The record at a position, as a response carries it. -/
def State.recordContent (s : State) (p : Nat) : Content :=
  match s.rec? p with
  | some r => .record (s.recordReport p r)
  | none => .empty

/-- An entry of LIST ZONE (R191). -/
def State.listEntry? (s : State) (p : Nat) : Option ListEntry :=
  (s.rec? p).map fun r =>
    { position := p, number := r.cfg.number, cls := r.cfg.cls, lifecycle := r.lifecycle,
      indicated := r.indicated, qualifiers := r.qualifiers }

/-- Counted and not proven closed, by the classes of R38. -/
def Record.notProvenClosed (r : Record) : Bool :=
  r.counted && (r.countsUnproven || decide (r.indicated ≠ .closed))

/-- The counted records that are not proven closed, in the order of the directory (R192). -/
def State.openDoors (s : State) : List OpenDoor :=
  s.directory.filterMap fun e =>
    match s.rec? e.2 with
    | some r =>
      if r.notProvenClosed then
        some { number := e.1, position := e.2, indicated := r.indicated, qualifiers := r.qualifiers }
      else none
    | none => none

/-- The ship part of SUMMARY (R192). -/
def State.shipReport (s : State) : ShipReport :=
  { summary := s.shipSummary, zones := s.zoneSummaries.map Summary.state, phase := s.phase,
    outstanding := if s.phase = .sweep then some s.outstandingCount else none,
    allClosed := s.allClosedCond, overflow := s.overflow,
    stack := s.stack.reverse.map fun k => (k, s.priorityOf k),
    pendingOrders := s.pendingOrders,
    openCount := s.openDoors.length, openDoors := s.openDoors.take 16 }

/-- The members an order reports, from a member start index (R195). -/
def State.memberReports (s : State) (o : Order) (start : Nat) : List MemberReport :=
  ((o.snapshot.getD []).drop start |>.take 16).map fun m =>
    { position := m.position,
      number := if m.freed then none else (s.rec? m.position).map fun r => r.cfg.number,
      outcome := m.outcome }

def Order.members (o : Order) : Nat := (o.snapshot.getD []).length

/-- The order record as ORDER STATUS reports it (R195). -/
def State.orderReport (s : State) (slot : Nat) (o : Order) (start : Nat) : OrderReport :=
  { slot := slot, source := o.source, tag := o.tag, priority := o.priority, kind := o.kind,
    scope := o.scope, withdraw := o.withdraw, state := o.state,
    onTop := decide (s.stack.head? = some slot), members := o.members, done := o.done,
    failed := o.failed, repeats := o.repeats, issuing := o.issuing, result := o.result,
    finishedAge := o.finished.map (heldAge s.clock), listed := s.memberReports o start }

/-- The position READ ALARMS gives beside a door number (R153). -/
def State.subjectPosition (s : State) : Subject → Option Nat
  | .door n => Keyed.get? s.directory n
  | .unit _ => none

/-- The entries of the alarm list from a start index, up to 8 (R194). -/
def State.alarmReports (s : State) (start : Nat) : List AlarmReport :=
  ((s.alarmList.zipIdx).drop start |>.take 8).map fun e =>
    { index := e.2, subject := e.1.subject, position := s.subjectPosition e.1.subject,
      kind := e.1.kind, state := e.1.state, age := heldAge s.clock e.1.raised }

/-- What READ CHANGES reports for one marked position (R193). -/
def State.changeReport? (s : State) (port : Port) (p : Nat) : Option ChangeReport :=
  match s.rec? p with
  | some r =>
    some (.holds p r.cfg.number r.lifecycle r.cfg.cls r.indicated r.qualifiers r.motion r.target
      r.causes r.flags)
  | none => (Keyed.get? (s.portState port).freed p).map fun f => .freed p f.number f.reason

/-- A waiting door as UNIT READ reports it (R99). -/
def State.waitingDoor? (s : State) (p : Nat) : Option WaitingDoor :=
  (s.rec? p).map fun r =>
    { number := r.cfg.number, position := p, reason := r.waitReason, purpose := r.purpose,
      target := r.target, queueClass := r.queueClass }

/-- An unconfigured unit: C = 0 and Qm = 0, the other fields at their defaults (R97, R99). -/
def unconfiguredReport (u : Nat) : UnitReport :=
  { number := u, configured := false, capacity := 0, floor := 0, rate := 0, concurrency := 1,
    spacing := 1000, tolerance := 0, monitor := none, supply := .mains, enables := unitKinds,
    visible := 0, charge := 0, lastAccrual := 0, reconciled := false, strokes := 0,
    lastStartAge := none, monitorMissed := 0, causes := [], flags := [], chargeRemaining := none,
    spacingRemaining := none, waiting := 0, doors := [] }

/-- A unit as UNIT READ and UNIT SET report it (R99). -/
def State.unitReport (s : State) (u start : Nat) : UnitReport :=
  match s.unit? u with
  | none => unconfiguredReport u
  | some w =>
    { number := u, configured := true, capacity := w.capacity, floor := w.floor, rate := w.rate,
      concurrency := w.concurrency, spacing := w.spacing, tolerance := w.tolerance,
      monitor := w.monitor, supply := w.supply, enables := w.enables, visible := w.visible,
      charge := w.charge, lastAccrual := BitVec.ofNat 32 w.lastAccrual, reconciled := w.reconciled,
      strokes := w.strokes, lastStartAge := w.lastStart.map (heldAge s.clock),
      monitorMissed := w.monitorMissed, causes := w.causes, flags := w.flags,
      chargeRemaining := remainingTo s.clock w.chargeTimer,
      spacingRemaining := remainingTo s.clock w.spacingTimer, waiting := w.queue.length,
      doors := (w.queue.drop start |>.take 16).filterMap s.waitingDoor? }

/-- The current calendar slot of a line (R121, R135); absent in the monitor pass: DESIGN CHOICE, log entry 66. -/
def CalendarPlace.slot? : CalendarPlace → Option Nat
  | .slot i _ _ => some i
  | .monitors _ => none

/-- A line as LINE SET reports it (R121). -/
def State.lineReport (s : State) (n : LineNo) : LineReport :=
  let l := s.line n
  { line := n, enabled := l.enabled, rate := l.rate, window := l.window, queued := l.queue.length,
    commands := (l.queue.take 16).map fun e =>
      { number := (s.rec? e.position).map fun r => r.cfg.number, position := e.position,
        command := e.command }
    exchange := l.exchange.map fun x => (x.kind, x.target, x.source),
    slot := l.place.slot?, pointers := l.pointers, sweepActive := l.sweep.active,
    sweepCursor := l.sweep.cursor }

/-- The walk record; in NONE the state and the number alone (R172). -/
def State.walkReport (s : State) : WalkReport :=
  let w := s.walk
  match w.state with
  | .idle =>
    { state := .idle, number := w.number, plan := none, cursor := none, toNextVisit := none,
      counts := none, result := none }
  | .running | .ended =>
    { state := w.state, number := w.number, plan := w.plan, cursor := some w.cursor,
      toNextVisit := remainingTo s.clock w.stepTimer,
      counts := w.counts, result := w.result }

/-- IDENT on a port (R197). -/
def State.identReport (s : State) (port : Port) : IdentReport :=
  { vendor := "Zarkel", part := "WP416", revision := Config.siliconRevision, phase := s.phase,
    eclose := s.ecloseState, uptime := s.uptime, port := port,
    badFrames := (s.portState port).badFrames, overruns := (s.portState port).overruns,
    conditions := s.conditions port }

end Sys2Proof.Machine
end

