-- ==== Sys2Proof/Machine/AlarmRequests.lean ====
section
/-! DEFINITION. The requests that read and acknowledge: READ ALARMS, ACK ALARM, CLEAR FLAGS and READ
CHANGES. -/

namespace Sys2Proof.Machine

/-! ### READ ALARMS (R194) -/

/-- READ ALARMS (R194). -/
def State.serveReadAlarms (start : Nat) (s : State) : Served :=
  if start > 63 then .refuse .badField
  else
    .answer .ok
      (.alarms s.alarms.length s.overflow (s.alarms.countP Alarm.unacknowledged)
        (s.alarmReports start))

/-- READ ALARMS. -/
def execReadAlarms (port : Port) (body : Body Nat) (s : State) : Host.Outcome State Fault Refusal :=
  .next (s.request port 0x0A body State.serveReadAlarms)

/-! ### ACK ALARM (R156) -/

/-- One entry is acknowledged (R155). The counts are the entries acknowledged and the entries removed. -/
def State.ackOne (s : State) (subject : Subject) (k : FaultKind) : State × Nat × Nat :=
  match s.alarm? subject k with
  | some a =>
    match a.state with
    | .unackActive => (s.setAlarm subject k .ackActive, 1, 0)
    | .ackActive => (s, 0, 0)
    | .unackCleared => (s.removeAlarm subject k, 0, 1)
  | none => (s, 0, 0)

/-- All entries held when the request is taken, in list order. -/
def State.ackAll (s : State) : State × Nat × Nat :=
  s.alarmList.foldl
    (fun acc a =>
      let one := acc.1.ackOne a.subject a.kind
      (one.1, acc.2.1 + one.2.1, acc.2.2 + one.2.2))
    (s, 0, 0)

/-- How a request's subject and kind name a pair. -/
inductive PairName where
  | badField
  | notFound
  | pair (subject : Subject) (k : FaultKind)
  deriving DecidableEq, Repr

/-- The pair an ACK ALARM names; BAD_FIELD is judged before NOT_FOUND. -/
def State.pairOf (s : State) (name : SubjectName) (kind : Named FaultKind) : PairName :=
  match kind with
  | .outside => .badField
  | .is k =>
    match name with
    | .unit u => if u ≤ 31 ∧ k.isUnit then .pair (.unit u) k else .badField
    | .door d =>
      if k.isUnit then .badField
      else
        match s.resolve d with
        | .badField => .badField
        | .notFound => .notFound
        | .found _ r => .pair (.door r.cfg.number) k

/-- ACK ALARM at the fault and alarm unit (R156). -/
def State.serveAckAlarm (q : AckReq) (s : State) : Served :=
  match q with
  | .all =>
    .change s.ackAll.1 fun t => (.ok, .acknowledged s.ackAll.2.1 s.ackAll.2.2 t.overflow)
  | .one name kind =>
    match s.pairOf name kind with
    | .badField => .refuse .badField
    | .notFound => .refuse .notFound
    | .pair subject k =>
      if (s.alarm? subject k).isNone then .refuse .notFound
      else
        let one := s.ackOne subject k
        .change one.1 fun t => (.ok, .acknowledged one.2.1 one.2.2 t.overflow)

/-- ACK ALARM. -/
def execAckAlarm (port : Port) (body : Body AckReq) (s : State) : Host.Outcome State Fault Refusal :=
  .next (s.request port 0x0B body State.serveAckAlarm)

/-! ### CLEAR FLAGS (R143) -/

/-- The kinds a request names; all kinds where it carries none. -/
def kindsNamed (kinds : Option (Naming FaultKind)) : List FaultKind :=
  match kinds with
  | some n => n.items
  | none => allKinds

/-- The kinds a request names all meet a test, and none lies outside; all kinds always do. -/
def kindsAre (ok : FaultKind → Bool) (kinds : Option (Naming FaultKind)) : Bool :=
  match kinds with
  | some n => !n.outside && n.items.all ok
  | none => true

/-- A flag that a CLEAR FLAGS leaves set: its cause is present while its enable is off. -/
def flagStands (causes enables : List FaultKind) (k : FaultKind) : Bool :=
  causes.contains k && !enables.contains k

/-- The flags left after those of `named` that may be cleared are cleared. -/
def flagsAfter (named causes enables flags : List FaultKind) : List FaultKind :=
  flags.filter fun k => !named.contains k || flagStands causes enables k

/-- The named flags that are kept. -/
def flagsKept (named causes enables flags : List FaultKind) : Nat :=
  flags.countP fun k => named.contains k && flagStands causes enables k

/-- The flags of a door are cleared. -/
def State.clearDoorFlags (s : State) (p : Nat) (named : List FaultKind) : State :=
  s.modRec p fun r => { r with flags := flagsAfter named r.causes r.cfg.enables r.flags }

/-- The flags of a unit are cleared. -/
def State.clearUnitFlags (s : State) (u : Nat) (named : List FaultKind) : State :=
  s.modUnit u fun w => { w with flags := flagsAfter named w.causes w.enables w.flags }

/-- Every record and every configured unit (R143). -/
def State.clearShipFlags (s : State) (named : List FaultKind) : State :=
  let s := (s.records.map Prod.fst).foldl (fun s p => s.clearDoorFlags p named) s
  (s.units.map Prod.fst).foldl (fun s u => s.clearUnitFlags u named) s

/-- The number of flags set on the ship. -/
def State.flagCount (s : State) : Nat :=
  (s.records.map fun e => e.2.flags.length).sum + (s.units.map fun e => e.2.flags.length).sum

/-- The number of named flags that stay set on the ship. -/
def State.flagsKeptCount (s : State) (named : List FaultKind) : Nat :=
  (s.records.map fun e => flagsKept named e.2.causes e.2.cfg.enables e.2.flags).sum
    + (s.units.map fun e => flagsKept named e.2.causes e.2.enables e.2.flags).sum

/-- CLEAR FLAGS at the fault and alarm unit (R143); BAD_FIELD is judged before NOT_FOUND. -/
def State.serveClearFlags (q : ClearFlagsReq) (s : State) : Served :=
  let named := kindsNamed q.kinds
  match q.subject with
  | .ship =>
    if kindsAre (fun _ => true) q.kinds then
      let s' := s.clearShipFlags named
      .change s' fun _ =>
        (.ok, .flagsCleared (s.flagCount - s'.flagCount) (s.flagsKeptCount named))
    else .refuse .badField
  | .unit u =>
    if u > 31 ∨ ¬ kindsAre FaultKind.isUnit q.kinds then .refuse .badField
    else
      match s.unit? u with
      | none => .refuse .notFound
      | some w =>
        .change (s.clearUnitFlags u named) fun _ =>
          (.ok, .flagsLeft (flagsAfter named w.causes w.enables w.flags))
  | .door d =>
    if ¬ kindsAre FaultKind.maskable q.kinds then .refuse .badField
    else
      match s.resolve d with
      | .badField => .refuse .badField
      | .notFound => .refuse .notFound
      | .found p r =>
        .change (s.clearDoorFlags p named) fun _ =>
          (.ok, .flagsLeft (flagsAfter named r.causes r.cfg.enables r.flags))

/-- CLEAR FLAGS. -/
def execClearFlags (port : Port) (body : Body ClearFlagsReq) (s : State) :
    Host.Outcome State Fault Refusal :=
  .next (s.request port 0x0C body State.serveClearFlags)

/-! ### READ CHANGES (R193) -/

/-- The positions one READ CHANGES reports: the lowest marked ones, up to eight. -/
def State.changesRead (s : State) (port : Port) : List Nat := (s.portState port).marks.take 8

/-- A port reads its changes: the marks read are cleared, with the port's freed reports there (R44). -/
def PortState.readChanges (ps : PortState) : PortState :=
  { ps with marks := ps.marks.drop 8
            freed := ps.freed.filter fun e => !(ps.marks.take 8).contains e.1 }

/-- READ CHANGES (R193). -/
def State.serveReadChanges (port : Port) (_ : Unit) (s : State) : Served :=
  .change (s.modPort port PortState.readChanges) fun _ =>
    (.ok, .changes ((s.changesRead port).filterMap (s.changeReport? port))
      ((s.portState port).marks.drop 8).length)

/-- READ CHANGES. -/
def execReadChanges (port : Port) (body : Body Unit) (s : State) : Host.Outcome State Fault Refusal :=
  .next (s.request port 0x0D body (State.serveReadChanges port))

end Sys2Proof.Machine
end

