-- ==== Sys2Proof/Machine/BulkRequests.lean ====
section
/-! DEFINITION. The requests of the bulk update engine: BULK, BULK ABORT and BULK STATUS. -/

namespace Sys2Proof.Machine

/-! ### BULK (R162) -/

/-- The class criterion; a class outside P, H and S gives nothing. -/
def classGiven : Option (Named DoorClass) → Option (Option DoorClass)
  | none => some none
  | some (.is c) => some (some c)
  | some .outside => none

/-- The set-lifecycle command: IN_SERVICE or ISOLATED. -/
def lifecycleGiven : Option (Named Lifecycle) → Option (Option Lifecycle)
  | none => some none
  | some (.is .inService) => some (some .inService)
  | some (.is .isolated) => some (some .isolated)
  | some _ => none

/-- Step 1 of R162: the plan of a walk, or BAD_FIELD. -/
def State.bulkPlan (s : State) (q : BulkReq) : Option BulkPlan :=
  match classGiven q.cls, lifecycleGiven q.setLifecycle with
  | some cls, some lifecycle =>
    if q.first ≤ q.last ∧ q.last ≤ 255 ∧ inRange 1 24 q.zone ∧ inRange 0 31 q.unit
        ∧ permsOk q.setPerms ∧ enablesOk q.setEnables ∧ s.unitOk q.setUnit then
      some
        { first := q.first, last := q.last, zone := q.zone, unit := q.unit, cls := cls,
          mask := q.mask, value1 := q.value1, value2 := q.value2, setLifecycle := lifecycle,
          setPerms := q.setPerms.map fun n => permSet n.items, setUnit := q.setUnit,
          setTag := q.setTag, setNormallyClosed := q.setNormallyClosed,
          setEnables := q.setEnables.map fun n => kindSet n.items }
    else none
  | _, _ => none

/-- The walk number rises by one, from 65535 to 1. -/
def nextWalkNumber (n : Nat) : Nat := if n ≥ 65535 then 1 else n + 1

/-- A new walk (R162). -/
def State.startWalk (s : State) (b : BulkPlan) : State :=
  s.modWalk fun w =>
    { state := .running, number := nextWalkNumber w.number, plan := some b, cursor := b.first,
      stepTimer := some (s.clock + 1),
      counts := some { visited := 0, matched := 0, changed := 0, skipped := 0 }, result := none }

/-- BULK at the bulk update engine (R162). -/
def State.serveBulk (q : BulkReq) (s : State) : Served :=
  match s.bulkPlan q with
  | none => .refuse .badField
  | some b =>
    if s.walk.state = .running then .refuse .busy
    else .change (s.startWalk b) fun t => (.ok, .walk t.walkReport)

/-- BULK. -/
def execBulk (port : Port) (body : Body BulkReq) (s : State) : Host.Outcome State Fault Refusal :=
  .next (s.request port 0x0E body State.serveBulk)

/-! ### BULK ABORT and BULK STATUS (R171, R172) -/

/-- A RUNNING walk ends ABORTED, and its end is handed to the power-unit accounts (R171). -/
def State.abortWalk (s : State) : State :=
  if s.walk.state = .running then (s.endWalk .aborted).later [.walkEnded] else s

/-- BULK ABORT (R171). -/
def State.serveBulkAbort (_ : Unit) (s : State) : Served :=
  .change s.abortWalk fun t => (.ok, .walk t.walkReport)

/-- BULK ABORT. -/
def execBulkAbort (port : Port) (body : Body Unit) (s : State) : Host.Outcome State Fault Refusal :=
  .next (s.request port 0x0F body State.serveBulkAbort)

/-- BULK STATUS (R172). -/
def State.serveBulkStatus (_ : Unit) (s : State) : Served := .answer .ok (.walk s.walkReport)

/-- BULK STATUS. -/
def execBulkStatus (port : Port) (body : Body Unit) (s : State) : Host.Outcome State Fault Refusal :=
  .next (s.request port 0x10 body State.serveBulkStatus)

end Sys2Proof.Machine
end

