-- ==== Sys2Proof/Machine/DoorRequests.lean ====
section
/-! DEFINITION. The requests of the door table and the indication unit: ENROL, CHANGE, RETIRE, LOOKUP,
LIST ZONE and SUMMARY. -/

namespace Sys2Proof.Machine

/-! ### ENROL (R10 to R12) -/

/-- The lifecycle asked for: ENROLLED by default, or ISOLATED (R10, R11). -/
def lifecycleAsked : Option (Named Lifecycle) → Option Lifecycle
  | none => some .enrolled
  | some (.is .enrolled) => some .enrolled
  | some (.is .isolated) => some .isolated
  | some _ => none

/-- The P fields of a record that becomes class P: the unit and both costs must be given (R10, R14). -/
def FieldArgs.newPower (a : FieldArgs) : Option (PowerFields × Bool) :=
  match a.unit, a.closeCost, a.openCost with
  | some u, some _, some _ => some ((PowerFields.defaults u).withArgs a)
  | _, _, _ => none

/-- The enables a request carries, or else what the record has. -/
def FieldArgs.enablesOr (a : FieldArgs) (present : List FaultKind) : List FaultKind :=
  match a.enables with
  | some n => kindSet n.items
  | none => present

/-- The configured fields of a new record and whether a quantity was clamped; nothing where a field that
must be given is missing, or the class or line names none (R3, R10, R11). -/
def FieldArgs.newConfig (a : FieldArgs) : Option (Configured × Bool) :=
  match a.number, a.cls, a.address, a.zone with
  | some number, some (.is cls), some (l, station), some zone =>
    match lineOf l with
    | none => none
    | some line =>
      let limit := quantity 200 20000 a.staleLimit 2000
      let base : Configured :=
        { number := number, cls := cls, line := line, station := station, zone := zone,
          rank := a.rank.getD 0, staleLimit := limit.1, tag := a.tag.getD 0,
          enables := FieldArgs.enablesOr a maskableKinds, power := none }
      match cls with
      | .P =>
        match FieldArgs.newPower a with
        | some pf => some ({ base with power := some pf.1 }, limit.2 || pf.2)
        | none => none
      | .H => some (base, limit.2)
      | .S => some (base, limit.2)
  | _, _, _, _ => none

/-- Step 1 of R11: the lifecycle, the configured fields and the clamping, or BAD_FIELD. -/
def State.enrolForm (s : State) (q : EnrolReq) : Option (Lifecycle × Configured × Bool) :=
  match lifecycleAsked q.lifecycle, FieldArgs.newConfig q.args with
  | some l, some (cfg, clamped) =>
    if q.position ≤ 255 ∧ FieldArgs.commonOk q.args ∧ (cfg.cls = .P → s.powerArgsOk q.args) then
      some (l, cfg, clamped)
    else none
  | _, _ => none

/-- Step 3 of R11: the door number or the field address is in use (R4). -/
def State.enrolDuplicate (s : State) (cfg : Configured) : Bool :=
  (Keyed.get? s.directory cfg.number).isSome || s.addressTaken cfg.line cfg.station none

/-- The values of a record at its enrolment (R5). -/
def Record.enrolled (l : Lifecycle) (cfg : Configured) : Record :=
  { lifecycle := l, cfg := cfg, report := none, lastGood := none, missed := 0, mark := false,
    indicated := .unknown, aged := false, causes := [], flags := [], motion := .rest, purpose := none,
    target := none, govSlot := none, waitReason := none, queueClass := none, deadline := none,
    attempts := 0, heldDebit := none, releaseAttempts := none }

/-- A freed report that a port has not read is discarded when a record is enrolled at its position
(R23). -/
def PortState.dropFreed (ps : PortState) (p : Nat) : PortState :=
  { ps with freed := Keyed.remove ps.freed p }

/-- A record enters the table, the directory and the list of its zone; a freed report of its position that
a port has not read is discarded (R12, R23). -/
def State.enterTable (s : State) (p : Nat) (r : Record) : State :=
  let s := ((s.putRec p r).joinDirectory r.cfg.number p).joinZone r.cfg.zone p
  { s with portA := s.portA.dropFreed p, portB := s.portB.dropFreed p }

/-- The record is created in one step (R12). -/
def State.enrolRecord (s : State) (p : Nat) (l : Lifecycle) (cfg : Configured) : State :=
  ((s.enterTable p (Record.enrolled l cfg)).markBoth p).rejoinSweep p

/-- ENROL at the door table (R10 to R12). -/
def State.serveEnrol (q : EnrolReq) (s : State) : Served :=
  let refused := fun (st : Status) => Served.answer st (.echo q.position q.args.number)
  match s.enrolForm q with
  | none => refused .badField
  | some (l, cfg, clamped) =>
    if (s.rec? q.position).isSome then refused .busy
    else if s.enrolDuplicate cfg then refused .duplicate
    else
      .change (s.enrolRecord q.position l cfg) fun t =>
        (okOr clamped, .enrolled q.position cfg.number l (t.uncovered q.position))

/-- ENROL. -/
def execEnrol (port : Port) (body : Body EnrolReq) (s : State) : Host.Outcome State Fault Refusal :=
  .next (s.request port 0x01 body State.serveEnrol)

/-! ### CHANGE (R14 to R20) -/

/-- The class the record is to have. -/
def FieldArgs.classOr (a : FieldArgs) (present : DoorClass) : DoorClass :=
  match a.cls with
  | some (.is c) => c
  | _ => present

/-- BAD_FIELD of R14, as far as it needs no record: the name, the identifiers and sets, the lifecycle. -/
def ChangeReq.formOk (q : ChangeReq) : Bool :=
  nameInRange q.name && FieldArgs.commonOk q.args
    && (match q.lifecycle with
      | none => true
      | some (.is .inService) => true
      | some (.is .isolated) => true
      | some _ => false)

/-- BAD_FIELD of R14 for a name that finds no record: a P field out of its range or set. Only class H or S
ignores it (R3), so it counts unless the request carries one of these: DESIGN CHOICE, log entry 25. -/
def ChangeReq.powerUnfit (q : ChangeReq) : Bool :=
  decide (FieldArgs.classOr q.args .P = .P) && !FieldArgs.powerFormOk q.args

/-- BAD_FIELD of R14, as far as it needs the record: its own door number, and the P fields where the
class of the record after the CHANGE is P. A record that goes from P to H or S ignores them: DESIGN CHOICE, log
entry 25. -/
def State.changeFits (s : State) (r : Record) (a : FieldArgs) : Bool :=
  (match a.number with
    | some n => decide (n = r.cfg.number)
    | none => true)
  && (decide (FieldArgs.classOr a r.cfg.cls ≠ .P) || s.powerArgsOk a)
  && (decide (FieldArgs.classOr a r.cfg.cls ≠ .P) || decide (r.cfg.cls = .P) || (FieldArgs.newPower a).isSome)

/-- BUSY of R14: RETIRING, or a carried field whose change the present motion forbids (R17 to R19). -/
def State.changeBusy (s : State) (p : Nat) (r : Record) (q : ChangeReq) : Bool :=
  decide (r.lifecycle = .retiring)
    || (decide (q.lifecycle = some (.is .isolated)) && r.isolationBusy)
    || ((q.args.cls.isSome || q.args.address.isSome)
        && (decide (r.motion ≠ .rest) || s.commandOutstanding p r))
    || (q.args.unit.isSome && decide (r.cfg.cls = .P) && decide (FieldArgs.classOr q.args r.cfg.cls = .P)
        && s.unitBusy p r)

/-- DUPLICATE of R14: a new field address is in use (R4). -/
def State.changeDuplicate (s : State) (p : Nat) (a : FieldArgs) : Bool :=
  match a.address with
  | some (l, station) =>
    match lineOf l with
    | some n => s.addressTaken n station (some p)
    | none => false
  | none => false

/-- The P fields of a record that is given a class: kept where it stays class P, new where it becomes
class P, absent otherwise. -/
def FieldArgs.powerFor (a : FieldArgs) (cls : DoorClass) (present : Option PowerFields) :
    Option (PowerFields × Bool) :=
  match cls, present with
  | .P, some pf => some (pf.withArgs a)
  | .P, none => FieldArgs.newPower a
  | .H, _ => none
  | .S, _ => none

/-- A quantity of the request lies outside its range, where its field is present (R3). -/
def FieldArgs.clamps (a : FieldArgs) (r : Record) : Bool :=
  (quantity 200 20000 a.staleLimit r.cfg.staleLimit).2
    || (match FieldArgs.powerFor a (FieldArgs.classOr a r.cfg.cls) r.cfg.power with
      | some pf => pf.2
      | none => false)

/-- The class a CHANGE carries, with the P fields that go with it. -/
def State.changeClass (s : State) (p : Nat) (r : Record) (cls : DoorClass)
    (power : Option PowerFields) : State :=
  if cls = r.cfg.cls then s.modCfg p fun c => { c with power := power } else s.setClass p cls power

/-- The field address a CHANGE carries. -/
def State.changeAddress (s : State) (p : Nat) (address : Option (Nat × Nat)) : State :=
  match address with
  | some (l, station) =>
    match lineOf l with
    | some n => s.setAddress p n station
    | none => s
  | none => s

/-- The unit a CHANGE carries; a record of class H or S takes none. -/
def State.changeUnitField (s : State) (p : Nat) (cls : DoorClass) (unit : Option Nat) : State :=
  match unit with
  | some u => if cls = .P then s.setUnit p u else s
  | none => s

/-- The zone and rank of a CHANGE; the lists move only where one of them differs (R9). -/
def State.changeZoneRank (s : State) (p : Nat) (c : Configured) (zone : Nat) (rank : Byte) : State :=
  if zone = c.zone ∧ rank = c.rank then s else s.setZoneRank p zone rank

/-- The staleness limit a CHANGE carries, clamped. -/
def State.changeStaleLimit (s : State) (p : Nat) (limit : Option Nat) : State :=
  match limit with
  | some n => s.setStaleLimit p (clampTo 200 20000 n)
  | none => s

/-- The alarm enables a CHANGE carries. -/
def State.changeEnables (s : State) (p : Nat) (enables : Option (Naming FaultKind)) : State :=
  match enables with
  | some n => s.setDoorEnables p (kindSet n.items)
  | none => s

/-- All carried fields of an accepted CHANGE (R14). Isolation comes first, as in a bulk visit (R166), and
the return to service last, so that the door is evaluated on its new values. The enables are switched before the
PD and IC of a new class are judged and before a state that is STALE no longer reaches the fault and alarm unit:
these stand on the agenda. DESIGN CHOICE, log entry 25. -/
def State.applyChange (s : State) (p : Nat) (r : Record) (q : ChangeReq) : State :=
  let a := q.args
  let cls : DoorClass := FieldArgs.classOr a r.cfg.cls
  let power := (FieldArgs.powerFor a cls r.cfg.power).map Prod.fst
  let s := if q.lifecycle = some (.is .isolated) then s.isolate p else s
  let s := s.changeClass p r cls power
  let s := s.changeAddress p a.address
  let s := s.changeUnitField p cls a.unit
  let s := s.changeZoneRank p r.cfg (a.zone.getD r.cfg.zone) (a.rank.getD r.cfg.rank)
  let s := s.modCfg p fun c => { c with tag := a.tag.getD c.tag }
  let s := s.changeStaleLimit p a.staleLimit
  let s := s.changeEnables p a.enables
  let s := if q.lifecycle = some (.is .inService) then s.unisolate p else s
  (s.costChanged p r.cfg.power).markBoth p

/-- CHANGE at the door table (R14). -/
def State.serveChange (q : ChangeReq) (s : State) : Served :=
  if ¬ ChangeReq.formOk q then .refuse .badField
  else
    match s.resolve q.name with
    | .badField => .refuse .badField
    | .notFound => .refuse (if ChangeReq.powerUnfit q then .badField else .notFound)
    | .found p r =>
      if ¬ s.changeFits r q.args then .refuse .badField
      else if s.changeBusy p r q then .refuse .busy
      else if s.changeDuplicate p q.args then .refuse .duplicate
      else
        .change (s.applyChange p r q) fun t => (okOr (FieldArgs.clamps q.args r), t.recordContent p)

/-- CHANGE. -/
def execChange (port : Port) (body : Body ChangeReq) (s : State) : Host.Outcome State Fault Refusal :=
  .next (s.request port 0x02 body State.serveChange)

/-! ### RETIRE (R21) -/

/-- An accepted RETIRE outside BUILD: the record becomes RETIRING, every stacked order that holds it
uncounted counts it failed RETIRED, and its RELEASE is queued (R21, R95). On a disabled line the retirement
completes, with its relist scans, before the completion checks of the orders so charged, and the RELEASE of an
enabled line is queued before them too: DESIGN CHOICE, log entry 77. The orders are charged and checked from the top
of the stack down: DEDUCED, log entry 44. -/
def State.beginRetirement (s : State) (p : Nat) (r : Record) : State :=
  let s := s.modRec p fun r =>
    { r with lifecycle := .retiring, releaseAttempts := some 0, purpose := none, deadline := none }
  let counted := (s.chargeAll p .retired).first (s.stack.map Task.complete)
  if (s.line r.cfg.line).enabled then counted.queueCommand p .release
  else counted.retirementEnds p .noAck

/-- The lifecycle a RETIRE has reached. -/
def State.reached (s : State) (p : Nat) : Reached :=
  match s.rec? p with
  | some r => .holds r.lifecycle
  | none => .free

/-- RETIRE at the door table (R21). -/
def State.serveRetire (name : DoorName) (s : State) : Served :=
  match s.resolve name with
  | .badField => .refuse .badField
  | .notFound => .refuse .notFound
  | .found p r =>
    if r.lifecycle = .retiring ∨ r.motion ≠ .rest then .refuse .busy
    else
      let s' :=
        if s.phase = .build then s.retirementEnds p .immediate else s.beginRetirement p r
      .change s' fun t => (.ok, .retired p r.cfg.number (t.reached p))

/-- RETIRE. -/
def execRetire (port : Port) (body : Body DoorName) (s : State) : Host.Outcome State Fault Refusal :=
  .next (s.request port 0x03 body State.serveRetire)

/-! ### LOOKUP, LIST ZONE, SUMMARY (R13, R191, R192) -/

/-- LOOKUP at the door table (R13). -/
def State.serveLookup (name : DoorName) (s : State) : Served :=
  match s.resolve name with
  | .badField => .refuse .badField
  | .notFound => .refuse .notFound
  | .found p r => .answer .ok (.record (s.recordReport p r))

/-- LOOKUP. -/
def execLookup (port : Port) (body : Body DoorName) (s : State) : Host.Outcome State Fault Refusal :=
  .next (s.request port 0x04 body State.serveLookup)

/-- The positions of the list a request names: a zone list, or the directory (R191). -/
def State.listOf (s : State) : ZoneName → List Nat
  | .zone z => s.zoneList z
  | .ship => s.directory.map Prod.snd

/-- A zone lies in 1 to 24; the ship is always named rightly. -/
def ZoneName.ok : ZoneName → Bool
  | .zone z => decide (1 ≤ z) && decide (z ≤ 24)
  | .ship => true

/-- LIST ZONE (R191). -/
def State.serveListZone (q : ListZoneReq) (s : State) : Served :=
  if ¬ ZoneName.ok q.which then .refuse .badField
  else
    let all := s.listOf q.which
    .answer .ok (.listing all.length ((all.drop q.start |>.take 16).filterMap s.listEntry?))

/-- LIST ZONE. -/
def execListZone (port : Port) (body : Body ListZoneReq) (s : State) :
    Host.Outcome State Fault Refusal :=
  .next (s.request port 0x05 body State.serveListZone)

/-- SUMMARY (R192). -/
def State.serveSummary (which : ZoneName) (s : State) : Served :=
  if ¬ ZoneName.ok which then .refuse .badField
  else
    match which with
    | .zone z => .answer .ok (.zone (s.zoneSummary z))
    | .ship => .answer .ok (.ship s.shipReport)

/-- SUMMARY. -/
def execSummary (port : Port) (body : Body ZoneName) (s : State) : Host.Outcome State Fault Refusal :=
  .next (s.request port 0x06 body State.serveSummary)

end Sys2Proof.Machine
end

