-- ==== Sys2Proof/Machine/LineRequests.lean ====
section
/-! DEFINITION. The requests of the field lines: LINE SET and CALENDAR SET. -/

namespace Sys2Proof.Machine

/-! ### LINE SET (R121, R122) -/

/-- The three rates. -/
def rateOf (bps : Nat) : Option Rate :=
  if bps = 38400 then some .r38400
  else if bps = 115200 then some .r115200
  else if bps = 230400 then some .r230400
  else none

/-- The rate a request gives; the outer absence is a rate that is not one of the three. -/
def rateGiven : Option Nat → Option (Option Rate)
  | none => some none
  | some bps => (rateOf bps).map some

/-- A line is disabled: every unsent entry is dropped, in queue order, and its waiting, passing and
reclosing doors are treated after them (R122, R127, R94). -/
def State.disableLine (s : State) (n : LineNo) : State :=
  let drops := (s.line n).queue.map fun e => Task.dropped e.position e.command true
  (s.modLine n fun l => { l with enabled := false, queue := [] }).first (drops ++ [.lineLost n])

/-- A line is enabled: its calendar walk resumes at slot 0, its pointers as they stood (R122). -/
def State.enableLine (s : State) (n : LineNo) : State :=
  s.modLine n fun l => { l with enabled := true, place := .slot 0 [] 0 }

/-- A change of the enabled setting; the value already held changes nothing. -/
def State.setEnabled (s : State) (n : LineNo) (enabled : Option Bool) : State :=
  match enabled with
  | some true => if (s.line n).enabled then s else s.enableLine n
  | some false => if (s.line n).enabled then s.disableLine n else s
  | none => s

/-- LINE SET at a line controller (R121). -/
def State.serveLineSet (q : LineSetReq) (s : State) : Served :=
  match lineOf q.line, rateGiven q.rate with
  | some n, some rate =>
    if rate.isSome ∧ s.phase ≠ .build then .refuse .wrongPhase
    else
      let w := quantity 2 100 q.window (s.line n).window
      let s' := s.modLine n fun l => { l with rate := rate.getD l.rate, window := w.1 }
      .change (s'.setEnabled n q.enabled) fun t => (okOr w.2, .line (t.lineReport n))
  | _, _ => .refuse .badField

/-- LINE SET. -/
def execLineSet (port : Port) (body : Body LineSetReq) (s : State) : Host.Outcome State Fault Refusal :=
  .next (s.request port 0x13 body State.serveLineSet)

/-! ### CALENDAR SET (R134) -/

/-- A slot of the request is well placed. -/
def CalSlotArg.placed (c : CalSlotArg) : Bool := decide (c.first ≤ c.last) && decide (c.last ≤ 255)

/-- A slot as used, its visit count clamped to 1 to 64. -/
def CalSlotArg.used (c : CalSlotArg) : CalSlot :=
  { first := c.first, last := c.last, visits := clampTo 1 64 c.visits }

/-- The new calendar replaces the old and every calendar walk restarts at slot 0 (R134). -/
def State.setCalendar (s : State) (slots : List CalSlot) : State :=
  State.modAllLines { s with calendar := slots } fun l =>
    { l with place := .slot 0 [] 0, pointers := slots.map CalSlot.first }

/-- The records no slot range covers, RETIRING ones excluded (R134). -/
def State.uncoveredCount (s : State) : Nat :=
  s.records.countP fun e => e.2.counted && s.uncovered e.1

/-- CALENDAR SET (R134). A number of slots that is not the declared length is answered BAD_FIELD as a body
out of step with its count (R189). -/
def State.serveCalendarSet (q : CalendarReq) (s : State) : Served :=
  if 1 ≤ q.length ∧ q.length ≤ 8 ∧ q.slots.length = q.length ∧ q.slots.all CalSlotArg.placed then
    let slots := q.slots.map CalSlotArg.used
    let clamped := q.slots.any fun c => decide (clampTo 1 64 c.visits ≠ c.visits)
    .change (s.setCalendar slots) fun t =>
      (okOr clamped, .calendar t.calendar.length t.calendar t.uncoveredCount)
  else .refuse .badField

/-- CALENDAR SET. -/
def execCalendarSet (port : Port) (body : Body CalendarReq) (s : State) :
    Host.Outcome State Fault Refusal :=
  .next (s.request port 0x14 body State.serveCalendarSet)

end Sys2Proof.Machine
end

