-- ==== Sys2Proof/WellFormed.lean ====
section
/-! DEFINITION. Which commands a sender can put to the part.

A value a request can carry and the part refuses (an unknown zone, a class outside P, H and S) is a
well-formed command: the part answers it with a status. Ill-formed is what cannot reach the part at all:
an event of a record position, unit or message type that does not exist, a frame of the wrong size, or an
index that its rule says a request cannot carry. -/

namespace Sys2Proof

/-- A request type of the table of R186: 0x01 to 0x18. -/
def knownType (type : Byte) : Bool :=
  decide (1 ≤ type.toNat) && decide (type.toNat ≤ 24)

/-- The fields of a body meet a check; a body of a bad length carries no fields to check. -/
def Body.meets {α : Type} (body : Body α) (ok : α → Bool) : Bool :=
  match body with
  | .fields a => ok a
  | .badLength => true

/-- The queue start index of UNIT READ, where it carries one, is 0 to 255 (R99). -/
def UnitReadReq.startOk : UnitReadReq → Bool
  | .unit _ start => decide (start.getD 0 ≤ 255)
  | .ship => true

/-- The command can reach the part. Each arm names the rule that bounds its operands. -/
def WellFormed (i : Instr) : Bool :=
  match i with
  | .listZone _ b => b.meets fun r => decide (r.start ≤ 255)             -- R191
  | .orderStatus _ b => b.meets fun r => decide (r.memberStart ≤ 255)    -- R195
  | .unitRead _ b => b.meets UnitReadReq.startOk                          -- R99
  | .badType _ type => !knownType type                                    -- R189
  | .badFrame _ bytes => !bytes.isEmpty                                   -- R187
  | .replyReceived _ bytes => decide (bytes.length = 9)                   -- R128
  | .stalenessDeadlineExpiry p => decide (p ≤ 255)                        -- 00_scope.md, positions
  | .spacingTimerExpiry u => decide (u ≤ 31)                              -- 00_scope.md, units
  | .chargeTimerExpiry u => decide (u ≤ 31)
  | .warningLeadExpiry p => decide (p ≤ 255)
  | .deadlineExpiry p => decide (p ≤ 255)
  | .obstructionPauseExpiry p => decide (p ≤ 255)
  | .passageLimitExpiry p => decide (p ≤ 255)
  | .recloseDelayExpiry p => decide (p ≤ 255)
  | .enrol .. | .change .. | .retire .. | .lookup .. | .summary .. | .order .. | .cancel ..
  | .readAlarms .. | .ackAlarm .. | .clearFlags .. | .readChanges .. | .bulk .. | .bulkAbort ..
  | .bulkStatus .. | .unitSet .. | .lineSet .. | .calendarSet .. | .commission .. | .resweep ..
  | .restart .. | .ident .. | .overrun .. | .consoleByteGap .. | .responseSent .. | .rstnLow ..
  | .rstnRelease | .ecloseInputChange .. | .ecloseDebounceExpiry | .guardEnd .. | .requestSent ..
  | .windowExpiry .. | .replyByteGap .. | .bulkStepExpiry | .replyStart .. => true

end Sys2Proof
end

