-- ==== Sys2Proof/Machine/LinkEvents.lean ====
section
/-! DEFINITION. The events of the console links (R187 to R189) that come as whole messages, and those of the
pins RSTN and ECLOSE (R68, R182, R199); Envelope.lean has the link events that come as bytes. An event
whose condition does not hold does not occur, and changes nothing. -/

namespace Sys2Proof.Machine

/-! ### Ports (R187, R188) -/

/-- A bad frame is counted and the receiver hunts (R187). -/
def PortState.badFrame (ps : PortState) : PortState :=
  { ps with receiver := .hunt, badFrames := satInc 65535 ps.badFrames }

/-- A gap of more than 10 ms inside a message makes a bad frame; in HUNT it changes nothing (R187). -/
def PortState.gap (ps : PortState) : PortState :=
  if ps.receiver = .hunt then ps else ps.badFrame

/-- An event at a port, outside reset. -/
def State.portEvent (s : State) (port : Port) (f : PortState → PortState) : State :=
  if s.inReset then s else (s.modPort port f).drive

/-! ### The link events -/

/-- A message of an unknown type completes: BAD_TYPE on an IDLE port, dropped on a SERVING one (R188,
R189). A known type is no such message. -/
def PortState.takeBadType (ps : PortState) (type : Byte) : PortState :=
  if knownType type then ps
  else if ps.isIdle then ps.respond type.toNat (.badType, .empty)
  else ps.overrun

/-- BAD TYPE. -/
def execBadType (port : Port) (type : Byte) (s : State) : Host.Outcome State Fault Refusal :=
  .next (s.portEvent port fun ps => ps.takeBadType type)

/-- A message completes on a SERVING port (R188). -/
def PortState.takeOverrun (ps : PortState) : PortState := if ps.isIdle then ps else ps.overrun

/-- OVERRUN. -/
def execOverrun (port : Port) (s : State) : Host.Outcome State Fault Refusal :=
  .next (s.portEvent port PortState.takeOverrun)

/-- The last byte of a response has been sent: the port is IDLE (R188). -/
def PortState.sent (ps : PortState) : PortState := { ps with service := .idle }

/-- RESPONSE SENT. -/
def execResponseSent (port : Port) (s : State) : Host.Outcome State Fault Refusal :=
  .next (s.portEvent port PortState.sent)

/-! ### RSTN (R182, R199) -/

/-- The part in reset: what it held is discarded. What lies outside it stays: the commands that wait, the
level of the ECLOSE pin and the model's count of short pulses. -/
def State.enterReset (s : State) : State :=
  { State.reset with
    pending := s.pending, inReset := true, eclosePin := s.eclosePin, shortPulses := s.shortPulses }

/-- RSTN is low for some microseconds: from 10 on it is a reset; a shorter pulse is either a full reset or
nothing (R199). CLKIN is taken as running: DESIGN CHOICE, log entry 61. -/
def State.rstnLow (s : State) (micros : Nat) : State :=
  if micros ≥ 10 then s.enterReset
  else
    let taken := if Config.shortPulseTaken s.shortPulses then s.enterReset else s
    { taken with shortPulses := s.shortPulses + 1 }

/-- RSTN LOW. -/
def execRstnLow (micros : Nat) (s : State) : Host.Outcome State Fault Refusal :=
  .next (s.rstnLow micros)

/-- RSTN goes high: uptime starts at 0, and an ECLOSE input held asserted is on its 50 ms (R68, R182). -/
def State.leaveReset (s : State) : State :=
  if s.inReset then
    State.drive { s with inReset := false, clock := 0,
                         ecloseTimer := if s.eclosePin then some 50 else none }
  else s

/-- RSTN RELEASE. -/
def execRstnRelease (s : State) : Host.Outcome State Fault Refusal := .next s.leaveReset

/-! ### ECLOSE (R68, R69) -/

/-- The pin takes a level. A level other than the debounced state starts its 50 ms; the debounced state's
own level ends them. In reset only the pin itself changes. -/
def State.ecloseChange (s : State) (level : Bool) : State :=
  if s.inReset then { s with eclosePin := level }
  else
    s.event fun s =>
      if level = s.eclosePin then none
      else
        some { s with eclosePin := level
                      ecloseTimer := if level = s.ecloseState then none else some (s.clock + 50) }

/-- ECLOSE INPUT CHANGE. -/
def execEcloseInputChange (level : Bool) (s : State) : Host.Outcome State Fault Refusal :=
  .next (s.ecloseChange level)

/-- The debounced state takes the level of the pin, and an assertion edge acts on slot 15 (R68, R69). -/
def State.ecloseExpires (s : State) : State :=
  let t := { s with ecloseState := s.eclosePin, ecloseTimer := none }
  if s.eclosePin ∧ ¬ s.ecloseState then t.assertionEdge else t

/-- ECLOSE DEBOUNCE EXPIRY. -/
def execEcloseDebounceExpiry (s : State) : Host.Outcome State Fault Refusal :=
  .next (s.event fun s => if due s.clock s.ecloseTimer then some s.ecloseExpires else none)

end Sys2Proof.Machine
end

