-- ==== Sys2Proof/Machine/OrderRequests.lean ====
section
/-! DEFINITION. The requests of the order engine: ORDER, CANCEL and ORDER STATUS. -/

namespace Sys2Proof.Machine

/-! ### ORDER (R49 to R52) -/

/-- The scope of an order that passes the checks of R49; the zones as a set of distinct zones. -/
def ScopeArg.scope? : ScopeArg → Option Scope
  | .ship => some .ship
  | .zones zs =>
    if zs ≠ [] ∧ zs.length ≤ 24 ∧ zs.all (fun z => decide (1 ≤ z) && decide (z ≤ 24)) then
      some (.zones (zs.foldr insertNat []))
    else none
  | .door n => if 1 ≤ n ∧ n ≤ 4095 then some (.door n) else none
  | .group mask value => some (.group mask value)
  | .outside => none

/-- Step 2 of R49: the kind, the scope and the withdraw set asked for, or BAD_FIELD. -/
def OrderReq.form? (q : OrderReq) : Option (OrderKind × Scope × Perms) :=
  match q.kind, ScopeArg.scope? q.scope with
  | .is k, some sc =>
    if q.withdraw.outside ∨ (k = .opening ∧ (permSet q.withdraw.items).remoteOpen) then none
    else some (k, sc, permSet q.withdraw.items)
  | _, _ => none

/-- Step 3 of R49 fails. -/
def priorityBad (priority : Nat) (k : OrderKind) : Bool :=
  decide (priority > 6) || (decide (k = .opening) && decide (priority > 4))

/-- The withdraw set as shaped, and whether LOCAL_OPEN was removed (R49). -/
def shapeWithdraw (priority : Nat) (k : OrderKind) (asked : Perms) : Perms × Bool :=
  if priority = 6 then
    ({ localOpen := false, remoteOpen := asked.remoteOpen || decide (k = .close) }, asked.localOpen)
  else (asked, false)

/-- A live order equal in kind, priority and scope (R50). -/
def State.equalOrder (s : State) (k : OrderKind) (priority : Nat) (sc : Scope) :
    Option (Nat × Order) :=
  s.slots.find? fun e =>
    e.2.state.live && decide (e.2.kind = k) && decide (e.2.priority = priority)
      && decide (e.2.scope = sc)

/-- The slot among some whose finished order is oldest; the first of equals (R51). -/
def State.oldestFinished (s : State) : List Nat → Option (Nat × Nat)
  | [] => none
  | slot :: rest =>
    let best := s.oldestFinished rest
    match s.order? slot with
    | some o =>
      if o.state.live then best
      else
        let age := heldAge s.clock (o.finished.getD 0)
        match best with
        | some (k, a) => if a > age then some (k, a) else some (slot, age)
        | none => some (slot, age)
    | none => best

/-- The slot a new order takes: the lowest FREE one of 0 to 14, else the earliest finished (R51). -/
def State.slotForOrder (s : State) : Option Nat :=
  match (List.range 15).find? fun k => (s.order? k).isNone with
  | some k => some k
  | none => (s.oldestFinished (List.range 15)).map Prod.fst

def Port.source : Port → OrderSource
  | .A => .consoleA
  | .B => .consoleB

/-- A new order from a console (R47, R52). -/
def newOrder (port : Port) (q : OrderReq) (k : OrderKind) (sc : Scope) (withdraw : Perms) : Order :=
  { source := Port.source port, tag := q.tag, priority := q.priority, kind := k, scope := sc,
    withdraw := withdraw, state := .pending, arrival := 0, snapshot := none, done := 0, failed := 0,
    repeats := 0, issuing := PortFlags.neither.set port true, result := none, finished := none,
    unread := PortFlags.neither }

/-- What ORDER answers of the order in a slot (R50, R52, the table of R190). An ABSORBED response carries the withdraw
set of the existing order, and not the one the absorbed request was shaped to: DESIGN CHOICE, log entry 78. -/
def State.orderContent (s : State) (slot : Nat) (absorbed : Bool) : Content :=
  match s.order? slot with
  | some o => .order slot o.tag o.state o.withdraw (if absorbed then some o.repeats else none)
  | none => .empty

/-- The absorption of an equal request (R50). -/
def Order.absorb (o : Order) (port : Port) : Order :=
  { o with repeats := satInc 65535 o.repeats, issuing := o.issuing.set port true }

/-- ORDER at the order engine (R49 to R52). -/
def State.serveOrder (port : Port) (q : OrderReq) (s : State) : Served :=
  if s.phase = .build then .refuse .wrongPhase
  else
    match OrderReq.form? q with
    | none => .refuse .badField
    | some (k, sc, asked) =>
      if priorityBad q.priority k then .refuse .priority
      else
        let shaped := shapeWithdraw q.priority k asked
        match s.equalOrder k q.priority sc with
        | some (slot, o) =>
          .change (s.putOrder slot (o.absorb port)) fun t => (.absorbed, t.orderContent slot true)
        | none =>
          match s.slotForOrder with
          | none => .refuse .noSlot
          | some slot =>
            .change (s.acceptOrder slot (newOrder port q k sc shaped.1)) fun t =>
              (okOr shaped.2, t.orderContent slot false)

/-- ORDER. -/
def execOrder (port : Port) (body : Body OrderReq) (s : State) : Host.Outcome State Fault Refusal :=
  .next (s.request port 0x07 body (State.serveOrder port))

/-! ### Reading completions (R64, R69, R195) -/

/-- A port reads the completion of a finished order: its own mark is cleared, or both marks for the
hardwired order. -/
def Order.readBy (o : Order) (port : Port) : Order :=
  if o.state.live then o
  else if o.source = .hardwired then { o with unread := PortFlags.neither }
  else { o with unread := o.unread.set port false }

/-! ### CANCEL (R64) -/

/-- The cancel of an order by its state (R64). A SUSPENDED order can govern a door that waits for a reclose stroke
(test 6 of R92): that door goes to REST too (row 1 of R76), and no ACTIVE order holds it. The doors are treated in
ascending position order: DESIGN CHOICE, log entry 47. -/
def State.cancelOrder (s : State) (slot : Nat) (o : Order) : State :=
  match o.state with
  | .active =>
    let s := (s.governedBy slot).foldl (fun s p => s.cancelDoor p) s
    ((s.finishOrder slot .cancelled .cancelled).leaveStack slot).first [.nextTop]
  | .suspended => ((s.restWaiters slot).finishOrder slot .cancelled .cancelled).leaveStack slot
  | .pending =>
    State.finishOrder { s with pendingOrders := removeNat slot s.pendingOrders } slot
      .cancelled .cancelled
  | .done => s
  | .cancelled => s

/-- What CANCEL answers, with the console tag echoed (R47, R64). -/
def State.cancelContent (s : State) (slot : Nat) : Content :=
  match s.order? slot with
  | some o => .cancelled o.tag o.state o.members o.done o.failed o.result
  | none => .empty

/-- CANCEL at the order engine (R64). -/
def State.serveCancel (port : Port) (slot : Nat) (s : State) : Served :=
  if slot > 15 then .refuse .badField
  else
    match s.order? slot with
    | none => .refuse .notFound
    | some o =>
      if slot = 15 ∧ s.ecloseState then .refuse .busy
      else
        .change ((s.cancelOrder slot o).modOrder slot fun o => o.readBy port) fun t =>
          (.ok, t.cancelContent slot)

/-- CANCEL. -/
def execCancel (port : Port) (body : Body Nat) (s : State) : Host.Outcome State Fault Refusal :=
  .next (s.request port 0x08 body (State.serveCancel port))

/-! ### ORDER STATUS (R195) -/

/-- The slot a request names, or the lowest with an unread completion for the port. -/
def State.statusSlot (s : State) (port : Port) : StatusOf → Option Nat
  | .slot n => some n
  | .nextUnread => (s.slots.find? fun e => e.2.unread.get port).map Prod.fst

/-- ORDER STATUS at the order engine (R195). -/
def State.serveOrderStatus (port : Port) (q : OrderStatusReq) (s : State) : Served :=
  match s.statusSlot port q.which with
  | none => .refuse .notFound
  | some slot =>
    if slot > 15 then .refuse .badField
    else
      match s.order? slot with
      | none => .refuse .notFound
      | some o =>
        .change (s.putOrder slot (o.readBy port)) fun _ =>
          (.ok, .orderStatus (s.orderReport slot o q.memberStart))

/-- ORDER STATUS. -/
def execOrderStatus (port : Port) (body : Body OrderStatusReq) (s : State) :
    Host.Outcome State Fault Refusal :=
  .next (s.request port 0x09 body (State.serveOrderStatus port))

end Sys2Proof.Machine
end

