-- ==== Sys2Proof/Machine/PhaseRequests.lean ====
section
/-! DEFINITION. The requests of phase control: COMMISSION, RESWEEP and RESTART; and IDENT. -/

namespace Sys2Proof.Machine

/-! ### COMMISSION and RESWEEP (R177, R181) -/

/-- Every sweep mark is cleared. -/
def State.clearMarks (s : State) : State :=
  (s.records.map Prod.fst).foldl (fun s p => s.modRec p fun r => { r with mark := false }) s

/-- A sweep starts: the phase is SWEEP and every sweep walk is active from cursor 0 (R137, R174). -/
def State.startSweep (s : State) : State := State.startSweeps { s with phase := .sweep }

/-- The phase reached and the number of outstanding records. -/
def State.phaseContent (s : State) : Content := .phase s.phase (some s.outstandingCount)

/-- COMMISSION at phase control (R177). The pending head is pushed (R54). -/
def State.serveCommission (_ : Unit) (s : State) : Served :=
  if s.phase ≠ .build then .refuse .wrongPhase
  else .change (s.clearMarks.startSweep.first [.nextTop]) fun t => (.ok, t.phaseContent)

/-- COMMISSION. -/
def execCommission (port : Port) (body : Body Unit) (s : State) : Host.Outcome State Fault Refusal :=
  .next (s.request port 0x15 body State.serveCommission)

/-- Both change marks of every non-FREE record are set. -/
def State.markAll (s : State) : State :=
  (s.records.map Prod.fst).foldl (fun s p => s.markBoth p) s

/-- RESWEEP at phase control (R181). -/
def State.serveResweep (_ : Unit) (s : State) : Served :=
  if s.phase ≠ .service then .refuse .wrongPhase
  else .change s.clearMarks.markAll.startSweep fun t => (.ok, t.phaseContent)

/-- RESWEEP. -/
def execResweep (port : Port) (body : Body Unit) (s : State) : Host.Outcome State Fault Refusal :=
  .next (s.request port 0x16 body State.serveResweep)

/-! ### RESTART (R183) -/

/-- A record after a warm restart (R25). The indication is derived afresh, and STALE by age is judged
against the kept last good reply (R34). -/
def Record.restarted (now : Nat) (r : Record) : Record :=
  let fresh : Record :=
    { r with missed := 0, mark := false, causes := [], motion := .rest, purpose := none,
             target := none, govSlot := none, waitReason := none, queueClass := none,
             deadline := none, heldDebit := none, attempts := 0, aged := r.overAge now,
             releaseAttempts := if r.lifecycle = .retiring then some 0 else none }
  { fresh with indicated := fresh.derived.1 }

/-- A unit after a warm restart (R119); MS is judged afterwards. -/
def PowerUnit.restarted (now : Nat) (w : PowerUnit) : PowerUnit :=
  { w with queue := [], chargeTimer := none, spacingTimer := none, strokes := 0, lastStart := none,
           lastAccrual := now, monitorMissed := 0, causes := [], reconciled := w.monitor.isNone,
           charge := if w.monitor.isSome then 0 else 1000 * w.capacity }

/-- A line after a warm restart: its queue is empty, its calendar walk restarts, and an exchange in flight
runs to its end (R126, R135). -/
def Line.restarted (firsts : List Nat) (l : Line) : Line :=
  { l with queue := [], place := .slot 0 [] 0, pointers := firsts,
           exchange := l.exchange.map fun x => { x with once := true } }

/-- A RUNNING walk ends ABORTED; an ENDED walk is kept (R161, R171). -/
def Walk.restarted (w : Walk) : Walk :=
  match w.state with
  | .running => { w with state := .ended, result := some .aborted, stepTimer := none }
  | .ended => w
  | .idle => w

/-- What a restart resets, block by block; the phase is decided by whether a position is non-FREE. -/
def State.restartBlocks (s : State) : State :=
  { s with
    records := s.records.map fun (e : Nat × Record) => (e.1, Record.restarted s.clock e.2)
    units := s.units.map fun (e : Nat × PowerUnit) => (e.1, PowerUnit.restarted s.clock e.2)
    shipStrokes := 0
    lines := s.lines.map (Line.restarted s.slotFirsts)
    slots := []
    stack := []
    pendingOrders := []
    arrivals := 0
    alarms := []
    overflow := false
    walk := s.walk.restarted
    phase := if s.records.isEmpty then .build else .sweep }

/-- The command a restart queues for a record: RELEASE for a RETIRING one, STOP for a door that was in
WARNING or MOVING (R25). -/
def Record.restartCommand (r : Record) : Option DoorCommand :=
  if r.lifecycle = .retiring then some .release
  else if r.motion = .warning ∨ r.motion = .moving then some .stop
  else none

/-- A command handed over by a restart; a disabled line drops it when the commands of the positions before
it have been handed over. The STOP of a door that was MOVING is sent once (R184). A command for a door with
a command in flight is placed at the head (R126), before those of lower positions: DESIGN CHOICE, log entry
51. That the STOP of a door that was in WARNING is queued again at a miss is DEDUCED, log entry 52. -/
def State.restartQueue (s : State) (e : Nat × Record) : State :=
  match e.2.restartCommand with
  | some c =>
    if (s.line e.2.cfg.line).enabled then
      s.modLine e.2.cfg.line fun l => l.enqueue e.1 c (decide (e.2.motion = .moving))
    else s.later [.dropped e.1 c false]
  | none => s

/-- The warm restart, as one event (R183). -/
def State.restart (s : State) : State :=
  let t := s.restartBlocks
  let t := if t.phase = .sweep then t.startSweeps else t.stopSweeps
  let t := t.markAll
  let t := (t.units.map Prod.fst).foldl
    (fun t u => t.setUnitCause u .ms (decide ((t.unit? u).map PowerUnit.supply = some .stored))) t
  let t := s.records.foldl State.restartQueue t
  if t.ecloseState then t.createHardwired else t

/-- RESTART at phase control (R183). -/
def State.serveRestart (_ : Unit) (s : State) : Served :=
  .change s.restart fun t =>
    (.ok, .phase t.phase (if t.phase = .sweep then some t.outstandingCount else none))

/-- RESTART. -/
def execRestart (port : Port) (body : Body Unit) (s : State) : Host.Outcome State Fault Refusal :=
  .next (s.request port 0x17 body State.serveRestart)

/-! ### IDENT (R197) -/

/-- IDENT (R197). -/
def State.serveIdent (port : Port) (_ : Unit) (s : State) : Served :=
  .answer .ok (.ident (s.identReport port))

/-- IDENT. -/
def execIdent (port : Port) (body : Body Unit) (s : State) : Host.Outcome State Fault Refusal :=
  .next (s.request port 0x18 body (State.serveIdent port))

end Sys2Proof.Machine
end

