-- ==== Sys2Proof/Machine/UnitRequests.lean ====
section
/-! DEFINITION. The requests of the power-unit accounts: UNIT SET and UNIT READ. -/

namespace Sys2Proof.Machine

/-! ### The checks of UNIT SET (R98, R100, R101) -/

/-- The monitor address a request carries: none given, no monitor, or a line and a station. The outer
absence is an address outside its range. -/
def monitorGiven : Option MonitorArg → Option (Option (Option (LineNo × Nat)))
  | none => some none
  | some .none => some (some none)
  | some (.at l station) =>
    match lineOf l with
    | some n => if 1 ≤ station ∧ station ≤ 64 then some (some (some (n, station))) else none
    | none => none

/-- A non-FREE record of class P names the unit (R101). -/
def State.unitNamed (s : State) (u : Nat) : Bool :=
  s.records.any fun e => decide (e.2.unit? = some u)

/-- A monitor address is the field address of a record or the monitor of another configured unit. -/
def State.monitorTaken (s : State) (u : Nat) (n : LineNo) (station : Nat) : Bool :=
  (s.records.any fun e => decide (e.2.cfg.line = n) && decide (e.2.cfg.station = station))
    || (s.units.any fun e => decide (e.1 ≠ u) && decide (e.2.monitor = some (n, station)))

/-- BUSY of R98: a configured unit that a record of class P names is not taken away (R101), and its
concurrency does not fall below its running strokes (R100). -/
def State.unitSetBusy (s : State) (u : Nat) (a : UnitArgs) : Bool :=
  match s.unit? u with
  | some w =>
    (decide (a.configured = some false) && s.unitNamed u)
      || (match a.concurrency with
        | some k => decide (clampTo 1 4 k < w.strokes)
        | none => false)
  | none => false

/-- DUPLICATE of R98: the monitor address is in use (R4). -/
def State.unitSetDuplicate (s : State) (u : Nat) (monitor : Option (Option (LineNo × Nat))) : Bool :=
  match monitor with
  | some (some (n, station)) => s.monitorTaken u n station
  | _ => false

/-- The three steps of R98; nothing where every check passes. -/
def State.unitSetFails (s : State) (u : Nat) (a : UnitArgs) : Option Status :=
  match monitorGiven a.monitor with
  | none => some .badField
  | some monitor =>
    if u > 31 ∨ ¬ unitEnablesOk a.enables
        ∨ ((s.unit? u).isNone ∧ a.configured ≠ some false ∧ a.capacity.isNone) then some .badField
    else if s.unitSetBusy u a then some .busy
    else if s.unitSetDuplicate u monitor then some .duplicate
    else none

/-- The monitor address a request gives, over the present one. -/
def monitorOr (a : UnitArgs) (present : Option (LineNo × Nat)) : Option (LineNo × Nat) :=
  match monitorGiven a.monitor with
  | some (some m) => m
  | _ => present

/-- The alarm enables a request gives, over the present ones. -/
def unitEnablesOr (a : UnitArgs) (present : List FaultKind) : List FaultKind :=
  match a.enables with
  | some n => kindSet n.items
  | none => present

/-! ### Configuration (R98) -/

/-- A unit as a request configures it, and whether a quantity was clamped (R97, R98). -/
def UnitArgs.newUnit (a : UnitArgs) (now : Nat) : PowerUnit × Bool :=
  let c := quantity 100 60000 a.capacity 100
  let f := quantity 0 c.1 a.floor 0
  let r := quantity 0 2000 a.rate 0
  let k := quantity 1 4 a.concurrency 1
  let sp := quantity 0 5000 a.spacing 1000
  let t := quantity 0 c.1 a.tolerance (min 500 c.1)
  let monitor := monitorOr a none
  ({ capacity := c.1, floor := f.1, rate := r.1, concurrency := k.1, spacing := sp.1, tolerance := t.1,
     monitor := monitor, supply := if monitor.isSome then .mains else a.supply.getD .mains,
     enables := unitEnablesOr a unitKinds, charge := if monitor.isSome then 0 else 1000 * c.1,
     lastAccrual := now, reconciled := monitor.isNone, strokes := 0, lastStart := none, queue := [],
     monitorMissed := 0, causes := [], flags := [], chargeTimer := none, spacingTimer := none },
   c.2 || f.2 || r.2 || k.2 || sp.2 || t.2)

/-- MS is present while the supply state is STORED (R116). -/
def State.judgeMS (s : State) (u : Nat) : State :=
  match s.unit? u with
  | some w => s.setUnitCause u .ms (decide (w.supply = .stored))
  | none => s

/-- After an accepted UNIT SET the unit judges UL and evaluates its queue (R100). -/
def State.unitChanged (s : State) (u : Nat) : State := (s.judgeUL u).later [.evalQueue u]

/-! ### Changes of a configured unit (R100) -/

/-- The quantities of a configured unit: a floor or tolerance above the new capacity is clamped with
CLAMPED, whether the request carried it or not. -/
def UnitArgs.quantities (a : UnitArgs) (w : PowerUnit) : PowerUnit × Bool :=
  let c := quantity 100 60000 a.capacity w.capacity
  let f := quantity 0 c.1 (some (a.floor.getD w.floor)) 0
  let r := quantity 0 2000 a.rate w.rate
  let k := quantity 1 4 a.concurrency w.concurrency
  let sp := quantity 0 5000 a.spacing w.spacing
  let t := quantity 0 c.1 (some (a.tolerance.getD w.tolerance)) 0
  ({ w with capacity := c.1, floor := f.1, rate := r.1, concurrency := k.1, spacing := sp.1,
            tolerance := t.1, charge := min w.charge (1000 * c.1) },
   c.2 || f.2 || r.2 || k.2 || sp.2 || t.2)

/-- A changed monitor address: an added or moved monitor makes the unit unreconciled and removes LCU; a
removed one makes it reconciled and removes LCU and RD (R100). RD goes first, with its relist scan, then LCU with its
own: DESIGN CHOICE, log entry 50. A UL that is present when the unit becomes
unreconciled stays, and is judged again at the first reconciliation: DESIGN CHOICE, log entry 73. -/
def State.setMonitor (s : State) (u : Nat) (m : Option (LineNo × Nat)) : State :=
  match s.unit? u with
  | some w =>
    if m = w.monitor then s
    else
      let s := s.putUnit u { w with monitor := m, reconciled := m.isNone, monitorMissed := 0 }
      let s := if m.isNone then s.setUnitCause u .rd false else s
      s.setUnitCause u .lcu false
  | none => s

/-- The supply state, for a unit that has no monitor before and after the request (R100, R116). -/
def State.setSupply (s : State) (u : Nat) (before : PowerUnit) (a : UnitArgs) : State :=
  match a.supply with
  | some supply =>
    if before.monitor.isNone ∧ (monitorOr a before.monitor).isNone then
      (s.modUnit u fun w => { w with supply := supply }).judgeMS u
    else s
  | none => s

/-- The changes of R100. The unit accrues first. MS, RD and LCU are judged under the enables the unit had,
then the enables are switched, and UL is judged under the new ones: DESIGN CHOICE, log entry 50. -/
def State.changeUnit (s : State) (u : Nat) (w : PowerUnit) (a : UnitArgs) : State :=
  let s := s.touchUnit u
  let s := s.modUnit u fun w => (UnitArgs.quantities a w).1
  let s := s.setSupply u w a
  let s := s.setMonitor u (monitorOr a w.monitor)
  let s := s.setUnitEnables u (unitEnablesOr a w.enables)
  s.unitChanged u

/-- A unit becomes unconfigured: its entries leave the list with one scan each, and its flags go with it
(R101, R152). -/
def State.deconfigure (s : State) (u : Nat) : State :=
  State.removeAlarmsOf { s with units := Keyed.remove s.units u } (.unit u)

/-- What UNIT SET answers: the unit from queue start index 0 (R98). -/
def State.unitContent (s : State) (u start : Nat) : Content := .unit (s.unitReport u start)

/-- UNIT SET of a unit (R98 to R101). One that carries "configured no" answers OK, whatever quantities it
carries beside it: DESIGN CHOICE, log entry 42. -/
def State.serveUnitSet (u : Nat) (a : UnitArgs) (s : State) : Served :=
  match s.unitSetFails u a with
  | some status => .refuse status
  | none =>
    match s.unit? u with
    | none =>
      if a.configured = some false then .answer .ok (s.unitContent u 0)
      else
        let made := UnitArgs.newUnit a s.clock
        .change (((s.putUnit u made.1).judgeMS u).unitChanged u) fun t =>
          (okOr made.2, t.unitContent u 0)
    | some w =>
      if a.configured = some false then .change (s.deconfigure u) fun t => (.ok, t.unitContent u 0)
      else
        .change (s.changeUnit u w a) fun t => (okOr (UnitArgs.quantities a w).2, t.unitContent u 0)

/-- UNIT SET of the ship budget (R102). One that carries neither M nor E is answered OK and changes nothing: DESIGN
CHOICE, log entry 71. -/
def State.serveBudget (m e : Option Nat) (s : State) : Served :=
  let m' := quantity 0 32 m s.shipM
  let e' := quantity 0 16 e s.shipE
  if m'.1 + e'.1 < s.shipStrokes then .refuse .busy
  else
    let set := { s with shipM := m'.1, shipE := e'.1 }
    .change (if m'.1 > s.shipM ∨ e'.1 > s.shipE then set.first [.freed none] else set) fun t =>
      (okOr (m'.2 || e'.2), .budget t.shipM t.shipE t.shipStrokes)

/-- UNIT SET at the power-unit accounts. -/
def State.serveUnitSetReq (q : UnitSetReq) (s : State) : Served :=
  match q with
  | .unit u a => State.serveUnitSet u a s
  | .ship m e => State.serveBudget m e s

/-- UNIT SET. -/
def execUnitSet (port : Port) (body : Body UnitSetReq) (s : State) : Host.Outcome State Fault Refusal :=
  .next (s.request port 0x11 body State.serveUnitSetReq)

/-! ### UNIT READ (R99) -/

/-- UNIT READ: a configured unit accrues first (R99, R103). The queue start index is 0 where the request carries
none. -/
def State.serveUnitRead (q : UnitReadReq) (s : State) : Served :=
  match q with
  | .ship => .answer .ok (.budget s.shipM s.shipE s.shipStrokes)
  | .unit u start =>
    if u > 31 then .refuse .badField
    else
      match s.unit? u with
      | none => .answer .ok (s.unitContent u (start.getD 0))
      | some _ => .change (s.touchUnit u) fun t => (.ok, t.unitContent u (start.getD 0))

/-- UNIT READ. -/
def execUnitRead (port : Port) (body : Body UnitReadReq) (s : State) :
    Host.Outcome State Fault Refusal :=
  .next (s.request port 0x12 body State.serveUnitRead)

end Sys2Proof.Machine
end

