-- ==== Sys2Proof/Machine/Envelope.lean ====
section
/-! DEFINITION. The bytes that reach a console port (R186 to R189): each is taken by the receiver, and the
message that one completes is taken as the request its type names. BAD FRAME and CONSOLE BYTE GAP carry the
bytes that arrived. -/

namespace Sys2Proof

/-- How many bytes the next number of the body of a request takes, after the numbers read before it. The
manual gives the fields of a body a fixed order and no widths (R186), so they are free. -/
opaque Config.numberWidth (type : Byte) (before : List Nat) : Nat

/-- The most numbers that the fields a type may carry stand for; a body of more is too long (R189). -/
opaque Config.mostNumbers (type : Byte) : Nat

/-- The fields that the numbers of a body stand for, and nothing where they are too few for the fields that this
layout needs, or not in step with the count they declare (R189). -/
opaque Config.bodyLayout {α : Type} (type : Byte) (numbers : List Nat) : Option α

end Sys2Proof

namespace Sys2Proof.Machine

/-! ### Messages (R186, R188, R189) -/

/-- The numbers of a body, each high byte first (R186), and nothing where the body ends within one. Every
number takes at least one byte, so as many turns as the body has bytes are enough. -/
def readNumbers (type : Byte) : (turns : Nat) → (before : List Nat) → List Byte → Option (List Nat)
  | _, before, [] => some before
  | 0, _, _ :: _ => none
  | n + 1, before, b :: rest =>
    let more := Config.numberWidth type before - 1
    if rest.length < more then none
    else readNumbers type n (before ++ [numberOf (b :: rest.take more)]) (rest.drop more)

/-- How many fields every body of a type must carry, by the rule that owns the request. A field is a number of its
own at least, so a body of fewer bytes is too short (R189) under every layout: DEDUCED, log entry 76. -/
def mustCarry (type : Byte) : Nat :=
  match type.toNat with
  | 0x01 => 5  -- ENROL: position, door number, class, field address, zone (R10)
  | 0x02 => 1  -- CHANGE: the name (R14)
  | 0x03 => 1  -- RETIRE: the name (R21)
  | 0x04 => 1  -- LOOKUP: the name (R13)
  | 0x05 => 2  -- LIST ZONE: zone or ship, start index (R191)
  | 0x06 => 1  -- SUMMARY: zone or ship (R192)
  | 0x07 => 5  -- ORDER: console tag, priority, kind, scope, withdraw set (3.2)
  | 0x08 => 1  -- CANCEL: the slot (R64)
  | 0x09 => 2  -- ORDER STATUS: slot or next unread, member start index (R195)
  | 0x0A => 1  -- READ ALARMS: the start index (R194)
  | 0x0B => 1  -- ACK ALARM: a subject with its kind, or all (R156)
  | 0x0C => 2  -- CLEAR FLAGS: the subject, the kinds or all (R143)
  | 0x0E => 2  -- BULK: first and last position (R162)
  | 0x11 => 1  -- UNIT SET: the unit or the ship budget (R98, R102)
  | 0x12 => 1  -- UNIT READ: the unit or the ship budget (R99)
  | 0x13 => 1  -- LINE SET: the line (R121)
  | 0x14 => 4  -- CALENDAR SET: L, and first, last and n of one slot at least (R134)
  | _ => 0     -- the types without fields

/-- The numbers of a body are neither too few for the fields its type must carry nor too many for the fields it may
carry (R189). -/
def countAllowed (type : Byte) (numbers : List Nat) : Bool :=
  decide (mustCarry type ≤ numbers.length) && decide (numbers.length ≤ Config.mostNumbers type)

/-- The body of a type that has fields: its numbers, if they are as many as the type allows, and the fields they
stand for. -/
def bodyOf (α : Type) (type : Byte) (body : List Byte) : Body α :=
  match readNumbers type body.length [] body with
  | some ns =>
    if countAllowed type ns then
      match (Config.bodyLayout type ns : Option α) with
      | some a => .fields a
      | none => .badLength
    else .badLength
  | none => .badLength

/-- The body of a type that has no fields: no byte. -/
def emptyBody (body : List Byte) : Body Unit := if body.isEmpty then .fields () else .badLength

/-- A message completes, and is taken as the request of the type in the table of R186. -/
def State.takeMessage (s : State) (port : Port) (type : Byte) (body : List Byte) : State :=
  match type.toNat with
  | 0x01 => s.request port 0x01 (bodyOf EnrolReq type body) State.serveEnrol
  | 0x02 => s.request port 0x02 (bodyOf ChangeReq type body) State.serveChange
  | 0x03 => s.request port 0x03 (bodyOf DoorName type body) State.serveRetire
  | 0x04 => s.request port 0x04 (bodyOf DoorName type body) State.serveLookup
  | 0x05 => s.request port 0x05 (bodyOf ListZoneReq type body) State.serveListZone
  | 0x06 => s.request port 0x06 (bodyOf ZoneName type body) State.serveSummary
  | 0x07 => s.request port 0x07 (bodyOf OrderReq type body) (State.serveOrder port)
  | 0x08 => s.request port 0x08 (bodyOf Nat type body) (State.serveCancel port)
  | 0x09 => s.request port 0x09 (bodyOf OrderStatusReq type body) (State.serveOrderStatus port)
  | 0x0A => s.request port 0x0A (bodyOf Nat type body) State.serveReadAlarms
  | 0x0B => s.request port 0x0B (bodyOf AckReq type body) State.serveAckAlarm
  | 0x0C => s.request port 0x0C (bodyOf ClearFlagsReq type body) State.serveClearFlags
  | 0x0D => s.request port 0x0D (emptyBody body) (State.serveReadChanges port)
  | 0x0E => s.request port 0x0E (bodyOf BulkReq type body) State.serveBulk
  | 0x0F => s.request port 0x0F (emptyBody body) State.serveBulkAbort
  | 0x10 => s.request port 0x10 (emptyBody body) State.serveBulkStatus
  | 0x11 => s.request port 0x11 (bodyOf UnitSetReq type body) State.serveUnitSetReq
  | 0x12 => s.request port 0x12 (bodyOf UnitReadReq type body) State.serveUnitRead
  | 0x13 => s.request port 0x13 (bodyOf LineSetReq type body) State.serveLineSet
  | 0x14 => s.request port 0x14 (bodyOf CalendarReq type body) State.serveCalendarSet
  | 0x15 => s.request port 0x15 (emptyBody body) State.serveCommission
  | 0x16 => s.request port 0x16 (emptyBody body) State.serveResweep
  | 0x17 => s.request port 0x17 (emptyBody body) State.serveRestart
  | 0x18 => s.request port 0x18 (emptyBody body) (State.serveIdent port)
  | _ => s.portEvent port fun ps => ps.takeBadType type

/-! ### Bytes (R187) -/

/-- One byte reaches a port: the receiver goes on, a message completes, or a bad frame is counted. -/
def State.takeByte (port : Port) (s : State) (b : LinkByte) : State :=
  match (s.portState port).receiver.feed b with
  | .more r => s.modPort port fun ps => { ps with receiver := r }
  | .complete [] => s.modPort port fun ps => { ps with receiver := .hunt }
  | .complete (type :: body) => s.takeMessage port type body
  | .bad => s.modPort port PortState.badFrame

/-- Bytes reach a port, one after the other. -/
def State.takeBytes (s : State) (port : Port) (bytes : List LinkByte) : State :=
  bytes.foldl (State.takeByte port) s

/-- BAD FRAME: bytes reach the receiver, the last of which makes the bad frame. Other bytes are taken for
what they are. -/
def execBadFrame (port : Port) (bytes : List LinkByte) (s : State) :
    Host.Outcome State Fault Refusal :=
  .next (if s.inReset then s else (s.takeBytes port bytes).drive)

/-- CONSOLE BYTE GAP: bytes reach the receiver, and then none for more than 10 ms. -/
def execConsoleByteGap (port : Port) (bytes : List LinkByte) (s : State) :
    Host.Outcome State Fault Refusal :=
  .next (if s.inReset then s else ((s.takeBytes port bytes).modPort port PortState.gap).drive)

end Sys2Proof.Machine
end

