-- ==== Sys2Proof/Machine/FieldEvents.lean ====
section
/-! DEFINITION. The events of the field lines (R123) and the expiries of the timers. An event of a line
occurs in its phase only; an expiry occurs once its timer is due. Otherwise nothing changes. -/

namespace Sys2Proof.Machine

/-! ### The phases of an exchange (R123) -/

/-- An event of a line whose exchange is in a phase. -/
def State.lineEvent (s : State) (n : LineNo) (ph : ExchangePhase) (f : State → Exchange → State) :
    State :=
  s.event fun s => (s.exchangeIn n ph).map (f s)

/-- The guard ends: the line is free and chooses again (R123, R124). -/
def execGuardEnd (n : LineNo) (s : State) : Host.Outcome State Fault Refusal :=
  .next (s.lineEvent n .guard fun s _ => s.modLine n fun l => { l with exchange := none })

/-- The request has been sent: the window begins. -/
def execRequestSent (n : LineNo) (s : State) : Host.Outcome State Fault Refusal :=
  .next (s.lineEvent n .sending fun s _ => s.modLine n fun l => l.toPhase .window)

/-- The window passes without a reply byte: a miss. -/
def execWindowExpiry (n : LineNo) (s : State) : Host.Outcome State Fault Refusal :=
  .next (s.lineEvent n .window fun s x => s.endExchange n x none)

/-- The nine bytes of a reply have been received; the reply is good or a miss (R129). -/
def execReplyReceived (n : LineNo) (bytes : List Byte) (s : State) :
    Host.Outcome State Fault Refusal :=
  .next (s.lineEvent n .receiving fun s x => s.endExchange n x (x.goodReply bytes))

/-- More than 20 bit times pass between two bytes: a short reply, which is a miss. -/
def execReplyByteGap (n : LineNo) (s : State) : Host.Outcome State Fault Refusal :=
  .next (s.lineEvent n .receiving fun s x => s.endExchange n x none)

/-- The first reply byte begins. -/
def execReplyStart (n : LineNo) (s : State) : Host.Outcome State Fault Refusal :=
  .next (s.lineEvent n .window fun s _ => s.modLine n fun l => l.toPhase .receiving)

/-! ### Timers -/

/-- STALE by age is added at the staleness deadline (R33). -/
def execStalenessDeadlineExpiry (p : Nat) (s : State) : Host.Outcome State Fault Refusal :=
  .next <| s.event fun s =>
    match s.rec? p with
    | some r =>
      if due s.clock r.staleDeadline ∧ ¬ r.aged then
        some (s.modRec p fun r => { r with aged := true })
      else none
    | none => none

/-- The spacing timer of a unit: the unit evaluates its queue (R110). -/
def execSpacingTimerExpiry (u : Nat) (s : State) : Host.Outcome State Fault Refusal :=
  .next <| s.event fun s =>
    match s.unit? u with
    | some w =>
      if due s.clock w.spacingTimer then
        some ((s.modUnit u fun w => { w with spacingTimer := none }).first [.evalQueue u])
      else none
    | none => none

/-- The charge timer of a unit: the unit evaluates its queue (R110). -/
def execChargeTimerExpiry (u : Nat) (s : State) : Host.Outcome State Fault Refusal :=
  .next <| s.event fun s =>
    match s.unit? u with
    | some w =>
      if due s.clock w.chargeTimer then
        some ((s.modUnit u fun w => { w with chargeTimer := none }).first [.evalQueue u])
      else none
    | none => none

/-- The expiry of the motion timer of a door, in the motion state that arms it. -/
def State.motionExpiry (s : State) (p : Nat) (m : Motion) (f : State → Record → State) : State :=
  s.event fun s =>
    match s.rec? p with
    | some r =>
      if r.motion = m ∧ due s.clock r.deadline then
        some (f (s.modRec p fun r => { r with deadline := none }) { r with deadline := none })
      else none
    | none => none

/-- The warning lead expires: the door passes to MOVING (R78, R79). -/
def execWarningLeadExpiry (p : Nat) (s : State) : Host.Outcome State Fault Refusal :=
  .next (s.motionExpiry p .warning fun s _ => s.enterMoving p)

/-- The close or open deadline of a MOVING door expires (R81). -/
def execDeadlineExpiry (p : Nat) (s : State) : Host.Outcome State Fault Refusal :=
  .next (s.motionExpiry p .moving fun s r => s.deadlineExpires p r)

/-- The obstruction pause expires (R83). -/
def execObstructionPauseExpiry (p : Nat) (s : State) : Host.Outcome State Fault Refusal :=
  .next (s.motionExpiry p .rest fun s r => s.pauseExpires p r)

/-- The passage limit expires: LP, and the door stays in LOCAL (R89). -/
def execPassageLimitExpiry (p : Nat) (s : State) : Host.Outcome State Fault Refusal :=
  .next (s.motionExpiry p .inLocal fun s _ => s.causeOn p .lp)

/-- The reclose delay expires: the reclose decision (R91, R92). -/
def execRecloseDelayExpiry (p : Nat) (s : State) : Host.Outcome State Fault Refusal :=
  .next (s.motionExpiry p .recloseDelay fun s _ => s.recloseDecision p)

/-- The step timer of the bulk walk: the visit of the position under the cursor (R164). -/
def execBulkStepExpiry (s : State) : Host.Outcome State Fault Refusal :=
  .next <| s.event fun s =>
    match s.walk.state, s.walk.plan with
    | .running, some b => if due s.clock s.walk.stepTimer then some (s.walkStep b) else none
    | _, _ => none

end Sys2Proof.Machine
end

