-- ==== Sys2Proof/Machine/Dispatch.lean ====
section
/-! DEFINITION. The dispatch: one arm per command, each one direct call of its meaning. -/

namespace Sys2Proof.Machine

def exec (i : Instr) (s : State) : Host.Outcome State Fault Refusal :=
  match i with
  | .enrol port body => Sys2Proof.Machine.execEnrol port body s
  | .change port body => Sys2Proof.Machine.execChange port body s
  | .retire port body => Sys2Proof.Machine.execRetire port body s
  | .lookup port body => Sys2Proof.Machine.execLookup port body s
  | .listZone port body => Sys2Proof.Machine.execListZone port body s
  | .summary port body => Sys2Proof.Machine.execSummary port body s
  | .order port body => Sys2Proof.Machine.execOrder port body s
  | .cancel port body => Sys2Proof.Machine.execCancel port body s
  | .orderStatus port body => Sys2Proof.Machine.execOrderStatus port body s
  | .readAlarms port body => Sys2Proof.Machine.execReadAlarms port body s
  | .ackAlarm port body => Sys2Proof.Machine.execAckAlarm port body s
  | .clearFlags port body => Sys2Proof.Machine.execClearFlags port body s
  | .readChanges port body => Sys2Proof.Machine.execReadChanges port body s
  | .bulk port body => Sys2Proof.Machine.execBulk port body s
  | .bulkAbort port body => Sys2Proof.Machine.execBulkAbort port body s
  | .bulkStatus port body => Sys2Proof.Machine.execBulkStatus port body s
  | .unitSet port body => Sys2Proof.Machine.execUnitSet port body s
  | .unitRead port body => Sys2Proof.Machine.execUnitRead port body s
  | .lineSet port body => Sys2Proof.Machine.execLineSet port body s
  | .calendarSet port body => Sys2Proof.Machine.execCalendarSet port body s
  | .commission port body => Sys2Proof.Machine.execCommission port body s
  | .resweep port body => Sys2Proof.Machine.execResweep port body s
  | .restart port body => Sys2Proof.Machine.execRestart port body s
  | .ident port body => Sys2Proof.Machine.execIdent port body s
  | .badType port type => Sys2Proof.Machine.execBadType port type s
  | .overrun port => Sys2Proof.Machine.execOverrun port s
  | .badFrame port bytes => Sys2Proof.Machine.execBadFrame port bytes s
  | .consoleByteGap port bytes => Sys2Proof.Machine.execConsoleByteGap port bytes s
  | .responseSent port => Sys2Proof.Machine.execResponseSent port s
  | .rstnLow micros => Sys2Proof.Machine.execRstnLow micros s
  | .rstnRelease => Sys2Proof.Machine.execRstnRelease s
  | .ecloseInputChange level => Sys2Proof.Machine.execEcloseInputChange level s
  | .ecloseDebounceExpiry => Sys2Proof.Machine.execEcloseDebounceExpiry s
  | .guardEnd line => Sys2Proof.Machine.execGuardEnd line s
  | .requestSent line => Sys2Proof.Machine.execRequestSent line s
  | .windowExpiry line => Sys2Proof.Machine.execWindowExpiry line s
  | .replyReceived line bytes => Sys2Proof.Machine.execReplyReceived line bytes s
  | .replyByteGap line => Sys2Proof.Machine.execReplyByteGap line s
  | .stalenessDeadlineExpiry position => Sys2Proof.Machine.execStalenessDeadlineExpiry position s
  | .spacingTimerExpiry unit => Sys2Proof.Machine.execSpacingTimerExpiry unit s
  | .chargeTimerExpiry unit => Sys2Proof.Machine.execChargeTimerExpiry unit s
  | .warningLeadExpiry position => Sys2Proof.Machine.execWarningLeadExpiry position s
  | .deadlineExpiry position => Sys2Proof.Machine.execDeadlineExpiry position s
  | .obstructionPauseExpiry position => Sys2Proof.Machine.execObstructionPauseExpiry position s
  | .passageLimitExpiry position => Sys2Proof.Machine.execPassageLimitExpiry position s
  | .recloseDelayExpiry position => Sys2Proof.Machine.execRecloseDelayExpiry position s
  | .bulkStepExpiry => Sys2Proof.Machine.execBulkStepExpiry s
  | .replyStart line => Sys2Proof.Machine.execReplyStart line s

end Sys2Proof.Machine
end

