-- ==== Sys2Proof/Safety.lean ====
section
/-! DEFINITION. What the statements call a sound state of the part, in the model's own terms. -/

namespace Sys2Proof.Machine

/-- Numbers in strictly rising order. -/
def rising : List Nat → Bool
  | [] => true
  | [_] => true
  | a :: b :: l => decide (a < b) && rising (b :: l)

/-- The marks and the freed reports of a port are in position order, each position once. -/
def PortState.wf (ps : PortState) : Bool := rising ps.marks && Keyed.wf ps.freed

/-- The canonical form: everything stored by number stands in strictly rising order of its number, so that
no position, door number, zone, slot or unit is held twice, and the alarm list holds at most 64 entries
(R6, R46, R153). -/
def State.wf (s : State) : Bool :=
  Keyed.wf s.records && Keyed.wf s.directory && Keyed.wf s.zoneLists && Keyed.wf s.slots
    && Keyed.wf s.units && s.portA.wf && s.portB.wf && decide (s.alarms.length ≤ 64)

/-- The outputs and the kept counts are those of the state (R40, R41, R178, R198). -/
def State.OutputsCurrent (s : State) : Prop := s.outputs = s.outputsNow

/-- The part runs and no hand-off is left over: it stands between two events. -/
def State.Calm (s : State) : Prop := s.inReset = false ∧ s.agenda = []

/-- The port takes its next request (R188). -/
def State.TakesOn (s : State) (port : Port) : Prop := (s.portState port).service = .idle

/-- The port is sending the response to a request of a type. -/
def State.Answers (t : State) (port : Port) (code : Nat) (status : Status) (content : Content) : Prop :=
  (t.portState port).service =
    .serving { type := BitVec.ofNat 8 (code + 0x80), status := status, content := content }

/-- The statuses of an accepted request (R189). -/
def Status.accepts : Status → Bool
  | .ok | .clamped | .absorbed => true
  | .badField | .notFound | .duplicate | .busy | .noSlot | .wrongPhase | .priority | .badType => false

/-- The counts of a port lie in their range (R187, R188). -/
def PortState.countsOk (ps : PortState) : Bool :=
  decide (ps.badFrames ≤ 65535) && decide (ps.overruns ≤ 65535)

/-! ### Ranges

What the configured fields, the counters and the accounts hold in every sound state. -/

/-- The P fields of R3 lie in their ranges. -/
structure PowerFields.Sound (pf : PowerFields) : Prop where
  closeCost : 1 ≤ pf.closeCost ∧ pf.closeCost ≤ 4000
  openCost : 1 ≤ pf.openCost ∧ pf.openCost ≤ 4000
  closeAllowance : 5 ≤ pf.closeAllowance ∧ pf.closeAllowance ≤ 120
  openAllowance : 5 ≤ pf.openAllowance ∧ pf.openAllowance ≤ 120
  lead : pf.lead ≤ 20
  recloseDelay : 2 ≤ pf.recloseDelay ∧ pf.recloseDelay ≤ 30
  passageLimit : 10 ≤ pf.passageLimit ∧ pf.passageLimit ≤ 600
  unit : pf.unit ≤ 31

/-- The configured fields of R3 lie in their ranges, and the P fields are present in class P alone. -/
structure Configured.Sound (c : Configured) : Prop where
  number : 1 ≤ c.number ∧ c.number ≤ 4095
  station : 1 ≤ c.station ∧ c.station ≤ 64
  zone : 1 ≤ c.zone ∧ c.zone ≤ 24
  staleLimit : 200 ≤ c.staleLimit ∧ c.staleLimit ≤ 20000
  enables : ∀ k ∈ c.enables, k.maskable = true
  cls : c.cls = .P ↔ c.power.isSome
  power : ∀ pf, c.power = some pf → pf.Sound

/-- A record: its configured fields, and the missed and attempt counts of R5. -/
structure Record.Sound (r : Record) : Prop where
  cfg : r.cfg.Sound
  missed : r.missed ≤ 3
  attempts : r.attempts ≤ 3

/-- A unit: its set fields in the ranges of R97, its charge at most its capacity (R103), and no more
strokes than its concurrency (R107). -/
structure PowerUnit.Sound (w : PowerUnit) : Prop where
  capacity : 100 ≤ w.capacity ∧ w.capacity ≤ 60000
  floor : w.floor ≤ w.capacity
  rate : w.rate ≤ 2000
  concurrency : 1 ≤ w.concurrency ∧ w.concurrency ≤ 4
  spacing : w.spacing ≤ 5000
  tolerance : w.tolerance ≤ w.capacity
  charge : w.charge ≤ 1000 * w.capacity
  strokes : w.strokes ≤ w.concurrency
  monitorMissed : w.monitorMissed ≤ 3

/-- An order: priority 0 to 7 and a repeat count of 16 bits (R47, R50). -/
structure Order.Sound (o : Order) : Prop where
  priority : o.priority ≤ 7
  repeats : o.repeats ≤ 65535

/-- A calendar slot: its range lies in the positions and its visits in 1 to 64 (R134). -/
structure CalSlot.Sound (c : CalSlot) : Prop where
  range : c.first ≤ c.last ∧ c.last ≤ 255
  visits : 1 ≤ c.visits ∧ c.visits ≤ 64

/-- A sound state: the canonical form, and every range and bound of the manual. -/
structure State.Sound (s : State) : Prop where
  wf : s.wf = true
  records : ∀ p r, s.rec? p = some r → p ≤ 255 ∧ r.Sound
  units : ∀ u w, s.unit? u = some w → u ≤ 31 ∧ w.Sound
  orders : ∀ k o, s.order? k = some o → k ≤ 15 ∧ o.Sound
  budget : s.shipM ≤ 32 ∧ s.shipE ≤ 16
  ship : s.shipStrokes ≤ s.shipM + s.shipE
  windows : ∀ n, 2 ≤ (s.line n).window ∧ (s.line n).window ≤ 100
  calendar : 1 ≤ s.calendar.length ∧ s.calendar.length ≤ 8 ∧ ∀ c ∈ s.calendar, c.Sound
  walk : s.walk.number ≤ 65535
  ports : s.portA.countsOk = true ∧ s.portB.countsOk = true

/-- The lists that name the records, name exactly the records (R6, R8): a directory entry for the door
number of each, and a place in the list of its zone, in the order of sequence rank and door number. -/
structure State.Listed (s : State) : Prop where
  directory : ∀ n p, Keyed.get? s.directory n = some p ↔ ∃ r, s.rec? p = some r ∧ r.cfg.number = n
  zones : ∀ z p, p ∈ s.zoneList z ↔ ∃ r, s.rec? p = some r ∧ r.cfg.zone = z
  order : ∀ z, (s.zoneList z).Pairwise fun p q => s.zoneBefore p q = true

/-! ### Frames -/

/-- What no hand-off of an event touches: the waiting commands, reset, the clock, the ECLOSE input, the
arrival count, the ship budget, the calendar, the walk's number, and of each port all but its change marks
and freed reports. -/
structure State.Untouched (s t : State) : Prop where
  pending : t.pending = s.pending
  inReset : t.inReset = s.inReset
  clock : t.clock = s.clock
  shortPulses : t.shortPulses = s.shortPulses
  arrivals : t.arrivals = s.arrivals
  eclosePin : t.eclosePin = s.eclosePin
  ecloseState : t.ecloseState = s.ecloseState
  ecloseTimer : t.ecloseTimer = s.ecloseTimer
  shipM : t.shipM = s.shipM
  shipE : t.shipE = s.shipE
  calendar : t.calendar = s.calendar
  walkNumber : t.walk.number = s.walk.number
  receiver : ∀ port, (t.portState port).receiver = (s.portState port).receiver
  service : ∀ port, (t.portState port).service = (s.portState port).service
  badFrames : ∀ port, (t.portState port).badFrames = (s.portState port).badFrames
  overruns : ∀ port, (t.portState port).overruns = (s.portState port).overruns

/-- A sweep with no outstanding record has ended (R178). -/
def State.SweepOpen (s : State) : Prop := s.phase = .sweep → s.outstandingCount ≠ 0

/-- No line could begin an exchange: each holds what its arbiter chooses (R124). -/
def State.LinesChosen (s : State) : Prop := ∀ n, s.chooseExchange n = s.line n

/-- The part stands between two events: it runs, no hand-off is left over, no sweep could end and no line
could begin an exchange. -/
structure State.Settled (s : State) : Prop where
  calm : s.Calm
  sweep : s.SweepOpen
  lines : s.LinesChosen

/-- A record with no good reply since its enrolment has no report and is indicated UNKNOWN, and a record
that is ENROLLED has had none (R1, R28). -/
def State.Answered (s : State) : Prop :=
  ∀ p r, s.rec? p = some r →
    (r.lastGood = none → r.report = none ∧ r.indicated = .unknown)
      ∧ (r.lifecycle = .enrolled → r.lastGood = none)

/-- Where the orders stand (R46, R53, R54): a stacked order is ACTIVE or SUSPENDED and the priorities fall
from the top; an order of the pending list is PENDING, and the list goes by priority and then by arrival,
which no order has later than the count of arrivals. -/
structure State.OrdersPlaced (s : State) : Prop where
  stacked : ∀ k ∈ s.stack, ∃ o, s.order? k = some o ∧ (o.state = .active ∨ o.state = .suspended)
  pending : ∀ k ∈ s.pendingOrders, ∃ o, s.order? k = some o ∧ o.state = .pending
  falling : s.stack.Pairwise fun a b => s.priorityOf b < s.priorityOf a
  ordered : s.pendingOrders.Pairwise fun a b =>
    s.priorityOf b < s.priorityOf a
      ∨ (s.priorityOf a = s.priorityOf b ∧ s.arrivalOf a < s.arrivalOf b)
  arrivals : ∀ k o, s.order? k = some o → o.arrival ≤ s.arrivals

/-- The top of the stack is ACTIVE and every order beneath it SUSPENDED (R53). It holds between two events:
within one, a popped order leaves a SUSPENDED top until the next top is found (R57). -/
structure State.TopActive (s : State) : Prop where
  top : ∀ k, s.stack.head? = some k → ∃ o, s.order? k = some o ∧ o.state = .active
  beneath : ∀ k ∈ s.stack.tail, ∃ o, s.order? k = some o ∧ o.state = .suspended

/-- A door that holds a stroke of its unit: WARNING, MOVING or LOCAL (R100). -/
def Record.inStroke (r : Record) : Bool :=
  decide (r.motion = .warning) || decide (r.motion = .moving) || decide (r.motion = .inLocal)

/-- The accounts agree with the doors. A record of class P names a configured unit (R101), and any other
record, and a RETIRING one, is in REST with no timer (R17, R21). A unit's queue holds exactly the doors that
wait for it, in the order of the queue key (R105), and such a door has a target or the purpose LOCAL (R75). The strokes in progress of a unit equal its doors in WARNING, MOVING and
LOCAL (R100, R112), and the ship stroke count is the sum over the units (R113). What a line has queued or in
flight for a door names a record, and a RELEASE a RETIRING one (R21, R126). It holds between two events. -/
structure State.Accounted (s : State) : Prop where
  named : ∀ p r u, s.rec? p = some r → r.unit? = some u → (s.unit? u).isSome
  resting : ∀ p r, s.rec? p = some r → r.unit? = none ∨ r.lifecycle = .retiring →
    r.motion = .rest ∧ r.deadline = none
  waiting : ∀ u w, s.unit? u = some w → ∀ p,
    p ∈ w.queue ↔ ∃ r, s.rec? p = some r ∧ r.motion = .waitUnit ∧ r.unit? = some u
  ordered : ∀ u w, s.unit? u = some w → w.queue.Pairwise fun p q => s.queueBefore p q = true
  aimed : ∀ p r, s.rec? p = some r → r.motion = .waitUnit → r.purpose = some .passage ∨ r.target.isSome
  strokes : ∀ u w, s.unit? u = some w →
    w.strokes = s.records.countP fun e => decide (e.2.unit? = some u) && e.2.inStroke
  ship : s.shipStrokes = (s.units.map fun e => e.2.strokes).sum
  queued : ∀ n, ∀ e ∈ (s.line n).queue, ∃ r, s.rec? e.position = some r
    ∧ (e.command = .release → r.lifecycle = .retiring)
  inFlight : ∀ n x p station, (s.line n).exchange = some x → x.target = .door p station →
    x.targetFreed = false → ∃ r, s.rec? p = some r
      ∧ (x.kind = .command .release → r.lifecycle = .retiring)

/-- A cause is present on a subject, and it is to be listed: its enable is on, or it is IC (R140). -/
def State.Reports (s : State) (subject : Subject) (k : FaultKind) (present : Bool) : Prop :=
  match subject with
  | .door n => ∃ p r, s.rec? p = some r ∧ r.cfg.number = n ∧ r.causes.contains k = present
      ∧ (k = .ic ∨ k ∈ r.cfg.enables)
  | .unit u => ∃ w, s.unit? u = some w ∧ w.causes.contains k = present ∧ (k = .ic ∨ k ∈ w.enables)

/-- The alarm list agrees with the causes. No two entries are alike in subject and kind (R153); an entry's
kind is enabled on its subject or IC, and the entry is UNACK_ACTIVE or ACK_ACTIVE exactly when its cause is
present (R155); while the overflow indicator is clear every such cause has an entry (R159). It holds between
two events. -/
structure State.AlarmsAgree (s : State) : Prop where
  distinct : s.alarms.Pairwise fun a b => a.subject ≠ b.subject ∨ a.kind ≠ b.kind
  states : ∀ a ∈ s.alarms, s.Reports a.subject a.kind (decide (a.state ≠ .unackCleared))
  complete : s.overflow = false → ∀ subject k, s.Reports subject k true →
    (s.alarm? subject k).isSome

/-- What a change of the stack from `s` to `t` does to the members of the order `o` concerned (R65): one with a
target names its new governing order, its attempt count is 0 where another order governs it (R83), and one that
waits has the queue class that the stack now gives it (R75), and its place in its unit's queue by it. Nothing else
of a record changes but the wait reason of a displaced head, and a unit whose head changed will evaluate its
queue (R106). -/
structure State.Regoverned (s t : State) (o : Order) : Prop where
  members : ∀ p r, s.rec? p = some r → o.holds p = true → ∃ why, (why = r.waitReason ∨ why = some .queue)
    ∧ t.rec? p = some { r with
        govSlot := if r.target.isSome then t.governing p else none
        attempts := if s.governing p = t.governing p then r.attempts else 0
        queueClass := if r.motion = .waitUnit then some (t.queueClassFor p r.purpose r.target) else r.queueClass
        waitReason := why }
  others : ∀ p r, s.rec? p = some r → o.holds p = false →
    t.rec? p = some r ∨ t.rec? p = some { r with waitReason := some .queue }
  queues : ∀ u, (t.queueOf u).Perm (s.queueOf u)
  ordered : ∀ u, (t.queueOf u).Pairwise fun p q => t.queueBefore p q = true
  handed : ∀ u, t.headOf u ≠ s.headOf u → .evalQueue u ∈ t.agenda

/-- The next command is a group of console bytes; each message among them is an event of its own. -/
def State.TakesBytes (s : State) : Prop :=
  ∃ port bytes rest, s.pending = .badFrame port bytes :: rest ∨ s.pending = .consoleByteGap port bytes :: rest

/-- The next state of an event that makes no hand-off and whose only other effect is a response. -/
def State.responds (s : State) (port : Port) (code : Nat) (status : Status) (content : Content) : State :=
  State.drive <| s.modPort port fun ps =>
    { ps with
      receiver := .hunt
      service := .serving { type := BitVec.ofNat 8 (code + 0x80), status := status, content := content } }

/-- The next state of a request whose change of state leaves hand-offs: they are taken, and the response is
composed from the state they leave (R189). -/
def State.settlesAndResponds (s : State) (port : Port) (code : Nat) (reply : State → Status × Content) :
    State :=
  s.settle.responds port code (reply s.settle).1 (reply s.settle).2

/-- A motion timer that is due, or not, at the present uptime. -/
def Record.timerDue (r : Record) (now : Nat) : Prop := ∃ d, r.deadline = some d ∧ d ≤ now

/-- The parts of the state that a frame speaks of. -/
inductive Part where
  | pending | clock | records | directory | zoneLists | slots | stack | pendingOrders | arrivals | eclose
  | units | budget | strokes | lines | settings | calendar | alarms | walk | phase
  | marks (port : Port) | link (port : Port) | counts (port : Port)
  deriving DecidableEq, Repr

/-- Two states agree in a part. -/
def Part.same (b : Part) (s t : State) : Prop :=
  match b with
  | .pending => t.pending = s.pending
  | .clock => t.clock = s.clock ∧ t.inReset = s.inReset ∧ t.shortPulses = s.shortPulses
  | .records => t.records = s.records
  | .directory => t.directory = s.directory
  | .zoneLists => t.zoneLists = s.zoneLists
  | .slots => t.slots = s.slots
  | .stack => t.stack = s.stack
  | .pendingOrders => t.pendingOrders = s.pendingOrders
  | .arrivals => t.arrivals = s.arrivals
  | .eclose => t.eclosePin = s.eclosePin ∧ t.ecloseState = s.ecloseState ∧ t.ecloseTimer = s.ecloseTimer
  | .units => t.units = s.units
  | .budget => t.shipM = s.shipM ∧ t.shipE = s.shipE
  | .strokes => t.shipStrokes = s.shipStrokes
  | .lines => t.lines = s.lines
  | .settings => ∀ n, (t.line n).enabled = (s.line n).enabled ∧ (t.line n).rate = (s.line n).rate
      ∧ (t.line n).window = (s.line n).window
  | .calendar => t.calendar = s.calendar
  | .alarms => t.alarms = s.alarms ∧ t.overflow = s.overflow
  | .walk => t.walk = s.walk
  | .phase => t.phase = s.phase
  | .marks port => (t.portState port).marks = (s.portState port).marks
      ∧ (t.portState port).freed = (s.portState port).freed
  | .link port => (t.portState port).receiver = (s.portState port).receiver
      ∧ (t.portState port).service = (s.portState port).service
  | .counts port => (t.portState port).badFrames = (s.portState port).badFrames
      ∧ (t.portState port).overruns = (s.portState port).overruns

/-- A step from one state to another keeps every part but those listed. -/
def State.KeepsBut (s t : State) (altered : List Part) : Prop := ∀ b, b ∉ altered → b.same s t

/-- A safe run never stops: no step ends in a fault or a refusal. -/
def State.goesOn (s : State) : Bool :=
  match step s with
  | .next _ => true
  | .fault _ => false
  | .refused _ => false

end Sys2Proof.Machine

namespace Sys2Proof

/-- What every console request has: its port, its type (R186), and whether its body has a length the type
allows (R189). -/
structure RequestShape where
  port : Port
  code : Nat
  lengthOk : Bool
  deriving DecidableEq, Repr

/-- A body of a length the type allows. -/
def Body.lengthOk {α : Type} : Body α → Bool
  | .fields _ => true
  | .badLength => false

/-- The console requests of the table of R186; the events of links, pins, lines and timers have none. -/
def Instr.request? (i : Instr) : Option RequestShape :=
  match i with
  | .enrol port b => some ⟨port, 0x01, b.lengthOk⟩
  | .change port b => some ⟨port, 0x02, b.lengthOk⟩
  | .retire port b => some ⟨port, 0x03, b.lengthOk⟩
  | .lookup port b => some ⟨port, 0x04, b.lengthOk⟩
  | .listZone port b => some ⟨port, 0x05, b.lengthOk⟩
  | .summary port b => some ⟨port, 0x06, b.lengthOk⟩
  | .order port b => some ⟨port, 0x07, b.lengthOk⟩
  | .cancel port b => some ⟨port, 0x08, b.lengthOk⟩
  | .orderStatus port b => some ⟨port, 0x09, b.lengthOk⟩
  | .readAlarms port b => some ⟨port, 0x0A, b.lengthOk⟩
  | .ackAlarm port b => some ⟨port, 0x0B, b.lengthOk⟩
  | .clearFlags port b => some ⟨port, 0x0C, b.lengthOk⟩
  | .readChanges port b => some ⟨port, 0x0D, b.lengthOk⟩
  | .bulk port b => some ⟨port, 0x0E, b.lengthOk⟩
  | .bulkAbort port b => some ⟨port, 0x0F, b.lengthOk⟩
  | .bulkStatus port b => some ⟨port, 0x10, b.lengthOk⟩
  | .unitSet port b => some ⟨port, 0x11, b.lengthOk⟩
  | .unitRead port b => some ⟨port, 0x12, b.lengthOk⟩
  | .lineSet port b => some ⟨port, 0x13, b.lengthOk⟩
  | .calendarSet port b => some ⟨port, 0x14, b.lengthOk⟩
  | .commission port b => some ⟨port, 0x15, b.lengthOk⟩
  | .resweep port b => some ⟨port, 0x16, b.lengthOk⟩
  | .restart port b => some ⟨port, 0x17, b.lengthOk⟩
  | .ident port b => some ⟨port, 0x18, b.lengthOk⟩
  | .badType .. | .overrun .. | .badFrame .. | .consoleByteGap .. | .responseSent .. | .rstnLow ..
  | .rstnRelease | .ecloseInputChange .. | .ecloseDebounceExpiry | .guardEnd .. | .requestSent ..
  | .windowExpiry .. | .replyReceived .. | .replyByteGap .. | .stalenessDeadlineExpiry ..
  | .spacingTimerExpiry .. | .chargeTimerExpiry .. | .warningLeadExpiry .. | .deadlineExpiry ..
  | .obstructionPauseExpiry .. | .passageLimitExpiry .. | .recloseDelayExpiry .. | .bulkStepExpiry
  | .replyStart .. => none

end Sys2Proof
end

