-- ==== Sys2Proof/Certificates/Slice0/Obligations.lean ====
section
/-! DEFINITION. The statements for the provers: what the commands and the part do, by the numbered rules
of spec/. -/

open Sys2Proof Sys2Proof.Machine

/-! ### Steps, reset and the queue -/

/-- A step with commands waiting takes the one at the front and runs it on the state with the queue's rest.
With no command waiting and no hand-off left over, a millisecond passes: the count rises by one, the uptime
word with it modulo 2^32, the expiries due join the queue, and nothing else changes. The model's choice: the
queue of commands, and the millisecond on an empty queue (log entries 2, 3). -/
def Obligations.StepRunsTheFrontCommand : Prop :=
  (∀ (c : Instr) (rest : List Instr) (s : State), s.pending = c :: rest →
    step s = exec c { s with pending := rest })
  ∧ ∀ s : State, s.pending = [] → s.Calm → ∃ t, step s = .next t
    ∧ t.clock = s.clock + 1 ∧ t.uptime = s.uptime + 1
    ∧ t.pending = State.dueCommands { s with clock := s.clock + 1 }
    ∧ t.inReset = false ∧ t.agenda = [] ∧ s.KeepsBut t [.pending, .clock]

/-- The table of R182: what each block holds after a power-on reset; and that state meets every invariant
stated here: it is sound, its lists name its records, it stands between two events, its outputs are current,
its orders are placed, its records answer as they should, and its accounts and alarms agree. The model's
choice: the reset values of the ECLOSE pin, the sweep cursors and the bulk cursor (log entries 12, 33). -/
def Obligations.PowerOnResetState : Prop :=
  let s := State.reset
  s.phase = .build ∧ s.uptime = 0 ∧ s.outputs.outstanding = 0
    ∧ (∀ p, s.rec? p = none) ∧ s.directory = [] ∧ (∀ z, s.zoneList z = [])
    ∧ (∀ z ∈ s.outputs.zones, z = Summary.none) ∧ s.outputs.zones.length = 24
    ∧ s.outputs.ship = Summary.none ∧ s.outputs.allClosed = false
    ∧ (∀ k, s.order? k = none) ∧ s.stack = [] ∧ s.pendingOrders = [] ∧ s.ecloseState = false
    ∧ (∀ u, s.unit? u = none) ∧ s.shipM = 8 ∧ s.shipE = 4 ∧ s.shipStrokes = 0
    ∧ (∀ n, (s.line n).enabled = true ∧ (s.line n).rate = .r115200 ∧ (s.line n).window = 10
        ∧ (s.line n).queue = [] ∧ (s.line n).exchange = none ∧ (s.line n).sweep.active = false
        ∧ (s.line n).place = .slot 0 [] 0 ∧ (s.line n).pointers = [0])
    ∧ s.calendar = [{ first := 0, last := 255, visits := 1 }]
    ∧ s.alarms = [] ∧ s.overflow = false
    ∧ s.walk.state = .idle ∧ s.walk.number = 0
    ∧ (∀ port, (s.portState port).marks = [] ∧ (s.portState port).freed = []
        ∧ (s.portState port).receiver = .hunt ∧ (s.portState port).service = .idle
        ∧ (s.portState port).badFrames = 0 ∧ (s.portState port).overruns = 0
        ∧ s.conditions port = Conditions.none)
    ∧ s.outputs.attnA = false ∧ s.outputs.attnB = false
    ∧ s.walk.counts = none ∧ s.walk.plan = none ∧ s.walk.result = none
    ∧ s.Sound ∧ s.Listed ∧ s.Settled ∧ s.OutputsCurrent ∧ s.Answered ∧ s.OrdersPlaced ∧ s.TopActive
    ∧ s.Accounted ∧ s.AlarmsAgree

/-- RSTN held low for 10 microseconds or more discards everything, with every output deasserted; when it goes high
the part starts from the state of power-on reset, and an ECLOSE pin held high is on its 50 ms (R68, R182). A
shorter pulse is either such a reset or nothing (R199). The commands that wait are outside the part and stay. While
RSTN is low the part takes no event: only the two pins act. The model's choice: the free value of a short pulse,
the pin's level at reset, and CLKIN always running (log entries 12, 13, 61). -/
def Obligations.RstnResetsThePart : Prop :=
  (∀ (s : State) (micros : Nat),
     let inReset : State :=
       { State.reset with
         pending := s.pending, inReset := true, eclosePin := s.eclosePin, shortPulses := s.shortPulses }
     (10 ≤ micros → exec (.rstnLow micros) s = .next inReset)
     ∧ (micros < 10 →
         exec (.rstnLow micros) s = .next { inReset with shortPulses := s.shortPulses + 1 }
         ∨ exec (.rstnLow micros) s = .next { s with shortPulses := s.shortPulses + 1 })
     ∧ inReset.outputs = Outputs.reset
     ∧ exec .rstnRelease inReset
         = .next { inReset with inReset := false,
                                ecloseTimer := if s.eclosePin then some 50 else none })
  ∧ (∀ (s : State) (c : Instr), s.inReset = true →
       (∀ micros, c ≠ .rstnLow micros) → c ≠ .rstnRelease → (∀ level, c ≠ .ecloseInputChange level) →
       exec c s = .next s)

/-! ### Invariants -/

/-- Every range and bound of the manual is kept by every step: the ranges of R3, R97, R134, missed and attempt
counts within 3 (R5), order slots, priorities and repeat counts (R46, R47), the charge between 0 and 1000 C,
strokes within the concurrency, the ship strokes within M + E (R113), at most 64 alarm entries (R153), the counts
of a port within 16 bits (R187, R188), and the canonical form. -/
def Obligations.EveryStepKeepsTheStateSound : Prop :=
  ∀ s t : State, s.Sound → step s = .next t → t.Sound

/-- The directory holds exactly one entry for each record, and each zone list exactly the records of its zone
in the order of rank and door number, after every step (R6, R8). -/
def Obligations.EveryStepKeepsTheLists : Prop :=
  ∀ s t : State, s.Sound → s.Listed → step s = .next t → t.Listed

/-- The summaries, ALLCLOSED, the outstanding number, the attention conditions and the pins are current after
every step (R40, R41, R178, R198, R199). What current outputs are, while the part runs: a port's attention
output is asserted exactly while its port has a change mark, an unacknowledged alarm entry is held, or an
order's completion is unread for the port (R198); FLn_DE is high, and FLn_TXD sends the request, exactly
through the SENDING phase of the line's exchange, and a console TXD pin sends the response in service, idle
high otherwise; an asserted ATTN pin pulls low and floats otherwise, and ALLCLOSED is driven high or low.
While RSTN is low every DE is low, every TXD pin idles high, ALLCLOSED is low and both ATTN pins float (R199).
The model's choice: a response is on its TXD pin from the moment the port serves (log entry 5). -/
def Obligations.EveryStepLeavesTheOutputsCurrent : Prop :=
  (∀ s t : State, s.OutputsCurrent → step s = .next t → t.OutputsCurrent)
  ∧ ∀ s : State, s.OutputsCurrent →
    let o := s.outputs
    let asked := fun (port : Port) =>
      (s.portState port).marks ≠ [] ∨ (∃ a ∈ s.alarms, a.state ≠ .ackActive)
        ∨ ∃ e ∈ s.slots, e.2.unread.get port = true
    (s.inReset = false →
      (o.attnA = true ↔ asked .A) ∧ (o.attnB = true ↔ asked .B)
      ∧ (∀ n, o.driveEnable.get n = true ↔ ∃ x, (s.line n).exchange = some x ∧ x.phase = .sending)
      ∧ (∀ n bytes, o.lineTxd.get n = .sends bytes ↔
          ∃ x, (s.line n).exchange = some x ∧ x.phase = .sending ∧ x.request = bytes)
      ∧ (∀ r, o.consoleTxdA = .sends r ↔ s.portA.service = .serving r)
      ∧ (∀ r, o.consoleTxdB = .sends r ↔ s.portB.service = .serving r))
    ∧ (s.inReset = true →
      (∀ n, driveLevel (o.driveEnable.get n) = .low ∧ o.lineTxd.get n = .idleHigh)
      ∧ o.consoleTxdA = .idleHigh ∧ o.consoleTxdB = .idleHigh ∧ o.allClosedLevel = .low
      ∧ attnLevel o.attnA = .floats ∧ attnLevel o.attnB = .floats)
    ∧ (attnLevel o.attnA = .low ↔ o.attnA = true) ∧ (attnLevel o.attnB = .low ↔ o.attnB = true)
    ∧ (o.allClosedLevel = .high ↔ o.allClosed = true)

/-- No step leaves the phase at SWEEP with no record outstanding (R178), and none leaves an idle line with an
exchange it could begin (R124). The model's choice: an idle line begins at the end of the event that hands it
work (log entry 20). -/
def Obligations.EveryStepEndsSweepsAndStartsLines : Prop :=
  (∀ s t : State, s.SweepOpen → step s = .next t → t.SweepOpen)
  ∧ (∀ s t : State, s.LinesChosen → step s = .next t → t.LinesChosen)

/-- A record with no good reply since its enrolment has no report and is indicated UNKNOWN, and an ENROLLED
record has had none (R1, R28): every step keeps that. -/
def Obligations.EveryStepKeepsUnansweredRecordsUnknown : Prop :=
  ∀ s t : State, s.Answered → step s = .next t → t.Answered

/-- The phase changes by the events of the table of R174 alone: COMMISSION out of BUILD, the end of a sweep, at
which every record is RETIRING, marked or carries LC (R178), RESWEEP out of SERVICE, RESTART, and a power-on reset.
Bytes that reach a console port change it so too, and no otherwise: by a byte that completes one of these three
requests, or ends the sweep with it. The bad-frame and overrun counts of a port are returned to 0 by a power-on
reset only: no other command lowers them (R188). -/
def Obligations.OnlyTheirEventsChangeThePhaseOrLowerTheCounts : Prop :=
  let swept := fun (s t : State) => s.phase = .sweep ∧ t.phase = .service
    ∧ ∀ p r, t.rec? p = some r → r.lifecycle = .retiring ∨ r.mark = true ∨ FaultKind.lc ∈ r.causes
  (∀ (c : Instr) (s t : State), exec c s = .next t → t.phase ≠ s.phase →
    (s.phase = .build ∧ t.phase ≠ .build ∧ ∃ port, c = .commission port (.fields ()))
    ∨ swept s t
    ∨ (s.phase = .service ∧ t.phase = .sweep ∧ ∃ port, c = .resweep port (.fields ()))
    ∨ (∃ port, c = .restart port (.fields ()) ∧ (t.phase = .build ↔ s.records = []))
    ∨ (t.phase = .build ∧ ∃ micros, c = .rstnLow micros)
    ∨ ∃ port bytes, c = .badFrame port bytes ∨ c = .consoleByteGap port bytes)
  ∧ (∀ (s : State) (port : Port) (b : LinkByte), s.inReset = false →
      let t := State.takeByte port s b
      t.phase ≠ s.phase → swept s t
        ∨ ∃ type : Byte, (s.portState port).receiver.feed b = .complete [type]
            ∧ ((type = 0x15 ∧ s.phase = .build) ∨ (type = 0x16 ∧ s.phase = .service) ∨ type = 0x17))
  ∧ ∀ (c : Instr) (s t : State) (port : Port), s.Sound → (∀ micros, c ≠ .rstnLow micros) →
      exec c s = .next t →
      (s.portState port).badFrames ≤ (t.portState port).badFrames
        ∧ (s.portState port).overruns ≤ (t.portState port).overruns

/-! ### Console ports -/

/-- A console request taken on an IDLE port is answered on that port alone: the port becomes SERVING with a
response of the request's type plus 0x80, its receiver is in HUNT, and the link of the other port and both
ports' error counts stay as they were (R186 to R190). One answered with a status other than OK, CLAMPED or
ABSORBED changes no state of the part, save for the port's service state and its receiver (R189). -/
def Obligations.RequestsAreAnsweredOnTheirPort : Prop :=
  (∀ (c : Instr) (q : RequestShape) (s : State), c.request? = some q → s.inReset = false →
     s.TakesOn q.port →
     ∃ t status content, exec c s = .next t ∧ t.Answers q.port q.code status content
       ∧ (t.portState q.port).receiver = .hunt
       ∧ (∀ port, port ≠ q.port → (Part.link port).same s t)
       ∧ (∀ port, (Part.counts port).same s t)
       ∧ t.pending = s.pending ∧ t.clock = s.clock)
  ∧ (∀ (c : Instr) (q : RequestShape) (s t : State) (status : Status) (content : Content),
       c.request? = some q → s.inReset = false → s.TakesOn q.port → exec c s = .next t →
       t.Answers q.port q.code status content → status.accepts = false →
       t = s.responds q.port q.code status content)

/-- A message that completes on a SERVING port is dropped unanswered, whatever it is: the overrun count rises by
one, saturating at 65535, and nothing else changes but the receiver (R188). On an IDLE port a message of a type
outside the table of R186 is answered BAD_TYPE, and a body of a length its type does not allow BAD_FIELD, each with
no further contents (R189). The model's choice: the type byte of the answer to a type of 0x80 or above, the sum
modulo 256 (log entry 58). -/
def Obligations.MessagesMeetTheServiceState : Prop :=
  (∀ (s : State) (port : Port) (r : Response), s.inReset = false →
     (s.portState port).service = .serving r →
     let dropped := State.drive (s.modPort port fun ps =>
       { ps with receiver := .hunt, overruns := min 65535 (ps.overruns + 1) })
     (∀ (c : Instr) (q : RequestShape), c.request? = some q → q.port = port → exec c s = .next dropped)
       ∧ (∀ type, WellFormed (.badType port type) = true → exec (.badType port type) s = .next dropped)
       ∧ exec (.overrun port) s = .next dropped)
  ∧ (∀ (s : State) (port : Port), s.inReset = false → s.TakesOn port →
       (∀ type : Byte, WellFormed (.badType port type) = true →
         exec (.badType port type) s = .next (s.responds port type.toNat .badType .empty))
       ∧ (∀ (c : Instr) (code : Nat), c.request? = some ⟨port, code, false⟩ →
         exec c s = .next (s.responds port code .badField .empty)))

/-- Bytes at a console port. One byte at a receiver goes by the table of R187. A byte at a port moves the receiver
on, adds a bad frame, saturating, with the receiver back in HUNT, or completes a message (R187, R188): on a SERVING
port an overrun; on an IDLE port the request of its type, with a body of no byte where the type has no field, or
BAD_TYPE (R186, R189). On an IDLE port a body is BAD_FIELD, with no further contents, where it has fewer bytes than
the fields its type must carry, where it ends within a number, and where its numbers are more than the fields its
type may carry stand for (R189). BAD FRAME and CONSOLE BYTE GAP take their bytes one after the other, those after a
bad one hunted like any others; a gap of more than 10 ms inside a message is a bad frame, in HUNT it counts
nothing. The last byte of a response sent makes the port IDLE. The bytes of an envelope bring a receiver in HUNT to
the completion of their message; C3 01 18 19 is an IDENT; a response is sent as sync, length, type, status,
contents and check, with the status codes of R186; a number of more than one byte goes high byte first. The model's
choice: the bytes of bodies with fields and of contents are free but for the order within a number (log entries 6,
7), a field that must be carried takes one byte at least (log entry 76), bytes reach the receiver in the groups of
log entry 8, their ends untimed (log entry 5), and the answer to a type of 0x80 or above has the sum modulo 256 as
its type (log entry 58). -/
def Obligations.BytesReachThePort : Prop :=
  (∀ (b : LinkByte) (len : Byte) (held : List Byte),
     (Receiver.feed .hunt b = if b.value = 0xC3 ∧ b.framingError = false then .more .length else .more .hunt)
     ∧ (b.framingError = true →
         Receiver.feed .length b = .bad ∧ Receiver.feed (.body len held) b = .bad
           ∧ Receiver.feed (.check len held) b = .bad)
     ∧ (b.framingError = false →
         (Receiver.feed .length b
           = if b.value = 0 ∨ 250 < b.value.toNat then .bad else .more (.body b.value []))
         ∧ (held.length + 1 < len.toNat →
             Receiver.feed (.body len held) b = .more (.body len (held ++ [b.value])))
         ∧ (held.length + 1 = len.toNat →
             Receiver.feed (.body len held) b = .more (.check len (held ++ [b.value])))
         ∧ (Receiver.feed (.check len held) b
           = if b.value.toNat = (len.toNat + (held.map BitVec.toNat).sum) % 256 then .complete held
             else .bad)))
  ∧ (∀ (s : State) (port : Port) (b : LinkByte), s.inReset = false →
      let ps := s.portState port
      let fed := ps.receiver.feed b
      let t := State.takeByte port s b
      (∀ r, fed = .more r → t = s.putPort port { ps with receiver := r })
      ∧ (fed = .bad →
          t = s.putPort port { ps with receiver := .hunt, badFrames := min 65535 (ps.badFrames + 1) })
      ∧ ∀ (type : Byte) (body : List Byte), fed = .complete (type :: body) →
        let bare := fun (c : Body Unit → Instr) =>
          exec (c (if body = [] then .fields () else .badLength)) s = .next t
        let mustCarry : List (Nat × Nat) :=
          [(0x01, 5), (0x02, 1), (0x03, 1), (0x04, 1), (0x05, 2), (0x06, 1), (0x07, 5), (0x08, 1), (0x09, 2),
           (0x0A, 1), (0x0B, 1), (0x0C, 2), (0x0E, 2), (0x11, 1), (0x12, 1), (0x13, 1), (0x14, 4)]
        (∀ r, ps.service = .serving r → t = State.drive
          (s.putPort port { ps with receiver := .hunt, overruns := min 65535 (ps.overruns + 1) }))
        ∧ (ps.service = .idle → ∀ e ∈ mustCarry, type.toNat = e.1 →
            let numbers := readNumbers type body.length [] body
            body.length < e.2 ∨ numbers = none ∨ (∃ ns, numbers = some ns ∧ Config.mostNumbers type < ns.length) →
            t = s.responds port e.1 .badField .empty)
        ∧ (ps.service = .idle → type = 0 ∨ 24 < type.toNat →
            t = s.responds port type.toNat .badType .empty)
        ∧ (1 ≤ type.toNat → type.toNat ≤ 24 → ∃ c q, c.request? = some q ∧ q.port = port
            ∧ q.code = type.toNat ∧ exec c s = .next t)
        ∧ (type = 0x0D → bare (.readChanges port)) ∧ (type = 0x0F → bare (.bulkAbort port))
        ∧ (type = 0x10 → bare (.bulkStatus port)) ∧ (type = 0x15 → bare (.commission port))
        ∧ (type = 0x16 → bare (.resweep port)) ∧ (type = 0x17 → bare (.restart port))
        ∧ (type = 0x18 → bare (.ident port)))
  ∧ (∀ (s : State) (port : Port) (bytes : List LinkByte), s.inReset = false →
      let t := bytes.foldl (State.takeByte port) s
      exec (.badFrame port bytes) s = .next t.drive
      ∧ ((t.portState port).receiver = .hunt → exec (.consoleByteGap port bytes) s = .next t.drive)
      ∧ ((t.portState port).receiver ≠ .hunt → exec (.consoleByteGap port bytes) s
          = .next (t.modPort port fun ps =>
              { ps with receiver := .hunt, badFrames := min 65535 (ps.badFrames + 1) }).drive)
      ∧ exec (.responseSent port) s = .next (s.modPort port fun ps => { ps with service := .idle }).drive)
  ∧ (∀ (s : State) (port : Port) (held : List Byte), (s.portState port).receiver = .hunt →
      1 ≤ held.length → held.length ≤ 250 →
      let len := BitVec.ofNat 8 held.length
      ∃ check : Byte, envelope held = [0xC3, len] ++ held ++ [check]
        ∧ check.toNat = (held.length + (held.map BitVec.toNat).sum) % 256
        ∧ (([0xC3, len] ++ held).map fun v => ({ value := v } : LinkByte)).foldl (State.takeByte port) s
          = s.putPort port { s.portState port with receiver := .check len held }
        ∧ Receiver.feed (.check len held) { value := check } = .complete held)
  ∧ (∀ (s : State) (port : Port), s.inReset = false → s.TakesOn port →
      (s.portState port).receiver = .hunt →
      exec (.consoleByteGap port [{ value := 0xC3 }, { value := 0x01 }, { value := 0x18 }, { value := 0x19 }]) s
        = .next (s.responds port 0x18 .ok (.ident (s.identReport port))))
  ∧ (∀ width value : Nat, (numberBytes width value).length = width
      ∧ numberOf (numberBytes width value) = value % 256 ^ width)
  ∧ (∀ (high : Byte) (rest : List Byte),
      numberOf (high :: rest) = high.toNat * 256 ^ rest.length + numberOf rest)
  ∧ ∀ r : Response, ∃ (len code check : Byte) (contents : List Byte),
      r.frame = [0xC3, len, r.type, code] ++ contents ++ [check]
      ∧ contents.length ≤ 248 ∧ len.toNat = contents.length + 2
      ∧ check.toNat = (len.toNat + r.type.toNat + code.toNat + (contents.map BitVec.toNat).sum) % 256
      ∧ (r.content = .empty → contents = [])
      ∧ (r.content ≠ .empty → contents
        = ((Config.contentLayout r.content).flatMap fun n => numberBytes n.width n.value).take 248)
      ∧ (match r.status with
        | .ok => code = 0x00
        | .clamped => code = 0x01
        | .absorbed => code = 0x02
        | .badField => code = 0x03
        | .notFound => code = 0x04
        | .duplicate => code = 0x05
        | .busy => code = 0x06
        | .noSlot => code = 0x07
        | .wrongPhase => code = 0x08
        | .priority => code = 0x09
        | .badType => code = 0x0A)

/-- LOOKUP, LIST ZONE, SUMMARY, READ ALARMS, BULK STATUS and IDENT answer OK with what their rules name, and change
no state but the port's link (R13, R191, R192, R194, R172, R197). The names resolve by R7: BAD_FIELD out of range,
NOT_FOUND with no record; a zone outside 1 to 24 and an alarm index above 63 are BAD_FIELD. LOOKUP gives the whole
record; LIST ZONE the entries of the list from its start index; SUMMARY of the ship the counts, the zone states,
the phase, the outputs, the orders and the doors not proven closed, by number, the first 16 listed; READ ALARMS up
to 8 entries of the list in the order of R153, by severity, age and subject, doors before units and each by number;
BULK STATUS the walk record, in NONE the state and the number alone; IDENT the names, the phase, the ECLOSE state,
the uptime and the port's counts and conditions. The model's choice: the silicon revision (log entry 14), the order
in which READ ALARMS takes the entries, what SUMMARY lists as not proven closed, and the age of the last good reply
that LOOKUP reports, held at 2^31 - 1 ms in place of R13's age modulo 2^32 (log entries 37, 40, 41). -/
def Obligations.ReadsAnswerAndChangeNothing : Prop :=
  (∀ (s : State) (port : Port), s.inReset = false → s.TakesOn port →
    (∀ (name : DoorName) (p : Nat) (r : Record), s.rec? p = some r →
      ((name = .position p ∧ p ≤ 255)
        ∨ (∃ n, name = .number n ∧ 1 ≤ n ∧ n ≤ 4095 ∧ Keyed.get? s.directory n = some p)) →
      exec (.lookup port (.fields name)) s = .next (s.responds port 0x04 .ok (.record (s.recordReport p r))))
    ∧ (∀ name : DoorName,
      ((∃ n, name = .number n ∧ (n < 1 ∨ 4095 < n)) ∨ (∃ p, name = .position p ∧ 255 < p) →
        exec (.lookup port (.fields name)) s = .next (s.responds port 0x04 .badField .empty))
      ∧ ((∃ n, name = .number n ∧ 1 ≤ n ∧ n ≤ 4095
            ∧ ∀ p, Keyed.get? s.directory n = some p → s.rec? p = none)
          ∨ (∃ p, name = .position p ∧ p ≤ 255 ∧ s.rec? p = none) →
        exec (.lookup port (.fields name)) s = .next (s.responds port 0x04 .notFound .empty)))
    ∧ (∀ z start, z < 1 ∨ 24 < z →
      exec (.listZone port (.fields { which := .zone z, start := start })) s
          = .next (s.responds port 0x05 .badField .empty)
        ∧ exec (.summary port (.fields (.zone z))) s = .next (s.responds port 0x06 .badField .empty))
    ∧ (∀ start, 63 < start →
      exec (.readAlarms port (.fields start)) s = .next (s.responds port 0x0A .badField .empty))
    ∧ (∀ z start, 1 ≤ z → z ≤ 24 →
      exec (.listZone port (.fields { which := .zone z, start := start })) s
        = .next (s.responds port 0x05 .ok
            (.listing (s.zoneList z).length (((s.zoneList z).drop start |>.take 16).filterMap s.listEntry?))))
    ∧ (∀ start,
      exec (.listZone port (.fields { which := .ship, start := start })) s
        = .next (s.responds port 0x05 .ok
            (.listing s.directory.length
              (((s.directory.map Prod.snd).drop start |>.take 16).filterMap s.listEntry?))))
    ∧ (∀ z, 1 ≤ z → z ≤ 24 →
      exec (.summary port (.fields (.zone z))) s = .next (s.responds port 0x06 .ok (.zone (s.zoneSummary z))))
    ∧ exec (.summary port (.fields .ship)) s = .next (s.responds port 0x06 .ok (.ship s.shipReport))
    ∧ (∀ start, start ≤ 63 →
      exec (.readAlarms port (.fields start)) s
        = .next (s.responds port 0x0A .ok
            (.alarms s.alarms.length s.overflow (s.alarms.countP fun a => decide (a.state ≠ .ackActive))
              (s.alarmReports start))))
    ∧ exec (.bulkStatus port (.fields ())) s = .next (s.responds port 0x10 .ok (.walk s.walkReport))
    ∧ exec (.ident port (.fields ())) s = .next (s.responds port 0x18 .ok (.ident (s.identReport port))))
  ∧ (∀ (s : State) (p : Nat) (r : Record),
    let m := s.recordReport p r
    m.position = p ∧ m.lifecycle = r.lifecycle ∧ m.cfg = r.cfg ∧ m.report = r.report
      ∧ m.lastGoodAge = r.lastGood.map (fun good => min (s.clock - good) 2147483647)
      ∧ m.missed = r.missed ∧ m.mark = r.mark ∧ m.indicated = r.indicated ∧ m.qualifiers = r.qualifiers
      ∧ m.causes = r.causes ∧ m.flags = r.flags ∧ m.motion = r.motion ∧ m.target = r.target
      ∧ m.purpose = r.purpose ∧ m.govSlot = r.govSlot ∧ m.waitReason = r.waitReason
      ∧ m.remaining = r.deadline.map (fun d => d - s.clock) ∧ m.attempts = r.attempts
      ∧ m.heldDebit = r.heldDebit ∧ m.releaseAttempts = r.releaseAttempts
      ∧ s.listEntry? p = (s.rec? p).map fun r =>
        { position := p, number := r.cfg.number, cls := r.cfg.cls, lifecycle := r.lifecycle,
          indicated := r.indicated, qualifiers := r.qualifiers })
  ∧ (∀ s : State, s.Sound → s.Listed →
    let m := s.shipReport
    m.summary = s.shipSummary ∧ m.zones.length = 24
      ∧ (∀ z, 1 ≤ z → z ≤ 24 → m.zones[z - 1]? = some (s.zoneSummary z).state)
      ∧ m.phase = s.phase ∧ m.outstanding = (if s.phase = .sweep then some s.outstandingCount else none)
      ∧ (m.allClosed = true ↔ s.phase = .service ∧ s.shipSummary.state = .closed)
      ∧ m.overflow = s.overflow ∧ m.stack = (s.stack.map fun k => (k, s.priorityOf k)).reverse
      ∧ m.pendingOrders = s.pendingOrders
      ∧ ∃ all : List OpenDoor, m.openCount = all.length ∧ m.openDoors = all.take 16
        ∧ (all.Pairwise fun a b => a.number < b.number)
        ∧ ∀ d : OpenDoor, d ∈ all ↔ ∃ r, s.rec? d.position = some r ∧ r.lifecycle ≠ .retiring
          ∧ (r.lifecycle = .enrolled ∨ Qualifier.stale ∈ r.qualifiers ∨ Qualifier.unproven ∈ r.qualifiers
            ∨ r.indicated ≠ .closed)
          ∧ d.number = r.cfg.number ∧ d.indicated = r.indicated ∧ d.qualifiers = r.qualifiers)
  ∧ (∀ s : State, s.alarmList.Perm s.alarms
    ∧ (s.alarmList.Pairwise fun a b => a.kind.severity ≤ b.kind.severity
        ∧ (a.kind.severity = b.kind.severity →
          min (s.clock - b.raised) 2147483647 ≤ min (s.clock - a.raised) 2147483647)
        ∧ (a.kind.severity = b.kind.severity →
          min (s.clock - b.raised) 2147483647 = min (s.clock - a.raised) 2147483647 →
          match a.subject, b.subject with
          | .door m, .door n => m ≤ n
          | .door _, .unit _ => True
          | .unit _, .door _ => False
          | .unit m, .unit n => m ≤ n))
    ∧ ∀ start, (s.alarmReports start).length = min 8 (s.alarms.length - start)
      ∧ ∀ (i : Nat) (e : AlarmReport), (s.alarmReports start)[i]? = some e →
        ∃ a, s.alarmList[start + i]? = some a ∧ e.index = start + i ∧ e.subject = a.subject
          ∧ e.kind = a.kind ∧ e.state = a.state ∧ e.age = min (s.clock - a.raised) 2147483647
          ∧ (∀ n, a.subject = .door n → e.position = Keyed.get? s.directory n)
          ∧ ∀ n, a.subject = .unit n → e.position = none)
  ∧ (∀ s : State,
    let m := s.walkReport
    (s.walk.state = .idle → m = { state := .idle, number := s.walk.number, plan := none, cursor := none,
                                  toNextVisit := none, counts := none, result := none })
    ∧ (s.walk.state ≠ .idle → m.state = s.walk.state ∧ m.number = s.walk.number ∧ m.plan = s.walk.plan
        ∧ m.cursor = some s.walk.cursor ∧ m.toNextVisit = s.walk.stepTimer.map (fun d => d - s.clock)
        ∧ m.counts = s.walk.counts ∧ m.result = s.walk.result))
  ∧ ∀ (s : State) (port : Port),
    let m := s.identReport port
    m.vendor = "Zarkel" ∧ m.part = "WP416" ∧ m.revision = Config.siliconRevision ∧ m.phase = s.phase
      ∧ m.eclose = s.ecloseState ∧ m.uptime.toNat = s.clock % 4294967296 ∧ m.port = port
      ∧ m.badFrames = (s.portState port).badFrames ∧ m.overruns = (s.portState port).overruns
      ∧ m.conditions = s.conditions port

/-- READ CHANGES reports this port's lowest marked positions, up to eight, clears this port's mark and freed report
on each, and leaves every other mark and the other port's as they were (R44, R193). A record is reported with its
position, door number, lifecycle, class, indicated state, qualifiers, motion state, target, causes and sticky
flags, and a FREE position with the door number and the reason of this port's freed report. -/
def Obligations.ReadChangesClearsWhatItReports : Prop :=
  (∀ (s : State) (port : Port), s.Settled → s.TakesOn port →
    let ps := s.portState port
    exec (.readChanges port (.fields ())) s
      = .next ((s.putPort port
            { ps with marks := ps.marks.drop 8,
                      freed := ps.freed.filter fun e => !(ps.marks.take 8).contains e.1 }).responds
          port 0x0D .ok
          (.changes ((ps.marks.take 8).filterMap (s.changeReport? port)) (ps.marks.length - 8))))
  ∧ ∀ (s : State) (port : Port) (p : Nat),
    (∀ r, s.rec? p = some r → s.changeReport? port p
      = some (.holds p r.cfg.number r.lifecycle r.cfg.cls r.indicated r.qualifiers r.motion r.target r.causes
          r.flags))
    ∧ (s.rec? p = none → ∀ f, Keyed.get? (s.portState port).freed p = some f →
      s.changeReport? port p = some (.freed p f.number f.reason))
    ∧ (s.rec? p = none → Keyed.get? (s.portState port).freed p = none → s.changeReport? port p = none)

/-! ### The door table -/

/-- An accepted ENROL: the record is created with the dynamic fields of R5, its directory and zone-list entries are
made, both change marks are set and an unread freed report of the position is discarded, and the response carries
position, number, lifecycle and the UNCOVERED marker (R10, R12). In SWEEP it joins the sweep walk of its line,
which starts again if it was inactive (R12, R137). Beside the record's tables and the exchanges that idle lines
begin, by the choice stated of an idle line, nothing changes, and a line with an exchange in flight, disabled or in
BUILD is otherwise as it was. Its configured fields are those of R3: what the request carries, each quantity
brought into its range, and the defaults for the rest, with CLAMPED exactly where a carried quantity lay outside.
The refusals in their order: BAD_FIELD, exactly when a field that must be given is missing or an identifier, the
lifecycle or a set is out of its range, with the P fields judged for class P alone; then BUSY for a position that
is not FREE; then DUPLICATE for a door number or field address in use (R4, R11). Each echoes position and number
(R10). The model's choice: when an idle line chooses, and the cursor of a walk that starts again (log entries 20,
34). -/
def Obligations.EnrolCreatesTheRecordOrIsRefused : Prop :=
  (∀ (s : State) (port : Port) (q : EnrolReq) (l : Lifecycle) (cfg : Configured) (clamped : Bool),
      s.Calm → s.TakesOn port → s.enrolForm q = some (l, cfg, clamped) →
      s.rec? q.position = none → s.enrolDuplicate cfg = false →
      ∃ t u, exec (.enrol port (.fields q)) s = .next t
        ∧ t = State.settlesAndResponds u port 0x01 (fun _ => (if clamped then .clamped else .ok,
            .enrolled q.position cfg.number l
              (!s.calendar.any fun c => decide (c.first ≤ q.position) && decide (q.position ≤ c.last))))
        ∧ u.agenda = [] ∧ u.records = t.records
        ∧ s.KeepsBut u [.records, .directory, .zoneLists, .lines, .marks .A, .marks .B]
        ∧ (∀ n, u.line n = (if n = cfg.line ∧ s.phase = .sweep ∧ (s.line n).sweep.active = false then
              { s.line n with sweep := { active := true, cursor := 0, monitors := .done } }
            else s.line n))
        ∧ (∀ n, t.line n = u.chooseExchange n
          ∧ ((s.line n).exchange.isSome ∨ (s.line n).enabled = false ∨ s.phase = .build → t.line n = u.line n))
        ∧ t.rec? q.position = some
            { lifecycle := l, cfg := cfg, report := none, lastGood := none, missed := 0, mark := false,
              indicated := .unknown, aged := false, causes := [], flags := [], motion := .rest,
              purpose := none, target := none, govSlot := none, waitReason := none, queueClass := none,
              deadline := none, attempts := 0, heldDebit := none, releaseAttempts := none }
        ∧ (∀ p, p ≠ q.position → t.rec? p = s.rec? p)
        ∧ Keyed.get? t.directory cfg.number = some q.position
        ∧ (∀ n, n ≠ cfg.number → Keyed.get? t.directory n = Keyed.get? s.directory n)
        ∧ q.position ∈ t.zoneList cfg.zone ∧ (∀ z, z ≠ cfg.zone → t.zoneList z = s.zoneList z)
        ∧ (∀ side p, p ∈ (t.portState side).marks ↔ p = q.position ∨ p ∈ (s.portState side).marks)
        ∧ (∀ side, Keyed.get? (t.portState side).freed q.position = none)
        ∧ t.outputs.allClosed = false
        ∧ t.Answers port 0x01 (if clamped then .clamped else .ok)
            (.enrolled q.position cfg.number l
              (!s.calendar.any fun c => decide (c.first ≤ q.position) && decide (q.position ≤ c.last)))
        ∧ s.KeepsBut t [.records, .directory, .zoneLists, .lines, .marks .A, .marks .B, .link port])
  ∧ (∀ (s : State) (q : EnrolReq) (l : Lifecycle) (cfg : Configured) (clamped : Bool),
      s.enrolForm q = some (l, cfg, clamped) →
      let a := q.args
      let used := fun (lo hi : Nat) (given : Option Nat) (default : Nat) =>
        match given with
        | some n => if n < lo then lo else if hi < n then hi else n
        | none => default
      let out := fun (lo hi : Nat) (given : Option Nat) => ∃ n, given = some n ∧ (n < lo ∨ hi < n)
      (q.lifecycle = some (.is .isolated) → l = .isolated)
      ∧ (q.lifecycle ≠ some (.is .isolated) → l = .enrolled)
      ∧ a.number = some cfg.number ∧ a.cls = some (.is cfg.cls) ∧ a.zone = some cfg.zone
      ∧ (∃ n, a.address = some (n, cfg.station) ∧ lineOf n = some cfg.line)
      ∧ cfg.rank = a.rank.getD 0 ∧ cfg.tag = a.tag.getD 0
      ∧ cfg.staleLimit = used 200 20000 a.staleLimit 2000
      ∧ (a.enables = none → ∀ k, k ∈ cfg.enables ↔ k ∈ [.ct, .ot, .lc, .pd, .ob, .lp, .sf])
      ∧ (∀ e, a.enables = some e → ∀ k, k ∈ cfg.enables ↔ k ∈ e.items)
      ∧ (cfg.cls ≠ .P → cfg.power = none)
      ∧ (cfg.cls = .P → ∃ u, a.unit = some u ∧ cfg.power = some
          { unit := u, closeCost := used 1 4000 a.closeCost 1, openCost := used 1 4000 a.openCost 1,
            closeAllowance := used 5 120 a.closeAllowance 40,
            openAllowance := used 5 120 a.openAllowance 40, lead := used 0 20 a.lead 5,
            recloseDelay := used 2 30 a.recloseDelay 10,
            passageLimit := used 10 600 a.passageLimit 120,
            perms := match a.perms with
              | some n => { localOpen := n.items.contains .localOpen,
                            remoteOpen := n.items.contains .remoteOpen }
              | none => { localOpen := true, remoteOpen := true }
            normallyClosed := a.normallyClosed.getD false })
      ∧ (clamped = true ↔ out 200 20000 a.staleLimit
          ∨ (cfg.cls = .P ∧ (out 1 4000 a.closeCost ∨ out 1 4000 a.openCost ∨ out 5 120 a.closeAllowance
            ∨ out 5 120 a.openAllowance ∨ out 0 20 a.lead ∨ out 2 30 a.recloseDelay
            ∨ out 10 600 a.passageLimit))))
  ∧ (∀ (s : State) (q : EnrolReq),
     s.enrolForm q = none ↔
       ¬ (q.position ≤ 255
         ∧ (q.lifecycle = none ∨ q.lifecycle = some (.is .enrolled) ∨ q.lifecycle = some (.is .isolated))
         ∧ (∃ n, q.args.number = some n ∧ 1 ≤ n ∧ n ≤ 4095)
         ∧ (∃ l st, q.args.address = some (l, st) ∧ l ≤ 3 ∧ 1 ≤ st ∧ st ≤ 64)
         ∧ (∃ z, q.args.zone = some z ∧ 1 ≤ z ∧ z ≤ 24)
         ∧ (∀ e, q.args.enables = some e → e.outside = false ∧ ∀ k ∈ e.items, k.maskable = true)
         ∧ (∃ c, q.args.cls = some (.is c)
           ∧ (c = .P → q.args.closeCost.isSome ∧ q.args.openCost.isSome
             ∧ (∃ u, q.args.unit = some u ∧ u ≤ 31 ∧ (s.unit? u).isSome)
             ∧ ∀ n, q.args.perms = some n → n.outside = false))))
  ∧ (∀ (s : State) (port : Port) (q : EnrolReq), s.inReset = false → s.TakesOn port →
       let echo := Content.echo q.position q.args.number
       (s.enrolForm q = none →
         exec (.enrol port (.fields q)) s = .next (s.responds port 0x01 .badField echo))
       ∧ (∀ l cfg clamped, s.enrolForm q = some (l, cfg, clamped) →
         ((s.rec? q.position).isSome →
           exec (.enrol port (.fields q)) s = .next (s.responds port 0x01 .busy echo))
         ∧ (s.rec? q.position = none →
           ((Keyed.get? s.directory cfg.number).isSome
             ∨ (∃ e ∈ s.records, e.2.cfg.line = cfg.line ∧ e.2.cfg.station = cfg.station)
             ∨ (∃ e ∈ s.units, e.2.monitor = some (cfg.line, cfg.station))) →
           exec (.enrol port (.fields q)) s = .next (s.responds port 0x01 .duplicate echo))))

/-- A CHANGE of the tag, the quantities, the permissions and the normally-closed setting of a record that does not
wait for its unit: the carried fields take their new, clamped values and the others stay; P fields carried for
class H or S are ignored; both change marks are set; the response is OK or CLAMPED with the record (R3, R14 to
R16). A carried quantity is brought into its range of R3, with CLAMPED where it lay outside, carried permissions
and a carried normally-closed setting are taken as they are, and any other stays as it was. A door that waits for
its unit takes them as well and keeps its place; where its close or open cost changes at the head of the queue, the
unit evaluates its queue (R15, R106). The model's choice: a carried value equal to the present one is set and
checked as any other (log entry 24), the evaluation is a hand-off (log entry 15), and a waiting door whose cost
changes keeps its place with every unit as it was, at the head and behind it, where R76 has it re-placed (log entry
70). -/
def Obligations.ChangeSetsTheCarriedFields : Prop :=
  (∀ (s : State) (port : Port) (p : Nat) (r : Record) (a : FieldArgs),
     s.Settled → s.Sound → s.TakesOn port → s.rec? p = some r → r.lifecycle ≠ .retiring →
     r.motion ≠ .waitUnit → a.number = none → a.cls = none → a.address = none → a.zone = none →
     a.rank = none → a.staleLimit = none → a.enables = none → a.unit = none →
     (r.cfg.cls = .P → ∀ n, a.perms = some n → n.outside = false) →
     let power := r.cfg.power.map fun pf => (PowerFields.withArgs pf a).1
     let clamped := (r.cfg.power.map fun pf => (PowerFields.withArgs pf a).2).getD false
     ∃ t, exec (.change port (.fields { name := .position p, args := a })) s = .next t
       ∧ t.rec? p = some { r with cfg := { r.cfg with tag := a.tag.getD r.cfg.tag, power := power } }
       ∧ (∀ q, q ≠ p → t.rec? q = s.rec? q)
       ∧ (∀ side q, q ∈ (t.portState side).marks ↔ q = p ∨ q ∈ (s.portState side).marks)
       ∧ t.Answers port 0x02 (if clamped then .clamped else .ok) (t.recordContent p)
       ∧ s.KeepsBut t [.records, .lines, .marks .A, .marks .B, .link port])
  ∧ (∀ (pf : PowerFields) (a : FieldArgs),
       let b := (PowerFields.withArgs pf a).1
       let used := fun (lo hi : Nat) (given : Option Nat) (old : Nat) =>
         match given with
         | some n => if n < lo then lo else if hi < n then hi else n
         | none => old
       b.unit = pf.unit
         ∧ b.closeCost = used 1 4000 a.closeCost pf.closeCost ∧ b.openCost = used 1 4000 a.openCost pf.openCost
         ∧ b.closeAllowance = used 5 120 a.closeAllowance pf.closeAllowance
         ∧ b.openAllowance = used 5 120 a.openAllowance pf.openAllowance
         ∧ b.lead = used 0 20 a.lead pf.lead ∧ b.recloseDelay = used 2 30 a.recloseDelay pf.recloseDelay
         ∧ b.passageLimit = used 10 600 a.passageLimit pf.passageLimit
         ∧ b.perms = (match a.perms with
           | some n => { localOpen := n.items.contains .localOpen, remoteOpen := n.items.contains .remoteOpen }
           | none => pf.perms)
         ∧ b.normallyClosed = a.normallyClosed.getD pf.normallyClosed
         ∧ ((PowerFields.withArgs pf a).2 = true ↔
           (∃ n, a.closeCost = some n ∧ (n < 1 ∨ 4000 < n)) ∨ (∃ n, a.openCost = some n ∧ (n < 1 ∨ 4000 < n))
             ∨ (∃ n, a.closeAllowance = some n ∧ (n < 5 ∨ 120 < n))
             ∨ (∃ n, a.openAllowance = some n ∧ (n < 5 ∨ 120 < n))
             ∨ (∃ n, a.lead = some n ∧ 20 < n) ∨ (∃ n, a.recloseDelay = some n ∧ (n < 2 ∨ 30 < n))
             ∨ (∃ n, a.passageLimit = some n ∧ (n < 10 ∨ 600 < n))))
  ∧ ∀ (s : State) (p : Nat) (r : Record) (pf : PowerFields) (a : FieldArgs),
     s.Sound → s.rec? p = some r → r.cfg.power = some pf → r.motion = .waitUnit →
     a.number = none → a.cls = none → a.address = none → a.zone = none → a.rank = none →
     a.staleLimit = none → a.enables = none → a.unit = none →
     let b := (PowerFields.withArgs pf a).1
     let u := s.applyChange p r { name := .position p, args := a }
     let costs := b.closeCost ≠ pf.closeCost ∨ b.openCost ≠ pf.openCost
     u.rec? p = some { r with cfg := { r.cfg with tag := a.tag.getD r.cfg.tag, power := some b } }
       ∧ (∀ q, q ≠ p → u.rec? q = s.rec? q) ∧ u.units = s.units ∧ u.lines = s.lines
       ∧ (costs → s.headOf pf.unit = some p → u.agenda = s.agenda ++ [.evalQueue pf.unit])
       ∧ (¬ costs ∨ s.headOf pf.unit ≠ some p → u.agenda = s.agenda)

/-- A CHANGE is checked whole (R14): BAD_FIELD for a name, identifier, set or lifecycle out of its range (R3, R7);
and for a name with no record a unit or permission out of range, unless class H or S is carried; NOT_FOUND for any
other name with no record; BAD_FIELD for a door number other than the record's own (R4), for a permission outside
its set and a unit that is not configured, and for a change to class P without unit and costs; BUSY for a RETIRING
record, ISOLATED in LOCAL or RECLOSE_DELAY (R19), class or address outside REST or with a command outstanding
(R17), and a unit in a stroke or a reclose delay or with a command outstanding (R18); DUPLICATE for an address in
use. Otherwise all carried fields change together, and the response is OK, or CLAMPED where a carried quantity lay
outside its range, with the record. The model's choice: a carried value equal to the present one is checked as any
other (log entry 24), how P fields are judged where no record says the class (log entry 25), and that those of a
record are judged where its class AFTER the CHANGE is P (log entry 25, R14 against R3): a class P record taken to H
or S beside an unconfigured unit or a permission outside its set is accepted. -/
def Obligations.ChangeIsCheckedInItsOrder : Prop :=
  ∀ (s : State) (port : Port) (q : ChangeReq), s.inReset = false → s.TakesOn port → s.Sound →
    let a := q.args
    let answered := fun (status : Status) =>
      exec (.change port (.fields q)) s = .next (s.responds port 0x02 status .empty)
    let named := fun (p : Nat) =>
      q.name = .position p ∨ ∃ n, q.name = .number n ∧ Keyed.get? s.directory n = some p
    let formOk :=
      (∀ n, q.name = .number n → 1 ≤ n ∧ n ≤ 4095) ∧ (∀ p, q.name = .position p → p ≤ 255)
        ∧ (∀ n, a.number = some n → 1 ≤ n ∧ n ≤ 4095) ∧ a.cls ≠ some .outside
        ∧ (∀ l st, a.address = some (l, st) → l ≤ 3 ∧ 1 ≤ st ∧ st ≤ 64)
        ∧ (∀ z, a.zone = some z → 1 ≤ z ∧ z ≤ 24)
        ∧ (∀ e, a.enables = some e → e.outside = false ∧ ∀ k ∈ e.items, k.maskable = true)
        ∧ (q.lifecycle = none ∨ q.lifecycle = some (.is .inService) ∨ q.lifecycle = some (.is .isolated))
    (¬ formOk → answered .badField)
    ∧ (formOk → (∀ p, named p → s.rec? p = none) →
      let unfit := a.cls ≠ some (.is .H) ∧ a.cls ≠ some (.is .S)
        ∧ ((∃ n, a.perms = some n ∧ n.outside = true) ∨ ∃ u, a.unit = some u ∧ 31 < u)
      (unfit → answered .badField) ∧ (¬ unfit → answered .notFound))
    ∧ ∀ p r, formOk → named p → s.rec? p = some r →
      let cls : DoorClass :=
        match a.cls with
        | some (.is c) => c
        | _ => r.cfg.cls
      let fits := (∀ n, a.number = some n → n = r.cfg.number)
        ∧ (cls = .P → (∀ n, a.perms = some n → n.outside = false)
          ∧ (∀ u, a.unit = some u → u ≤ 31 ∧ (s.unit? u).isSome)
          ∧ (r.cfg.cls ≠ .P → a.unit.isSome ∧ a.closeCost.isSome ∧ a.openCost.isSome))
      let outstanding := (∃ e ∈ (s.line r.cfg.line).queue, e.position = p)
        ∨ ∃ x c st, (s.line r.cfg.line).exchange = some x ∧ x.kind = .command c ∧ x.target = .door p st
          ∧ x.targetFreed = false
      let busy := r.lifecycle = .retiring
        ∨ (q.lifecycle = some (.is .isolated) ∧ r.lifecycle ≠ .isolated
          ∧ (r.motion = .inLocal ∨ r.motion = .recloseDelay))
        ∨ ((a.cls.isSome ∨ a.address.isSome) ∧ (r.motion ≠ .rest ∨ outstanding))
        ∨ (a.unit.isSome ∧ r.cfg.cls = .P ∧ cls = .P
          ∧ ((r.motion ≠ .rest ∧ r.motion ≠ .waitUnit) ∨ outstanding))
      let taken := ∃ l st n, a.address = some (l, st) ∧ lineOf l = some n
        ∧ ((∃ j r', s.rec? j = some r' ∧ j ≠ p ∧ r'.cfg.line = n ∧ r'.cfg.station = st)
          ∨ ∃ u w, s.unit? u = some w ∧ w.monitor = some (n, st))
      let out := fun (lo hi : Nat) (given : Option Nat) => ∃ n, given = some n ∧ (n < lo ∨ hi < n)
      let clamped := out 200 20000 a.staleLimit
        ∨ (cls = .P ∧ (out 1 4000 a.closeCost ∨ out 1 4000 a.openCost ∨ out 5 120 a.closeAllowance
          ∨ out 5 120 a.openAllowance ∨ out 0 20 a.lead ∨ out 2 30 a.recloseDelay
          ∨ out 10 600 a.passageLimit))
      (¬ fits → answered .badField)
      ∧ (fits → busy → answered .busy)
      ∧ (fits → ¬ busy → taken → answered .duplicate)
      ∧ (fits → ¬ busy → ¬ taken → ∃ status, (status = .clamped ↔ clamped) ∧ (status = .clamped ∨ status = .ok)
        ∧ exec (.change port (.fields q)) s
          = .next ((s.applyChange p r q).settlesAndResponds port 0x02 fun v => (status, v.recordContent p)))

/-- What one carried field of an accepted CHANGE does beyond the field itself; both change marks are set in each
(R14). A new zone or rank moves the record in the zone lists, and a waiting door in its queue, which touches its
unit (R9, R103). A new staleness limit judges STALE by age at once, and its removal derives the indication and
hands it on (R34). A new address joins the record to the sweep of its new line (R17, R137). A change from class P
fails the door NOT_DRIVABLE in every stacked order that holds it uncounted, ends a pause, removes CT, OT, OB and
LP, and the indication is judged anew; a change to class P takes unit, costs and the defaults (R3, R17, R151). A
new unit is taken in REST, and a waiter joins its queue (R18). IN_SERVICE takes an isolated record back to ENROLLED
or IN_SERVICE for its evaluation (R20). New enables are switched kind by kind (R142). Between H and S only the
class changes, with the indication judged anew. The premises are invariants stated on their own. The model's
choice: the unit is touched where the zone alone is new and the key unchanged (log entry 70), the report is kept
whole at a change of class (log entry 62), and the order of the hand-offs: what a class or a limit hands on after
the switching of the enables (25), the queue evaluation at the end (log entry 15), IC and PD before the motion
supervisor and the fault unit (23), the evaluation on leaving isolation last (39), completions from the top of the
stack down (44), behind the judging of the new class (55); and a sweep walk that starts again does so at cursor 0
(34). -/
def Obligations.ChangeMovesTheRecord : Prop :=
  ∀ (s : State) (p : Nat) (r : Record), s.Sound → s.Listed → s.Accounted → s.rec? p = some r →
    r.lifecycle ≠ .retiring →
    let change := fun (a : FieldArgs) (l : Option (Named Lifecycle)) =>
      s.applyChange p r { name := .position p, args := a, lifecycle := l }
    let judged := fun (u : State) (after : List Task) => ∃ r', u.rec? p = some r' ∧ r'.indicated = r'.derived.1
      ∧ u.agenda = [.setCause p .ic (decide (r'.derived.2 = .contradiction)),
          .setCause p .pd (decide (r'.derived.2 = .disagreement)), .motionSees p r'.indicated,
          .faultSees p r'.indicated] ++ after ++ s.agenda
    (∀ a l, p ∈ (change a l).portA.marks ∧ p ∈ (change a l).portB.marks)
    ∧ (∀ zone rank, zone ≠ r.cfg.zone ∨ rank ≠ r.cfg.rank →
      let u := change { zone := some zone, rank := some rank } none
      (∃ r', u.rec? p = some r'
        ∧ r' = { r with cfg := { r.cfg with zone := zone, rank := rank }, waitReason := r'.waitReason })
      ∧ (∀ z q, q ∈ u.zoneList z ↔ (q = p ∧ z = zone) ∨ (q ≠ p ∧ q ∈ s.zoneList z))
      ∧ (∀ z, (u.zoneList z).Pairwise fun a b => u.zoneBefore a b = true)
      ∧ (r.motion ≠ .waitUnit → u.units = s.units ∧ u.agenda = s.agenda)
      ∧ (r.motion = .waitUnit → ∀ n w, r.unit? = some n → s.unit? n = some w → ∃ w', u.unit? n = some w'
        ∧ (∀ q, q ∈ w'.queue ↔ q ∈ w.queue) ∧ (w'.queue.Pairwise fun a b => u.queueBefore a b = true)
        ∧ w'.charge = (w.accrue s.clock).charge
        ∧ (w'.queue.head? ≠ w.queue.head? → u.agenda = s.agenda ++ [.evalQueue n])))
    ∧ (∀ limit, 200 ≤ limit → limit ≤ 20000 →
      let u := change { staleLimit := some limit } none
      let aged := r.lastGood.any fun good => decide (limit < heldAge s.clock good)
      let after : Record := { r with cfg := { r.cfg with staleLimit := limit }, aged := aged }
      (r.aged = true ∧ aged = false ∧ FaultKind.lc ∉ r.causes →
        u.rec? p = some { after with indicated := r.derived.1 }
          ∧ u.agenda = [.motionSees p r.derived.1, .faultSees p r.derived.1] ++ s.agenda)
      ∧ (¬ (r.aged = true ∧ aged = false ∧ FaultKind.lc ∉ r.causes) →
        u.rec? p = some after ∧ u.agenda = s.agenda))
    ∧ (∀ l station n, lineOf l = some n →
      let u := change { address := some (l, station) } none
      let joins := s.phase = .sweep ∧ r.mark = false ∧ r.missed < 3 ∧ (s.line n).sweep.active = false
      u.rec? p = some { r with cfg := { r.cfg with line := n, station := station } }
        ∧ (joins → u.line n = { s.line n with sweep := { active := true, cursor := 0, monitors := .done } })
        ∧ (¬ joins → u.line n = s.line n) ∧ (∀ m, m ≠ n → u.line m = s.line m) ∧ u.agenda = s.agenda)
    ∧ (∀ c, r.cfg.cls = .P → c ≠ .P → r.motion = .rest →
      let u := change { cls := some (.is c) } none
      judged u (s.stack.map Task.complete)
        ∧ (∀ r', u.rec? p = some r' → r'.cfg = { r.cfg with cls := c, power := none } ∧ r'.purpose = none
          ∧ r'.deadline = none ∧ r'.motion = .rest ∧ r'.report = r.report
          ∧ ∀ k, k ∈ r'.causes ↔ k ∈ r.causes ∧ k ∉ [FaultKind.ct, .ot, .ob, .lp])
        ∧ ∀ k o, s.order? k = some o →
          u.order? k = some (if k ∈ s.stack then o.count p (.failed .notDrivable) else o))
    ∧ (∀ c, r.cfg.cls ≠ .P → c ≠ .P → c ≠ r.cfg.cls →
      let u := change { cls := some (.is c) } none
      judged u [] ∧ u.slots = s.slots ∧ u.alarms = s.alarms
        ∧ ∀ r', u.rec? p = some r' → r' = { r with cfg := { r.cfg with cls := c }, indicated := r'.indicated })
    ∧ (∀ unit close opening, r.cfg.cls ≠ .P → 1 ≤ close → close ≤ 4000 → 1 ≤ opening → opening ≤ 4000 →
      let u := change { cls := some (.is .P), unit := some unit, closeCost := some close,
                        openCost := some opening } none
      judged u [] ∧ ∀ r', u.rec? p = some r' → r'.causes = r.causes ∧ r'.cfg = { r.cfg with
        cls := .P
        power := some { unit := unit, closeCost := close, openCost := opening, closeAllowance := 40,
                        openAllowance := 40, lead := 5, recloseDelay := 10, passageLimit := 120,
                        perms := { localOpen := true, remoteOpen := true }, normallyClosed := false } })
    ∧ (∀ pf old unit w, r.cfg.power = some pf → s.unit? pf.unit = some old → s.unit? unit = some w →
      unit ≠ pf.unit →
      let u := change { unit := some unit } none
      let cfg : Configured := { r.cfg with power := some { pf with unit := unit } }
      (r.motion = .rest → u.rec? p = some { r with cfg := cfg } ∧ u.units = s.units ∧ u.agenda = s.agenda)
      ∧ (r.motion = .waitUnit → u.rec? p = some { r with cfg := cfg, waitReason := some .queue }
        ∧ (∃ old', u.unit? pf.unit = some old' ∧ old'.queue = removeNat p old.queue
          ∧ old'.charge = (old.accrue s.clock).charge)
        ∧ ∃ w', u.unit? unit = some w' ∧ (∀ q, q ∈ w'.queue ↔ q = p ∨ q ∈ w.queue)
          ∧ (w'.queue.Pairwise fun a b => u.queueBefore a b = true)
          ∧ w'.charge = (w.accrue s.clock).charge))
    ∧ (let u := change {} (some (.is .inService))
      (r.lifecycle = .isolated → u.agenda = s.agenda ++ [.evalRest p]
        ∧ u.rec? p = some { r with lifecycle := if r.lastGood.isSome then .inService else .enrolled })
      ∧ (r.lifecycle ≠ .isolated → u.rec? p = some r ∧ u.agenda = s.agenda))
    ∧ ∀ enables : List FaultKind, (∀ k ∈ enables, k.maskable = true) →
      let u := change { enables := some { items := enables, outside := false } } none
      (∃ r', u.rec? p = some r' ∧ ∀ k, k ∈ r'.cfg.enables ↔ k ∈ enables)
        ∧ (s.setDoorEnables p enables).alarms = u.alarms ∧ (s.setDoorEnables p enables).overflow = u.overflow

/-- A CHANGE to ISOLATED (R19, R62): accepted outside LOCAL and RECLOSE_DELAY, it isolates the record, sets both
change marks and answers OK with the record. The isolation ends the motion of the door by its motion state: in
REST a pause is cancelled; a waiter leaves its unit's queue, at which the unit accrues (R103, R106); a warning
door's debit is refunded, capped, and its stroke returned; a moving door's stroke is returned without refund and a
STOP is queued on its enabled line. In each the door is ISOLATED and in REST with target, slot, timer and debit
cleared, and outside REST its attempt count is 0. The order that governs it, if stacked, counts it failed ISOLATED
where it held it uncounted; in REST the top order does. The model's choice: a waiter of purpose LOCAL has no
governing slot and charges no order (log entry 45), and where the freed stroke and the evaluation stand among the
hand-offs (log entry 16). -/
def Obligations.IsolationEndsTheMotion : Prop :=
  (∀ (s : State) (port : Port) (p : Nat) (r : Record), s.Sound → s.inReset = false → s.TakesOn port →
    s.rec? p = some r → r.lifecycle ≠ .retiring → r.motion ≠ .inLocal → r.motion ≠ .recloseDelay →
    exec (.change port (.fields { name := .position p, args := {}, lifecycle := some (.is .isolated) })) s
      = .next (((s.isolate p).markBoth p).settlesAndResponds port 0x02 fun v => (.ok, v.recordContent p)))
  ∧ ∀ (s : State) (p : Nat) (r : Record) (u : Nat) (w : PowerUnit), s.rec? p = some r →
    r.lifecycle ≠ .isolated → r.unit? = some u → s.unit? u = some w →
    let t := s.isolate p
    let charged := fun (slot : Option Nat) => ∀ k o, s.order? k = some o →
      t.order? k = some (if slot = some k ∧ k ∈ s.stack then o.count p (.failed .isolated) else o)
    (r.motion = .inLocal ∨ r.motion = .recloseDelay → t = s)
    ∧ (r.motion ≠ .inLocal → r.motion ≠ .recloseDelay →
      ∃ r', t.rec? p = some r' ∧ r'.lifecycle = .isolated ∧ r'.cfg = r.cfg ∧ r'.motion = .rest
        ∧ r'.purpose = none ∧ r'.deadline = none ∧ r'.report = r.report ∧ r'.flags = r.flags
        ∧ (r.motion = .rest → r'.attempts = r.attempts ∧ charged s.stack.head?
            ∧ t.units = s.units ∧ t.shipStrokes = s.shipStrokes)
        ∧ (r.motion ≠ .rest → r'.attempts = 0 ∧ r'.target = none ∧ r'.govSlot = none
            ∧ r'.waitReason = none ∧ r'.queueClass = none ∧ r'.heldDebit = none ∧ charged r.govSlot)
        ∧ p ∈ t.portA.marks ∧ p ∈ t.portB.marks)
    ∧ (r.motion = .waitUnit → ∃ w', t.unit? u = some w' ∧ w'.queue = removeNat p w.queue
        ∧ w'.charge = (w.accrue s.clock).charge ∧ w'.lastAccrual = s.clock ∧ w'.strokes = w.strokes
        ∧ t.shipStrokes = s.shipStrokes)
    ∧ (r.motion = .warning ∨ r.motion = .moving → t.shipStrokes = s.shipStrokes - 1
        ∧ ∃ w', t.unit? u = some w' ∧ w'.strokes = w.strokes - 1 ∧ w'.queue = w.queue
          ∧ w'.charge = (if r.motion = .warning ∧ r.heldDebit.getD 0 ≠ 0
              then min (1000 * w.capacity) ((w.accrue s.clock).charge + 1000 * r.heldDebit.getD 0)
              else (w.accrue s.clock).charge))
    ∧ (r.motion = .moving → (s.line r.cfg.line).enabled = true →
        (t.line r.cfg.line).queue = ((s.line r.cfg.line).enqueue p .stop).queue)

/-- RETIRE names a record by door number or position (R7): a name out of its range is BAD_FIELD, one with no record
NOT_FOUND. RETIRE outside REST or of a RETIRING record is BUSY (R21); in BUILD the position becomes FREE at once:
the record leaves the directory and its zone list, its alarm entries leave the list, and both ports get the freed
report IMMEDIATE with their marks (R21, R23). In SWEEP and SERVICE every stacked order that holds the record
uncounted counts it failed RETIRED and is checked for completion (R21, R62). With the line enabled the record
becomes RETIRING with release attempt count 0 and no pause, its directory and zone-list entries stay, and its
RELEASE is queued on its line or already being sent (R95); with the line disabled its retirement completes at once
with reason NO_ACK. The model's choice: when an idle line takes the RELEASE up (log entry 20), what a freed position
takes with it (log entry 21), the order of the completions (log entry 44), and that they come after the retirement
or the queueing of the RELEASE (log entry 77). -/
def Obligations.RetireFreesOrReleases : Prop :=
  let names := fun (s : State) (name : DoorName) (p : Nat) => (name = .position p ∧ p ≤ 255)
    ∨ ∃ n, name = .number n ∧ 1 ≤ n ∧ n ≤ 4095 ∧ Keyed.get? s.directory n = some p
  (∀ (s : State) (port : Port), s.inReset = false → s.TakesOn port →
     let answered := fun (name : DoorName) (status : Status) =>
       exec (.retire port (.fields name)) s = .next (s.responds port 0x03 status .empty)
     (∀ n, n < 1 ∨ 4095 < n → answered (.number n) .badField)
     ∧ (∀ p, 255 < p → answered (.position p) .badField)
     ∧ (∀ n, 1 ≤ n → n ≤ 4095 → Keyed.get? s.directory n = none → answered (.number n) .notFound)
     ∧ (∀ p, p ≤ 255 → s.rec? p = none → answered (.position p) .notFound))
  ∧ (∀ (s : State) (port : Port) (name : DoorName) (p : Nat) (r : Record), s.Calm → s.TakesOn port → s.Sound →
     s.Listed → names s name p → s.rec? p = some r →
     (r.lifecycle = .retiring ∨ r.motion ≠ .rest →
       exec (.retire port (.fields name)) s = .next (s.responds port 0x03 .busy .empty))
     ∧ (r.lifecycle ≠ .retiring → r.motion = .rest → s.phase = .build →
       ∃ t, exec (.retire port (.fields name)) s = .next t
         ∧ t.rec? p = none ∧ (∀ q, q ≠ p → t.rec? q = s.rec? q)
         ∧ Keyed.get? t.directory r.cfg.number = none
         ∧ (∀ n, n ≠ r.cfg.number → Keyed.get? t.directory n = Keyed.get? s.directory n)
         ∧ (∀ z q, q ∈ t.zoneList z ↔ q ≠ p ∧ q ∈ s.zoneList z)
         ∧ (∀ a ∈ t.alarms, a.subject ≠ .door r.cfg.number)
         ∧ (∀ side, Keyed.get? (t.portState side).freed p = some { number := r.cfg.number, reason := .immediate })
         ∧ (∀ side q, q ∈ (t.portState side).marks ↔ q = p ∨ q ∈ (s.portState side).marks)
         ∧ t.Answers port 0x03 .ok (.retired p r.cfg.number .free)
         ∧ s.KeepsBut t [.records, .directory, .zoneLists, .slots, .lines, .alarms, .marks .A, .marks .B,
             .link port]))
  ∧ (∀ (s : State) (port : Port) (name : DoorName) (p : Nat) (r : Record), s.Calm → s.TakesOn port →
       names s name p → s.rec? p = some r →
       r.lifecycle ≠ .retiring → r.motion = .rest → s.phase = .service → s.stack = [] →
       (s.line r.cfg.line).enabled = true →
       ∃ t, exec (.retire port (.fields name)) s = .next t
         ∧ t.rec? p = some { r with lifecycle := .retiring, releaseAttempts := some 0, purpose := none,
                                    deadline := none }
         ∧ (∀ q, q ≠ p → t.rec? q = s.rec? q)
         ∧ ({ position := p, command := .release } ∈ (t.line r.cfg.line).queue
             ∨ ∃ x, (t.line r.cfg.line).exchange = some x ∧ x.kind = .command .release
                 ∧ x.target = .door p r.cfg.station)
         ∧ (∀ side q, q ∈ (t.portState side).marks ↔ q = p ∨ q ∈ (s.portState side).marks)
         ∧ t.Answers port 0x03 .ok (.retired p r.cfg.number (.holds .retiring))
         ∧ s.KeepsBut t [.records, .lines, .marks .A, .marks .B, .link port])
  ∧ ∀ (s : State) (port : Port) (name : DoorName) (p : Nat) (r : Record), s.Sound → s.Listed →
       s.inReset = false → s.TakesOn port → names s name p → s.rec? p = some r → r.lifecycle ≠ .retiring → r.motion = .rest → s.phase ≠ .build →
       let enabled := (s.line r.cfg.line).enabled
       ∃ u : State, exec (.retire port (.fields name)) s
           = .next (u.settlesAndResponds port 0x03 fun v => (.ok, .retired p r.cfg.number (v.reached p)))
         ∧ u.agenda = s.stack.map Task.complete ++ s.agenda ∧ u.units = s.units
         ∧ (∀ q, q ≠ p → u.rec? q = s.rec? q)
         ∧ (∀ k o, s.order? k = some o →
           let counted := if k ∈ s.stack then o.count p (.failed .retired) else o
           u.order? k = some (if enabled then counted else counted.forget p))
         ∧ (∀ side q, q ∈ (u.portState side).marks ↔ q = p ∨ q ∈ (s.portState side).marks)
         ∧ (enabled = true →
           u.rec? p = some { r with lifecycle := .retiring, releaseAttempts := some 0, purpose := none,
                                    deadline := none }
           ∧ u.directory = s.directory ∧ u.zoneLists = s.zoneLists ∧ u.alarms = s.alarms
           ∧ (u.line r.cfg.line).queue = ((s.line r.cfg.line).enqueue p .release).queue)
         ∧ (enabled = false →
           u.rec? p = none ∧ Keyed.get? u.directory r.cfg.number = none
           ∧ (∀ z q, q ∈ u.zoneList z ↔ q ≠ p ∧ q ∈ s.zoneList z)
           ∧ (∀ a ∈ u.alarms, a.subject ≠ .door r.cfg.number)
           ∧ ∀ side, Keyed.get? (u.portState side).freed p
               = some { number := r.cfg.number, reason := .noAck })

/-! ### Indication, summaries and ALLCLOSED -/

/-- The tables of R29 and R30: the indicated state of a class P record and the condition its report presents,
from the two limits, the stroke, the motion state and the target; and R28: without a report the record is
UNKNOWN and presents no condition. A MOVING door holds a target and a stroke is at most 100. The table of R31,
for classes H and S: never MOVING_CLOSE or MOVING_OPEN and never a disagreement; a record indicated
CLOSED_UNSECURED is not proven closed. -/
def Obligations.IndicationFollowsItsTables : Prop :=
  (∀ (r : Record), r.cfg.cls = .P →
      (r.report = none → r.derived = (.unknown, .sound))
      ∧ ∀ rep : StationReport, r.report = some rep → (∀ n, rep.stroke = some n → n ≤ 100) →
        let inBand := fun (lo hi : Nat) => ∃ n, rep.stroke = some n ∧ lo ≤ n ∧ n ≤ hi
        (rep.closedLimit = true → rep.openLimit = true → r.derived = (.unknown, .contradiction))
        ∧ (rep.closedLimit = true → rep.openLimit = false →
            (inBand 0 3 → r.derived = (.closed, .sound))
            ∧ (inBand 4 96 ∨ inBand 97 100 ∨ rep.stroke = none → r.derived = (.intermediate, .disagreement)))
        ∧ (rep.closedLimit = false → rep.openLimit = true →
            (inBand 97 100 → r.derived = (.opened, .sound))
            ∧ (inBand 0 3 ∨ inBand 4 96 ∨ rep.stroke = none → r.derived = (.intermediate, .disagreement)))
        ∧ (rep.closedLimit = false → rep.openLimit = false →
            (inBand 4 96 →
              (r.motion = .moving → r.target = some .closed → r.derived = (.movingClose, .sound))
              ∧ (r.motion = .moving → r.target = some .opened → r.derived = (.movingOpen, .sound))
              ∧ (r.motion ≠ .moving → r.derived = (.intermediate, .sound)))
            ∧ (inBand 0 3 ∨ inBand 97 100 ∨ rep.stroke = none → r.derived = (.intermediate, .disagreement))))
  ∧ ∀ (r : Record) (rep : StationReport), r.report = some rep → r.cfg.cls ≠ .P →
      (rep.closedLimit = true → rep.openLimit = true → r.derived = (.unknown, .contradiction))
      ∧ (rep.closedLimit = true → rep.openLimit = false → rep.secured = true →
          r.derived = (.closed, .sound))
      ∧ (rep.closedLimit = true → rep.openLimit = false → rep.secured = false →
          r.derived = (.closedUnsecured, .sound))
      ∧ (rep.closedLimit = false → rep.openLimit = true → r.derived = (.opened, .sound))
      ∧ (rep.closedLimit = false → rep.openLimit = false → r.derived = (.intermediate, .sound))
      ∧ r.derived.1 ≠ .movingClose ∧ r.derived.1 ≠ .movingOpen ∧ r.derived.2 ≠ .disagreement
      ∧ (r.indicated = .closedUnsecured → r.provenClosed = false)

/-- ALLCLOSED is asserted exactly when the phase is SERVICE, at least one record is ENROLLED, IN_SERVICE or
ISOLATED, and every such record is proven closed; that is, while the phase is SERVICE and the ship summary is
CLOSED (R41). It is so before and after every step: the pin is driven at the moment of any event, with no
latch. The part runs, it is sound, its outputs are current, and no ENROLLED record has answered: invariants
that are stated on their own. -/
def Obligations.AllClosedIsDrivenByItsCondition : Prop :=
  let driven := fun (s : State) =>
    (s.outputs.allClosed = true ↔
      s.phase = .service ∧ (∃ p r, s.rec? p = some r ∧ r.lifecycle ≠ .retiring)
        ∧ ∀ p r, s.rec? p = some r → r.lifecycle ≠ .retiring →
          r.indicated = .closed ∧ Qualifier.stale ∉ r.qualifiers ∧ Qualifier.unproven ∉ r.qualifiers)
    ∧ (s.outputs.allClosed = true ↔ s.phase = .service ∧ s.outputs.ship.state = .closed)
  ∀ s : State, s.OutputsCurrent → s.Answered → s.Sound →
    (s.inReset = false → driven s)
    ∧ ∀ t, step s = .next t → t.inReset = false → driven t

/-- A summary counts the ENROLLED, IN_SERVICE and ISOLATED records of its list, each in one of the three classes of
R38, judged in their order, which together make up the total; the moving count goes by the indicated state alone.
The summary of a zone of 1 to 24 counts exactly the records whose zone it is, which are those of its zone list, and
the ship summary counts every record (R38). The state of each follows from its counts in the order of R39; the
counts of the ship are the sums over the 24 zones, and its state follows from those sums by the same order. The
premises are invariants stated on their own. -/
def Obligations.SummariesCountAndDecide : Prop :=
  let unproven := fun (r : Record) =>
    decide (r.lifecycle = .enrolled) || r.qualifiers.contains .stale || r.qualifiers.contains .unproven
  let counts := fun (c : Summary) (rs : List Record) =>
    let counted := rs.filter fun r => decide (r.lifecycle ≠ .retiring)
    c.total = counted.length ∧ c.proven + c.notClosed + c.unproven = c.total
      ∧ c.unproven = counted.countP unproven
      ∧ c.proven = counted.countP (fun r => !unproven r && decide (r.indicated = .closed))
      ∧ c.notClosed = counted.countP (fun r => !unproven r && decide (r.indicated ≠ .closed))
      ∧ c.moving = counted.countP
          (fun r => decide (r.indicated = .movingClose) || decide (r.indicated = .movingOpen))
  let stateOf := fun (c : Summary) =>
    if 0 < c.notClosed then SummaryState.notClosed
    else if 0 < c.unproven then .unproven
    else if 0 < c.total then .closed
    else .empty
  (∀ rs : List Record, counts (summarize rs) rs)
  ∧ ∀ s : State, s.Sound →
    (∀ z, (s.zoneSummary z).state = stateOf (s.zoneSummary z))
    ∧ (s.Listed → ∀ z, 1 ≤ z → z ≤ 24 →
      counts (s.zoneSummary z) ((s.records.map Prod.snd).filter fun r => decide (r.cfg.zone = z))
      ∧ counts (s.zoneSummary z) ((s.zoneList z).filterMap s.rec?)
      ∧ (s.zoneSummaries)[z - 1]? = some (s.zoneSummary z))
    ∧ counts s.shipSummary (s.records.map Prod.snd)
    ∧ (s.zoneSummaries).length = 24
    ∧ s.shipSummary.total = ((s.zoneSummaries).map Summary.total).sum
    ∧ s.shipSummary.proven = ((s.zoneSummaries).map Summary.proven).sum
    ∧ s.shipSummary.notClosed = ((s.zoneSummaries).map Summary.notClosed).sum
    ∧ s.shipSummary.unproven = ((s.zoneSummaries).map Summary.unproven).sum
    ∧ s.shipSummary.moving = ((s.zoneSummaries).map Summary.moving).sum
    ∧ s.shipSummary.state = stateOf s.shipSummary

/-- At the staleness deadline, the first millisecond at which the age of the last good reply exceeds the
limit, STALE is added and the indicated state is held (R33); both change marks follow the qualifier (R43).
Before the deadline, or with STALE by age present, nothing happens. -/
def Obligations.StalenessDeadlineAddsStale : Prop :=
  ∀ (s : State) (p : Nat) (r : Record) (good : Nat), s.Settled → s.rec? p = some r →
    r.lastGood = some good →
    (s.clock ≤ good + r.cfg.staleLimit → exec (.stalenessDeadlineExpiry p) s = .next s)
    ∧ (r.aged = true → exec (.stalenessDeadlineExpiry p) s = .next s)
    ∧ (good + r.cfg.staleLimit < s.clock → r.aged = false →
      ∃ t, exec (.stalenessDeadlineExpiry p) s = .next t
        ∧ t.rec? p = some { r with aged := true }
        ∧ (∀ r', t.rec? p = some r' → Qualifier.stale ∈ r'.qualifiers)
        ∧ (∀ q, q ≠ p → t.rec? q = s.rec? q)
        ∧ (FaultKind.lc ∉ r.causes → ∀ side q,
            q ∈ (t.portState side).marks ↔ q = p ∨ q ∈ (s.portState side).marks)
        ∧ (r.lifecycle ≠ .retiring → t.outputs.allClosed = false)
        ∧ s.KeepsBut t [.records, .lines, .marks .A, .marks .B])

/-! ### Orders -/

/-- The stack and the pending list keep their order: stacked orders are ACTIVE or SUSPENDED with priorities
falling from the top, so that no two have one priority, and the pending list holds PENDING orders by priority
and arrival (R46, R53, R54). Between two events the top order is ACTIVE and every order beneath it SUSPENDED
(R53): a step that leaves no hand-off over keeps that. The model's choice: what a step does not finish stays
on the agenda for the next (log entry 10). -/
def Obligations.EveryStepKeepsTheOrdersPlaced : Prop :=
  ∀ s t : State, s.wf = true → s.OrdersPlaced → step s = .next t →
    t.OrdersPlaced ∧ (s.agenda = [] → s.TopActive → t.agenda = [] → t.TopActive)

/-- An ORDER is refused by the first check that fails: WRONG_PHASE in BUILD, BAD_FIELD, PRIORITY; and, where
no live order equals it, NO_SLOT while slots 0 to 14 all hold live orders (R49, R51). An ORDER equal to a live
order in kind, priority and scope is absorbed: that order's repeat count rises by one, saturating at 65535,
the port joins its issuing ports, the response names it, and nothing else changes (R50). The model's choice: the
response carries the withdraw set of the existing order (log entry 78). -/
def Obligations.OrderIsRefusedOrAbsorbed : Prop :=
  (∀ (s : State) (port : Port) (q : OrderReq), s.inReset = false → s.TakesOn port → s.wf = true →
      let scopeOk : Prop := match q.scope with
        | .ship => True
        | .zones zs => zs ≠ [] ∧ zs.length ≤ 24 ∧ ∀ z ∈ zs, 1 ≤ z ∧ z ≤ 24
        | .door n => 1 ≤ n ∧ n ≤ 4095
        | .group _ _ => True
        | .outside => False
      let formOk := q.kind ≠ .outside ∧ scopeOk ∧ q.withdraw.outside = false
        ∧ (q.kind = .is .opening → Perm.remoteOpen ∉ q.withdraw.items)
      let high := 6 < q.priority ∨ (q.kind = .is .opening ∧ 4 < q.priority)
      let answered := fun (status : Status) =>
        exec (.order port (.fields q)) s = .next (s.responds port 0x07 status .empty)
      (s.phase = .build → answered .wrongPhase)
      ∧ (s.phase ≠ .build → ¬ formOk → answered .badField)
      ∧ (s.phase ≠ .build → formOk → high → answered .priority)
      ∧ (s.phase ≠ .build → formOk → ¬ high →
          (∀ n o, s.order? n = some o → o.state.live = true →
            ¬ (q.kind = .is o.kind ∧ q.priority = o.priority ∧ ScopeArg.scope? q.scope = some o.scope)) →
          (∀ n, n < 15 → ∃ o, s.order? n = some o ∧ o.state.live = true) → answered .noSlot))
  ∧ ∀ (s : State) (port : Port) (q : OrderReq) (n : Nat) (o : Order),
      s.Settled → s.wf = true → s.TakesOn port → s.phase ≠ .build →
      s.order? n = some o → o.state.live = true → q.kind = .is o.kind → q.priority = o.priority →
      ScopeArg.scope? q.scope = some o.scope → q.withdraw.outside = false → q.priority ≤ 6 →
      (o.kind = .opening → q.priority ≤ 4 ∧ Perm.remoteOpen ∉ q.withdraw.items) →
      (∀ j o', j < n → s.order? j = some o' → o'.state.live = true →
        ¬ (o'.kind = o.kind ∧ o'.priority = o.priority ∧ o'.scope = o.scope)) →
      let o' : Order :=
        { o with repeats := min 65535 (o.repeats + 1),
                 issuing := { a := o.issuing.a || decide (port = .A), b := o.issuing.b || decide (port = .B) } }
      exec (.order port (.fields q)) s
        = .next ((s.putOrder n o').responds port 0x07 .absorbed
            (.order n o.tag o.state o.withdraw (some o'.repeats)))

/-- An accepted ORDER takes the lowest FREE slot of 0 to 14, or, with none FREE, the one whose order finished
earliest, the lower of two alike, with the next arrival number and its shaped withdraw set (R47, R49, R51). With
its priority at or below the top's it enters the pending list at its place, and nothing else changes (R52, R54).
Above the top, or on an empty stack, it is pushed: it is ACTIVE on top with its snapshot, the former top is
SUSPENDED, and its completion check waits behind the effects of the push (R55, R56). Every push, of an accepted, a
pending or the hardwired order, takes these steps: the suspension, the place on top with the snapshot kept or
taken, the governing orders, attempt counts and queue places of the members computed again (R65, R75, R83), the
activation and the completion check. Premises: invariants stated on their own. The model's choice: the place of the
completion check among the hand-offs, and the order in which the doors are taken (log entries 10, 47). -/
def Obligations.AcceptedOrderTakesItsPlace : Prop :=
  (∀ (s : State) (port : Port) (q : OrderReq) (k : OrderKind) (sc : Scope) (n : Nat),
    s.Settled → s.Sound → s.Listed → s.OrdersPlaced → s.TakesOn port → s.phase ≠ .build →
    q.kind = .is k → ScopeArg.scope? q.scope = some sc → q.withdraw.outside = false →
    q.priority ≤ 6 → (k = .opening → q.priority ≤ 4 ∧ Perm.remoteOpen ∉ q.withdraw.items) →
    (∀ j o, s.order? j = some o → o.state.live = true →
      ¬ (o.kind = k ∧ o.priority = q.priority ∧ o.scope = sc)) →
    n < 15 →
    let age := fun (o : Order) => heldAge s.clock (o.finished.getD 0)
    let free := s.order? n = none ∧ ∀ j, j < n → (s.order? j).isSome
    let reused := (∀ j, j < 15 → (s.order? j).isSome) ∧ ∃ old, s.order? n = some old ∧ old.state.live = false
      ∧ ∀ j o, j < 15 → s.order? j = some o → o.state.live = false →
          age o < age old ∨ (age o = age old ∧ n ≤ j)
    free ∨ reused →
    let withdraw : Perms :=
      { localOpen := q.withdraw.items.contains .localOpen && decide (q.priority ≠ 6)
        remoteOpen := q.withdraw.items.contains .remoteOpen
          || (decide (q.priority = 6) && decide (k = .close)) }
    let status : Status := if q.priority = 6 ∧ Perm.localOpen ∈ q.withdraw.items then .clamped else .ok
    let o : Order :=
      { source := match port with
          | .A => .consoleA
          | .B => .consoleB
        tag := q.tag, priority := q.priority, kind := k, scope := sc, withdraw := withdraw,
        state := .pending, arrival := s.arrivals + 1, snapshot := none, done := 0, failed := 0,
        repeats := 0, issuing := { a := decide (port = .A), b := decide (port = .B) }, result := none,
        finished := none, unread := { a := false, b := false } }
    (∀ top rest, s.stack = top :: rest → q.priority ≤ s.priorityOf top →
      ∃ t front back, exec (.order port (.fields q)) s = .next t
        ∧ t.order? n = some o ∧ (∀ j, j ≠ n → t.order? j = s.order? j) ∧ t.arrivals = s.arrivals + 1
        ∧ s.pendingOrders = front ++ back ∧ t.pendingOrders = front ++ n :: back
        ∧ (∀ j ∈ front, q.priority < t.priorityOf j
            ∨ (q.priority = t.priorityOf j ∧ t.arrivalOf j < s.arrivals + 1))
        ∧ (∀ j, back.head? = some j → t.priorityOf j ≤ q.priority
            ∧ (q.priority = t.priorityOf j → s.arrivals + 1 ≤ t.arrivalOf j))
        ∧ t.Answers port 0x07 status (.order n q.tag .pending withdraw none)
        ∧ s.KeepsBut t [.slots, .pendingOrders, .arrivals, .link port])
    ∧ ((s.stack = [] ∨ ∃ top rest, s.stack = top :: rest ∧ s.priorityOf top < q.priority) →
      ∃ (u : State) (members : List Member) (o' : Order) (tasks : List Task),
        exec (.order port (.fields q)) s
          = .next (u.settlesAndResponds port 0x07 fun v => (status, v.orderContent n false))
        ∧ u = State.pushOrder { s.putOrder n o with arrivals := s.arrivals + 1 } n
        ∧ u.stack = n :: s.stack ∧ u.agenda = .complete n :: tasks ∧ u.arrivals = s.arrivals + 1
        ∧ u.pendingOrders = removeNat n s.pendingOrders
        ∧ u.order? n = some o' ∧ o'.state = .active ∧ o'.withdraw = withdraw ∧ o'.snapshot = some members
        ∧ o'.priority = q.priority ∧ o'.kind = k ∧ o'.scope = sc ∧ o'.arrival = s.arrivals + 1
        ∧ (∀ p, p ∈ members.map Member.position ↔
            ∃ r, s.rec? p = some r ∧ r.lifecycle ≠ .retiring
              ∧ match sc with
                | .ship => True
                | .zones zs => r.cfg.zone ∈ zs
                | .door number => r.cfg.number = number
                | .group mask value => r.cfg.tag &&& mask = value)
        ∧ (∀ top rest before, s.stack = top :: rest → s.order? top = some before →
            ∃ after, u.order? top = some after ∧ after.state = .suspended)))
  ∧ ∀ (s : State) (n : Nat) (o : Order), s.Sound → s.Listed → s.Accounted → s.order? n = some o → n ∉ s.stack →
    ∃ (t : State) (members : List Member),
      s.pushOrder n = State.first (t.activate n) [.complete n]
        ∧ t.stack = n :: s.stack ∧ t.pendingOrders = removeNat n s.pendingOrders
        ∧ t.order? n = some { o with state := .active, snapshot := some members }
        ∧ (∀ k, k ≠ n → t.order? k = s.suspendTop.order? k)
        ∧ (∀ ms, o.snapshot = some ms → members = ms)
        ∧ (o.snapshot = none → (∀ m ∈ members, m.outcome = .uncounted ∧ m.freed = false)
          ∧ (members.map Member.position).Pairwise (· < ·)
          ∧ ∀ p, p ∈ members.map Member.position ↔
            ∃ r, s.rec? p = some r ∧ r.lifecycle ≠ .retiring
              ∧ match o.scope with
                | .ship => True
                | .zones zs => r.cfg.zone ∈ zs
                | .door number => r.cfg.number = number
                | .group mask value => r.cfg.tag &&& mask = value)
        ∧ s.suspendTop.Regoverned t { o with snapshot := some members }

/-- The table of R58: what the evaluation of an uncounted member of a stacked order does, by the first test that
holds; and the state in which a door that is given the target waits (R74, R75). A CLOSE or OPEN order that becomes
ACTIVE evaluates every uncounted member of its snapshot, one after the other, and passes over the others (R55, R57,
R58); a door that comes to rest is evaluated by the top of the stack alone, if that is no HOLD and holds it
uncounted, and the order is checked for completion (R59). It waits with reason QUEUE until its unit evaluates its
queue, which is handed on where the head of the queue has changed (R96, R106). The model's choice: that evaluation
comes when the block that changed the head has done with the event, and the members are taken in ascending position
(log entries 15, 47). -/
def Obligations.EvaluationFollowsTheTable : Prop :=
  (∀ (s : State) (n p : Nat) (o : Order) (r : Record) (t : Target),
    s.order? n = some o → s.rec? p = some r → n ∈ s.stack → o.uncounted p = true →
    (o.kind = .close ∧ t = .closed ∨ o.kind = .opening ∧ t = .opened) →
    let counted := fun (x : MemberOutcome) => s.putOrder n (o.count p x)
    let atTarget := (t = .closed ∧ r.indicated = .closed) ∨ (t = .opened ∧ r.indicated = .opened)
    let faulty := FaultKind.ic ∈ r.causes ∨ FaultKind.lc ∈ r.causes ∨ FaultKind.sf ∈ r.causes
    (atTarget → s.evaluateMember n p = counted .done)
    ∧ (¬ atTarget → (r.cfg.power = none ∨ r.lifecycle ≠ .inService) →
        s.evaluateMember n p = counted (.failed .notDrivable))
    ∧ ∀ pf, ¬ atTarget → r.cfg.power = some pf → r.lifecycle = .inService →
      (faulty → s.evaluateMember n p = counted (.failed .fault))
      ∧ (¬ faulty → t = .opened → (s.effectivePerms p pf).remoteOpen = false →
          s.evaluateMember n p = counted (.failed .withdrawn))
      ∧ (¬ faulty → (t = .opened → (s.effectivePerms p pf).remoteOpen = true) →
          (r.motion ≠ .rest ∨ r.deadline.isSome → s.evaluateMember n p = s)
          ∧ (r.motion = .rest → r.deadline = none → ∀ w, s.unit? pf.unit = some w →
              ∃ r', (s.evaluateMember n p).rec? p = some r' ∧ r'.motion = .waitUnit
                ∧ r'.purpose = some .order ∧ r'.target = some t ∧ r'.govSlot = s.governing p
                ∧ r'.waitReason = some .queue
                ∧ r'.queueClass = some
                    { tier := if t = .closed ∧ 6 ≤ s.govPriority p then .emergency else .other
                      priority := s.govPriority p }
                ∧ p ∈ (s.evaluateMember n p).queueOf pf.unit
                ∧ ((s.evaluateMember n p).headOf pf.unit ≠ s.headOf pf.unit →
                    (s.evaluateMember n p).agenda = s.agenda ++ [.evalQueue pf.unit])
                ∧ ((s.evaluateMember n p).headOf pf.unit = s.headOf pf.unit →
                    (s.evaluateMember n p).agenda = s.agenda))))
  ∧ (∀ (s : State) (n : Nat) (o : Order) (members : List Member), s.order? n = some o → o.kind ≠ .hold →
    o.snapshot = some members → (members.map Member.position).Pairwise (· < ·) →
    let due := (members.filter fun m => !m.freed && decide (m.outcome = .uncounted)).map Member.position
    s.activate n = due.foldl (fun u p => u.evaluateMember n p) s
      ∧ ∀ p, p ∉ due → s.evaluateMember n p = s)
  ∧ ∀ (s : State) (p : Nat),
    (s.stack = [] → s.evaluateAtRest p = s)
    ∧ ∀ top rest, s.stack = top :: rest →
      s.evaluateAtRest p = State.first (s.evaluateMember top p) [.complete top]
        ∧ ∀ o, s.order? top = some o → o.kind = .hold ∨ o.uncounted p = false → s.evaluateMember top p = s

/-- A CLOSE or OPEN order completes when its done and failed counts together equal its member count: its state,
result and finished uptime are set, its completion is unread on its issuing ports, and it leaves the stack, from
the top with the next top to be found (R63); the governing orders, attempt counts and queue places of its members
follow the stack (R65, R75, R83). Otherwise, and for a HOLD, nothing happens. The model's choice: the next top is
found by a hand-off (log entry 10), a HOLD with an empty snapshot stays on the stack (log entry 46), and the
members are taken in ascending position (log entry 47). -/
def Obligations.OrderCompletesWhenEveryMemberIsCounted : Prop :=
  ∀ (s : State) (n : Nat) (o : Order) (members : List Member),
    s.order? n = some o → o.snapshot = some members → n ∈ s.stack →
    (o.kind = .hold ∨ o.done + o.failed ≠ members.length → s.completeOrder n = s)
    ∧ (o.kind ≠ .hold → o.done + o.failed = members.length →
        (s.completeOrder n).order? n
            = some { o with state := .done,
                            result := some (if o.failed = 0 then .done else .doneWithFailures),
                            finished := some s.clock, unread := o.issuing }
          ∧ (s.completeOrder n).stack = removeNat n s.stack
          ∧ (∀ k, k ≠ n → (s.completeOrder n).order? k = s.order? k)
          ∧ (s.Sound → s.Listed → s.Accounted → s.Regoverned (s.completeOrder n) o)
          ∧ (s.stack.head? = some n → (s.completeOrder n).agenda.head? = some .nextTop))

/-- A HOLD that becomes ACTIVE stops the remote motion of its members: a waiter leaves its queue, a warning door
ends its stroke with its debit refunded, capped at the capacity (R73), a moving one without refund and with a STOP
on its enabled line, each to REST with its attempt count kept; doors in REST, LOCAL and RECLOSE_DELAY and local
waiters are left alone, and no member is counted (R60, R48). A push suspends the top: its remote waiters return to
REST out of their queues, and every other door goes on (R61). After a pop the pending head is pushed if it lies
above the top, or the top is resumed: it is ACTIVE again, acts on its members and is checked for completion; in
BUILD nothing is pushed (R55, R57). Premises: invariants stated on their own. The model's choice: the order in
which the doors are taken, and where freed strokes stand among the hand-offs (log entries 16, 47), and that a push
over a new top which is already SUSPENDED takes its suspension again (log entry 72). -/
def Obligations.HoldsSuspensionsAndTheNextTop : Prop :=
  let rested := fun (s u : State) (p : Nat) (r : Record) =>
    (∃ r', u.rec? p = some r' ∧ r'.motion = .rest ∧ r'.purpose = none ∧ r'.target = none ∧ r'.govSlot = none
      ∧ r'.waitReason = none ∧ r'.deadline = none ∧ r'.heldDebit = none ∧ r'.attempts = r.attempts
      ∧ r'.cfg = r.cfg ∧ r'.lifecycle = r.lifecycle) ∧ (∀ m, p ∉ u.queueOf m) ∧ u.clock = s.clock
  (∀ (s : State) (n : Nat) (o : Order), s.Sound → s.Accounted → s.order? n = some o → o.kind = .hold →
    let u := s.activate n
    u.slots = s.slots ∧ u.stack = s.stack
    ∧ (∀ p, o.holds p = false → u.rec? p = s.rec? p)
    ∧ (∀ p r, s.rec? p = some r → o.holds p = true →
      let remote := (r.motion = .waitUnit ∧ r.purpose ≠ some .passage) ∨ r.motion = .warning
        ∨ r.motion = .moving
      (remote → rested s u p r)
      ∧ (¬ remote → u.rec? p = some r)
      ∧ (r.motion = .moving → (s.line r.cfg.line).enabled = true →
        ∃ e ∈ (u.line r.cfg.line).queue, e.position = p ∧ e.command = .stop))
    ∧ (u.shipStrokes = s.shipStrokes - s.records.countP fun e =>
        o.holds e.1 && (decide (e.2.motion = .warning) || decide (e.2.motion = .moving)))
    ∧ ∀ m w, s.unit? m = some w →
      let held := fun (e : Nat × Record) => o.holds e.1 && decide (e.2.unit? = some m)
      let warned := s.records.filter fun e => held e && decide (e.2.motion = .warning)
      ∃ w', u.unit? m = some w'
        ∧ w'.strokes = w.strokes - s.records.countP (fun e =>
            held e && (decide (e.2.motion = .warning) || decide (e.2.motion = .moving)))
        ∧ (0 < (warned.map fun e => e.2.heldDebit.getD 0).sum → w'.charge = min (1000 * w.capacity)
            ((w.accrue s.clock).charge + 1000 * (warned.map fun e => e.2.heldDebit.getD 0).sum)))
  ∧ (∀ (s : State) (top : Nat) (rest : List Nat) (o : Order), s.Sound → s.Accounted →
    s.stack = top :: rest → s.order? top = some o →
    let u := s.suspendTop
    u.order? top = some { o with state := .suspended } ∧ (∀ k, k ≠ top → u.order? k = s.order? k)
    ∧ u.stack = s.stack ∧ u.shipStrokes = s.shipStrokes ∧ u.lines = s.lines
    ∧ ∀ p r, s.rec? p = some r →
      let waits := r.govSlot = some top ∧ r.motion = .waitUnit ∧ r.purpose ≠ some .passage
      (waits → rested s u p r) ∧ (¬ waits → u.rec? p = some r))
  ∧ ∀ s : State,
    (∀ head back, s.pendingOrders = head :: back → s.phase ≠ .build →
      (s.stack = [] ∨ ∃ top rest, s.stack = top :: rest ∧ s.priorityOf top < s.priorityOf head) →
      s.nextTop = s.pushOrder head)
    ∧ (∀ top rest o, s.stack = top :: rest → s.order? top = some o →
      (s.phase = .build ∨ ∀ head, s.pendingOrders.head? = some head →
        s.priorityOf head ≤ s.priorityOf top) →
      s.nextTop = State.first (State.activate (s.putOrder top { o with state := .active }) top)
        [.complete top])
    ∧ (s.stack = [] → s.phase = .build ∨ s.pendingOrders = [] → s.nextTop = s)

/-- CANCEL by the state of the order (R64): BAD_FIELD above slot 15, NOT_FOUND for a FREE slot, BUSY for slot 15
while ECLOSE is asserted. A PENDING order leaves the pending list CANCELLED, a finished order is only read; in both
nothing else changes. A stacked order leaves the stack CANCELLED with its counts as they stood, its remote waiters
leave their queues for REST with no order charged (R76), and its moving doors move on; an ACTIVE one takes its
warning doors to REST too, with their debits refunded, capped at the capacity, and their strokes returned (R73),
and the next top is found after it; the warning doors of a SUSPENDED one run on. Then the governing orders, attempt
counts and queue places of its members follow the stack (R65, R75, R83); no other door changes. The port that
cancels has read the completion, both ports for HARDWIRED. The model's choice: where freed strokes and the next top
stand among the hand-offs, and the order in which the doors are taken (log entries 10, 16, 47). -/
def Obligations.CancelFollowsTheState : Prop :=
  ∀ (s : State) (port : Port) (n : Nat), s.Settled → s.Sound → s.TakesOn port →
    let readBy := fun (source : OrderSource) (unread : PortFlags) =>
      if source = .hardwired then { a := false, b := false }
      else { unread with a := unread.a && decide (port ≠ .A), b := unread.b && decide (port ≠ .B) }
    (15 < n → exec (.cancel port (.fields n)) s = .next (s.responds port 0x08 .badField .empty))
    ∧ (n ≤ 15 → s.order? n = none →
        exec (.cancel port (.fields n)) s = .next (s.responds port 0x08 .notFound .empty))
    ∧ ∀ o, n ≤ 15 → s.order? n = some o →
      (n = 15 → s.ecloseState = true →
        exec (.cancel port (.fields n)) s = .next (s.responds port 0x08 .busy .empty))
      ∧ ((n ≠ 15 ∨ s.ecloseState = false) →
        let cancelled : Order :=
          { o with state := .cancelled, result := some .cancelled, finished := some s.clock,
                   unread := readBy o.source o.issuing }
        (o.state = .pending →
          exec (.cancel port (.fields n)) s
            = .next (State.responds { s.putOrder n cancelled with
                                        pendingOrders := removeNat n s.pendingOrders } port 0x08 .ok
                (.cancelled o.tag .cancelled o.members o.done o.failed (some .cancelled))))
        ∧ (o.state = .done ∨ o.state = .cancelled →
          exec (.cancel port (.fields n)) s
            = .next ((s.putOrder n { o with unread := readBy o.source o.unread }).responds port 0x08 .ok
                (.cancelled o.tag o.state o.members o.done o.failed o.result)))
        ∧ (o.state = .suspended ∨ o.state = .active →
          ∃ b u : State, exec (.cancel port (.fields n)) s
              = .next (u.settlesAndResponds port 0x08 fun v => (.ok, v.cancelContent n))
            ∧ u.order? n = some cancelled ∧ u.stack = removeNat n s.stack
            ∧ (o.state = .active → u.agenda.head? = some .nextTop)
            ∧ (o.state = .active → ∀ m w, s.unit? m = some w →
              let warned := s.records.filter fun e => decide (e.2.govSlot = some n)
                && decide (e.2.unit? = some m) && decide (e.2.motion = .warning)
              ∃ w', u.unit? m = some w' ∧ w'.strokes = w.strokes - warned.length
                ∧ (0 < (warned.map fun e => e.2.heldDebit.getD 0).sum → w'.charge = min (1000 * w.capacity)
                    ((w.accrue s.clock).charge + 1000 * (warned.map fun e => e.2.heldDebit.getD 0).sum)))
            ∧ (∀ k, k ≠ n → u.order? k = s.order? k)
            ∧ (∀ p r, s.rec? p = some r → r.govSlot = some n →
              let warned := o.state = .active ∧ r.motion = .warning
              let waits := r.motion = .waitUnit ∧ r.purpose ≠ some .passage
              ∃ r', u.rec? p = some r'
                ∧ (warned ∨ waits → r'.motion = .rest ∧ r'.target = none ∧ r'.heldDebit = none)
                ∧ (r.motion = .moving → r'.motion = .moving ∧ r'.target = r.target)
                ∧ (r.motion = .warning → o.state = .suspended → r'.motion = .warning ∧ r'.target = r.target))
            ∧ (s.Listed → s.Accounted → b.Regoverned u o ∧ b.stack = s.stack
              ∧ ∀ p r, s.rec? p = some r →
                let ends := r.govSlot = some n ∧ ((o.state = .active ∧ r.motion = .warning)
                  ∨ (r.motion = .waitUnit ∧ r.purpose ≠ some .passage))
                (¬ ends → b.rec? p = some r)
                ∧ (ends → (∀ m, p ∉ b.queueOf m)
                  ∧ ∃ r', b.rec? p = some r' ∧ r'.motion = .rest ∧ r'.purpose = none ∧ r'.target = none
                    ∧ r'.govSlot = none ∧ r'.waitReason = none ∧ r'.queueClass = none ∧ r'.deadline = none
                    ∧ r'.heldDebit = none ∧ r'.attempts = r.attempts ∧ r'.cfg = r.cfg
                    ∧ r'.lifecycle = r.lifecycle))))

/-- ORDER STATUS answers with the order of the slot named, or of the lowest slot with an unread completion for the
port, and reads its completion for that port, for HARDWIRED on both; nothing else changes. A slot above 15 is
BAD_FIELD; a FREE slot, or no unread completion, is NOT_FOUND (R69, R195). The report gives the order record of
R47: slot, source, tag, priority, kind, scope, withdraw set, state, whether it is on top, the counts of members,
done, failed and repeats, the issuing ports, the result and the age of the finished uptime; then up to 16 snapshot
members from the start index, each with position, door number, absent once its position was freed, and outcome, and
none without a snapshot (R48, R195). -/
def Obligations.OrderStatusReadsTheCompletion : Prop :=
  (∀ (s : State) (port : Port) (start : Nat), s.Settled → s.wf = true → s.TakesOn port →
    let asked := fun (which : StatusOf) =>
      exec (.orderStatus port (.fields { which := which, memberStart := start })) s
    let answered := fun (n : Nat) (o : Order) =>
      let read : Order :=
        if o.state.live then o
        else if o.source = .hardwired then { o with unread := { a := false, b := false } }
        else { o with unread := { a := o.unread.a && decide (port ≠ .A),
                                  b := o.unread.b && decide (port ≠ .B) } }
      Host.Outcome.next ((s.putOrder n read).responds port 0x09 .ok
        (.orderStatus (s.orderReport n o start)))
    (∀ n, 15 < n → asked (.slot n) = .next (s.responds port 0x09 .badField .empty))
    ∧ (∀ n, n ≤ 15 → s.order? n = none → asked (.slot n) = .next (s.responds port 0x09 .notFound .empty))
    ∧ (∀ n o, n ≤ 15 → s.order? n = some o → asked (.slot n) = answered n o)
    ∧ ((∀ n o, s.order? n = some o → o.unread.get port = false) →
        asked .nextUnread = .next (s.responds port 0x09 .notFound .empty))
    ∧ (∀ n o, n ≤ 15 → s.order? n = some o → o.unread.get port = true →
        (∀ j o', j < n → s.order? j = some o' → o'.unread.get port = false) →
        asked .nextUnread = answered n o))
  ∧ ∀ (s : State) (n : Nat) (o : Order) (start : Nat),
    let members := o.snapshot.getD []
    let report := s.orderReport n o start
    report = { slot := n, source := o.source, tag := o.tag, priority := o.priority, kind := o.kind,
               scope := o.scope, withdraw := o.withdraw, state := o.state,
               onTop := decide (s.stack.head? = some n), members := members.length, done := o.done,
               failed := o.failed, repeats := o.repeats, issuing := o.issuing, result := o.result,
               finishedAge := o.finished.map fun at_ => min (s.clock - at_) 2147483647,
               listed := report.listed }
    ∧ report.listed.length = min 16 (members.length - start)
    ∧ ∀ i m, i < 16 → members[start + i]? = some m → ∃ number,
      report.listed[i]? = some { position := m.position, number := number, outcome := m.outcome }
        ∧ (m.freed = true → number = none)
        ∧ (m.freed = false → ∀ r, s.rec? m.position = some r → number = some r.cfg.number)

/-- The ECLOSE input (R68, R69): a level that differs from the debounced state starts its 50 ms and the
debounced state's own level ends them; once they have run the debounced state takes the level of the pin. A
deassertion does nothing to any order. An assertion is absorbed by a live order of slot 15; otherwise it
creates the hardwired order: priority 7, CLOSE, SHIP, REMOTE_OPEN withdrawn, issued for both ports, which in
BUILD is PENDING and otherwise pushed above a lower top. -/
def Obligations.EcloseActsOnItsDebouncedEdge : Prop :=
  ∀ s : State, s.Settled → s.wf = true →
    let hardwired : Order :=
      { source := .hardwired, tag := 0, priority := 7, kind := .close, scope := .ship,
        withdraw := { localOpen := false, remoteOpen := true }, state := .pending,
        arrival := s.arrivals + 1, snapshot := none, done := 0, failed := 0, repeats := 0,
        issuing := { a := true, b := true }, result := none, finished := none,
        unread := { a := false, b := false } }
    (∀ level, level = s.eclosePin → exec (.ecloseInputChange level) s = .next s)
    ∧ (∀ level, level ≠ s.eclosePin →
        exec (.ecloseInputChange level) s
          = .next (State.drive { s with
              eclosePin := level
              ecloseTimer := if level = s.ecloseState then none else some (s.clock + 50) }))
    ∧ ((∀ d, s.ecloseTimer = some d → s.clock < d) → exec .ecloseDebounceExpiry s = .next s)
    ∧ ∀ d, s.ecloseTimer = some d → d ≤ s.clock →
      let taken : State := { s with ecloseState := s.eclosePin, ecloseTimer := none }
      (s.eclosePin = false ∨ s.ecloseState = true →
        exec .ecloseDebounceExpiry s = .next taken.drive)
      ∧ (s.eclosePin = true → s.ecloseState = false →
        (∀ o, s.order? 15 = some o → o.state.live = true →
          exec .ecloseDebounceExpiry s
            = .next (taken.putOrder 15 { o with repeats := min 65535 (o.repeats + 1) }).drive)
        ∧ ((∀ o, s.order? 15 = some o → o.state.live = false) →
          (s.phase = .build → s.pendingOrders = [] →
            exec .ecloseDebounceExpiry s
              = .next (State.drive { taken.putOrder 15 hardwired with
                  arrivals := s.arrivals + 1, pendingOrders := [15] }))
          ∧ (s.phase ≠ .build →
            (s.stack = [] ∨ ∃ top rest, s.stack = top :: rest ∧ top ≠ 15 ∧ s.priorityOf top < 7) →
            ∃ (u : State) (members : List Member) (o' : Order), exec .ecloseDebounceExpiry s = .next u.settle.drive
              ∧ u.ecloseState = true ∧ u.ecloseTimer = none ∧ u.stack = 15 :: s.stack
              ∧ u.order? 15 = some o' ∧ o'.snapshot = some members ∧ o'.state = .active
              ∧ o'.withdraw = hardwired.withdraw ∧ o'.priority = 7 ∧ o'.kind = .close
              ∧ o'.source = .hardwired ∧ o'.issuing = hardwired.issuing
              ∧ (∀ p, p ∈ members.map Member.position ↔
                  ∃ r, s.rec? p = some r ∧ r.lifecycle ≠ .retiring))))

/-- What the stack says of a door (R65 to R67): its governing order is the stacked order of highest priority that
holds it; its effective permissions are its configured ones less every stacked order's withdraw set that holds it;
it is under closure while it is normally-closed or a stacked CLOSE order holds it. The queue tier and priority of a
door that waits are those of the table of R75: for ORDER the priority of the governing order, emergency for a close
at 6 or 7; for RECLOSE the priority of the highest stacked CLOSE order that holds the door, or 0, emergency at 6 or
7; for LOCAL the tier of passage at the governing priority. -/
def Obligations.TheStackDecidesForItsDoors : Prop :=
  ∀ (s : State) (p : Nat), s.OrdersPlaced →
    let holders := fun (k : Nat) (o : Order) => k ∈ s.stack ∧ s.order? k = some o ∧ o.holds p = true
    (∀ k, s.governing p = some k ↔
      ∃ o, holders k o ∧ ∀ j o', holders j o' → j = k ∨ o'.priority < o.priority)
    ∧ (s.governing p = none ↔ ∀ k o, ¬ holders k o)
    ∧ ∀ pf : PowerFields,
      ((s.effectivePerms p pf).localOpen = true ↔
        pf.perms.localOpen = true ∧ ∀ k o, holders k o → o.withdraw.localOpen = false)
      ∧ ((s.effectivePerms p pf).remoteOpen = true ↔
        pf.perms.remoteOpen = true ∧ ∀ k o, holders k o → o.withdraw.remoteOpen = false)
      ∧ (s.underClosure p pf = true ↔
        pf.normallyClosed = true ∨ ∃ k o, holders k o ∧ o.kind = .close)
      ∧ ∀ target,
        let key := fun (purpose : Purpose) => s.queueClassFor p (some purpose) target
        let closers := fun (k : Nat) (o : Order) => holders k o ∧ o.kind = .close
        let ordered := fun (n : Nat) => key .order = { tier := if target = some .closed ∧ 6 ≤ n then .emergency else .other
                                                       priority := n }
        let reclosed := fun (n : Nat) => key .reclose = { tier := if 6 ≤ n then .emergency else .other, priority := n }
        let passing := fun (n : Nat) => key .passage = { tier := .passage, priority := n }
        (∀ k o, s.governing p = some k → s.order? k = some o → ordered o.priority ∧ passing o.priority)
        ∧ (s.governing p = none → ordered 0 ∧ passing 0)
        ∧ (∀ k o, closers k o → (∀ j o', closers j o' → o'.priority ≤ o.priority) → reclosed o.priority)
        ∧ ((∀ k o, ¬ closers k o) → reclosed 0)

/-! ### Motion -/

/-- The end of the warning lead (R78, R79). Short of its target, with its line enabled, the door is MOVING
with its deadline at the allowance of its target, its indication derived anew unless STALE holds it, and its
MOVE is queued or already being sent; every other record is as it was. Already at its target, it enters no
movement: its stroke ends with the refund, capped, its attempt count is 0, no MOVE is queued, and the freed
ship stroke and the evaluation are handed on. Before the lead has run nothing happens. The model's choice: the
order of the hand-offs, and when an idle line takes the MOVE up (log entries 16, 20). -/
def Obligations.WarningLeadEndsInMovement : Prop :=
  ∀ (s : State) (p : Nat) (r : Record) (pf : PowerFields) (target : Target) (d : Nat) (w : PowerUnit),
    s.Settled → s.rec? p = some r → r.motion = .warning → r.cfg.power = some pf →
    r.target = some target → r.deadline = some d → s.unit? pf.unit = some w →
    let atTarget := (target = .closed ∧ r.indicated = .closed) ∨ (target = .opened ∧ r.indicated = .opened)
    let stale := r.aged = true ∨ FaultKind.lc ∈ r.causes
    (s.clock < d → exec (.warningLeadExpiry p) s = .next s)
    ∧ (d ≤ s.clock → ¬ atTarget → (s.line r.cfg.line).enabled = true →
      ∃ t r', exec (.warningLeadExpiry p) s = .next t ∧ t.rec? p = some r'
        ∧ r'.lifecycle = r.lifecycle ∧ r'.cfg = r.cfg ∧ r'.report = r.report ∧ r'.motion = .moving
        ∧ r'.purpose = r.purpose ∧ r'.target = r.target ∧ r'.govSlot = r.govSlot
        ∧ r'.heldDebit = r.heldDebit ∧ r'.attempts = r.attempts ∧ r'.flags = r.flags
        ∧ r'.deadline = some (s.clock
            + 1000 * (if target = .closed then pf.closeAllowance else pf.openAllowance))
        ∧ (stale → r'.indicated = r.indicated)
        ∧ (¬ stale → r'.indicated = ({ r with motion := .moving } : Record).derived.1)
        ∧ ({ position := p, command := .move target } ∈ (t.line r.cfg.line).queue
            ∨ ∃ x, (t.line r.cfg.line).exchange = some x ∧ x.kind = .command (.move target)
                ∧ x.target = .door p r.cfg.station)
        ∧ (∀ q, q ≠ p → t.rec? q = s.rec? q)
        ∧ (∀ side q, q ∈ (t.portState side).marks ↔ q = p ∨ q ∈ (s.portState side).marks)
        ∧ s.KeepsBut t [.records, .lines, .alarms, .marks .A, .marks .B])
    ∧ (d ≤ s.clock → atTarget →
      ∃ (u : State) (r' : Record) (w' : PowerUnit), exec (.warningLeadExpiry p) s = .next u.settle.drive
        ∧ u.rec? p = some r' ∧ r'.motion = .rest ∧ r'.target = none ∧ r'.purpose = none
        ∧ r'.deadline = none ∧ r'.heldDebit = none ∧ r'.attempts = 0 ∧ FaultKind.ob ∉ r'.causes
        ∧ u.lines = s.lines ∧ u.shipStrokes = s.shipStrokes - 1
        ∧ u.unit? pf.unit = some w' ∧ w'.strokes = w.strokes - 1
        ∧ w'.charge = (if r.heldDebit.getD 0 = 0 then (w.accrue s.clock).charge
            else min (1000 * w.capacity) ((w.accrue s.clock).charge + 1000 * r.heldDebit.getD 0))
        ∧ u.agenda = [.freed (some pf.unit), .evalRest p])

/-- The deadline of a MOVING door with its line enabled (R81, R62, R73): a STOP is queued, CT or OT is present, the
stroke ends without a refund, the door is in REST with its attempt count kept, its governing order, if stacked,
counts it failed TIMEOUT where it held it uncounted, and the freed ship stroke, the order's completion check and
the evaluation are handed on, in this order. The report does not show the target; with a report that did, the
stroke would have ended at the reply (R80). At the passage limit LP is present, its timer ends and the door stays
in LOCAL with its stroke and debit held; no command is queued, and nothing changes but the record, its marks and
the alarm list (R89, R148). The model's choice: the order of the hand-offs, and the report of the cause before them
(log entries 16, 17). -/
def Obligations.DeadlineAndPassageLimitExpire : Prop :=
  (∀ (s : State) (p : Nat) (r : Record) (pf : PowerFields) (target : Target) (d : Nat) (w : PowerUnit),
     s.Settled → s.rec? p = some r → r.motion = .moving → r.cfg.power = some pf →
     r.target = some target → r.deadline = some d → s.unit? pf.unit = some w →
     (s.line r.cfg.line).enabled = true →
     (target = .closed → r.derived.1 ≠ .closed) → (target = .opened → r.derived.1 ≠ .opened) →
     (s.clock < d → exec (.deadlineExpiry p) s = .next s)
     ∧ (d ≤ s.clock →
       ∃ (u : State) (r' : Record) (w' : PowerUnit), exec (.deadlineExpiry p) s = .next u.settle.drive
         ∧ u.rec? p = some r' ∧ r'.motion = .rest ∧ r'.target = none ∧ r'.purpose = none
         ∧ r'.govSlot = none ∧ r'.deadline = none ∧ r'.heldDebit = none ∧ r'.attempts = r.attempts
         ∧ (if target = .opened then FaultKind.ot else FaultKind.ct) ∈ r'.causes
         ∧ (u.line r.cfg.line).queue = ((s.line r.cfg.line).enqueue p .stop).queue
         ∧ u.shipStrokes = s.shipStrokes - 1 ∧ u.unit? pf.unit = some w'
         ∧ w'.strokes = w.strokes - 1 ∧ w'.charge = (w.accrue s.clock).charge
         ∧ (∀ k o, r.govSlot = some k → s.order? k = some o →
             u.order? k = some (if k ∈ s.stack then o.count p (.failed .timeout) else o))
         ∧ u.agenda = [.freed (some pf.unit)]
             ++ (match r.govSlot with
               | some k => [.complete k]
               | none => [])
             ++ [.evalRest p]))
  ∧ (∀ (s : State) (p : Nat) (r : Record) (d : Nat), s.Settled → s.rec? p = some r →
       r.motion = .inLocal → r.deadline = some d →
       (s.clock < d → exec (.passageLimitExpiry p) s = .next s)
       ∧ (d ≤ s.clock → ∃ t r', exec (.passageLimitExpiry p) s = .next t ∧ t.rec? p = some r'
           ∧ FaultKind.lp ∈ r'.causes ∧ (∀ k, k ≠ .lp → (k ∈ r'.causes ↔ k ∈ r.causes))
           ∧ r'.motion = .inLocal ∧ r'.deadline = none ∧ r'.heldDebit = r.heldDebit ∧ r'.cfg = r.cfg
           ∧ r'.lifecycle = r.lifecycle ∧ r'.indicated = r.indicated ∧ r'.report = r.report
           ∧ (∀ q, q ≠ p → t.rec? q = s.rec? q)
           ∧ s.KeepsBut t [.records, .alarms, .marks .A, .marks .B]))

/-- The end of a reclose delay, and of an obstruction pause after a RECLOSE stroke (R83, R91, R92): the door goes
to REST for its evaluation when it is undrivable, governed by a HOLD, not under closure, uncounted in its ACTIVE
governing order, or CLOSED; otherwise it waits for its unit with target CLOSED and purpose RECLOSE, at the priority
of the highest stacked CLOSE order that holds it, or 0, in the emergency tier at 6 or 7 (R75). A pause after any
other stroke ends in REST with the evaluation. Before the uptime of the timer nothing happens. Premise of the
priority: the placed orders, an invariant stated on its own. The model's choice: the evaluation is a hand-off (log
entry 10). -/
def Obligations.RecloseIsDecidedAtTheExpiry : Prop :=
  (∀ (s : State) (p : Nat) (r : Record), s.Calm → s.rec? p = some r → ¬ r.timerDue s.clock →
    exec (.recloseDelayExpiry p) s = .next s ∧ exec (.obstructionPauseExpiry p) s = .next s)
  ∧ ∀ (s : State) (p : Nat) (r : Record) (pf : PowerFields) (w : PowerUnit) (c : Instr),
    s.Calm → s.rec? p = some r → r.cfg.power = some pf → s.unit? pf.unit = some w →
    r.timerDue s.clock →
    let rest : Record :=
      { r with motion := .rest, purpose := none, target := none, govSlot := none, waitReason := none,
               queueClass := none, deadline := none, heldDebit := none }
    let evaluated := ∃ u : State, exec c s = .next u.settle.drive ∧ u.rec? p = some rest
      ∧ u.agenda = [.evalRest p] ∧ u.units = s.units ∧ u.lines = s.lines ∧ u.shipStrokes = s.shipStrokes
    let staysAtRest := (FaultKind.ic ∈ r.causes ∨ FaultKind.lc ∈ r.causes ∨ FaultKind.sf ∈ r.causes)
      ∨ (∃ k o, s.governing p = some k ∧ s.order? k = some o
          ∧ (o.kind = .hold ∨ (o.state = .active ∧ o.uncounted p = true)))
      ∨ s.underClosure p pf = false ∨ r.indicated = .closed
    ((c = .recloseDelayExpiry p ∧ r.motion = .recloseDelay)
        ∨ (c = .obstructionPauseExpiry p ∧ r.motion = .rest ∧ r.purpose = some .reclose) →
      (staysAtRest → evaluated)
      ∧ (¬ staysAtRest → ∃ (u : State) (r' : Record), exec c s = .next u.settle.drive
          ∧ u.rec? p = some r' ∧ r'.motion = .waitUnit ∧ r'.purpose = some .reclose
          ∧ r'.target = some .closed ∧ r'.govSlot = s.governing p ∧ r'.deadline = none
          ∧ r'.queueClass = some (s.queueClassFor p (some .reclose) (some .closed))
          ∧ r'.waitReason = some .queue
          ∧ (s.OrdersPlaced → ∃ n : Nat,
            let closers := fun (o : Order) => o.kind = .close ∧ o.holds p = true
              ∧ ∃ k, k ∈ s.stack ∧ s.order? k = some o
            r'.queueClass = some { tier := if 6 ≤ n then .emergency else .other, priority := n }
              ∧ (∀ o, closers o → o.priority ≤ n) ∧ (n = 0 ∨ ∃ o, closers o ∧ o.priority = n))
          ∧ p ∈ u.queueOf pf.unit))
    ∧ (c = .obstructionPauseExpiry p → r.motion = .rest → r.purpose ≠ some .reclose → evaluated)

/-- A MOVING door that is handed its target ends its stroke without a refund, in REST with attempt count 0 and OB
absent; another state leaves it moving (R80). The obstruction flag of a reply queues a STOP, sets OB and ends the
stroke without a refund: below the third attempt the door pauses for 5000 ms with its purpose kept, at the third it
is failed OBSTRUCTED for its governing order; out of MOVING the flag is disregarded (R82). The model's choice: the
order of the hand-offs, the report of OB before them, CT or OT, UL and OB in this order at a stroke end at the
target, and what it hands on before the rest of the reply (log entries 16, 17, 63, 74). -/
def Obligations.MovementEndsAtTargetOrObstruction : Prop :=
  ∀ (s : State) (p : Nat) (r : Record) (pf : PowerFields) (w : PowerUnit) (st : Indication),
    s.rec? p = some r → r.cfg.power = some pf → s.unit? pf.unit = some w →
    (s.line r.cfg.line).enabled = true →
    let atTarget := (r.target = some .closed ∧ st = .closed) ∨ (r.target = some .opened ∧ st = .opened)
    let ended := fun (u : State) =>
      u.shipStrokes = s.shipStrokes - 1
        ∧ ∃ w', u.unit? pf.unit = some w' ∧ w'.strokes = w.strokes - 1
          ∧ w'.charge = (w.accrue s.clock).charge
    (r.motion ≠ .moving → s.motionSees p st = s ∧ s.obstructed p = s)
    ∧ (¬ atTarget → s.motionSees p st = s)
    ∧ (r.motion = .moving → atTarget →
        let u := s.motionSees p st
        ended u ∧ u.agenda = [.freed (some pf.unit), .evalRest p] ++ s.agenda
        ∧ ∃ r', u.rec? p = some r' ∧ r'.motion = .rest ∧ r'.target = none ∧ r'.deadline = none
          ∧ r'.heldDebit = none ∧ r'.attempts = 0 ∧ FaultKind.ob ∉ r'.causes)
    ∧ (r.motion = .moving →
        let u := s.obstructed p
        ended u ∧ (u.line r.cfg.line).queue = ((s.line r.cfg.line).enqueue p .stop).queue
        ∧ ∃ r', u.rec? p = some r' ∧ r'.motion = .rest ∧ r'.target = none ∧ r'.heldDebit = none
          ∧ FaultKind.ob ∈ r'.causes
          ∧ (r.attempts < 2 → r'.attempts = r.attempts + 1 ∧ r'.purpose = r.purpose
              ∧ r'.deadline = some (s.clock + 5000)
              ∧ u.agenda = [.freed (some pf.unit)] ++ s.agenda)
          ∧ (2 ≤ r.attempts → r'.attempts = 3 ∧ r'.purpose = none ∧ r'.deadline = none
              ∧ (∀ k o, r.govSlot = some k → s.order? k = some o →
                  u.order? k = some (if k ∈ s.stack then o.count p (.failed .obstructed) else o))))

/-- A local request of a door in REST is refused WITHDRAWN where IC or SF is present or LOCAL_OPEN is not
effective, and otherwise waits for its unit with purpose LOCAL and no target, in the tier of passage at the
governing priority (R75); a pause ends either way (R86). By the table of R87: a remote waiter leaves its queue, a
warning door ends its stroke with its debit refunded (R73), one moving to CLOSED without a refund and with a STOP,
a reclose delay ends, each in REST with no failure counted, for the same check, after which a door refused is
evaluated; a door opening under an order, a door in LOCAL and a local waiter disregard it. An ISOLATED door is
refused ISOLATED, its release disregarded; class H and S take no request (R85). A local release of a door in LOCAL
ends the stroke without a refund, into RECLOSE_DELAY under closure and into REST otherwise; one of a local waiter
takes it out of the queue to REST for its evaluation; elsewhere it removes LP alone (R90, R148). Of both flags in
one reply the release acts in LOCAL and on a local waiter, the request otherwise (R85). The model's choice: the
order of the hand-offs, with LP removed first and closure asked before the stroke end (log entries 15, 16, 31, 54,
64). -/
def Obligations.LocalRequestsAndReleases : Prop :=
  ∀ (s : State) (p : Nat) (r : Record), s.rec? p = some r → (s.line r.cfg.line).enabled = true →
    let refused := fun (u : State) (why : RefuseWhy) =>
      u.lines = (s.modLine r.cfg.line fun l => l.enqueue p (.refuse why)).lines
    let rested := fun (u : State) => ∃ r', u.rec? p = some r' ∧ r'.motion = .rest ∧ r'.purpose = none
      ∧ r'.target = none ∧ r'.govSlot = none ∧ r'.waitReason = none ∧ r'.deadline = none
      ∧ r'.heldDebit = none ∧ r'.attempts = r.attempts ∧ ∀ k ∈ r'.causes, k ∈ r.causes
    (r.cfg.power = none → ∀ request release, s.localFlags p request release = s)
    ∧ ∀ (pf : PowerFields) (w : PowerUnit), r.cfg.power = some pf → s.unit? pf.unit = some w →
      let asks := s.localFlags p true false
      let leaves := s.localFlags p false true
      let ended := fun (u : State) (refund : Nat) => u.shipStrokes = s.shipStrokes - 1
        ∧ ∃ w', u.unit? pf.unit = some w' ∧ w'.strokes = w.strokes - 1
          ∧ w'.charge = (if refund = 0 then (w.accrue s.clock).charge
              else min (1000 * w.capacity) ((w.accrue s.clock).charge + 1000 * refund))
      let queueLeft := fun (u : State) => u.shipStrokes = s.shipStrokes ∧ ∃ w', u.unit? pf.unit = some w'
        ∧ w'.queue = removeNat p w.queue ∧ w'.strokes = w.strokes
      let waitsLocally := r.motion = .waitUnit ∧ r.purpose = some .passage
      let blocked := FaultKind.ic ∈ r.causes ∨ FaultKind.sf ∈ r.causes
        ∨ (s.effectivePerms p pf).localOpen = false
      let checked := fun (u : State) (after : List Task) =>
        (blocked → refused u .withdrawn ∧ u.agenda = after ++ s.agenda
          ∧ u.rec? p = some { r with purpose := none, deadline := none })
        ∧ (¬ blocked → p ∈ u.queueOf pf.unit ∧ u.lines = s.lines
          ∧ ∃ r', u.rec? p = some r' ∧ r'.motion = .waitUnit ∧ r'.purpose = some .passage
            ∧ r'.target = none ∧ r'.govSlot = none ∧ r'.deadline = none ∧ r'.attempts = r.attempts
            ∧ r'.waitReason = some .queue
            ∧ r'.queueClass = some { tier := .passage, priority := s.govPriority p })
      (r.lifecycle = .isolated →
        refused asks .isolated ∧ asks.records = s.records ∧ leaves = s.causeOff p .lp)
      ∧ (r.motion = .rest → checked (s.localCheck p) [.evalRest p])
      ∧ (r.motion ≠ .rest → s.localCheck p = s.localRequest p)
      ∧ (r.lifecycle ≠ .isolated →
        asks = s.localRequest p
        ∧ (r.motion = .inLocal ∨ waitsLocally ∨ (r.motion = .moving ∧ r.target = some .opened) → asks = s)
        ∧ (r.motion = .rest → checked asks [])
        ∧ (r.motion = .waitUnit → r.purpose ≠ some .passage → rested asks ∧ queueLeft asks
          ∧ asks.agenda.head? = some (.localCheck p) ∧ asks.lines = s.lines ∧ asks.slots = s.slots)
        ∧ (r.motion = .warning → rested asks ∧ ended asks (r.heldDebit.getD 0)
          ∧ asks.agenda = [.freed (some pf.unit), .localCheck p] ++ s.agenda
          ∧ asks.lines = s.lines ∧ asks.slots = s.slots)
        ∧ (r.motion = .moving → r.target = some .closed → rested asks ∧ ended asks 0
          ∧ asks.agenda = [.freed (some pf.unit), .localCheck p] ++ s.agenda ∧ asks.slots = s.slots
          ∧ (asks.line r.cfg.line).queue = ((s.line r.cfg.line).enqueue p .stop).queue)
        ∧ (r.motion = .recloseDelay → rested asks ∧ asks.agenda = .localCheck p :: s.agenda
          ∧ asks.units = s.units ∧ asks.lines = s.lines ∧ asks.slots = s.slots)
        ∧ (r.motion = .inLocal → ended leaves 0 ∧ leaves.lines = s.lines
          ∧ ∃ r', leaves.rec? p = some r' ∧ FaultKind.lp ∉ r'.causes ∧ r'.heldDebit = none
            ∧ (s.underClosure p pf = true → r'.motion = .recloseDelay
                ∧ r'.deadline = some (s.clock + 1000 * pf.recloseDelay)
                ∧ leaves.agenda = [.freed (some pf.unit)] ++ s.agenda)
            ∧ (s.underClosure p pf = false → r'.motion = .rest ∧ r'.deadline = none
                ∧ leaves.agenda = [.freed (some pf.unit), .evalRest p] ++ s.agenda))
        ∧ (waitsLocally → rested leaves ∧ queueLeft leaves ∧ leaves.lines = s.lines
          ∧ leaves.agenda.head? = some (.evalRest p))
        ∧ (r.motion ≠ .inLocal → ¬ waitsLocally → leaves = s.causeOff p .lp)
        ∧ (r.motion = .inLocal ∨ waitsLocally → s.localFlags p true true = leaves)
        ∧ (r.motion ≠ .inLocal → ¬ waitsLocally →
          s.localFlags p true true = (s.causeOff p .lp).localFlags p true false))

/-- A door that becomes undrivable (R93): in REST nothing; a remote waiter leaves its queue and a warning door is
refunded, each failed FAULT for its governing order; a local waiter leaves with a REFUSE(WITHDRAWN); a moving door
ends its stroke without a refund, with a STOP and no failure; LOCAL ends its stroke without a refund, and
RECLOSE_DELAY ends; each goes to REST for its evaluation, and on a disabled line the STOP or REFUSE is dropped at
once, with no effect (R122, R127). A dropped command (R94), on an enabled or a disabled line: WARN of a warning
door refunds it, MOVE of a moving one does not, each failed FAULT; GRANT in LOCAL ends the stroke; any other
changes nothing; a dropped RELEASE completes the retirement NO_ACK (R22, R23, R95). A disabled line takes its
waiting, LOCAL and RECLOSE_DELAY doors to REST, out of their queues, and touches no other record; its remote
waiters are failed FAULT in their governing orders where these hold them uncounted (R62), its LOCAL doors return
their strokes, without refund. The model's choice: where freed strokes stand among the hand-offs, and the order of
the line's doors (log entries 16, 48). -/
def Obligations.UndrivableDoorsAndDroppedCommands : Prop :=
  (∀ (s : State) (p : Nat) (r : Record) (pf : PowerFields) (w : PowerUnit),
    s.rec? p = some r → r.cfg.power = some pf → s.unit? pf.unit = some w →
    let rested := fun (u : State) => ∃ r', u.rec? p = some r' ∧ r'.motion = .rest ∧ r'.purpose = none
      ∧ r'.target = none ∧ r'.govSlot = none ∧ r'.waitReason = none ∧ r'.deadline = none
      ∧ r'.heldDebit = none ∧ r'.attempts = r.attempts ∧ r'.cfg = r.cfg ∧ r'.lifecycle = r.lifecycle
    let ended := fun (u : State) (refund : Nat) =>
      rested u ∧ u.shipStrokes = s.shipStrokes - 1
        ∧ Task.freed (some pf.unit) ∈ u.agenda ∧ Task.evalRest p ∈ u.agenda
        ∧ ∃ w', u.unit? pf.unit = some w' ∧ w'.strokes = w.strokes - 1
          ∧ w'.charge = (if refund = 0 then (w.accrue s.clock).charge
              else min (1000 * w.capacity) ((w.accrue s.clock).charge + 1000 * refund))
    let left := fun (u : State) =>
      rested u ∧ u.shipStrokes = s.shipStrokes ∧ Task.evalRest p ∈ u.agenda
        ∧ ∃ w', u.unit? pf.unit = some w' ∧ w'.queue = removeNat p w.queue ∧ w'.strokes = w.strokes
          ∧ w'.charge = (w.accrue s.clock).charge
    let fails := fun (u : State) => ∀ k o, s.order? k = some o →
      u.order? k = some (if r.govSlot = some k ∧ k ∈ s.stack then o.count p (.failed .fault) else o)
    let sends := fun (u : State) (c : DoorCommand) =>
      ((s.line r.cfg.line).enabled = true →
        u.line r.cfg.line = (s.line r.cfg.line).enqueue p c ∧ ∀ m, m ≠ r.cfg.line → u.line m = s.line m)
      ∧ ((s.line r.cfg.line).enabled = false → u.lines = s.lines ∧ Task.dropped p c false ∈ u.agenda
        ∧ ∀ (v : State) (late : Bool), v.dropCommand p c late = v)
    let u := s.becomesUndrivable p
    (r.motion = .rest → u = s)
    ∧ (r.motion = .waitUnit → left u
      ∧ (r.purpose = some .passage → sends u (.refuse .withdrawn) ∧ u.slots = s.slots)
      ∧ (r.purpose ≠ some .passage → u.lines = s.lines ∧ fails u))
    ∧ (r.motion = .warning → ended u (r.heldDebit.getD 0) ∧ u.lines = s.lines ∧ fails u)
    ∧ (r.motion = .moving → ended u 0 ∧ sends u .stop ∧ u.slots = s.slots)
    ∧ (r.motion = .inLocal → ended u 0 ∧ u.lines = s.lines ∧ u.slots = s.slots)
    ∧ (r.motion = .recloseDelay → rested u ∧ u.units = s.units ∧ u.lines = s.lines ∧ u.slots = s.slots
      ∧ u.agenda = .evalRest p :: s.agenda)
    ∧ ∀ (c : DoorCommand) (late : Bool), c ≠ .release →
      let d := s.dropCommand p c late
      let acts := (r.motion = .warning ∧ ∃ n, c = .warn n) ∨ (r.motion = .moving ∧ ∃ t, c = .move t)
        ∨ (r.motion = .inLocal ∧ c = .grant)
      (¬ acts → d = s)
      ∧ (acts → d.lines = s.lines ∧ ended d (if r.motion = .warning then r.heldDebit.getD 0 else 0)
        ∧ (r.motion ≠ .inLocal → fails d) ∧ (r.motion = .inLocal → d.slots = s.slots)))
  ∧ (∀ (s : State) (p : Nat) (r : Record) (late : Bool), s.Sound → s.Listed → s.rec? p = some r →
    let u := s.dropCommand p .release late
    u.rec? p = none ∧ (∀ q, q ≠ p → u.rec? q = s.rec? q) ∧ Keyed.get? u.directory r.cfg.number = none
      ∧ (∀ z, p ∉ u.zoneList z) ∧ u.agenda = s.agenda
      ∧ ∀ side, p ∈ (u.portState side).marks
        ∧ Keyed.get? (u.portState side).freed p = some { number := r.cfg.number, reason := .noAck })
  ∧ ∀ (s : State) (n : LineNo), s.Sound → s.Accounted →
    let u := s.lineLost n
    let lost := fun (r : Record) => r.cfg.line = n
      ∧ (r.motion = .waitUnit ∨ r.motion = .inLocal ∨ r.motion = .recloseDelay)
    u.lines = s.lines ∧ u.stack = s.stack
    ∧ (∀ p r, s.rec? p = some r →
      (¬ lost r → u.rec? p = some r)
      ∧ (lost r → Task.evalRest p ∈ u.agenda ∧ ∃ r', u.rec? p = some r' ∧ r'.motion = .rest
        ∧ r'.purpose = none ∧ r'.target = none ∧ r'.deadline = none ∧ r'.heldDebit = none
        ∧ r'.cfg = r.cfg ∧ r'.causes = r.causes))
    ∧ (∀ k o, s.order? k = some o →
      let fails := fun (e : Nat × Record) => decide (e.2.cfg.line = n) && decide (e.2.motion = .waitUnit)
        && decide (e.2.purpose ≠ some .passage) && decide (e.2.govSlot = some k) && o.uncounted e.1
      (k ∉ s.stack ∨ o.kind = .hold → u.order? k = some o)
      ∧ (k ∈ s.stack → o.kind ≠ .hold → ∃ o', u.order? k = some o' ∧ o'.done = o.done
        ∧ o'.failed = o.failed + s.records.countP fails
        ∧ ∀ e ∈ s.records, (fails e = true → o'.uncounted e.1 = false ∧ ∃ ms, o'.snapshot = some ms
            ∧ ∃ m ∈ ms, m.position = e.1 ∧ m.freed = false ∧ m.outcome = .failed .fault)
          ∧ (fails e = false → o'.uncounted e.1 = o.uncounted e.1)))
    ∧ (u.shipStrokes = s.shipStrokes - s.records.countP fun e =>
        decide (e.2.cfg.line = n) && decide (e.2.motion = .inLocal))
    ∧ (∀ m w, s.unit? m = some w → ∃ w', u.unit? m = some w'
      ∧ w'.strokes = w.strokes - s.records.countP (fun e =>
          decide (e.2.cfg.line = n) && decide (e.2.motion = .inLocal) && decide (e.2.unit? = some m))
      ∧ (w'.charge = w.charge ∨ w'.charge = (w.accrue s.clock).charge))
    ∧ ∀ m p, p ∈ u.queueOf m ↔ p ∈ s.queueOf m ∧ ∀ r, s.rec? p = some r → r.cfg.line ≠ n

/-! ### Power units -/

/-- The need of a head and the cost debited (R107, R108): the cost alone for an emergency-tier close, which is
one at queue priority 6 or 7 by order or reclose, the cost and the floor for another close, and the open cost,
the close cost and the floor for an opening, remote or local, of which the open cost is debited. The charge
test fails exactly when the unit is unreconciled or its visible charge lies below the need. -/
def Obligations.NeedOfTheHead : Prop :=
  ∀ (s : State) (w : PowerUnit) (p : Nat) (r : Record) (pf : PowerFields) (floor : Nat),
    let emergency := ∃ c, r.queueClass = some c ∧ c.tier = .emergency
    let orderClass := s.queueClassFor p (some .order) (some .closed)
    let recloseClass := s.queueClassFor p (some .reclose) (some .closed)
    (r.purpose = some .passage →
      r.strokeNeed pf floor = pf.openCost + pf.closeCost + floor ∧ r.strokeCost pf = pf.openCost)
    ∧ (r.purpose ≠ some .passage → r.target = some .opened →
      r.strokeNeed pf floor = pf.openCost + pf.closeCost + floor ∧ r.strokeCost pf = pf.openCost)
    ∧ (r.purpose ≠ some .passage → r.target = some .closed → r.strokeCost pf = pf.closeCost
      ∧ (emergency → r.strokeNeed pf floor = pf.closeCost)
      ∧ (¬ emergency → r.strokeNeed pf floor = pf.closeCost + floor))
    ∧ (orderClass.tier = .emergency ↔ 6 ≤ orderClass.priority)
    ∧ (recloseClass.tier = .emergency ↔ 6 ≤ recloseClass.priority)
    ∧ (s.queueClassFor p (some .order) (some .opened)).tier ≠ .emergency
    ∧ (w.strokes < w.concurrency → w.lastStart = none →
      (s.failedTest w p r pf = some .charge
        ↔ ¬ (w.reconciled = true ∧ r.strokeNeed pf w.floor ≤ w.charge / 1000)))

/-- The accounts agree with the doors between any two events: every record of class P names a configured unit, a
unit's queue holds exactly the doors that wait for it, in the order of the queue key (R105), the strokes in progress
of a unit equal its doors in WARNING, MOVING and LOCAL (R100, R112), and the ship stroke count is their sum over
the units (R113). A step that leaves no hand-off over keeps that, and so does each byte at a console port, of which
BAD FRAME and CONSOLE BYTE GAP bring several. The model's choice: what an event does not finish stays on the agenda
(log entry 10). -/
def Obligations.EveryStepKeepsTheAccounts : Prop :=
  let keeps := fun (s t : State) =>
    s.Sound → s.Listed → s.agenda = [] → s.Accounted → t.agenda = [] → t.Accounted
  (∀ s t : State, ¬ s.TakesBytes → step s = .next t → keeps s t)
  ∧ ∀ (s : State) (port : Port) (b : LinkByte), s.inReset = false → keeps s (State.takeByte port s b)

/-- One evaluation of a unit's queue (R103, R107, R109, R110): the unit accrues and its timers are cancelled. A
head whose need exceeds the capacity leaves the queue for REST, failed COST for its governing order, if stacked,
where that held it uncounted, and is evaluated, the order checked for completion, and the next head taken.
Otherwise the first of the five tests that fails gives a remote head its wait reason, with the spacing timer or the
charge timer armed where R110 says so; and a head that passes all five is debited: the cost, one stroke of the unit
and of the ship, the last start and its place in the queue, and the admission, the judging of UL and the next head
are handed on. The model's choice: the order of the hand-offs, with UL judged after accrual (log entries 15, 22,
49). -/
def Obligations.AdmissionFollowsItsTests : Prop :=
  ∀ (s : State) (n : Nat) (w : PowerUnit) (p : Nat) (rest : List Nat) (r : Record) (pf : PowerFields),
    s.unit? n = some w → w.queue = p :: rest → s.rec? p = some r → r.cfg.power = some pf →
    r.purpose ≠ some .passage →
    let v := w.accrue s.clock
    let u := s.evaluateQueue n
    let need := r.strokeNeed pf w.floor
    let emergency := ∃ c, r.queueClass = some c ∧ c.tier = .emergency
    let spaced := ∀ t, w.lastStart = some t → w.spacing ≤ heldAge s.clock t
    let charged := w.reconciled = true ∧ need ≤ v.charge / 1000
    let budget := s.shipStrokes < s.shipM ∨ (emergency ∧ s.shipStrokes < s.shipM + s.shipE)
    let waits := fun (why : WaitReason) (spacingTimer chargeTimer : Option Nat) =>
      u.rec? p = some { r with waitReason := some why } ∧ u.agenda = s.agenda
        ∧ u.shipStrokes = s.shipStrokes
        ∧ ∃ w', u.unit? n = some w' ∧ w'.charge = v.charge ∧ w'.queue = w.queue
          ∧ w'.strokes = w.strokes ∧ w'.spacingTimer = spacingTimer ∧ w'.chargeTimer = chargeTimer
    (w.capacity < need →
      (∃ r', u.rec? p = some r' ∧ r'.motion = .rest ∧ r'.purpose = none ∧ r'.target = none
        ∧ r'.govSlot = none ∧ r'.waitReason = none ∧ r'.heldDebit = none)
      ∧ (∀ k o, s.order? k = some o →
        u.order? k = some (if r.govSlot = some k ∧ k ∈ s.stack then o.count p (.failed .cost) else o))
      ∧ u.agenda = (match r.govSlot with
          | some k => [.complete k]
          | none => []) ++ [.evalRest p, .evalQueue n] ++ s.agenda
      ∧ u.shipStrokes = s.shipStrokes
      ∧ ∃ w', u.unit? n = some w' ∧ w'.queue = removeNat p w.queue ∧ w'.charge = v.charge
        ∧ w'.strokes = w.strokes)
    ∧ (need ≤ w.capacity →
      (w.concurrency ≤ w.strokes → waits .concurrency none none)
      ∧ (w.strokes < w.concurrency →
        (∀ t, w.lastStart = some t → heldAge s.clock t < w.spacing →
          waits .spacing (some (s.clock + (w.spacing - heldAge s.clock t))) none)
        ∧ (spaced →
          (¬ charged → waits .charge none
            (if w.reconciled = true ∧ w.supply = .mains ∧ 0 < w.rate then
              some (s.clock + (need * 1000 - v.charge + w.rate - 1) / w.rate)
            else none))
          ∧ (charged →
            (¬ budget → waits .shipLimit none none)
            ∧ (budget →
              (s.bulkHolds p r = true → waits .bulkHold none none)
              ∧ (s.bulkHolds p r = false →
                u.shipStrokes = s.shipStrokes + 1 ∧ u.records = s.records
                ∧ u.agenda = [.admitted p (r.strokeCost pf), .judgeUL n, .evalQueue n] ++ s.agenda
                ∧ ∃ w', u.unit? n = some w' ∧ w'.charge = v.charge - 1000 * r.strokeCost pf
                  ∧ w'.strokes = w.strokes + 1 ∧ w'.lastStart = some s.clock
                  ∧ w'.queue = removeNat p w.queue ∧ w'.spacingTimer = none
                  ∧ w'.chargeTimer = none))))))

/-- The expiry of a unit's spacing or charge timer ends the timer, and the unit evaluates its queue (R110, R111);
on an empty queue it accrues alone; before its uptime nothing happens. A head of purpose LOCAL with an impossible
need, or that fails the charge test, is turned away with a REFUSE(LOW_CHARGE); one that fails another test waits
with its reason, with the spacing timer armed for the second and never a charge timer (R110); one that passes is
admitted at the open cost (R88, R107, R109). An admission (R77, R78): OT is removed, the debit is held, and the
door passes into LOCAL with a GRANT and its passage limit, into WARNING with its WARN and lead, or, with no lead,
into MOVING with its MOVE, unless it is at its target. A freeing of ship budget is served by the arbiter (R114),
with the freeings that still wait and a run in progress: of the units whose head waits with SHIP_LIMIT and those of
the strokes, the best head by queue key is tested; it is admitted and the arbiter goes on, it waits with SHIP_LIMIT
and the arbiter stops, or it waits or is turned away and the arbiter goes on without it; the end of a bulk walk
takes every waiting unit (R170); no queue is evaluated before a freeing that waits. The model's choice: the order
of the hand-offs (log entries 10, 15, 16, 18, 49), and that of the other candidates when the arbiter stops,
ascending by unit (log entry 59). -/
def Obligations.UnitTimersAndBudgetServeTheQueues : Prop :=
  (∀ (s : State) (n : Nat) (w : PowerUnit), s.Settled → s.unit? n = some w →
      let evaluating := fun (w' : PowerUnit) =>
        ({ s.putUnit n w' with agenda := [.evalQueue n] } : State).settle.drive
      ((∀ d, w.spacingTimer = some d → s.clock < d) → exec (.spacingTimerExpiry n) s = .next s)
      ∧ ((∀ d, w.chargeTimer = some d → s.clock < d) → exec (.chargeTimerExpiry n) s = .next s)
      ∧ (∀ d, w.spacingTimer = some d → d ≤ s.clock →
          exec (.spacingTimerExpiry n) s = .next (evaluating { w with spacingTimer := none }))
      ∧ (∀ d, w.chargeTimer = some d → d ≤ s.clock →
          exec (.chargeTimerExpiry n) s = .next (evaluating { w with chargeTimer := none }))
      ∧ (w.queue = [] → (∃ d, w.chargeTimer = some d ∧ d ≤ s.clock) →
          ∃ t w', exec (.chargeTimerExpiry n) s = .next t ∧ t.unit? n = some w'
            ∧ w'.charge = (w.accrue s.clock).charge ∧ w'.lastAccrual = s.clock ∧ w'.queue = []
            ∧ w'.strokes = w.strokes ∧ w'.chargeTimer = none ∧ w'.spacingTimer = none
            ∧ s.KeepsBut t [.units, .alarms]))
  ∧ (∀ (s : State) (n : Nat) (w : PowerUnit) (p : Nat) (rest : List Nat) (r : Record) (pf : PowerFields),
    s.unit? n = some w → w.queue = p :: rest → s.rec? p = some r → r.cfg.power = some pf →
    r.motion = .waitUnit → r.purpose = some .passage → (s.line r.cfg.line).enabled = true →
    let v := w.accrue s.clock
    let u := s.evaluateQueue n
    let need := pf.openCost + pf.closeCost + w.floor
    let emergency := ∃ c, r.queueClass = some c ∧ c.tier = .emergency
    let spaced := ∀ t, w.lastStart = some t → w.spacing ≤ heldAge s.clock t
    let charged := w.reconciled = true ∧ need ≤ v.charge / 1000
    let budget := s.shipStrokes < s.shipM ∨ (emergency ∧ s.shipStrokes < s.shipM + s.shipE)
    (w.capacity < need ∨ (w.strokes < w.concurrency ∧ spaced ∧ ¬ charged) →
      (u.line r.cfg.line).queue = ((s.line r.cfg.line).enqueue p (.refuse .lowCharge)).queue
      ∧ u.agenda = [.evalRest p, .evalQueue n] ++ s.agenda ∧ u.shipStrokes = s.shipStrokes
      ∧ (∃ r', u.rec? p = some r' ∧ r'.motion = .rest ∧ r'.purpose = none ∧ r'.heldDebit = none)
      ∧ ∃ w', u.unit? n = some w' ∧ w'.charge = v.charge ∧ w'.queue = removeNat p w.queue
        ∧ w'.strokes = w.strokes)
    ∧ (need ≤ w.capacity →
      let waits := fun (why : WaitReason) (spacingTimer : Option Nat) =>
        u.rec? p = some { r with waitReason := some why } ∧ u.agenda = s.agenda ∧ u.lines = s.lines
          ∧ u.shipStrokes = s.shipStrokes
          ∧ ∃ w', u.unit? n = some w' ∧ w'.charge = v.charge ∧ w'.queue = w.queue
            ∧ w'.strokes = w.strokes ∧ w'.spacingTimer = spacingTimer ∧ w'.chargeTimer = none
      (w.concurrency ≤ w.strokes → waits .concurrency none)
      ∧ (w.strokes < w.concurrency →
        (∀ t, w.lastStart = some t → heldAge s.clock t < w.spacing →
          waits .spacing (some (s.clock + (w.spacing - heldAge s.clock t))))
        ∧ (spaced → charged → (¬ budget → waits .shipLimit none)
          ∧ (budget → s.bulkHolds p r = true → waits .bulkHold none))))
    ∧ (need ≤ w.capacity → w.strokes < w.concurrency → spaced → charged → budget →
      s.bulkHolds p r = false →
      u.agenda = [.admitted p pf.openCost, .judgeUL n, .evalQueue n] ++ s.agenda
      ∧ u.shipStrokes = s.shipStrokes + 1 ∧ u.records = s.records
      ∧ ∃ w', u.unit? n = some w' ∧ w'.charge = v.charge - 1000 * pf.openCost
        ∧ w'.queue = removeNat p w.queue ∧ w'.strokes = w.strokes + 1 ∧ w'.lastStart = some s.clock))
  ∧ (∀ (s : State) (p cost : Nat) (r : Record) (pf : PowerFields) (w : PowerUnit),
    s.rec? p = some r → r.cfg.power = some pf → s.unit? pf.unit = some w → r.motion = .waitUnit →
    (s.line r.cfg.line).enabled = true →
    let u := s.takeAdmission p cost
    let enters := fun (m : Motion) (seconds : Nat) (c : DoorCommand) =>
      (u.line r.cfg.line).queue = ((s.line r.cfg.line).enqueue p c).queue
      ∧ u.units = s.units ∧ u.agenda = s.agenda
      ∧ ∃ r', u.rec? p = some r' ∧ r'.motion = m ∧ r'.deadline = some (s.clock + 1000 * seconds)
        ∧ r'.heldDebit = some cost ∧ r'.waitReason = none ∧ r'.queueClass = none ∧ r'.purpose = r.purpose
        ∧ r'.target = r.target ∧ r'.govSlot = r.govSlot ∧ r'.attempts = r.attempts
        ∧ FaultKind.ot ∉ r'.causes
    (∀ q, q ≠ p → u.rec? q = s.rec? q)
    ∧ (r.purpose = some .passage → enters .inLocal pf.passageLimit .grant)
    ∧ (r.purpose ≠ some .passage → 0 < pf.lead → enters .warning pf.lead (.warn pf.lead))
    ∧ (r.purpose ≠ some .passage → pf.lead = 0 → ∀ t, r.target = some t →
      let atTarget := (t = .closed ∧ r.indicated = .closed) ∨ (t = .opened ∧ r.indicated = .opened)
      (¬ atTarget → enters .moving (if t = .closed then pf.closeAllowance else pf.openAllowance) (.move t))
      ∧ (atTarget → u.lines = s.lines ∧ u.shipStrokes = s.shipStrokes - 1
        ∧ u.agenda = [.freed (some pf.unit), .evalRest p] ++ s.agenda
        ∧ (∃ r', u.rec? p = some r' ∧ r'.motion = .rest ∧ r'.target = none ∧ r'.heldDebit = none
          ∧ r'.attempts = 0 ∧ FaultKind.ot ∉ r'.causes)
        ∧ ∃ w', u.unit? pf.unit = some w' ∧ w'.strokes = w.strokes - 1
          ∧ w'.charge = (if cost = 0 then (w.accrue s.clock).charge
              else min (1000 * w.capacity) ((w.accrue s.clock).charge + 1000 * cost)))))
  ∧ (∀ s : State, s.Sound → s.Listed → s.Accounted →
    (∀ ended,
      let ofArbiter := fun (t : Task) => (∃ e, t = .freed e) ∨ ∃ us, t = .arbiter us
      (∃ tasks, s.handOff (.freed ended)
          = State.arbiterTurn { s with agenda := tasks } (s.candidates ended)
        ∧ tasks.Sublist s.agenda ∧ ∀ t, t ∈ tasks ↔ t ∈ s.agenda ∧ ¬ ofArbiter t)
      ∧ ∀ v, v ∈ s.candidates ended ↔ (s.unit? v).isSome ∧ (ended = some v
        ∨ Task.freed (some v) ∈ s.agenda ∨ (∃ us, Task.arbiter us ∈ s.agenda ∧ v ∈ us)
        ∨ ∃ p r, s.headOf v = some p ∧ s.rec? p = some r ∧ r.waitReason = some .shipLimit))
    ∧ s.handOff .walkEnded = s.arbiterTurn s.waitingUnits
    ∧ (∀ v, v ∈ s.waitingUnits ↔ ∃ w, s.unit? v = some w ∧ w.queue ≠ [])
    ∧ ∀ us : List Nat,
      ((∀ v ∈ us, s.headOf v = none) → s.arbiterTurn us = s)
      ∧ ∀ n w p r, n ∈ us → s.unit? n = some w → s.headOf n = some p → s.rec? p = some r →
        (∀ v ∈ us, ∀ q, s.headOf v = some q → q = p ∨ s.queueBefore p q = true) →
        let u := s.arbiterTurn us
        let others := removeNat n us
        let test := (s.startEvaluation n).headTest n
        let turned := test = .impossible p ∨ (test = .waits p .charge ∧ r.purpose = some .passage)
        let waits := fun (why : WaitReason) => u.rec? p = some { r with waitReason := some why }
          ∧ u.shipStrokes = s.shipStrokes
        (∀ cost, test = .passes p cost → u.shipStrokes = s.shipStrokes + 1
          ∧ u.agenda = [.admitted p cost, .judgeUL n, .arbiter us] ++ s.agenda
          ∧ ∃ w', u.unit? n = some w' ∧ w'.queue = removeNat p w.queue ∧ w'.strokes = w.strokes + 1
            ∧ w'.charge = (w.accrue s.clock).charge - 1000 * cost)
        ∧ (test = .waits p .shipLimit → waits .shipLimit ∧ u.agenda
          = (others.filter fun v => decide (s.headReason v ≠ some .shipLimit)).map Task.evalQueue ++ s.agenda)
        ∧ (∀ why, test = .waits p why → why ≠ .shipLimit → ¬ turned →
          waits why ∧ u.agenda = .arbiter others :: s.agenda)
        ∧ (turned → (∃ r', u.rec? p = some r' ∧ r'.motion = .rest ∧ r'.purpose = none)
          ∧ ∃ front, u.agenda = front ++ [.arbiter others] ++ s.agenda ++ [.evalQueue n]))
  ∧ ∀ (s : State) (n : Nat),
    ((∃ e, Task.freed e ∈ s.agenda) →
      s.take (.evalQueue n) = { s with agenda := s.agenda ++ [.evalQueue n] })
    ∧ ((∀ e, Task.freed e ∉ s.agenda) → s.take (.evalQueue n) = s.evaluateQueue n)

/-- UNIT SET and UNIT READ (R97 to R103). An unconfigured unit given a capacity, no monitor, no enables and MAINS
is configured with carried, clamped or default values, reconciled and full. UNIT READ of a configured unit accrues
it, under MAINS by the rate times the elapsed milliseconds up to the capacity, judges UL on a reconciled one, and
reports it, its queue from the start index carried, 0 with none; of an unconfigured unit, or the ship budget, it
changes nothing. A ship budget below the running strokes is BUSY; one that rises nowhere is set at once. The
model's choice: what is said of an unconfigured unit how a request is checked, and that a ship budget given neither
M nor E is OK and changes nothing (log entries 28, 42, 71). -/
def Obligations.UnitsAreSetAndRead : Prop :=
  ∀ (s : State) (port : Port), s.Settled → s.TakesOn port →
    (∀ n (a : UnitArgs) c, n ≤ 31 → s.unit? n = none → a.configured ≠ some false →
      a.capacity = some c → a.monitor = none → a.enables = none → a.supply ≠ some .stored →
      let cap := max 100 (min 60000 c)
      ∃ t status, exec (.unitSet port (.fields (.unit n a))) s = .next t
        ∧ t.unit? n = some
            { capacity := cap, floor := min cap (a.floor.getD 0), rate := min 2000 (a.rate.getD 0),
              concurrency := max 1 (min 4 (a.concurrency.getD 1)),
              spacing := min 5000 (a.spacing.getD 1000), tolerance := min cap (a.tolerance.getD 500),
              monitor := none, supply := .mains, enables := [.ul, .ms, .rd, .lcu],
              charge := 1000 * cap, lastAccrual := s.clock, reconciled := true, strokes := 0,
              lastStart := none, queue := [], monitorMissed := 0, causes := [], flags := [],
              chargeTimer := none, spacingTimer := none }
        ∧ (∀ j, j ≠ n → t.unit? j = s.unit? j)
        ∧ t.Answers port 0x11 status (.unit (t.unitReport n 0))
        ∧ (status = .ok ∨ status = .clamped) ∧ (c < 100 ∨ 60000 < c → status = .clamped)
        ∧ s.KeepsBut t [.units, .link port])
    ∧ (∀ m e : Option Nat,
      let m' := (m.map fun n => min 32 n).getD s.shipM
      let e' := (e.map fun n => min 16 n).getD s.shipE
      let asked := exec (.unitSet port (.fields (.ship m e))) s
      (m' + e' < s.shipStrokes → asked = .next (s.responds port 0x11 .busy .empty))
      ∧ (s.shipStrokes ≤ m' + e' → m' ≤ s.shipM → e' ≤ s.shipE →
        ∃ status, asked = .next (State.responds { s with shipM := m', shipE := e' } port 0x11 status
            (.budget m' e' s.shipStrokes))
          ∧ (status = .clamped ↔ (∃ n, m = some n ∧ 32 < n) ∨ (∃ n, e = some n ∧ 16 < n))
          ∧ (status = .clamped ∨ status = .ok))
      ∧ (s.shipStrokes ≤ m' + e' → s.shipM < m' ∨ s.shipE < e' →
        ∃ status, asked = .next (State.settlesAndResponds
            { s with shipM := m', shipE := e', agenda := [.freed none] } port 0x11
            fun v => (status, .budget v.shipM v.shipE v.shipStrokes))))
    ∧ (∀ n (start : Option Nat), 31 < n → exec (.unitRead port (.fields (.unit n start))) s
        = .next (s.responds port 0x12 .badField .empty))
    ∧ (∀ n (start : Option Nat), n ≤ 31 → s.unit? n = none → exec (.unitRead port (.fields (.unit n start))) s
        = .next (s.responds port 0x12 .ok (.unit (s.unitReport n (start.getD 0)))))
    ∧ exec (.unitRead port (.fields .ship)) s
        = .next (s.responds port 0x12 .ok (.budget s.shipM s.shipE s.shipStrokes))
    ∧ (∀ n (start : Option Nat) w, n ≤ 31 → s.unit? n = some w →
      ∃ t w', exec (.unitRead port (.fields (.unit n start))) s = .next t ∧ t.unit? n = some w'
        ∧ w'.charge = (match w.supply with
            | .mains => min (1000 * w.capacity) (w.charge + w.rate * heldAge s.clock w.lastAccrual)
            | .stored => w.charge)
        ∧ w'.lastAccrual = s.clock ∧ w'.strokes = w.strokes ∧ w'.queue = w.queue
        ∧ (w.reconciled = true → (FaultKind.ul ∈ w'.causes ↔ w'.charge / 1000 < w.floor))
        ∧ (∀ j, j ≠ n → t.unit? j = s.unit? j)
        ∧ t.Answers port 0x12 .ok (.unit (t.unitReport n (start.getD 0)))
        ∧ s.KeepsBut t [.units, .alarms, .link port])

/-- UNIT SET of a unit is refused BAD_FIELD for a number, monitor address or enables out of range and for an
unconfigured unit given no capacity, BUSY for a concurrency below the strokes in progress and for "configured no"
of a unit that a record names, DUPLICATE for a monitor address in use (R98, R100, R101). A unit configured with a
monitor is unreconciled with charge 0 and MAINS; one without may be given STORED, and presents MS (R98, R116); each
with its set fields carried, clamped or default (R97). A configured unit accrues and takes its carried quantities,
charge, floor and tolerance brought under a lower capacity with CLAMPED; a new monitor leaves it unreconciled
without LCU, a removed one reconciled without LCU and RD; a supply state is taken with no monitor; then UL is
judged and the queue evaluated (R100, R104). "Configured no" takes the unit and its alarm entries away, and nothing
of an unconfigured one (R101, R152). The model's choice: the order of these parts at the alarm list (log entry 50),
how a request is checked and answered (log entry 42), and a supply state where the same request adds or removes the
monitor (log entry 26). -/
def Obligations.UnitSetChecksConfiguresAndChanges : Prop :=
  ∀ (s : State) (port : Port) (n : Nat) (a : UnitArgs), s.Settled → s.Sound → s.TakesOn port →
    let asked := exec (.unitSet port (.fields (.unit n a))) s
    let answered := fun (status : Status) => asked = .next (s.responds port 0x11 status .empty)
    let settles := fun (u : State) (status : Status) =>
      asked = .next (u.settlesAndResponds port 0x11 fun v => (status, .unit (v.unitReport n 0)))
    let addressOk := ∀ l st, a.monitor = some (.at l st) → l ≤ 3 ∧ 1 ≤ st ∧ st ≤ 64
    let enablesOk := ∀ e, a.enables = some e → e.outside = false ∧ ∀ k ∈ e.items, k.isUnit = true
    let formOk := n ≤ 31 ∧ addressOk ∧ enablesOk
      ∧ (s.unit? n = none → a.configured ≠ some false → a.capacity.isSome)
    let busy := ∃ w, s.unit? n = some w
      ∧ ((a.configured = some false ∧ ∃ p r, s.rec? p = some r ∧ r.unit? = some n)
        ∨ ∃ k, a.concurrency = some k ∧ max 1 (min 4 k) < w.strokes)
    let taken := ∃ l st m, a.monitor = some (.at l st) ∧ lineOf l = some m
      ∧ ((∃ p r, s.rec? p = some r ∧ r.cfg.line = m ∧ r.cfg.station = st)
        ∨ ∃ j w, s.unit? j = some w ∧ j ≠ n ∧ w.monitor = some (m, st))
    let monitor : Option (LineNo × Nat) → Option (LineNo × Nat) := fun present =>
      match a.monitor with
      | some (.at l st) => (lineOf l).map fun m => (m, st)
      | some .none => none
      | none => present
    let ok := formOk ∧ ¬ busy ∧ ¬ taken
    (¬ formOk → answered .badField)
    ∧ (formOk → busy → answered .busy)
    ∧ (formOk → ¬ busy → taken → answered .duplicate)
    ∧ (ok → s.unit? n = none → a.configured = some false →
      asked = .next (s.responds port 0x11 .ok (.unit (s.unitReport n 0))))
    ∧ (ok → s.unit? n = none → a.configured ≠ some false → ∃ (u : State) (status : Status) (w' : PowerUnit),
      settles u status ∧ u.unit? n = some w' ∧ u.agenda = [.evalQueue n] ∧ w'.queue = [] ∧ w'.strokes = 0
      ∧ w'.monitor = monitor none ∧ w'.lastAccrual = s.clock
      ∧ (let cap := max 100 (min 60000 (a.capacity.getD 0))
        w'.capacity = cap ∧ w'.floor = min cap (a.floor.getD 0) ∧ w'.rate = min 2000 (a.rate.getD 0)
        ∧ w'.concurrency = max 1 (min 4 (a.concurrency.getD 1))
        ∧ w'.spacing = min 5000 (a.spacing.getD 1000) ∧ w'.tolerance = min cap (a.tolerance.getD 500)
        ∧ (a.enables = none → ∀ k, k ∈ w'.enables ↔ k ∈ [.ul, .rd, .ms, .lcu])
        ∧ w'.lastStart = none ∧ w'.monitorMissed = 0
        ∧ (status = .clamped ↔ (∃ c, a.capacity = some c ∧ (c < 100 ∨ 60000 < c))
          ∨ (∃ x, a.floor = some x ∧ cap < x) ∨ (∃ x, a.tolerance = some x ∧ cap < x)
          ∨ (∃ x, a.rate = some x ∧ 2000 < x) ∨ (∃ k, a.concurrency = some k ∧ (k < 1 ∨ 4 < k))
          ∨ ∃ x, a.spacing = some x ∧ 5000 < x)
        ∧ (status = .clamped ∨ status = .ok))
      ∧ ((monitor none).isSome → w'.reconciled = false ∧ w'.charge = 0 ∧ w'.supply = .mains
        ∧ w'.causes = [] ∧ w'.flags = [])
      ∧ (monitor none = none → w'.reconciled = true ∧ w'.charge = 1000 * w'.capacity
        ∧ w'.supply = a.supply.getD .mains ∧ ∀ k, k ∈ w'.causes ↔ k = .ms ∧ a.supply = some .stored)
      ∧ (∀ e, a.enables = some e → ∀ k, k ∈ w'.enables ↔ k ∈ e.items))
    ∧ (ok → ∀ w, s.unit? n = some w → a.configured = some false →
      ∃ u : State, settles u .ok ∧ u.unit? n = none ∧ (∀ j, j ≠ n → u.unit? j = s.unit? j)
        ∧ (∀ e ∈ u.alarms, e.subject ≠ .unit n) ∧ s.KeepsBut u [.units, .alarms])
    ∧ (ok → ∀ w, s.unit? n = some w → a.configured ≠ some false →
      ∃ (u : State) (status : Status) (w' : PowerUnit), settles u status ∧ u.unit? n = some w'
        ∧ u.agenda = [.evalQueue n] ∧ (∀ j, j ≠ n → u.unit? j = s.unit? j) ∧ u.records = s.records
        ∧ (let used := fun (lo hi : Nat) (given : Option Nat) (old : Nat) =>
            match given with
            | some x => max lo (min hi x)
            | none => old
          let m : Option (LineNo × Nat) := monitor w.monitor
          let floor := a.floor.getD w.floor
          let tolerance := a.tolerance.getD w.tolerance
          w'.capacity = used 100 60000 a.capacity w.capacity
          ∧ w'.floor = min w'.capacity floor ∧ w'.tolerance = min w'.capacity tolerance
          ∧ w'.rate = used 0 2000 a.rate w.rate ∧ w'.concurrency = used 1 4 a.concurrency w.concurrency
          ∧ w'.spacing = used 0 5000 a.spacing w.spacing
          ∧ w'.charge = min (w.accrue s.clock).charge (1000 * w'.capacity) ∧ w'.lastAccrual = s.clock
          ∧ w'.strokes = w.strokes ∧ w'.queue = w.queue ∧ w'.lastStart = w.lastStart
          ∧ w'.monitor = m
          ∧ (status = .clamped ↔ (∃ c, a.capacity = some c ∧ (c < 100 ∨ 60000 < c)) ∨ w'.capacity < floor
            ∨ w'.capacity < tolerance ∨ (∃ x, a.rate = some x ∧ 2000 < x)
            ∨ (∃ k, a.concurrency = some k ∧ (k < 1 ∨ 4 < k)) ∨ ∃ x, a.spacing = some x ∧ 5000 < x)
          ∧ (status = .clamped ∨ status = .ok)
          ∧ w'.supply = (if w.monitor = none ∧ m = none then a.supply.getD w.supply else w.supply)
          ∧ (m = w.monitor → w'.reconciled = w.reconciled ∧ w'.monitorMissed = w.monitorMissed
            ∧ (FaultKind.lcu ∈ w'.causes ↔ FaultKind.lcu ∈ w.causes)
            ∧ (FaultKind.rd ∈ w'.causes ↔ FaultKind.rd ∈ w.causes))
          ∧ (m ≠ w.monitor → w'.reconciled = m.isNone ∧ w'.monitorMissed = 0
            ∧ FaultKind.lcu ∉ w'.causes ∧ (m = none → FaultKind.rd ∉ w'.causes))
          ∧ (w.monitor = none → m = none → ∀ supply, a.supply = some supply →
            (FaultKind.ms ∈ w'.causes ↔ supply = .stored))
          ∧ (w'.reconciled = true → (FaultKind.ul ∈ w'.causes ↔ w'.charge / 1000 < w'.floor))
          ∧ ∀ e, a.enables = some e → ∀ k, k.isUnit = true → (k ∈ w'.enables ↔ k ∈ e.items)))

/-! ### Field lines -/

/-- The 6-byte request frame with its check, for the kinds and arguments of the table of R128, and the four
conditions of a good reply with its fields (R128, R129). Stations lie in 1 to 64, leads in 1 to 20. The phases
of an exchange (R123): the request sent begins the window, a reply byte in it the reception; an event of a
phase the exchange is not in does not occur. The end of the guard frees the line, which chooses again; nothing
else changes. The model's choice: the ends of the phases are events that are not timed (log entries 5, 19). -/
def Obligations.ExchangesHaveTheirFramesAndPhases : Prop :=
  (∀ x : Exchange, 1 ≤ x.target.station → x.target.station ≤ 64 →
      (∀ seconds, x.kind = .command (.warn seconds) → 1 ≤ seconds ∧ seconds ≤ 20) →
      (∃ kind argument high low : Byte,
        x.request = [0xA5, BitVec.ofNat 8 x.target.station, kind, argument, high, low]
        ∧ high.toNat * 256 + low.toNat = 0xA5 + x.target.station + kind.toNat + argument.toNat
        ∧ (match x.kind with
          | .poll => kind = 0x01 ∧ argument = 0x00
          | .command (.warn seconds) => kind = 0x02 ∧ argument.toNat = seconds
          | .command (.move .closed) => kind = 0x03 ∧ argument = 0x01
          | .command (.move .opened) => kind = 0x03 ∧ argument = 0x02
          | .command .stop => kind = 0x04 ∧ argument = 0x00
          | .command .grant => kind = 0x05 ∧ argument = 0x00
          | .command (.refuse .withdrawn) => kind = 0x06 ∧ argument = 0x01
          | .command (.refuse .lowCharge) => kind = 0x06 ∧ argument = 0x02
          | .command (.refuse .isolated) => kind = 0x06 ∧ argument = 0x03
          | .command .release => kind = 0x07 ∧ argument = 0x00))
      ∧ (∀ bytes : List Byte, bytes.length ≠ 9 → x.goodReply bytes = none)
      ∧ ∀ b0 b1 b2 b3 b4 b5 b6 b7 b8 : Byte,
        let sum := b0.toNat + b1.toNat + b2.toNat + b3.toNat + b4.toNat + b5.toNat + b6.toNat
        let good := b0 = 0x5A ∧ b1.toNat = x.target.station ∧ b2 = x.kind.code
          ∧ b7.toNat * 256 + b8.toNat = sum % 65536
        (good → x.goodReply [b0, b1, b2, b3, b4, b5, b6, b7, b8]
          = some { flags := b3, stroke := b4, data := b5.toNat * 256 + b6.toNat })
        ∧ (¬ good → x.goodReply [b0, b1, b2, b3, b4, b5, b6, b7, b8] = none))
  ∧ ∀ (s : State) (n : LineNo), s.Settled →
      let inPhase := fun (ph : ExchangePhase) => ∃ x, (s.line n).exchange = some x ∧ x.phase = ph
      (¬ inPhase .sending → exec (.requestSent n) s = .next s)
      ∧ (¬ inPhase .window → exec (.replyStart n) s = .next s ∧ exec (.windowExpiry n) s = .next s)
      ∧ (¬ inPhase .receiving → exec (.replyByteGap n) s = .next s
          ∧ ∀ bytes, exec (.replyReceived n bytes) s = .next s)
      ∧ (¬ inPhase .guard → exec (.guardEnd n) s = .next s)
      ∧ ∀ x, (s.line n).exchange = some x →
        let inNow := fun (ph : ExchangePhase) =>
          (s.putLine n { s.line n with exchange := some { x with phase := ph } }).drive
        (x.phase = .sending → exec (.requestSent n) s = .next (inNow .window))
        ∧ (x.phase = .window → exec (.replyStart n) s = .next (inNow .receiving))
        ∧ (x.phase = .guard →
            let free := s.putLine n { s.line n with exchange := none }
            exec (.guardEnd n) s = .next (free.putLine n (free.chooseExchange n)).drive)

/-- What a line with no exchange begins (R124, R126, R135 to R137): nothing when disabled or in BUILD. First the
calendar visit or monitor pass that is over is left: a visit whose polls are made, or that has no unpolled eligible
record left, for the next slot, the one after the last slot for the monitor pass, a pass with no monitor left for
slot 0. Then the head of its command queue, which leaves the queue; else, in a sweep, a sweep poll of the first due
record at or above the cursor, which moves past it, then the monitors of the line by unit number, then the due
records below the cursor, until nothing is due and the walk is inactive; else a calendar poll: of the eligible
record the visit has not polled that comes first at or after the pointer, or after the wrap, with the pointer moved
past it and back to the slot's first position at its end. Slots with no eligible record are passed, however many
follow one another, up to the first that has one, or past the last one to the monitor pass, or with no monitor from
slot 0 again; in the monitor pass the next monitor is polled. The model's choice: when a line chooses, how a
monitor pass of a sweep is interrupted, what a calendar that offers nothing does, the cursor 256 after a sweep poll
of position 255, that an ended walk stays active while commands are sent, and that a visit is left at the next
choice (log entries 20, 34, 35, 53, 56, 57, 69). -/
def Obligations.LineChoosesByTheOrder : Prop :=
  ∀ (s : State) (n : LineNo), s.wf = true →
    let l := s.line n
    let t := s.chooseExchange n
    let here := s.closePlace n l
    let begun := fun (kind : ExchangeKind) (target : ExchangeTarget) (source : ExchangeSource) (once : Bool) =>
      t.exchange = some
        { phase := .sending, kind := kind, target := target, source := source, window := l.window,
          targetFreed := false, once := once }
    let monitor := fun (u station : Nat) => ∃ w, s.unit? u = some w ∧ w.monitor = some (n, station)
    let noMonitor := fun (k : Nat) => ∀ u station, monitor u station → u < k
    let firstMonitor := fun (k u station : Nat) =>
      monitor u station ∧ k ≤ u ∧ ∀ v other, monitor v other → k ≤ v → u ≤ v
    let eligible := fun (c : CalSlot) (polled : List Nat) (q : Nat) =>
      ∃ r, s.rec? q = some r ∧ c.first ≤ q ∧ q ≤ c.last ∧ r.cfg.line = n ∧ r.lifecycle ≠ .retiring
        ∧ q ∉ polled
    let due := fun (lo q : Nat) => ∃ r, s.rec? q = some r ∧ lo ≤ q ∧ r.cfg.line = n
      ∧ r.lifecycle ≠ .retiring ∧ r.mark = false ∧ r.missed < 3
    (l.enabled = false ∨ s.phase = .build ∨ l.exchange.isSome → t = l)
    ∧ (∀ i polled count c, l.place = .slot i polled count → s.calendar[i]? = some c →
        let isOver := 0 < count ∧ (c.visits ≤ count ∨ ∀ q, ¬ eligible c polled q)
        (¬ isOver → here = l.place)
        ∧ (isOver → i + 1 < s.calendar.length → here = .slot (i + 1) [] 0)
        ∧ (isOver → s.calendar.length = i + 1 →
            (noMonitor 0 → here = .slot 0 [] 0) ∧ (¬ noMonitor 0 → here = .monitors 0)))
    ∧ (∀ k, l.place = .monitors k →
        (noMonitor k → here = .slot 0 [] 0) ∧ (¬ noMonitor k → here = l.place))
    ∧ (l.enabled = true → s.phase ≠ .build → l.exchange = none →
      (∀ e rest r, l.queue = e :: rest → s.rec? e.position = some r →
        begun (.command e.command) (.door e.position r.cfg.station) .command e.once
          ∧ t.queue = rest ∧ t.place = here ∧ t.pointers = l.pointers ∧ t.sweep = l.sweep)
      ∧ (l.queue = [] → s.phase = .sweep → l.sweep.active = true →
        let polls := fun (p : Nat) (monitors : SweepMonitors) =>
          (∀ r, s.rec? p = some r → begun .poll (.door p r.cfg.station) .sweep false)
            ∧ t.sweep = { active := true, cursor := p + 1, monitors := monitors } ∧ t.place = here
        (∀ p, due l.sweep.cursor p → (∀ q, due l.sweep.cursor q → p ≤ q) → polls p l.sweep.monitors)
        ∧ ((∀ q, ¬ due l.sweep.cursor q) →
          (∀ k u station, l.sweep.monitors = .pending k → firstMonitor k u station →
            begun .poll (.monitor u station) .sweep false
              ∧ t.sweep = { l.sweep with monitors := .pending (u + 1) } ∧ t.place = here)
          ∧ ((l.sweep.monitors = .done ∨ ∃ k, l.sweep.monitors = .pending k ∧ noMonitor k) →
            (∀ p, due 0 p → (∀ q, due 0 q → p ≤ q) → polls p .done)
            ∧ ((∀ q, ¬ due 0 q) → t.sweep = { active := false, cursor := 0, monitors := .done }))))
      ∧ (l.queue = [] → (s.phase = .sweep → l.sweep.active = false) →
        let visit := fun (i : Nat) (polled : List Nat) (count : Nat) =>
          ∀ c pointer p r, s.calendar[i]? = some c → l.pointers[i]? = some pointer → count < c.visits →
            s.rec? p = some r → eligible c polled p →
            ((pointer ≤ p ∧ ∀ q, eligible c polled q → pointer ≤ q → p ≤ q)
              ∨ ∀ q, eligible c polled q → q < pointer ∧ p ≤ q) →
            begun .poll (.door p r.cfg.station) .calendar false ∧ t.sweep = l.sweep
              ∧ t.place = .slot i (p :: polled) (count + 1)
              ∧ t.pointers = l.pointers.set i (if p = c.last then c.first else p + 1)
        let passes := fun (k : Nat) => ∀ u station, firstMonitor k u station →
          begun .poll (.monitor u station) .calendar false ∧ t.place = .monitors (u + 1)
            ∧ t.pointers = l.pointers
        (∀ i polled count, here = .slot i polled count → visit i polled count)
        ∧ (∀ k, here = .monitors k → passes k)
        ∧ (∀ i c, here = .slot i [] 0 → s.calendar[i]? = some c → (∀ q, ¬ eligible c [] q) →
          (i + 1 < s.calendar.length → visit (i + 1) [] 0) ∧ (s.calendar.length = i + 1 → passes 0))
        ∧ (let barren := fun (i j : Nat) => ∀ k c, i ≤ k → k < j → s.calendar[k]? = some c →
            ∀ q, ¬ eligible c [] q
          ∀ i, here = .slot i [] 0 → i < s.calendar.length →
            (∀ j, i ≤ j → barren i j →
              (j < s.calendar.length → visit j [] 0) ∧ (j = s.calendar.length → passes 0))
            ∧ (noMonitor 0 → barren i s.calendar.length → ∀ j, j < i → barren 0 j → visit j [] 0))
        ∧ (noMonitor 0 → (∀ c ∈ s.calendar, ∀ q, ¬ eligible c [] q) → t.exchange = none)))

/-- A miss on an exchange with a door record: window expiry, a short reply, or nine bytes that are no good reply
(R123, R129). An exchange whose record was freed, stands at another field address, or is RETIRING and not being
sent its RELEASE, is discarded: nothing changes but its phase (R125). Below the third miss the missed count rises
by one and a poll does nothing more; a missed command is queued again at the tail unless the door has an unsent
entry, and is not sent again where it was to be sent once (R126, R132, R184). The third miss hands on LC and then
the drop of the command and of an unsent entry, but for one whose place a command takes that the loss of contact
queues for the door (R93, R133). A miss at count 3 leaves it and drops a command. A missed RELEASE of a RETIRING
door raises the attempt count and is queued again; at the third the position becomes FREE with reason NO_ACK (R22,
R23). The model's choice: LC and the drops are hand-offs in this order (log entry 10), and a missed command of a
line disabled meanwhile is queued again too (log entry 68). -/
def Obligations.MissesAreCounted : Prop :=
  ∀ (s : State) (n : LineNo) (x : Exchange) (p station : Nat) (c : Instr),
    s.Settled → s.wf = true → (s.line n).exchange = some x → x.target = .door p station →
    (c = .windowExpiry n ∧ x.phase = .window
      ∨ c = .replyByteGap n ∧ x.phase = .receiving
      ∨ x.phase = .receiving ∧ ∃ bytes, c = .replyReceived n bytes ∧ x.goodReply bytes = none) →
    let guarded : Line := { s.line n with exchange := some { x with phase := .guard } }
    let stands := fun (r : Record) => x.targetFreed = false ∧ r.cfg.line = n ∧ r.cfg.station = station
      ∧ (r.lifecycle = .retiring → x.kind = .command .release)
    let again := fun (u : State) (command : DoorCommand) =>
      ((∃ e ∈ (s.line n).queue, e.position = p) → exec c s = .next (u.putLine n guarded).drive)
      ∧ ((∀ e ∈ (s.line n).queue, e.position ≠ p) →
        exec c s = .next (u.putLine n { guarded with
          queue := (s.line n).queue ++ [{ position := p, command := command }] }).drive)
    ((∀ r, s.rec? p = some r → ¬ stands r) → exec c s = .next (s.putLine n guarded).drive)
    ∧ ∀ r, s.rec? p = some r → stands r →
    (r.lifecycle ≠ .retiring →
      let missed := s.putRec p { r with missed := r.missed + 1 }
      let undrivable := FaultKind.ic ∈ r.causes ∨ FaultKind.lc ∈ r.causes ∨ FaultKind.sf ∈ r.causes
      let stops := ¬ undrivable
        ∧ (r.motion = .moving ∨ (r.motion = .waitUnit ∧ r.purpose = some .passage))
      (r.missed < 2 → x.kind = .poll → exec c s = .next (missed.putLine n guarded).drive)
      ∧ (r.missed < 2 → ∀ command, x.kind = .command command →
          (x.once = true → exec c s = .next (missed.putLine n guarded).drive)
          ∧ (x.once = false → again missed command))
      ∧ (r.missed = 2 → ∃ (u : State) (command unsent : Option DoorCommand), exec c s = .next u.settle.drive
          ∧ u.rec? p = some { r with missed := 3 } ∧ u.line n = guarded
          ∧ (x.kind = .poll → command = none) ∧ (∀ k, x.kind = .command k → command = some k)
          ∧ (stops → unsent = none)
          ∧ (¬ stops → unsent
              = ((s.line n).queue.find? fun e => decide (e.position = p)).map QueuedCommand.command)
          ∧ u.agenda = [.setCause p .lc true, .contactLost n p command unsent])
      ∧ (r.missed = 3 → x.kind = .poll → exec c s = .next (s.putLine n guarded).drive)
      ∧ (r.missed = 3 → ∀ command, x.kind = .command command →
          exec c s = .next (State.settle { s.putLine n guarded with
            agenda := [.dropped p command false] }).drive))
    ∧ (r.lifecycle = .retiring →
      let attempts := r.releaseAttempts.getD 0 + 1
      (attempts < 3 → again (s.putRec p { r with releaseAttempts := some attempts }) .release)
      ∧ (3 ≤ attempts → ∃ u : State, exec c s = .next u.settle.drive ∧ u.agenda = [] ∧ u.rec? p = none
          ∧ (∀ q, q ≠ p → u.rec? q = s.rec? q)
          ∧ ∀ side, p ∈ (u.portState side).marks ∧ Keyed.get? (u.portState side).freed p
              = some { number := r.cfg.number, reason := .noAck }))

/-- A good reply of a door (R26, R85, R129, R130): report, last good reply uptime, missed count 0, STALE and LC
removed, the sweep mark set in SWEEP, an ENROLLED record IN_SERVICE, the indication derived, and then, in this
order, IC and PD, the state at the motion supervisor and the fault and alarm unit, SF, the obstruction flag and the
local flags. The reply to the RELEASE of a RETIRING record frees its position RELEASED (R22, R23). A good reply
whose record was freed, stands at another field address, or is RETIRING and not being sent its RELEASE, is
discarded: nothing changes but the phase of its exchange (R125). What an event hands on is taken from the front of
the agenda, each hand-off by the operation that the other statements describe, until none is left; then a sweep
that has nothing outstanding ends, and the idle lines choose. UL is judged on a reconciled unit by its charge
against its floor (R104); the loss of contact drops the missed command and then the unsent one, which leaves its
queue (R133). The model's choice: the order of the hand-offs after the derivation, the agenda and the length of a
pass (log entries 10, 23), and that a stroke end at the target is taken with its evaluation before SF and the flags
(log entry 74). -/
def Obligations.GoodRepliesAreTaken : Prop :=
  (∀ (s : State) (n : LineNo) (x : Exchange) (p station : Nat) (bytes : List Byte) (f : ReplyFields),
    s.Settled → s.wf = true → (s.line n).exchange = some x → x.phase = .receiving →
    x.target = .door p station → x.goodReply bytes = some f →
    let guarded : Line := { s.line n with exchange := some { x with phase := .guard } }
    let stands := fun (r : Record) => x.targetFreed = false ∧ r.cfg.line = n ∧ r.cfg.station = station
      ∧ (r.lifecycle = .retiring → x.kind = .command .release)
    ((∀ r, s.rec? p = some r → ¬ stands r) →
      exec (.replyReceived n bytes) s = .next (s.putLine n guarded).drive)
    ∧ ∀ r, s.rec? p = some r → stands r →
    let report : StationReport :=
      { closedLimit := f.flags.getLsbD 0, openLimit := f.flags.getLsbD 1, secured := f.flags.getLsbD 2,
        moving := f.flags.getLsbD 6, obstruction := f.flags.getLsbD 5,
        stroke := if r.cfg.cls = .P ∧ f.stroke.toNat ≤ 100 then some f.stroke.toNat else none,
        faultCode := f.data }
    (r.lifecycle ≠ .retiring → ∃ (u : State) (r' : Record),
      exec (.replyReceived n bytes) s = .next u.settle.drive ∧ u.rec? p = some r'
        ∧ r'.report = some report ∧ r'.lastGood = some s.clock ∧ r'.missed = 0 ∧ r'.aged = false
        ∧ FaultKind.lc ∉ r'.causes ∧ (∀ k, k ≠ .lc → (k ∈ r'.causes ↔ k ∈ r.causes))
        ∧ r'.mark = (r.mark || decide (s.phase = .sweep))
        ∧ r'.lifecycle = (if r.lifecycle = .enrolled then .inService else r.lifecycle)
        ∧ r'.cfg = r.cfg ∧ r'.motion = r.motion ∧ r'.target = r.target
        ∧ r'.indicated = r'.derived.1
        ∧ u.line n = guarded
        ∧ u.agenda =
          [.setCause p .ic (decide (r'.derived.2 = .contradiction)),
           .setCause p .pd (decide (r'.derived.2 = .disagreement)),
           .motionSees p r'.indicated, .faultSees p r'.indicated, .setCause p .sf (decide (0 < f.data))]
          ++ (if report.obstruction then [.obstruction p] else [])
          ++ [.localFlags p (f.flags.getLsbD 3) (f.flags.getLsbD 4)])
    ∧ (r.lifecycle = .retiring → ∃ u : State,
      exec (.replyReceived n bytes) s = .next u.settle.drive ∧ u.rec? p = none ∧ u.agenda = []
        ∧ (∀ q, q ≠ p → u.rec? q = s.rec? q)
        ∧ ∀ side, p ∈ (u.portState side).marks ∧ Keyed.get? (u.portState side).freed p
            = some { number := r.cfg.number, reason := .released }))
  ∧ (∀ s : State,
    s.settle = ((run Config.passBound s).endSweep).arbitrate
    ∧ (∀ n, run 0 s = s ∧ (s.agenda = [] → run n s = s))
    ∧ ∀ n t ts, s.agenda = t :: ts → run (n + 1) s = run n (State.take { s with agenda := ts } t))
  ∧ (∀ (s : State) (p n : Nat) (k : FaultKind) (st : Indication) (c : DoorCommand),
    s.take (.evalRest p) = s.evaluateAtRest p
    ∧ s.take (.complete n) = s.completeOrder n
    ∧ s.take .nextTop = s.nextTop
    ∧ s.take (.undrivable p) = s.becomesUndrivable p
    ∧ s.take (.reportCause p k) = s.reportDoorCause p k
    ∧ (∀ present, s.take (.setCause p k present) = s.setDoorCause p k present)
    ∧ s.take (.motionSees p st) = s.motionSees p st
    ∧ s.take (.faultSees p st) = s.faultSees p st
    ∧ s.take (.obstruction p) = s.obstructed p
    ∧ (∀ request release, s.take (.localFlags p request release) = s.localFlags p request release)
    ∧ s.take (.localCheck p) = s.localCheck p
    ∧ (∀ late, s.take (.dropped p c late) = s.dropCommand p c late)
    ∧ (∀ l, s.take (.lineLost l) = s.lineLost l)
    ∧ (∀ cost, s.take (.admitted p cost) = s.takeAdmission p cost)
    ∧ (∀ e, s.take (.freed e) = s.handOff (.freed e)) ∧ s.take .walkEnded = s.handOff .walkEnded
    ∧ (∀ us, s.take (.arbiter us) = s.arbiterTurn us)
    ∧ (∀ why, s.take (.retirementEnds p why) = s.retirementEnds p why))
  ∧ (∀ (s : State) (n : Nat) (w : PowerUnit), s.unit? n = some w →
    s.take (.judgeUL n)
      = if w.reconciled then s.setUnitCause n .ul (decide (w.charge / 1000 < w.floor)) else s)
  ∧ ∀ (s : State) (l : LineNo) (p : Nat) (missed unsent : Option DoorCommand),
    let drops := (missed.toList ++ unsent.toList).map fun c => Task.dropped p c false
    let u := s.take (.contactLost l p missed unsent)
    u.agenda = drops ++ s.agenda
      ∧ (unsent = none → u = { s with agenda := drops ++ s.agenda })
      ∧ (unsent.isSome → u.line l
          = { s.line l with queue := (s.line l).queue.filter fun e => decide (e.position ≠ p) }
        ∧ (∀ m, m ≠ l → u.line m = s.line m) ∧ s.KeepsBut u [.lines])

/-- Monitors (R115 to R117, R129, R131): a good reply reconciles an unreconciled unit at the measurement, capped at
its capacity, and lowers the accrued charge of a reconciled one to it; the supply state follows the mains flag with
MS, the missed count is 0, LCU absent, RD judged on the accrued charge against the tolerance, and the queue is
evaluated. A miss, by the expiry of the window, a short reply or nine bytes that are no good reply, raises the
missed count, with LCU at the third. An exchange whose unit is no longer configured with the monitor address it was
chosen for is discarded: nothing changes but its phase (R100, R125). The model's choice: UL is judged after accrual
too (log entry 22), and a unit that stands at the address of the poll again takes its outcome (log entry 67). -/
def Obligations.MonitorExchangesReachTheirUnit : Prop :=
  ∀ (s : State) (n : LineNo) (x : Exchange) (m station : Nat),
    s.Settled → (s.line n).exchange = some x → x.target = .monitor m station →
    let guarded : Line := { s.line n with exchange := some { x with phase := .guard } }
    ((∀ w, s.unit? m = some w → w.monitor ≠ some (n, station)) →
      ∀ c : Instr, (c = .windowExpiry n ∧ x.phase = .window
        ∨ x.phase = .receiving ∧ (c = .replyByteGap n ∨ ∃ bytes, c = .replyReceived n bytes)) →
      exec c s = .next (s.putLine n guarded).drive)
    ∧ ∀ w, s.unit? m = some w → w.monitor = some (n, station) →
    let a := w.accrue s.clock
    (∀ bytes f, x.phase = .receiving → x.goodReply bytes = some f → ∃ (u : State) (w' : PowerUnit),
      exec (.replyReceived n bytes) s = .next u.settle.drive ∧ u.unit? m = some w'
        ∧ u.agenda = [.evalQueue m] ∧ u.line n = guarded ∧ u.records = s.records
        ∧ w'.reconciled = true ∧ w'.monitorMissed = 0 ∧ FaultKind.lcu ∉ w'.causes
        ∧ w'.supply = (if f.flags.getLsbD 7 then .mains else .stored)
        ∧ (FaultKind.ms ∈ w'.causes ↔ f.flags.getLsbD 7 = false)
        ∧ (w.reconciled = false → w'.charge = 1000 * min f.data w.capacity ∧ FaultKind.rd ∉ w'.causes)
        ∧ (w.reconciled = true → w'.charge = min a.charge (1000 * f.data)
            ∧ (FaultKind.rd ∈ w'.causes ↔ f.data + w.tolerance < a.charge / 1000
                ∨ a.charge / 1000 + w.tolerance < f.data))
        ∧ (FaultKind.ul ∈ w'.causes ↔ w'.charge / 1000 < w.floor))
    ∧ ∀ c : Instr, (c = .windowExpiry n ∧ x.phase = .window
        ∨ c = .replyByteGap n ∧ x.phase = .receiving
        ∨ x.phase = .receiving ∧ ∃ bytes, c = .replyReceived n bytes ∧ x.goodReply bytes = none) →
      ∃ t w', exec c s = .next t ∧ t.line n = guarded ∧ t.unit? m = some w' ∧ w'.charge = a.charge
        ∧ w'.monitorMissed = min 3 (w.monitorMissed + 1)
        ∧ (2 ≤ w.monitorMissed → FaultKind.lcu ∈ w'.causes)
        ∧ (w.monitorMissed < 2 → (FaultKind.lcu ∈ w'.causes ↔ FaultKind.lcu ∈ w.causes))
        ∧ w'.supply = w.supply ∧ w'.reconciled = w.reconciled ∧ w'.strokes = w.strokes
        ∧ w'.queue = w.queue ∧ s.KeepsBut t [.units, .lines, .alarms]

/-- LINE SET and CALENDAR SET (R121, R122, R134). A line or rate outside its set is BAD_FIELD, a rate outside BUILD
WRONG_PHASE. A carried rate and window, clamped, are held at once; disabling empties the queue, hands each entry on
as dropped in queue order and then the line's doors; enabling resumes the calendar at slot 0 with its pointers. An
accepted calendar replaces the old with its visit counts clamped, and every line's walk restarts at slot 0 with
each pointer at its slot's first position, its sweep walk, queue and exchange as they were: so a line stands that
is in an exchange, disabled, or in BUILD, and an idle line goes on from there to the exchange that it chooses
(R124). The model's choice: the dropped entries and the line's doors are hand-offs in this order (log entries 10,
16); an idle line chooses at the end of the event (log entry 20); the slot reported, none in the monitor pass, and
when a visit is left (log entries 66, 69). -/
def Obligations.LinesAndCalendarAreSet : Prop :=
  ∀ (s : State) (port : Port), s.Settled → s.TakesOn port →
    (∀ q : LineSetReq,
      let answered := fun (status : Status) =>
        exec (.lineSet port (.fields q)) s = .next (s.responds port 0x13 status .empty)
      let rateOk := ∀ b, q.rate = some b → b = 38400 ∨ b = 115200 ∨ b = 230400
      (3 < q.line ∨ ¬ rateOk → answered .badField)
      ∧ (q.line ≤ 3 → rateOk → q.rate.isSome → s.phase ≠ .build → answered .wrongPhase)
      ∧ ∀ n, lineOf q.line = some n → rateOk → (q.rate = none ∨ s.phase = .build) →
        let l := s.line n
        let set : Line :=
          { l with
            rate := match q.rate with
              | none => l.rate
              | some b => if b = 38400 then .r38400 else if b = 115200 then .r115200 else .r230400
            window := (q.window.map fun w => max 2 (min 100 w)).getD l.window }
        let status : Status :=
          match q.window with
          | none => .ok
          | some w => if w < 2 ∨ 100 < w then .clamped else .ok
        let answers := fun (u : State) =>
          exec (.lineSet port (.fields q)) s
            = .next (u.settlesAndResponds port 0x13 fun v => (status, .line (v.lineReport n)))
        (q.enabled = none ∨ q.enabled = some l.enabled → answers (s.putLine n set))
        ∧ (q.enabled = some true → l.enabled = false →
            answers (s.putLine n { set with enabled := true, place := .slot 0 [] 0 }))
        ∧ (q.enabled = some false → l.enabled = true →
            answers { s.putLine n { set with enabled := false, queue := [] } with
              agenda := l.queue.map (fun e => .dropped e.position e.command true) ++ [.lineLost n] }))
    ∧ ∀ q : CalendarReq,
      let ok := 1 ≤ q.length ∧ q.length ≤ 8 ∧ q.slots.length = q.length
        ∧ ∀ c ∈ q.slots, c.first ≤ c.last ∧ c.last ≤ 255
      let slots : List CalSlot := q.slots.map fun c =>
        { first := c.first, last := c.last, visits := max 1 (min 64 c.visits) }
      let status : Status := if q.slots.any fun c => decide (c.visits < 1 ∨ 64 < c.visits) then .clamped else .ok
      (¬ ok → exec (.calendarSet port (.fields q)) s = .next (s.responds port 0x14 .badField .empty))
      ∧ (ok → ∃ t, exec (.calendarSet port (.fields q)) s = .next t ∧ t.calendar = slots
          ∧ t.Answers port 0x14 status (.calendar slots.length slots
              (s.records.countP fun e => decide (e.2.lifecycle ≠ .retiring)
                && !slots.any fun c => decide (c.first ≤ e.1) && decide (e.1 ≤ c.last)))
          ∧ (∀ n,
              let restarted : Line := { s.line n with place := .slot 0 [] 0, pointers := slots.map CalSlot.first }
              ((s.line n).exchange.isSome ∨ (s.line n).enabled = false ∨ s.phase = .build → t.line n = restarted)
              ∧ ((s.line n).exchange = none → (s.line n).enabled = true → s.phase ≠ .build → t.line n
                  = State.chooseExchange (State.putLine { s with calendar := slots } n restarted) n))
          ∧ s.KeepsBut t [.lines, .calendar, .link port])

/-! ### Alarms and flags -/

/-- A door cause of the kinds that leave the door drivable, which are all but IC, LC and SF (R139 to R141, R154,
R155, R158): one that becomes present is on the record and, when it is enabled, listed UNACK_ACTIVE with the
present uptime, or sets the overflow indicator on a full list; an UNACK_CLEARED entry takes it up again; a masked
kind sets its sticky flag and no entry. One that becomes absent leaves an UNACK_ACTIVE entry UNACK_CLEARED, and an
ACK_ACTIVE one leaves the list. A cause that is as it was changes nothing. An indicated state handed to the fault
and alarm unit makes CT absent when it is CLOSED and OT absent when it is OPEN, and any other state nothing (R144).
The kinds that stop a door, and what the relist scan does that runs within the removal, are stated on their own. -/
def Obligations.CausesAreReportedByTheirEnables : Prop :=
  (∀ (s : State) (p : Nat) (st : Indication),
    (st = .closed → s.faultSees p st = s.setDoorCause p .ct false)
    ∧ (st = .opened → s.faultSees p st = s.setDoorCause p .ot false)
    ∧ (st ≠ .closed → st ≠ .opened → s.faultSees p st = s))
  ∧ ∀ (s : State) (p : Nat) (r : Record) (k : FaultKind), s.wf = true → s.Listed →
    s.rec? p = some r → k.stops = false →
    let subject := Subject.door r.cfg.number
    let on := s.setDoorCause p k true
    let off := s.setDoorCause p k false
    (k ∈ r.causes → on = s) ∧ (k ∉ r.causes → off = s)
    ∧ (k ∉ r.causes → ∃ r', on.rec? p = some r' ∧ (∀ j, j ∈ r'.causes ↔ j = k ∨ j ∈ r.causes)
        ∧ (k ∈ r.cfg.enables → r'.flags = r.flags
          ∧ (s.alarm? subject k = none → s.alarms.length < 64 →
              on.alarm? subject k
                = some { subject := subject, kind := k, state := .unackActive, raised := s.clock }
              ∧ on.alarms.length = s.alarms.length + 1 ∧ on.overflow = s.overflow)
          ∧ (s.alarm? subject k = none → 64 ≤ s.alarms.length →
              on.alarms = s.alarms ∧ on.overflow = true)
          ∧ (∀ a, s.alarm? subject k = some a → a.state = .unackCleared →
              on.alarm? subject k = some { a with state := .unackActive }))
        ∧ (k ∉ r.cfg.enables → (∀ j, j ∈ r'.flags ↔ j = k ∨ j ∈ r.flags)
            ∧ on.alarms = s.alarms ∧ on.overflow = s.overflow))
    ∧ (k ∈ r.causes → ∃ r', off.rec? p = some r' ∧ (∀ j, j ∈ r'.causes ↔ j ≠ k ∧ j ∈ r.causes)
        ∧ r'.flags = r.flags
        ∧ (∀ a, s.alarm? subject k = some a → a.state = .unackActive →
            off.alarm? subject k = some { a with state := .unackCleared })
        ∧ (∀ a, s.alarm? subject k = some a → a.state = .ackActive → off.alarm? subject k = none)
        ∧ (s.alarm? subject k = none → off.alarms = s.alarms ∧ off.overflow = s.overflow))

/-- The first of IC, LC and SF makes a door undrivable, which is handed to the motion supervisor before the cause
is reported (R140, R150); with one present already the next is reported at once. The report lists an enabled cause,
or IC, UNACK_ACTIVE, takes up an UNACK_CLEARED entry, sets the flag of a masked kind, and does nothing once the
cause is gone. A relist scan lists the first cause present, enabled or IC, and without an entry, records by
position, then units by number, kinds by severity, or clears the overflow indicator where there is none (R153,
R154, R159). An enable switched on lists a cause present; one switched off removes the entry and sets the flag
where the cause was present or an entry held (R142). A unit cause is listed or flagged and cleared in the same way
(R118, R152). The model's choice: the report comes after what the motion supervisor hands on (log entry 17). -/
def Obligations.StoppingCausesScansAndEnables : Prop :=
  (∀ (s : State) (p : Nat) (r : Record) (k : FaultKind), s.wf = true → s.Listed → s.rec? p = some r →
    let subject := Subject.door r.cfg.number
    let on := s.setDoorCause p k true
    let told := s.reportDoorCause p k
    let lists := k = .ic ∨ k ∈ r.cfg.enables
    (k.stops = true → k ∉ r.causes →
      ((∀ j ∈ r.causes, j.stops = false) → on.alarms = s.alarms ∧ on.overflow = s.overflow
        ∧ on.agenda = [.undrivable p, .reportCause p k] ++ s.agenda
        ∧ ∃ r', on.rec? p = some r' ∧ (∀ j, j ∈ r'.causes ↔ j = k ∨ j ∈ r.causes) ∧ r'.flags = r.flags)
      ∧ ((∃ j ∈ r.causes, j.stops = true) → lists → s.alarm? subject k = none → s.alarms.length < 64 →
        on.agenda = s.agenda ∧ on.alarm? subject k
          = some { subject := subject, kind := k, state := .unackActive, raised := s.clock }))
    ∧ (k ∉ r.causes → told = s)
    ∧ (k ∈ r.causes → lists →
      (s.alarm? subject k = none → s.alarms.length < 64 → told.alarm? subject k
          = some { subject := subject, kind := k, state := .unackActive, raised := s.clock })
      ∧ (s.alarm? subject k = none → 64 ≤ s.alarms.length → told = { s with overflow := true })
      ∧ ∀ a, s.alarm? subject k = some a →
        (a.state = .unackCleared → told.alarm? subject k = some { a with state := .unackActive })
        ∧ (a.state ≠ .unackCleared → told = s))
    ∧ (k ∈ r.causes → ¬ lists → told.alarms = s.alarms
      ∧ ∃ r', told.rec? p = some r' ∧ ∀ j, j ∈ r'.flags ↔ j = k ∨ j ∈ r.flags)
    ∧ (k.maskable = true → k ∉ r.cfg.enables →
      let u := s.switchDoorEnable p true k
      (∃ r', u.rec? p = some r' ∧ (∀ j, j ∈ r'.cfg.enables ↔ j = k ∨ j ∈ r.cfg.enables)
        ∧ r'.flags = r.flags)
      ∧ (k ∉ r.causes → u.alarms = s.alarms)
      ∧ (k ∈ r.causes → s.alarm? subject k = none → s.alarms.length < 64 → u.alarm? subject k
          = some { subject := subject, kind := k, state := .unackActive, raised := s.clock }))
    ∧ (k.maskable = true → k ∈ r.cfg.enables →
      let u := s.switchDoorEnable p false k
      u.alarm? subject k = none
      ∧ (s.alarm? subject k = none → u.alarms = s.alarms ∧ u.overflow = s.overflow)
      ∧ ∃ r', u.rec? p = some r' ∧ (∀ j, j ∈ r'.cfg.enables ↔ j ≠ k ∧ j ∈ r.cfg.enables)
        ∧ ∀ j, j ∈ r'.flags ↔ j ∈ r.flags ∨ (j = k ∧ (k ∈ r.causes ∨ (s.alarm? subject k).isSome))))
  ∧ (∀ s : State, s.wf = true →
    let missing := fun (subject : Subject) (causes enables : List FaultKind) (k : FaultKind) =>
      k ∈ causes ∧ (k = .ic ∨ k ∈ enables) ∧ s.alarm? subject k = none
    let ofDoor := fun (p : Nat) (k : FaultKind) => ∃ r, s.rec? p = some r
      ∧ missing (.door r.cfg.number) r.causes r.cfg.enables k
    let ofUnit := fun (n : Nat) (k : FaultKind) => ∃ w, s.unit? n = some w
      ∧ missing (.unit n) w.causes w.enables k
    let listed := fun (subject : Subject) (k : FaultKind) =>
      (s.alarms.length < 64 → s.relist.overflow = s.overflow
        ∧ s.relist.alarms.length = s.alarms.length + 1 ∧ s.relist.alarm? subject k
          = some { subject := subject, kind := k, state := .unackActive, raised := s.clock }
        ∧ ∀ a ∈ s.alarms, a ∈ s.relist.alarms)
      ∧ (64 ≤ s.alarms.length → s.relist = { s with overflow := true })
    let first := fun (ok : Nat → FaultKind → Prop) (p : Nat) (k : FaultKind) => ok p k
      ∧ ∀ q j, ok q j → p < q ∨ (p = q ∧ k.severity ≤ j.severity)
    (∀ p k r, first ofDoor p k → s.rec? p = some r → listed (.door r.cfg.number) k)
    ∧ ((∀ p k, ¬ ofDoor p k) → ∀ n k, first ofUnit n k → listed (.unit n) k)
    ∧ ((∀ p k, ¬ ofDoor p k) → (∀ n k, ¬ ofUnit n k) → s.relist = { s with overflow := false }))
  ∧ ∀ (s : State) (n : Nat) (w : PowerUnit) (k : FaultKind), s.wf = true → s.unit? n = some w →
    k.isUnit = true →
    let subject := Subject.unit n
    let on := s.setUnitCause n k true
    let off := s.setUnitCause n k false
    (k ∈ w.causes → on = s) ∧ (k ∉ w.causes → off = s)
    ∧ (k ∉ w.causes →
      (k ∈ w.enables → s.alarm? subject k = none → s.alarms.length < 64 → on.alarm? subject k
          = some { subject := subject, kind := k, state := .unackActive, raised := s.clock })
      ∧ ∃ w', on.unit? n = some w' ∧ (∀ j, j ∈ w'.causes ↔ j = k ∨ j ∈ w.causes)
        ∧ (k ∈ w.enables → w'.flags = w.flags)
        ∧ (k ∉ w.enables → on.alarms = s.alarms ∧ ∀ j, j ∈ w'.flags ↔ j = k ∨ j ∈ w.flags))
    ∧ (k ∈ w.causes → (∃ w', off.unit? n = some w' ∧ w'.flags = w.flags
        ∧ ∀ j, j ∈ w'.causes ↔ j ≠ k ∧ j ∈ w.causes)
      ∧ ∀ a, s.alarm? subject k = some a →
        (a.state = .unackActive → off.alarm? subject k = some { a with state := .unackCleared })
        ∧ (a.state = .ackActive → off.alarm? subject k = none))
    ∧ (k ∈ w.enables →
      let u := s.switchUnitEnable n false k
      u.alarm? subject k = none ∧ ∃ w', u.unit? n = some w'
        ∧ (∀ j, j ∈ w'.enables ↔ j ≠ k ∧ j ∈ w.enables)
        ∧ ∀ j, j ∈ w'.flags ↔ j ∈ w.flags ∨ (j = k ∧ (k ∈ w.causes ∨ (s.alarm? subject k).isSome)))
    ∧ (k ∉ w.enables → k ∈ w.causes → s.alarm? subject k = none → s.alarms.length < 64 →
      (s.switchUnitEnable n true k).alarm? subject k
        = some { subject := subject, kind := k, state := .unackActive, raised := s.clock })

/-- The alarm list agrees with the causes between any two events: no two entries are alike in subject and kind
(R153), each entry's kind is enabled or IC, with its cause present exactly while it is not UNACK_CLEARED (R155), and
while the overflow indicator is clear every such cause has an entry (R159). A step that leaves no hand-off over keeps
that, and so does each byte at a console port, of which BAD FRAME and CONSOLE BYTE GAP bring several. That the list
holds at most 64 entries is stated with the other bounds. The model's choice: what an event does not finish stays on
the agenda (log entry 10). -/
def Obligations.EveryStepKeepsTheAlarmsAgreeing : Prop :=
  let keeps := fun (s t : State) =>
    s.Sound → s.Listed → s.agenda = [] → s.AlarmsAgree → t.agenda = [] → t.AlarmsAgree
  (∀ s t : State, ¬ s.TakesBytes → step s = .next t → keeps s t)
  ∧ ∀ (s : State) (port : Port) (b : LinkByte), s.inReset = false → keeps s (State.takeByte port s b)

/-- ACK ALARM (R155, R156), a door named by number or by position (R7): BAD_FIELD for a name or unit out of range
or a kind that does not belong to the subject, NOT_FOUND for a name with no record and a pair with no entry; an
UNACK_ACTIVE entry, of a door or a unit, becomes ACK_ACTIVE, an ACK_ACTIVE one stays, and an UNACK_CLEARED one is
removed with a relist scan. For all entries each that was held is taken so in list order, one that a scan lists
meanwhile stays UNACK_ACTIVE. CLEAR FLAGS of a door, named so too, a unit or the ship (R143): each named flag, or
each with no kinds named, is cleared but one whose cause is present with its enable off; a kind that does not
belong to the subject, or lies outside the names, is BAD_FIELD, a name with no record and an unconfigured unit
NOT_FOUND; a door's marks are set where a flag was cleared; the answer has the flags left, or for the ship the
numbers cleared and kept. Premise for all entries: the alarms agree, an invariant stated on its own. The model's
choice: BAD_FIELD is judged before NOT_FOUND, and the removal counts as such only (log entry 27); the order of the
list (log entry 37). -/
def Obligations.AlarmsAreAcknowledgedAndFlagsCleared : Prop :=
  ∀ (s : State) (port : Port), s.Settled → s.TakesOn port →
    let names := fun (d : DoorName) (p : Nat) => (d = .position p ∧ p ≤ 255)
      ∨ ∃ n, d = .number n ∧ 1 ≤ n ∧ n ≤ 4095 ∧ Keyed.get? s.directory n = some p
    let outside := fun (d : DoorName) =>
      (∃ p, d = .position p ∧ 255 < p) ∨ ∃ n, d = .number n ∧ (n < 1 ∨ 4095 < n)
    let unheld := fun (d : DoorName) => (∃ p, names d p ∧ s.rec? p = none)
      ∨ ∃ n, d = .number n ∧ 1 ≤ n ∧ n ≤ 4095 ∧ Keyed.get? s.directory n = none
    let acknowledged := fun (asked : Host.Outcome State Fault Refusal) (subject : Subject) (k : FaultKind) =>
      let alone := fun (a : Alarm) => decide (a.subject = subject) && decide (a.kind = k)
      (s.alarm? subject k = none → asked = .next (s.responds port 0x0B .notFound .empty))
      ∧ ∀ a, s.alarm? subject k = some a →
        (a.state = .unackActive →
          asked = .next (State.responds
            { s with alarms := s.alarms.map fun a => if alone a then { a with state := .ackActive } else a }
            port 0x0B .ok (.acknowledged 1 0 s.overflow)))
        ∧ (a.state = .ackActive →
          asked = .next (s.responds port 0x0B .ok (.acknowledged 0 0 s.overflow)))
        ∧ (a.state = .unackCleared →
          let scanned := State.relist { s with alarms := s.alarms.filter fun a => !alone a }
          asked = .next (scanned.responds port 0x0B .ok (.acknowledged 0 1 scanned.overflow)))
    (∀ name, exec (.ackAlarm port (.fields (.one name .outside))) s
        = .next (s.responds port 0x0B .badField .empty))
    ∧ (∀ (u : Nat) (k : FaultKind),
      let asked := exec (.ackAlarm port (.fields (.one (.unit u) (.is k)))) s
      (31 < u ∨ k.isUnit = false → asked = .next (s.responds port 0x0B .badField .empty))
      ∧ (u ≤ 31 → k.isUnit = true → acknowledged asked (.unit u) k))
    ∧ (∀ (d : DoorName) (k : FaultKind),
      let asked := exec (.ackAlarm port (.fields (.one (.door d) (.is k)))) s
      (outside d ∨ k.isUnit = true → asked = .next (s.responds port 0x0B .badField .empty))
      ∧ (k.isUnit = false →
        (unheld d → asked = .next (s.responds port 0x0B .notFound .empty))
        ∧ ∀ p r, names d p → s.rec? p = some r → acknowledged asked (.door r.cfg.number) k))
    ∧ ((∀ a ∈ s.alarms, a.state = .unackActive) →
      ∃ t acked, exec (.ackAlarm port (.fields .all)) s = .next t
        ∧ t.alarms = s.alarms.map (fun a => { a with state := .ackActive })
        ∧ t.Answers port 0x0B .ok (.acknowledged acked 0 s.overflow)
        ∧ (t.conditions port).alarms = false ∧ s.KeepsBut t [.alarms, .link port])
    ∧ (s.AlarmsAgree →
      let taken := fun (acc : State × Nat × Nat) (a : Alarm) =>
        let alone := fun (b : Alarm) => decide (b.subject = a.subject) && decide (b.kind = a.kind)
        match a.state with
        | .unackActive =>
          ({ acc.1 with alarms := acc.1.alarms.map fun b => if alone b then { b with state := .ackActive } else b },
            acc.2.1 + 1, acc.2.2)
        | .ackActive => acc
        | .unackCleared =>
          (State.relist { acc.1 with alarms := acc.1.alarms.filter fun b => !alone b }, acc.2.1, acc.2.2 + 1)
      let after := s.alarmList.foldl taken (s, 0, 0)
      exec (.ackAlarm port (.fields .all)) s
          = .next (after.1.responds port 0x0B .ok (.acknowledged after.2.1 after.2.2 after.1.overflow))
        ∧ (∀ b ∈ after.1.alarms, s.alarm? b.subject b.kind = none → b.state = .unackActive)
        ∧ ∀ b ∈ after.1.alarms, (s.alarm? b.subject b.kind).isSome → b.state = .ackActive)
    ∧ ∀ kinds : Option (Naming FaultKind),
      let named := fun (k : FaultKind) => kinds.all fun n => n.items.contains k
      let fits := fun (ok : FaultKind → Bool) => ∀ n, kinds = some n → n.outside = false ∧ ∀ k ∈ n.items, ok k = true
      let stands := fun (causes enables : List FaultKind) (k : FaultKind) =>
        causes.contains k && !enables.contains k
      let kept := fun (causes enables flags : List FaultKind) =>
        flags.filter fun k => !named k || stands causes enables k
      let ofDoor := fun (r : Record) => kept r.causes r.cfg.enables r.flags
      let ofUnit := fun (w : PowerUnit) => kept w.causes w.enables w.flags
      let asked := fun (subject : FlagSubject) =>
        exec (.clearFlags port (.fields { subject := subject, kinds := kinds })) s
      let answered := fun (subject : FlagSubject) (status : Status) =>
        asked subject = .next (s.responds port 0x0C status .empty)
      (∀ d : DoorName,
        (¬ fits FaultKind.maskable ∨ outside d → answered (.door d) .badField)
        ∧ (fits FaultKind.maskable →
          (unheld d → answered (.door d) .notFound)
          ∧ ∀ p r, names d p → s.rec? p = some r → ∃ t, asked (.door d) = .next t
            ∧ t.rec? p = some { r with flags := ofDoor r } ∧ (∀ q, q ≠ p → t.rec? q = s.rec? q)
            ∧ (∀ side q, q ∈ (t.portState side).marks ↔
                (q = p ∧ ofDoor r ≠ r.flags) ∨ q ∈ (s.portState side).marks)
            ∧ t.Answers port 0x0C .ok (.flagsLeft (ofDoor r))
            ∧ s.KeepsBut t [.records, .marks .A, .marks .B, .link port]))
      ∧ (∀ u,
        (31 < u ∨ ¬ fits FaultKind.isUnit → answered (.unit u) .badField)
        ∧ (u ≤ 31 → fits FaultKind.isUnit →
          (s.unit? u = none → answered (.unit u) .notFound)
          ∧ ∀ w, s.unit? u = some w → asked (.unit u)
            = .next ((s.putUnit u { w with flags := ofUnit w }).responds port 0x0C .ok (.flagsLeft (ofUnit w)))))
      ∧ (¬ fits (fun _ => true) → answered .ship .badField)
      ∧ (fits (fun _ => true) → s.wf = true →
        let gone := fun (causes enables flags : List FaultKind) =>
          flags.countP fun k => named k && !stands causes enables k
        let left := fun (causes enables flags : List FaultKind) =>
          flags.countP fun k => named k && stands causes enables k
        ∃ t, asked .ship = .next t
          ∧ (∀ p, t.rec? p = (s.rec? p).map fun r => { r with flags := ofDoor r })
          ∧ (∀ u, t.unit? u = (s.unit? u).map fun w => { w with flags := ofUnit w })
          ∧ (∀ side q, q ∈ (t.portState side).marks ↔
              (∃ r, s.rec? q = some r ∧ ofDoor r ≠ r.flags) ∨ q ∈ (s.portState side).marks)
          ∧ t.Answers port 0x0C .ok (.flagsCleared
              ((s.records.map fun e => gone e.2.causes e.2.cfg.enables e.2.flags).sum
                + (s.units.map fun e => gone e.2.causes e.2.enables e.2.flags).sum)
              ((s.records.map fun e => left e.2.causes e.2.cfg.enables e.2.flags).sum
                + (s.units.map fun e => left e.2.causes e.2.enables e.2.flags).sum))
          ∧ s.KeepsBut t [.records, .units, .marks .A, .marks .B, .link port])

/-! ### The bulk walk -/

/-- The criteria of R163 and the hold of R167: a record matches when every part present holds for it, and a
door is held while a walk is RUNNING, its position lies in the range and its record matches. -/
def Obligations.BulkCriteriaMatch : Prop :=
  ∀ (b : BulkPlan) (r : Record) (s : State) (p : Nat),
    (b.matches r = true ↔
      (∀ z, b.zone = some z → r.cfg.zone = z)
      ∧ (∀ u, b.unit = some u → ∃ pf, r.cfg.power = some pf ∧ pf.unit = u)
      ∧ (∀ c, b.cls = some c → r.cfg.cls = c)
      ∧ (r.cfg.tag &&& b.mask = b.value1 ∨ r.cfg.tag &&& b.mask = b.value2))
    ∧ (b.mask = 0 → b.value1 = 0 ∨ b.value2 = 0 → b.zone = none → b.unit = none → b.cls = none →
        b.matches r = true)
    ∧ (s.bulkHolds p r = true ↔ s.walk.state = .running
        ∧ ∃ b', s.walk.plan = some b' ∧ b'.first ≤ p ∧ p ≤ b'.last ∧ b'.matches r = true)

/-- BULK is BAD_FIELD for a range, criterion or command outside its values (R162); it starts a walk with the next
number, its cursor at the first position, its step timer at 1 ms and its counts 0, or is BUSY while one runs; BULK
ABORT ends a RUNNING walk ABORTED and hands its end to the power units, and leaves any other (R171). At the step
timer the position under the cursor is visited, and then the walk moves on, or is COMPLETE at its last position
with its end handed on; a FREE or RETIRING position is passed over, and a record that does not match is counted as
visited alone (R164, R165, R169, R170). The visit of a matching record: visited and matched rise by one, the
commands for P fields are ignored for class H and S, those a CHANGE would refuse are skipped (ISOLATED in LOCAL and
RECLOSE_DELAY, a unit in a stroke or a delay, with a command outstanding or no longer configured), and the others
are applied together: permissions, normally-closed, tag, unit, with a waiter moved to its new queue, enables, which
act on present causes, and lifecycle, whose isolation takes a waiter out of every queue (R16 to R20, R142); both
change marks are set where one is applied, and the record counts as changed with all of them applied and as skipped
with one refused (R166). Premises: invariants stated on their own. The model's choice: the walk advances when the
hand-offs of its visit have been taken (log entry 43), the fields of a visit are applied in one order (log entries
25, 39), and a unit that was deconfigured and configured again since the BULK is taken (log entry 75). -/
def Obligations.BulkWalkStartsStepsAndEnds : Prop :=
  (∀ (s : State) (port : Port), s.Settled → s.TakesOn port →
     (∀ q, s.bulkPlan q = none →
       exec (.bulk port (.fields q)) s = .next (s.responds port 0x0E .badField .empty))
     ∧ (∀ q b, s.bulkPlan q = some b →
       (s.walk.state = .running → exec (.bulk port (.fields q)) s = .next (s.responds port 0x0E .busy .empty))
       ∧ (s.walk.state ≠ .running →
         let t : State := { s with walk :=
           { state := .running, number := if 65535 ≤ s.walk.number then 1 else s.walk.number + 1,
             plan := some b, cursor := b.first, stepTimer := some (s.clock + 1),
             counts := some { visited := 0, matched := 0, changed := 0, skipped := 0 }, result := none } }
         exec (.bulk port (.fields q)) s = .next (t.responds port 0x0E .ok (.walk t.walkReport))))
     ∧ (s.walk.state ≠ .running →
         exec (.bulkAbort port (.fields ())) s = .next (s.responds port 0x0F .ok (.walk s.walkReport)))
     ∧ (s.walk.state = .running →
         exec (.bulkAbort port (.fields ())) s = .next (State.settlesAndResponds
           { s with walk := { s.walk with state := .ended, result := some .aborted, stepTimer := none },
                    agenda := [.walkEnded] } port 0x0F fun v => (.ok, .walk v.walkReport)))
     ∧ (∀ b d, s.walk.state = .running → s.walk.plan = some b → s.walk.stepTimer = some d →
       (s.clock < d → exec .bulkStepExpiry s = .next s)
       ∧ (d ≤ s.clock → s.rec? s.walk.cursor = none →
         (s.walk.cursor < b.last → exec .bulkStepExpiry s = .next (State.drive
           { s with walk := { s.walk with cursor := s.walk.cursor + 1, stepTimer := some (s.clock + 1) } }))
         ∧ (b.last ≤ s.walk.cursor →
           let u : State := { s with walk := { s.walk with stepTimer := none }, agenda := [.walkAdvances] }
           exec .bulkStepExpiry s = .next u.settle.drive
           ∧ State.take { u with agenda := [] } .walkAdvances
             = { s with walk := { s.walk with state := .ended, result := some .complete, stepTimer := none },
                        agenda := [.walkEnded] }))))
  ∧ (∀ (s : State) (q : BulkReq),
     (s.bulkPlan q = none ↔ ¬ (q.first ≤ q.last ∧ q.last ≤ 255
       ∧ (∀ z, q.zone = some z → 1 ≤ z ∧ z ≤ 24) ∧ (∀ u, q.unit = some u → u ≤ 31)
       ∧ q.cls ≠ some .outside
       ∧ (q.setLifecycle = none ∨ q.setLifecycle = some (.is .inService)
         ∨ q.setLifecycle = some (.is .isolated))
       ∧ (∀ n, q.setPerms = some n → n.outside = false)
       ∧ (∀ e, q.setEnables = some e → e.outside = false ∧ ∀ k ∈ e.items, k.maskable = true)
       ∧ ∀ u, q.setUnit = some u → u ≤ 31 ∧ (s.unit? u).isSome))
     ∧ ∀ b, s.bulkPlan q = some b → b.first = q.first ∧ b.last = q.last ∧ b.zone = q.zone
       ∧ b.unit = q.unit ∧ (∀ c, b.cls = some c ↔ q.cls = some (.is c)) ∧ b.mask = q.mask
       ∧ b.value1 = q.value1 ∧ b.value2 = q.value2
       ∧ (∀ l, b.setLifecycle = some l ↔ q.setLifecycle = some (.is l))
       ∧ b.setPerms = (q.setPerms.map fun n => { localOpen := n.items.contains .localOpen,
                                                 remoteOpen := n.items.contains .remoteOpen })
       ∧ b.setUnit = q.setUnit ∧ b.setTag = q.setTag ∧ b.setNormallyClosed = q.setNormallyClosed
       ∧ (b.setEnables = none ↔ q.setEnables = none)
       ∧ ∀ e ks, q.setEnables = some e → b.setEnables = some ks → ∀ k, k ∈ ks ↔ k ∈ e.items)
  ∧ (∀ (s : State) (b : BulkPlan), s.inReset = false → s.walk.state = .running → s.walk.plan = some b →
     (∃ d, s.walk.stepTimer = some d ∧ d ≤ s.clock) →
     let u := State.visit { s with walk := { s.walk with stepTimer := none } } b
     exec .bulkStepExpiry s
       = .next (State.settle { u with agenda := u.agenda ++ [.walkAdvances] }).drive)
  ∧ (∀ (s : State) (b : BulkPlan), s.walk.state = .running → s.walk.plan = some b → s.agenda = [] →
     State.take s .walkAdvances
       = if b.last ≤ s.walk.cursor then
           { s with walk := { s.walk with state := .ended, result := some .complete, stepTimer := none },
                    agenda := [.walkEnded] }
         else { s with walk := { s.walk with cursor := s.walk.cursor + 1, stepTimer := some (s.clock + 1) } })
  ∧ (∀ (s : State) (b : BulkPlan),
     (s.rec? s.walk.cursor = none → s.visit b = s)
     ∧ ∀ r, s.rec? s.walk.cursor = some r →
       (r.lifecycle = .retiring → s.visit b = s)
       ∧ (r.lifecycle ≠ .retiring → b.matches r = false → s.visit b
         = { s with walk := { s.walk with
               counts := s.walk.counts.map fun c => { c with visited := c.visited + 1 } } }))
  ∧ (∀ (s : State) (b : BulkPlan) (r : Record) (tag : Byte) (c : WalkCounts), s.stack = [] →
       s.agenda = [] → s.walk.counts = some c →
       s.rec? s.walk.cursor = some r → r.lifecycle = .inService → b.matches r = true →
       b.setPerms = none → b.setUnit = none → b.setNormallyClosed = none → b.setEnables = none →
       b.setTag = some tag → (r.motion = .rest ∨ r.motion = .inLocal) →
       let u := s.visit b
       let isolates := b.setLifecycle = some .isolated
       let refused := isolates ∧ r.motion = .inLocal
       u.rec? s.walk.cursor = some
           { r with lifecycle := if isolates ∧ ¬ refused then .isolated else .inService
                    purpose := if isolates ∧ ¬ refused then none else r.purpose
                    deadline := if isolates ∧ ¬ refused then none else r.deadline
                    cfg := { r.cfg with tag := tag } }
       ∧ u.walk.counts = some
           { visited := c.visited + 1, matched := c.matched + 1,
             changed := if refused then c.changed else c.changed + 1,
             skipped := if refused then c.skipped + 1 else c.skipped }
       ∧ s.walk.cursor ∈ u.portA.marks ∧ s.walk.cursor ∈ u.portB.marks
       ∧ (∀ q, q ≠ s.walk.cursor → u.rec? q = s.rec? q))
  ∧ ∀ (s : State) (b : BulkPlan) (r : Record) (c : WalkCounts), s.Sound → s.Listed → s.Accounted →
      s.walk.counts = some c → s.rec? s.walk.cursor = some r → r.lifecycle ≠ .retiring →
      b.matches r = true →
      let p := s.walk.cursor
      let u := s.visit b
      let powered := r.cfg.power.isSome
      let outstanding := (∃ e ∈ (s.line r.cfg.line).queue, e.position = p)
        ∨ ∃ x k st, (s.line r.cfg.line).exchange = some x ∧ x.kind = .command k ∧ x.target = .door p st
          ∧ x.targetFreed = false
      let refusedLifecycle := b.setLifecycle = some .isolated ∧ r.lifecycle ≠ .isolated
        ∧ (r.motion = .inLocal ∨ r.motion = .recloseDelay)
      let refusedUnit := powered ∧ ∃ m, b.setUnit = some m ∧ (31 < m ∨ s.unit? m = none
        ∨ (r.motion ≠ .rest ∧ r.motion ≠ .waitUnit) ∨ outstanding)
      let skipped := refusedLifecycle ∨ refusedUnit
      let applied := (b.setLifecycle.isSome ∧ ¬ refusedLifecycle) ∨ b.setTag.isSome ∨ b.setEnables.isSome
        ∨ (powered ∧ (b.setPerms.isSome ∨ b.setNormallyClosed.isSome ∨ (b.setUnit.isSome ∧ ¬ refusedUnit)))
      let isolates := b.setLifecycle = some .isolated ∧ r.lifecycle ≠ .isolated ∧ ¬ refusedLifecycle
      (∃ d : WalkCounts, u.walk = { s.walk with counts := some d }
        ∧ d.visited = c.visited + 1 ∧ d.matched = c.matched + 1
        ∧ (skipped → d.skipped = c.skipped + 1 ∧ d.changed = c.changed)
        ∧ (¬ skipped → d.skipped = c.skipped)
        ∧ (¬ skipped → applied → d.changed = c.changed + 1) ∧ (¬ applied → d.changed = c.changed))
      ∧ (¬ applied → u = { s with walk := u.walk })
      ∧ (applied → p ∈ u.portA.marks ∧ p ∈ u.portB.marks)
      ∧ (∀ q r', q ≠ p → s.rec? q = some r' →
          u.rec? q = some r' ∨ u.rec? q = some { r' with waitReason := some .queue })
      ∧ ∃ r', u.rec? p = some r'
        ∧ r'.cfg.tag = b.setTag.getD r.cfg.tag ∧ r'.cfg.cls = r.cfg.cls ∧ r'.cfg.number = r.cfg.number
        ∧ r'.cfg.line = r.cfg.line ∧ r'.cfg.station = r.cfg.station ∧ r'.cfg.zone = r.cfg.zone
        ∧ r'.cfg.rank = r.cfg.rank ∧ r'.cfg.staleLimit = r.cfg.staleLimit
        ∧ (∃ moved : Option Nat, (refusedUnit → moved = none) ∧ (¬ refusedUnit → moved = b.setUnit)
          ∧ r'.cfg.power = r.cfg.power.map fun pf =>
            { pf with perms := b.setPerms.getD pf.perms
                      normallyClosed := b.setNormallyClosed.getD pf.normallyClosed
                      unit := moved.getD pf.unit })
        ∧ (b.setEnables = none → r'.cfg.enables = r.cfg.enables)
        ∧ (∀ ks, b.setEnables = some ks → ∀ k, k ∈ r'.cfg.enables ↔ k.maskable = true ∧ k ∈ ks)
        ∧ (¬ (isolates ∧ r.motion = .moving) → r'.causes = r.causes
          ∧ ∀ k, k ∈ r'.flags ↔ k ∈ r.flags ∨ (k ∈ r.cfg.enables ∧ k ∉ r'.cfg.enables
              ∧ (k ∈ r.causes ∨ (s.alarm? (.door r.cfg.number) k).isSome)))
        ∧ (∀ k, k ∉ r'.cfg.enables → k ∈ r.cfg.enables → u.alarm? (.door r.cfg.number) k = none)
        ∧ (isolates → r'.lifecycle = .isolated ∧ r'.motion = .rest ∧ r'.target = none ∧ r'.deadline = none
          ∧ ∀ m, p ∉ u.queueOf m)
        ∧ (¬ isolates → r'.motion = r.motion ∧ r'.target = r.target ∧ r'.purpose = r.purpose
          ∧ r'.lifecycle = (if b.setLifecycle = some .inService ∧ r.lifecycle = .isolated then
              (if r.lastGood.isSome then .inService else .enrolled) else r.lifecycle)
          ∧ (b.setLifecycle = some .inService → r.lifecycle = .isolated → .evalRest p ∈ u.agenda)
          ∧ (r.motion = .waitUnit → ∀ pf pf', r.cfg.power = some pf → r'.cfg.power = some pf' →
            p ∈ u.queueOf pf'.unit
            ∧ (pf'.unit ≠ pf.unit → p ∉ u.queueOf pf.unit ∧ r'.waitReason = some .queue
              ∧ (u.headOf pf'.unit = some p → .evalQueue pf'.unit ∈ u.agenda)
              ∧ (s.headOf pf.unit = some p → .evalQueue pf.unit ∈ u.agenda)))
          ∧ ∀ m q, q ≠ p → (q ∈ u.queueOf m ↔ q ∈ s.queueOf m))

/-! ### Phase -/

/-- COMMISSION outside BUILD and RESWEEP outside SERVICE are WRONG_PHASE. Accepted, either starts a sweep: the
phase is SWEEP, every sweep mark is clear and every sweep walk active from cursor 0 with its monitor pass
pending; COMMISSION hands on the push of the pending head, RESWEEP sets every record's change marks (R137,
R174, R177, R181). The model's choice: every record's marks are set, and the walks start at cursor 0 (log
entries 30, 34). -/
def Obligations.SweepsStartFromTheirPhase : Prop :=
  ∀ (s : State) (port : Port), s.Calm → s.wf = true → s.TakesOn port →
    let started := fun (u : State) =>
      u.phase = .sweep
        ∧ (∀ p r, s.rec? p = some r → u.rec? p = some { r with mark := false })
        ∧ (∀ p, s.rec? p = none → u.rec? p = none)
        ∧ (∀ n, u.line n
            = { s.line n with sweep := { active := true, cursor := 0, monitors := .pending 0 } })
        ∧ u.slots = s.slots ∧ u.units = s.units ∧ u.alarms = s.alarms ∧ u.directory = s.directory
    let reply := fun (v : State) => (Status.ok, Content.phase v.phase (some v.outstandingCount))
    (s.phase ≠ .build →
      exec (.commission port (.fields ())) s = .next (s.responds port 0x15 .wrongPhase .empty))
    ∧ (s.phase = .build → ∃ u : State,
      exec (.commission port (.fields ())) s = .next (u.settlesAndResponds port 0x15 reply)
        ∧ started u ∧ u.agenda = [.nextTop])
    ∧ (s.phase ≠ .service →
      exec (.resweep port (.fields ())) s = .next (s.responds port 0x16 .wrongPhase .empty))
    ∧ (s.phase = .service → ∃ u : State,
      exec (.resweep port (.fields ())) s = .next (u.settlesAndResponds port 0x16 reply)
        ∧ started u ∧ u.agenda = []
        ∧ ∀ p r, s.rec? p = some r → p ∈ u.portA.marks ∧ p ∈ u.portB.marks)

/-- RESTART is answered OK in every phase, with the phase reached and in SWEEP the outstanding number. What it does
(R24, R25, R46, R119, R126, R135, R160, R183, R184): orders, alarm entries and strokes are gone; every record keeps
lifecycle, configured fields, report, last good reply and sticky flags, its other fields are as R25 lays down, with
the indication derived and STALE by age judged afresh; every unit keeps its set fields, supply state and flags,
with its account as R119 leaves it, MS judged again and listed or flagged; line settings, calendar, budget, uptime
and freed reports stay, a running walk ends ABORTED, each calendar walk stands at slot 0 with its pointers at the
first positions, and in SWEEP every sweep walk starts; the phase is BUILD with no record and otherwise SWEEP. Each
command queue is emptied and takes a RELEASE for every RETIRING door of its line and a STOP for every one that was
in WARNING or MOVING, in position order but for a door whose command is in flight; a disabled line drops them. An
exchange in flight runs to its end, its command, but for a RELEASE, not to be sent again; nor is the STOP of a
MOVING door. With ECLOSE asserted the hardwired order is then created in slot 15 (R70): PENDING in BUILD, and
otherwise ACTIVE with every non-RETIRING record its member, a CLOSED door counted DONE, an IN_SERVICE class P door
that is not CLOSED waiting for its unit with target CLOSED, and any other failed NOT_DRIVABLE. The premises are
invariants stated on their own. The model's choice: the phase is judged before retirements that complete at once
(log entry 29), the head placement of a door with a command in flight (51), what becomes of a missed STOP (52), the
completion check and queue evaluations as hand-offs (10, 15), and the sweep walks' cursors in BUILD (60). -/
def Obligations.RestartKeepsTheConfiguration : Prop :=
  (∀ (s : State) (port : Port), s.Calm → s.TakesOn port → ∃ t, exec (.restart port (.fields ())) s = .next t
    ∧ t.Answers port 0x17 .ok (.phase t.phase (if t.phase = .sweep then some t.outstandingCount else none)))
  ∧ ∀ (s : State) (port : Port), s.Calm → s.Sound → s.Listed → s.Accounted → s.TakesOn port →
    ∃ b u : State, exec (.restart port (.fields ())) s
        = .next (u.settlesAndResponds port 0x17 fun v =>
            (.ok, .phase v.phase (if v.phase = .sweep then some v.outstandingCount else none)))
      ∧ b.phase = (if s.records = [] then .build else .sweep)
      ∧ b.slots = [] ∧ b.stack = [] ∧ b.pendingOrders = [] ∧ b.arrivals = 0 ∧ b.shipStrokes = 0
      ∧ b.overflow = false
      ∧ b.walk = (match s.walk.state with
          | .running => { s.walk with state := .ended, result := some .aborted, stepTimer := none }
          | .idle => s.walk
          | .ended => s.walk)
      ∧ s.KeepsBut b [.records, .slots, .stack, .pendingOrders, .arrivals, .units, .strokes, .lines, .alarms,
          .walk, .phase, .marks .A, .marks .B]
      ∧ (∀ side, (b.portState side).freed = (s.portState side).freed
          ∧ ∀ p, p ∈ (b.portState side).marks ↔ (s.rec? p).isSome ∨ p ∈ (s.portState side).marks)
      ∧ (∀ p, s.rec? p = none → b.rec? p = none)
      ∧ (∀ p r, s.rec? p = some r → ∃ r', b.rec? p = some r' ∧ r'.indicated = r'.derived.1
          ∧ r' = { lifecycle := r.lifecycle, cfg := r.cfg, report := r.report, lastGood := r.lastGood,
                   missed := 0, mark := false, indicated := r'.indicated,
                   aged := r.lastGood.any fun good => decide (r.cfg.staleLimit < heldAge s.clock good),
                   causes := [], flags := r.flags, motion := .rest, purpose := none, target := none,
                   govSlot := none, waitReason := none, queueClass := none, deadline := none, attempts := 0,
                   heldDebit := none,
                   releaseAttempts := if r.lifecycle = .retiring then some 0 else none })
      ∧ (∀ n, s.unit? n = none → b.unit? n = none)
      ∧ (∀ n w, s.unit? n = some w → ∃ flags, b.unit? n = some
            { capacity := w.capacity, floor := w.floor, rate := w.rate, concurrency := w.concurrency,
              spacing := w.spacing, tolerance := w.tolerance, monitor := w.monitor, supply := w.supply,
              enables := w.enables, charge := if w.monitor = none then 1000 * w.capacity else 0,
              lastAccrual := s.clock, reconciled := w.monitor.isNone, strokes := 0, lastStart := none,
              queue := [], monitorMissed := 0, causes := if w.supply = .stored then [.ms] else [],
              flags := flags, chargeTimer := none, spacingTimer := none }
          ∧ ∀ k, k ∈ flags ↔ k ∈ w.flags ∨ (k = .ms ∧ w.supply = .stored ∧ .ms ∉ w.enables))
      ∧ (∀ a, a ∈ b.alarms ↔ ∃ n w, s.unit? n = some w ∧ w.supply = .stored ∧ .ms ∈ w.enables
          ∧ a = { subject := .unit n, kind := .ms, state := .unackActive, raised := s.clock })
      ∧ (∀ n, (b.line n).place = .slot 0 [] 0 ∧ (b.line n).pointers = s.calendar.map CalSlot.first
          ∧ (b.line n).exchange = (s.line n).exchange.map (fun x => { x with once := true })
          ∧ (b.line n).sweep = (if s.records = [] then { (s.line n).sweep with active := false }
              else { active := true, cursor := 0, monitors := .pending 0 })
          ∧ ((s.line n).enabled = false → (b.line n).queue = [])
          ∧ ((s.line n).enabled = true →
            (∀ e, e ∈ (b.line n).queue ↔ ∃ r, s.rec? e.position = some r ∧ r.cfg.line = n
              ∧ ((r.lifecycle = .retiring ∧ e.command = .release ∧ e.once = false)
                ∨ (r.motion = .warning ∧ e.command = .stop ∧ e.once = false)
                ∨ (r.motion = .moving ∧ e.command = .stop ∧ e.once = true)))
            ∧ ((∀ x, (s.line n).exchange = some x → x.kind = .poll) →
              (b.line n).queue.Pairwise fun a b => a.position < b.position)
            ∧ (∀ x p station k r, (s.line n).exchange = some x → x.kind = .command k →
              x.target = .door p station → x.targetFreed = false → s.rec? p = some r → r.cfg.line = n →
              r.lifecycle = .retiring ∨ r.motion = .warning ∨ r.motion = .moving →
              (b.line n).queue.head?.map QueuedCommand.position = some p)))
      ∧ (b.agenda = s.records.filterMap fun e =>
          if (s.line e.2.cfg.line).enabled then none
          else if e.2.lifecycle = .retiring then some (.dropped e.1 .release false)
          else if e.2.motion = .warning ∨ e.2.motion = .moving then some (.dropped e.1 .stop false)
          else none)
      ∧ (s.ecloseState = false → u = b)
      ∧ (s.ecloseState = true →
        let hardwired : Order :=
          { source := .hardwired, tag := 0, priority := 7, kind := .close, scope := .ship,
            withdraw := { localOpen := false, remoteOpen := true }, state := .pending, arrival := 1,
            snapshot := none, done := 0, failed := 0, repeats := 0, issuing := { a := true, b := true },
            result := none, finished := none, unread := { a := false, b := false } }
        let aimed := fun (r : Record) =>
          r.cfg.power.isSome && decide (r.lifecycle = .inService) && decide (r.indicated ≠ .closed)
        (s.records = [] →
          u = { b with slots := [(15, hardwired)], arrivals := 1, pendingOrders := [15] })
        ∧ (s.records ≠ [] →
          u.stack = [15] ∧ u.arrivals = 1 ∧ (∀ j, j ≠ 15 → u.order? j = none)
          ∧ (∃ members, u.order? 15 = some
                { hardwired with
                  state := .active, snapshot := some members,
                  done := members.countP fun m => decide (m.outcome = .done),
                  failed := members.countP fun m => decide (m.outcome = .failed .notDrivable) }
            ∧ (members.map Member.position).Pairwise (· < ·)
            ∧ (∀ p, p ∈ members.map Member.position ↔ ∃ r, s.rec? p = some r ∧ r.lifecycle ≠ .retiring)
            ∧ ∀ m ∈ members, m.freed = false ∧ ∀ r, b.rec? m.position = some r → m.outcome
                = (if r.indicated = .closed then .done
                   else if aimed r then .uncounted else .failed .notDrivable))
          ∧ (∀ p, b.rec? p = none → u.rec? p = none)
          ∧ (∀ p r, b.rec? p = some r → u.rec? p = some (if aimed r then
                { r with motion := .waitUnit, purpose := some .order, target := some .closed,
                         govSlot := some 15, waitReason := some .queue,
                         queueClass := some { tier := .emergency, priority := 7 } }
              else r))
          ∧ (∀ n, b.unit? n = none → u.unit? n = none)
          ∧ (∀ n w, b.unit? n = some w → ∃ q, u.unit? n = some { w with queue := q }
            ∧ (∀ p, p ∈ q ↔ ∃ r, u.rec? p = some r ∧ r.motion = .waitUnit ∧ r.unit? = some n)
            ∧ q.Pairwise fun p p' => u.queueBefore p p' = true)
          ∧ (∃ evals, u.agenda = .complete 15 :: (b.agenda ++ evals)
            ∧ ∀ e, e ∈ evals ↔ ∃ n, u.queueOf n ≠ [] ∧ e = .evalQueue n)
          ∧ b.KeepsBut u [.records, .units, .slots, .stack, .arrivals]))
end

