-- ==== Sys2Proof/Laws/Bodies.lean ====
section
/-! SUPPORT. What the reading of a request body can answer: its fields, where its numbers are as many as the type
allows, and a bad length otherwise (R189). -/

namespace Sys2Proof.Machine

/-- A body reads as no more numbers than it has bytes. -/
theorem readNumbers_length {type : Byte} {turns : Nat} {before ns : List Nat} {body : List Byte}
    (h : readNumbers type turns before body = some ns) : ns.length ≤ before.length + body.length := by
  induction turns generalizing before body with
  | zero =>
    cases body with
    | nil => cases h; exact Nat.le_add_right ..
    | cons b rest => cases h
  | succ n ih =>
    cases body with
    | nil => cases h; exact Nat.le_add_right ..
    | cons b rest =>
      simp only [readNumbers] at h
      split at h
      · cases h
      · have := ih h
        simp only [List.length_append, List.length_cons, List.length_nil, List.length_drop] at this ⊢
        omega

/-- All that the reading of a body with fields can do: a body that is taken reads as numbers that its type allows,
and carries the fields they stand for. -/
theorem bodyOf_fields {α : Type} {type : Byte} {body : List Byte} {a : α}
    (h : bodyOf α type body = .fields a) : ∃ ns, readNumbers type body.length [] body = some ns
      ∧ mustCarry type ≤ ns.length ∧ ns.length ≤ Config.mostNumbers type
      ∧ Config.bodyLayout type ns = some a := by
  unfold bodyOf at h
  split at h
  case h_1 ns hns =>
    split at h
    case isTrue hc =>
      split at h
      case h_1 b hb =>
        cases h
        simp only [countAllowed, Bool.and_eq_true, decide_eq_true_eq] at hc
        exact ⟨ns, hns, hc.1, hc.2, hb⟩
      case h_2 => cases h
    case isFalse => cases h
  case h_2 => cases h

/-- A body with no fields to take has a bad length. -/
theorem bodyOf_badLength {α : Type} {type : Byte} {body : List Byte}
    (h : ∀ a : α, bodyOf α type body ≠ .fields a) : bodyOf α type body = .badLength := by
  cases hb : bodyOf α type body with
  | fields a => exact absurd hb (h a)
  | badLength => rfl

/-- A body with fewer bytes than its type has fields to carry is too short, under every layout (R189). -/
theorem bodyOf_short {α : Type} {type : Byte} {body : List Byte} (h : body.length < mustCarry type) :
    bodyOf α type body = .badLength := by
  refine bodyOf_badLength fun a ha => ?_
  obtain ⟨ns, hns, hmust, -, -⟩ := bodyOf_fields ha
  have := readNumbers_length hns
  simp only [List.length_nil] at this
  omega

/-- A body of more numbers than the fields of its type may stand for is too long (R189). -/
theorem bodyOf_long {α : Type} {type : Byte} {body : List Byte} {ns : List Nat}
    (hns : readNumbers type body.length [] body = some ns) (h : Config.mostNumbers type < ns.length) :
    bodyOf α type body = .badLength := by
  refine bodyOf_badLength fun a ha => ?_
  obtain ⟨ms, hms, -, hmost, -⟩ := bodyOf_fields ha
  cases hns.symm.trans hms
  omega

/-- A body that ends within a number has a bad length (R189). -/
theorem bodyOf_torn {α : Type} {type : Byte} {body : List Byte}
    (hns : readNumbers type body.length [] body = none) : bodyOf α type body = .badLength := by
  refine bodyOf_badLength fun a ha => ?_
  obtain ⟨ms, hms, -⟩ := bodyOf_fields ha
  cases hns.symm.trans hms

end Sys2Proof.Machine
end

