-- ==== Sys2Proof/Laws/Keyed.lean ====
section
/-! SUPPORT. The laws of keyed lists and of rising lists of numbers: read after write, and that every
operation keeps the canonical form. -/

namespace Sys2Proof.Machine

variable {α β : Type}

/-! ### Read after write -/

@[simp] theorem Keyed.get?_nil (k : Nat) : Keyed.get? ([] : List (Nat × α)) k = none := rfl

theorem Keyed.get?_put (m : List (Nat × α)) (k j : Nat) (a : α) :
    Keyed.get? (Keyed.put m k a) j = if k = j then some a else Keyed.get? m j := by
  induction m with
  | nil => simp [Keyed.put, Keyed.get?]
  | cons e m ih =>
    obtain ⟨i, b⟩ := e
    simp only [Keyed.put]
    split
    · simp [Keyed.get?]
    · split
      · subst_vars; simp only [Keyed.get?]
        split <;> simp_all
      · simp only [Keyed.get?, ih]
        split
        · subst_vars; simp_all
        · rfl

@[simp] theorem Keyed.get?_put_self (m : List (Nat × α)) (k : Nat) (a : α) :
    Keyed.get? (Keyed.put m k a) k = some a := by simp [Keyed.get?_put]

theorem Keyed.get?_put_ne (m : List (Nat × α)) {k j : Nat} (a : α) (h : k ≠ j) :
    Keyed.get? (Keyed.put m k a) j = Keyed.get? m j := by simp [Keyed.get?_put, h]

theorem Keyed.get?_remove (m : List (Nat × α)) (k j : Nat) :
    Keyed.get? (Keyed.remove m k) j = if k = j then none else Keyed.get? m j := by
  induction m with
  | nil => simp [Keyed.remove, Keyed.get?]
  | cons e m ih =>
    obtain ⟨i, b⟩ := e
    simp only [Keyed.remove, List.filter_cons] at ih ⊢
    by_cases h : i = k
    · subst h; simp only [Keyed.get?]; simp only [ne_eq, not_true_eq_false, decide_false]
      rw [if_neg (by simp), ih]; split <;> simp_all
    · rw [if_pos (by simpa using h)]
      simp only [Keyed.get?, ih]
      by_cases h2 : i = j
      · subst h2; simp [Ne.symm h]
      · simp [h2]

@[simp] theorem Keyed.get?_remove_self (m : List (Nat × α)) (k : Nat) :
    Keyed.get? (Keyed.remove m k) k = none := by simp [Keyed.get?_remove]

theorem Keyed.get?_remove_ne (m : List (Nat × α)) {k j : Nat} (h : k ≠ j) :
    Keyed.get? (Keyed.remove m k) j = Keyed.get? m j := by simp [Keyed.get?_remove, h]

/-- Mapping the values under their keys maps what is read. -/
theorem Keyed.get?_map (m : List (Nat × α)) (f : Nat × α → β) (k : Nat) :
    Keyed.get? (m.map fun e => (e.1, f e)) k = (Keyed.get? m k).map fun a => f (k, a) := by
  induction m with
  | nil => rfl
  | cons e m ih =>
    obtain ⟨i, b⟩ := e
    simp only [List.map_cons, Keyed.get?]
    split
    · subst_vars; rfl
    · exact ih

/-- What is read stands in the list. -/
theorem Keyed.mem_of_get? {m : List (Nat × α)} {k : Nat} {a : α} (h : Keyed.get? m k = some a) :
    (k, a) ∈ m := by
  induction m with
  | nil => simp at h
  | cons e m ih =>
    obtain ⟨i, b⟩ := e
    simp only [Keyed.get?] at h
    split at h
    · simp_all
    · exact List.mem_cons_of_mem _ (ih h)

/-! ### The canonical form -/

theorem Keyed.wf_iff (m : List (Nat × α)) :
    Keyed.wf m = true ↔ m.Pairwise fun a b => a.1 < b.1 := by
  induction m with
  | nil => simp [Keyed.wf]
  | cons a m ih =>
    cases m with
    | nil => simp [Keyed.wf]
    | cons b m =>
      rw [Keyed.wf, Bool.and_eq_true, decide_eq_true_eq, ih]
      constructor
      · rintro ⟨hab, hp⟩
        refine List.pairwise_cons.2 ⟨?_, hp⟩
        intro c hc
        rcases List.mem_cons.1 hc with rfl | hc
        · exact hab
        · exact lt_trans hab ((List.pairwise_cons.1 hp).1 c hc)
      · intro hp
        obtain ⟨h1, h2⟩ := List.pairwise_cons.1 hp
        exact ⟨h1 b (by simp), h2⟩

/-- In the canonical form every entry is what is read under its key. -/
theorem Keyed.get?_of_mem {m : List (Nat × α)} {k : Nat} {a : α} (hw : Keyed.wf m = true)
    (h : (k, a) ∈ m) : Keyed.get? m k = some a := by
  rw [Keyed.wf_iff] at hw
  induction m with
  | nil => simp at h
  | cons e m ih =>
    obtain ⟨h1, h2⟩ := List.pairwise_cons.1 hw
    obtain ⟨i, b⟩ := e
    rcases List.mem_cons.1 h with heq | hm
    · cases heq; simp [Keyed.get?]
    · have := h1 _ hm
      simp only [Keyed.get?]
      rw [if_neg (by simp at this; omega)]
      exact ih h2 hm

theorem Keyed.mem_put {m : List (Nat × α)} {k : Nat} {a : α} {e : Nat × α}
    (h : e ∈ Keyed.put m k a) : e = (k, a) ∨ e ∈ m := by
  induction m with
  | nil => simpa [Keyed.put] using h
  | cons b m ih =>
    obtain ⟨i, c⟩ := b
    simp only [Keyed.put] at h
    split at h
    · simpa using h
    · split at h
      · rcases List.mem_cons.1 h with h | h
        · exact .inl h
        · exact .inr (List.mem_cons_of_mem _ h)
      · rcases List.mem_cons.1 h with h | h
        · exact .inr (by simp [h])
        · exact (ih h).imp_right (List.mem_cons_of_mem _)

theorem Keyed.wf_put {m : List (Nat × α)} (k : Nat) (a : α) (h : Keyed.wf m = true) :
    Keyed.wf (Keyed.put m k a) = true := by
  rw [Keyed.wf_iff] at h ⊢
  induction m with
  | nil => simp [Keyed.put]
  | cons e m ih =>
    obtain ⟨i, b⟩ := e
    obtain ⟨h1, h2⟩ := List.pairwise_cons.1 h
    simp only [Keyed.put]
    split
    · rename_i hk
      refine List.pairwise_cons.2 ⟨?_, h⟩
      intro c hc
      rcases List.mem_cons.1 hc with rfl | hc
      · exact hk
      · exact lt_trans hk (h1 c hc)
    · split
      · subst_vars
        exact List.pairwise_cons.2 ⟨h1, h2⟩
      · refine List.pairwise_cons.2 ⟨?_, ih h2⟩
        intro c hc
        rcases Keyed.mem_put hc with rfl | hc
        · simp; omega
        · exact h1 c hc

theorem Keyed.wf_filter {m : List (Nat × α)} (f : Nat × α → Bool) (h : Keyed.wf m = true) :
    Keyed.wf (m.filter f) = true := by
  rw [Keyed.wf_iff] at h ⊢
  exact h.filter _

theorem Keyed.wf_remove {m : List (Nat × α)} (k : Nat) (h : Keyed.wf m = true) :
    Keyed.wf (Keyed.remove m k) = true := Keyed.wf_filter _ h

theorem Keyed.wf_map {m : List (Nat × α)} (f : Nat × α → β) (h : Keyed.wf m = true) :
    Keyed.wf (m.map fun e => (e.1, f e)) = true := by
  rw [Keyed.wf_iff] at h ⊢
  exact List.pairwise_map.2 h

/-! ### Rising lists -/

theorem rising_iff (l : List Nat) : rising l = true ↔ l.Pairwise (· < ·) := by
  induction l with
  | nil => simp [rising]
  | cons a l ih =>
    cases l with
    | nil => simp [rising]
    | cons b l =>
      rw [rising, Bool.and_eq_true, decide_eq_true_eq, ih]
      constructor
      · rintro ⟨hab, hp⟩
        refine List.pairwise_cons.2 ⟨?_, hp⟩
        intro c hc
        rcases List.mem_cons.1 hc with rfl | hc
        · exact hab
        · exact lt_trans hab ((List.pairwise_cons.1 hp).1 c hc)
      · intro hp
        obtain ⟨h1, h2⟩ := List.pairwise_cons.1 hp
        exact ⟨h1 b (by simp), h2⟩

@[simp] theorem mem_insertNat (n m : Nat) (l : List Nat) : m ∈ insertNat n l ↔ m = n ∨ m ∈ l := by
  induction l with
  | nil => simp [insertNat]
  | cons a l ih =>
    simp only [insertNat]
    split
    · simp
    · split
      · subst_vars; simp
      · simp [ih]; tauto

theorem rising_insertNat (n : Nat) {l : List Nat} (h : rising l = true) :
    rising (insertNat n l) = true := by
  rw [rising_iff] at h ⊢
  induction l with
  | nil => simp [insertNat]
  | cons a l ih =>
    obtain ⟨h1, h2⟩ := List.pairwise_cons.1 h
    simp only [insertNat]
    split
    · rename_i hn
      refine List.pairwise_cons.2 ⟨?_, h⟩
      intro c hc
      rcases List.mem_cons.1 hc with rfl | hc
      · exact hn
      · exact lt_trans hn (h1 c hc)
    · split
      · exact h
      · refine List.pairwise_cons.2 ⟨?_, ih h2⟩
        intro c hc
        rcases (mem_insertNat n c l).1 hc with rfl | hc
        · omega
        · exact h1 c hc

theorem rising_drop (k : Nat) {l : List Nat} (h : rising l = true) : rising (l.drop k) = true := by
  rw [rising_iff] at h ⊢
  exact h.sublist (List.drop_sublist k l)

@[simp] theorem mem_removeNat (n m : Nat) (l : List Nat) : m ∈ removeNat n l ↔ m ∈ l ∧ m ≠ n := by
  simp [removeNat]

/-! ### Sorting -/

@[simp] theorem length_insertBy (before : α → α → Bool) (a : α) (l : List α) :
    (insertBy before a l).length = l.length + 1 := by
  induction l with
  | nil => rfl
  | cons b l ih => simp only [insertBy]; split <;> simp [ih]

@[simp] theorem mem_insertBy (before : α → α → Bool) (a b : α) (l : List α) :
    b ∈ insertBy before a l ↔ b = a ∨ b ∈ l := by
  induction l with
  | nil => simp [insertBy]
  | cons c l ih =>
    simp only [insertBy]
    split
    · simp [ih]; tauto
    · simp

@[simp] theorem length_sortBy (before : α → α → Bool) (l : List α) :
    (sortBy before l).length = l.length := by
  induction l with
  | nil => rfl
  | cons a l ih => simp [sortBy, ih]

@[simp] theorem mem_sortBy (before : α → α → Bool) (b : α) (l : List α) :
    b ∈ sortBy before l ↔ b ∈ l := by
  induction l with
  | nil => simp [sortBy]
  | cons a l ih => simp [sortBy, ih]

/-! ### One value per line -/

@[simp] theorem PerLine.get_set_self (q : PerLine α) (n : LineNo) (v : α) : (q.set n v).get n = v := by
  cases n <;> rfl

theorem PerLine.get_set_ne (q : PerLine α) {n m : LineNo} (v : α) (h : n ≠ m) :
    (q.set n v).get m = q.get m := by
  cases n <;> cases m <;> first | rfl | exact absurd rfl h

@[simp] theorem PerLine.get_map (f : α → β) (q : PerLine α) (n : LineNo) :
    (q.map f).get n = f (q.get n) := by cases n <;> rfl

@[simp] theorem PerLine.set_get (q : PerLine α) (n : LineNo) : q.set n (q.get n) = q := by
  cases n <;> rfl

end Sys2Proof.Machine
end

