-- ==== Sys2Proof/Laws/State.lean ====
section
/-! SUPPORT. The field lemmas of the updates of the state: what each update writes, and that it leaves
every other field alone. -/

namespace Sys2Proof.Machine

/-! ### State.putRec -/

@[simp] theorem State.putRec_pending (s : State) (p : Nat) (r : Record) : (s.putRec p r).pending = s.pending := rfl
@[simp] theorem State.putRec_inReset (s : State) (p : Nat) (r : Record) : (s.putRec p r).inReset = s.inReset := rfl
@[simp] theorem State.putRec_clock (s : State) (p : Nat) (r : Record) : (s.putRec p r).clock = s.clock := rfl
@[simp] theorem State.putRec_agenda (s : State) (p : Nat) (r : Record) : (s.putRec p r).agenda = s.agenda := rfl
@[simp] theorem State.putRec_shortPulses (s : State) (p : Nat) (r : Record) : (s.putRec p r).shortPulses = s.shortPulses := rfl
@[simp] theorem State.putRec_records (s : State) (p : Nat) (r : Record) : (s.putRec p r).records = Keyed.put s.records p r := rfl
@[simp] theorem State.putRec_directory (s : State) (p : Nat) (r : Record) : (s.putRec p r).directory = s.directory := rfl
@[simp] theorem State.putRec_zoneLists (s : State) (p : Nat) (r : Record) : (s.putRec p r).zoneLists = s.zoneLists := rfl
@[simp] theorem State.putRec_slots (s : State) (p : Nat) (r : Record) : (s.putRec p r).slots = s.slots := rfl
@[simp] theorem State.putRec_stack (s : State) (p : Nat) (r : Record) : (s.putRec p r).stack = s.stack := rfl
@[simp] theorem State.putRec_pendingOrders (s : State) (p : Nat) (r : Record) : (s.putRec p r).pendingOrders = s.pendingOrders := rfl
@[simp] theorem State.putRec_arrivals (s : State) (p : Nat) (r : Record) : (s.putRec p r).arrivals = s.arrivals := rfl
@[simp] theorem State.putRec_eclosePin (s : State) (p : Nat) (r : Record) : (s.putRec p r).eclosePin = s.eclosePin := rfl
@[simp] theorem State.putRec_ecloseState (s : State) (p : Nat) (r : Record) : (s.putRec p r).ecloseState = s.ecloseState := rfl
@[simp] theorem State.putRec_ecloseTimer (s : State) (p : Nat) (r : Record) : (s.putRec p r).ecloseTimer = s.ecloseTimer := rfl
@[simp] theorem State.putRec_units (s : State) (p : Nat) (r : Record) : (s.putRec p r).units = s.units := rfl
@[simp] theorem State.putRec_shipM (s : State) (p : Nat) (r : Record) : (s.putRec p r).shipM = s.shipM := rfl
@[simp] theorem State.putRec_shipE (s : State) (p : Nat) (r : Record) : (s.putRec p r).shipE = s.shipE := rfl
@[simp] theorem State.putRec_shipStrokes (s : State) (p : Nat) (r : Record) : (s.putRec p r).shipStrokes = s.shipStrokes := rfl
@[simp] theorem State.putRec_lines (s : State) (p : Nat) (r : Record) : (s.putRec p r).lines = s.lines := rfl
@[simp] theorem State.putRec_calendar (s : State) (p : Nat) (r : Record) : (s.putRec p r).calendar = s.calendar := rfl
@[simp] theorem State.putRec_alarms (s : State) (p : Nat) (r : Record) : (s.putRec p r).alarms = s.alarms := rfl
@[simp] theorem State.putRec_overflow (s : State) (p : Nat) (r : Record) : (s.putRec p r).overflow = s.overflow := rfl
@[simp] theorem State.putRec_walk (s : State) (p : Nat) (r : Record) : (s.putRec p r).walk = s.walk := rfl
@[simp] theorem State.putRec_phase (s : State) (p : Nat) (r : Record) : (s.putRec p r).phase = s.phase := rfl
@[simp] theorem State.putRec_portA (s : State) (p : Nat) (r : Record) : (s.putRec p r).portA = s.portA := rfl
@[simp] theorem State.putRec_portB (s : State) (p : Nat) (r : Record) : (s.putRec p r).portB = s.portB := rfl
@[simp] theorem State.putRec_outputs (s : State) (p : Nat) (r : Record) : (s.putRec p r).outputs = s.outputs := rfl

/-! ### State.putUnit -/

@[simp] theorem State.putUnit_pending (s : State) (u : Nat) (w : PowerUnit) : (s.putUnit u w).pending = s.pending := rfl
@[simp] theorem State.putUnit_inReset (s : State) (u : Nat) (w : PowerUnit) : (s.putUnit u w).inReset = s.inReset := rfl
@[simp] theorem State.putUnit_clock (s : State) (u : Nat) (w : PowerUnit) : (s.putUnit u w).clock = s.clock := rfl
@[simp] theorem State.putUnit_agenda (s : State) (u : Nat) (w : PowerUnit) : (s.putUnit u w).agenda = s.agenda := rfl
@[simp] theorem State.putUnit_shortPulses (s : State) (u : Nat) (w : PowerUnit) : (s.putUnit u w).shortPulses = s.shortPulses := rfl
@[simp] theorem State.putUnit_records (s : State) (u : Nat) (w : PowerUnit) : (s.putUnit u w).records = s.records := rfl
@[simp] theorem State.putUnit_directory (s : State) (u : Nat) (w : PowerUnit) : (s.putUnit u w).directory = s.directory := rfl
@[simp] theorem State.putUnit_zoneLists (s : State) (u : Nat) (w : PowerUnit) : (s.putUnit u w).zoneLists = s.zoneLists := rfl
@[simp] theorem State.putUnit_slots (s : State) (u : Nat) (w : PowerUnit) : (s.putUnit u w).slots = s.slots := rfl
@[simp] theorem State.putUnit_stack (s : State) (u : Nat) (w : PowerUnit) : (s.putUnit u w).stack = s.stack := rfl
@[simp] theorem State.putUnit_pendingOrders (s : State) (u : Nat) (w : PowerUnit) : (s.putUnit u w).pendingOrders = s.pendingOrders := rfl
@[simp] theorem State.putUnit_arrivals (s : State) (u : Nat) (w : PowerUnit) : (s.putUnit u w).arrivals = s.arrivals := rfl
@[simp] theorem State.putUnit_eclosePin (s : State) (u : Nat) (w : PowerUnit) : (s.putUnit u w).eclosePin = s.eclosePin := rfl
@[simp] theorem State.putUnit_ecloseState (s : State) (u : Nat) (w : PowerUnit) : (s.putUnit u w).ecloseState = s.ecloseState := rfl
@[simp] theorem State.putUnit_ecloseTimer (s : State) (u : Nat) (w : PowerUnit) : (s.putUnit u w).ecloseTimer = s.ecloseTimer := rfl
@[simp] theorem State.putUnit_units (s : State) (u : Nat) (w : PowerUnit) : (s.putUnit u w).units = Keyed.put s.units u w := rfl
@[simp] theorem State.putUnit_shipM (s : State) (u : Nat) (w : PowerUnit) : (s.putUnit u w).shipM = s.shipM := rfl
@[simp] theorem State.putUnit_shipE (s : State) (u : Nat) (w : PowerUnit) : (s.putUnit u w).shipE = s.shipE := rfl
@[simp] theorem State.putUnit_shipStrokes (s : State) (u : Nat) (w : PowerUnit) : (s.putUnit u w).shipStrokes = s.shipStrokes := rfl
@[simp] theorem State.putUnit_lines (s : State) (u : Nat) (w : PowerUnit) : (s.putUnit u w).lines = s.lines := rfl
@[simp] theorem State.putUnit_calendar (s : State) (u : Nat) (w : PowerUnit) : (s.putUnit u w).calendar = s.calendar := rfl
@[simp] theorem State.putUnit_alarms (s : State) (u : Nat) (w : PowerUnit) : (s.putUnit u w).alarms = s.alarms := rfl
@[simp] theorem State.putUnit_overflow (s : State) (u : Nat) (w : PowerUnit) : (s.putUnit u w).overflow = s.overflow := rfl
@[simp] theorem State.putUnit_walk (s : State) (u : Nat) (w : PowerUnit) : (s.putUnit u w).walk = s.walk := rfl
@[simp] theorem State.putUnit_phase (s : State) (u : Nat) (w : PowerUnit) : (s.putUnit u w).phase = s.phase := rfl
@[simp] theorem State.putUnit_portA (s : State) (u : Nat) (w : PowerUnit) : (s.putUnit u w).portA = s.portA := rfl
@[simp] theorem State.putUnit_portB (s : State) (u : Nat) (w : PowerUnit) : (s.putUnit u w).portB = s.portB := rfl
@[simp] theorem State.putUnit_outputs (s : State) (u : Nat) (w : PowerUnit) : (s.putUnit u w).outputs = s.outputs := rfl

/-! ### State.putOrder -/

@[simp] theorem State.putOrder_pending (s : State) (k : Nat) (o : Order) : (s.putOrder k o).pending = s.pending := rfl
@[simp] theorem State.putOrder_inReset (s : State) (k : Nat) (o : Order) : (s.putOrder k o).inReset = s.inReset := rfl
@[simp] theorem State.putOrder_clock (s : State) (k : Nat) (o : Order) : (s.putOrder k o).clock = s.clock := rfl
@[simp] theorem State.putOrder_agenda (s : State) (k : Nat) (o : Order) : (s.putOrder k o).agenda = s.agenda := rfl
@[simp] theorem State.putOrder_shortPulses (s : State) (k : Nat) (o : Order) : (s.putOrder k o).shortPulses = s.shortPulses := rfl
@[simp] theorem State.putOrder_records (s : State) (k : Nat) (o : Order) : (s.putOrder k o).records = s.records := rfl
@[simp] theorem State.putOrder_directory (s : State) (k : Nat) (o : Order) : (s.putOrder k o).directory = s.directory := rfl
@[simp] theorem State.putOrder_zoneLists (s : State) (k : Nat) (o : Order) : (s.putOrder k o).zoneLists = s.zoneLists := rfl
@[simp] theorem State.putOrder_slots (s : State) (k : Nat) (o : Order) : (s.putOrder k o).slots = Keyed.put s.slots k o := rfl
@[simp] theorem State.putOrder_stack (s : State) (k : Nat) (o : Order) : (s.putOrder k o).stack = s.stack := rfl
@[simp] theorem State.putOrder_pendingOrders (s : State) (k : Nat) (o : Order) : (s.putOrder k o).pendingOrders = s.pendingOrders := rfl
@[simp] theorem State.putOrder_arrivals (s : State) (k : Nat) (o : Order) : (s.putOrder k o).arrivals = s.arrivals := rfl
@[simp] theorem State.putOrder_eclosePin (s : State) (k : Nat) (o : Order) : (s.putOrder k o).eclosePin = s.eclosePin := rfl
@[simp] theorem State.putOrder_ecloseState (s : State) (k : Nat) (o : Order) : (s.putOrder k o).ecloseState = s.ecloseState := rfl
@[simp] theorem State.putOrder_ecloseTimer (s : State) (k : Nat) (o : Order) : (s.putOrder k o).ecloseTimer = s.ecloseTimer := rfl
@[simp] theorem State.putOrder_units (s : State) (k : Nat) (o : Order) : (s.putOrder k o).units = s.units := rfl
@[simp] theorem State.putOrder_shipM (s : State) (k : Nat) (o : Order) : (s.putOrder k o).shipM = s.shipM := rfl
@[simp] theorem State.putOrder_shipE (s : State) (k : Nat) (o : Order) : (s.putOrder k o).shipE = s.shipE := rfl
@[simp] theorem State.putOrder_shipStrokes (s : State) (k : Nat) (o : Order) : (s.putOrder k o).shipStrokes = s.shipStrokes := rfl
@[simp] theorem State.putOrder_lines (s : State) (k : Nat) (o : Order) : (s.putOrder k o).lines = s.lines := rfl
@[simp] theorem State.putOrder_calendar (s : State) (k : Nat) (o : Order) : (s.putOrder k o).calendar = s.calendar := rfl
@[simp] theorem State.putOrder_alarms (s : State) (k : Nat) (o : Order) : (s.putOrder k o).alarms = s.alarms := rfl
@[simp] theorem State.putOrder_overflow (s : State) (k : Nat) (o : Order) : (s.putOrder k o).overflow = s.overflow := rfl
@[simp] theorem State.putOrder_walk (s : State) (k : Nat) (o : Order) : (s.putOrder k o).walk = s.walk := rfl
@[simp] theorem State.putOrder_phase (s : State) (k : Nat) (o : Order) : (s.putOrder k o).phase = s.phase := rfl
@[simp] theorem State.putOrder_portA (s : State) (k : Nat) (o : Order) : (s.putOrder k o).portA = s.portA := rfl
@[simp] theorem State.putOrder_portB (s : State) (k : Nat) (o : Order) : (s.putOrder k o).portB = s.portB := rfl
@[simp] theorem State.putOrder_outputs (s : State) (k : Nat) (o : Order) : (s.putOrder k o).outputs = s.outputs := rfl

/-! ### State.putLine -/

@[simp] theorem State.putLine_pending (s : State) (n : LineNo) (l : Line) : (s.putLine n l).pending = s.pending := rfl
@[simp] theorem State.putLine_inReset (s : State) (n : LineNo) (l : Line) : (s.putLine n l).inReset = s.inReset := rfl
@[simp] theorem State.putLine_clock (s : State) (n : LineNo) (l : Line) : (s.putLine n l).clock = s.clock := rfl
@[simp] theorem State.putLine_agenda (s : State) (n : LineNo) (l : Line) : (s.putLine n l).agenda = s.agenda := rfl
@[simp] theorem State.putLine_shortPulses (s : State) (n : LineNo) (l : Line) : (s.putLine n l).shortPulses = s.shortPulses := rfl
@[simp] theorem State.putLine_records (s : State) (n : LineNo) (l : Line) : (s.putLine n l).records = s.records := rfl
@[simp] theorem State.putLine_directory (s : State) (n : LineNo) (l : Line) : (s.putLine n l).directory = s.directory := rfl
@[simp] theorem State.putLine_zoneLists (s : State) (n : LineNo) (l : Line) : (s.putLine n l).zoneLists = s.zoneLists := rfl
@[simp] theorem State.putLine_slots (s : State) (n : LineNo) (l : Line) : (s.putLine n l).slots = s.slots := rfl
@[simp] theorem State.putLine_stack (s : State) (n : LineNo) (l : Line) : (s.putLine n l).stack = s.stack := rfl
@[simp] theorem State.putLine_pendingOrders (s : State) (n : LineNo) (l : Line) : (s.putLine n l).pendingOrders = s.pendingOrders := rfl
@[simp] theorem State.putLine_arrivals (s : State) (n : LineNo) (l : Line) : (s.putLine n l).arrivals = s.arrivals := rfl
@[simp] theorem State.putLine_eclosePin (s : State) (n : LineNo) (l : Line) : (s.putLine n l).eclosePin = s.eclosePin := rfl
@[simp] theorem State.putLine_ecloseState (s : State) (n : LineNo) (l : Line) : (s.putLine n l).ecloseState = s.ecloseState := rfl
@[simp] theorem State.putLine_ecloseTimer (s : State) (n : LineNo) (l : Line) : (s.putLine n l).ecloseTimer = s.ecloseTimer := rfl
@[simp] theorem State.putLine_units (s : State) (n : LineNo) (l : Line) : (s.putLine n l).units = s.units := rfl
@[simp] theorem State.putLine_shipM (s : State) (n : LineNo) (l : Line) : (s.putLine n l).shipM = s.shipM := rfl
@[simp] theorem State.putLine_shipE (s : State) (n : LineNo) (l : Line) : (s.putLine n l).shipE = s.shipE := rfl
@[simp] theorem State.putLine_shipStrokes (s : State) (n : LineNo) (l : Line) : (s.putLine n l).shipStrokes = s.shipStrokes := rfl
@[simp] theorem State.putLine_lines (s : State) (n : LineNo) (l : Line) : (s.putLine n l).lines = s.lines.set n l := rfl
@[simp] theorem State.putLine_calendar (s : State) (n : LineNo) (l : Line) : (s.putLine n l).calendar = s.calendar := rfl
@[simp] theorem State.putLine_alarms (s : State) (n : LineNo) (l : Line) : (s.putLine n l).alarms = s.alarms := rfl
@[simp] theorem State.putLine_overflow (s : State) (n : LineNo) (l : Line) : (s.putLine n l).overflow = s.overflow := rfl
@[simp] theorem State.putLine_walk (s : State) (n : LineNo) (l : Line) : (s.putLine n l).walk = s.walk := rfl
@[simp] theorem State.putLine_phase (s : State) (n : LineNo) (l : Line) : (s.putLine n l).phase = s.phase := rfl
@[simp] theorem State.putLine_portA (s : State) (n : LineNo) (l : Line) : (s.putLine n l).portA = s.portA := rfl
@[simp] theorem State.putLine_portB (s : State) (n : LineNo) (l : Line) : (s.putLine n l).portB = s.portB := rfl
@[simp] theorem State.putLine_outputs (s : State) (n : LineNo) (l : Line) : (s.putLine n l).outputs = s.outputs := rfl

/-! ### State.modLine -/

@[simp] theorem State.modLine_pending (s : State) (n : LineNo) (f : Line → Line) : (s.modLine n f).pending = s.pending := rfl
@[simp] theorem State.modLine_inReset (s : State) (n : LineNo) (f : Line → Line) : (s.modLine n f).inReset = s.inReset := rfl
@[simp] theorem State.modLine_clock (s : State) (n : LineNo) (f : Line → Line) : (s.modLine n f).clock = s.clock := rfl
@[simp] theorem State.modLine_agenda (s : State) (n : LineNo) (f : Line → Line) : (s.modLine n f).agenda = s.agenda := rfl
@[simp] theorem State.modLine_shortPulses (s : State) (n : LineNo) (f : Line → Line) : (s.modLine n f).shortPulses = s.shortPulses := rfl
@[simp] theorem State.modLine_records (s : State) (n : LineNo) (f : Line → Line) : (s.modLine n f).records = s.records := rfl
@[simp] theorem State.modLine_directory (s : State) (n : LineNo) (f : Line → Line) : (s.modLine n f).directory = s.directory := rfl
@[simp] theorem State.modLine_zoneLists (s : State) (n : LineNo) (f : Line → Line) : (s.modLine n f).zoneLists = s.zoneLists := rfl
@[simp] theorem State.modLine_slots (s : State) (n : LineNo) (f : Line → Line) : (s.modLine n f).slots = s.slots := rfl
@[simp] theorem State.modLine_stack (s : State) (n : LineNo) (f : Line → Line) : (s.modLine n f).stack = s.stack := rfl
@[simp] theorem State.modLine_pendingOrders (s : State) (n : LineNo) (f : Line → Line) : (s.modLine n f).pendingOrders = s.pendingOrders := rfl
@[simp] theorem State.modLine_arrivals (s : State) (n : LineNo) (f : Line → Line) : (s.modLine n f).arrivals = s.arrivals := rfl
@[simp] theorem State.modLine_eclosePin (s : State) (n : LineNo) (f : Line → Line) : (s.modLine n f).eclosePin = s.eclosePin := rfl
@[simp] theorem State.modLine_ecloseState (s : State) (n : LineNo) (f : Line → Line) : (s.modLine n f).ecloseState = s.ecloseState := rfl
@[simp] theorem State.modLine_ecloseTimer (s : State) (n : LineNo) (f : Line → Line) : (s.modLine n f).ecloseTimer = s.ecloseTimer := rfl
@[simp] theorem State.modLine_units (s : State) (n : LineNo) (f : Line → Line) : (s.modLine n f).units = s.units := rfl
@[simp] theorem State.modLine_shipM (s : State) (n : LineNo) (f : Line → Line) : (s.modLine n f).shipM = s.shipM := rfl
@[simp] theorem State.modLine_shipE (s : State) (n : LineNo) (f : Line → Line) : (s.modLine n f).shipE = s.shipE := rfl
@[simp] theorem State.modLine_shipStrokes (s : State) (n : LineNo) (f : Line → Line) : (s.modLine n f).shipStrokes = s.shipStrokes := rfl
@[simp] theorem State.modLine_lines (s : State) (n : LineNo) (f : Line → Line) : (s.modLine n f).lines = s.lines.set n (f (s.line n)) := rfl
@[simp] theorem State.modLine_calendar (s : State) (n : LineNo) (f : Line → Line) : (s.modLine n f).calendar = s.calendar := rfl
@[simp] theorem State.modLine_alarms (s : State) (n : LineNo) (f : Line → Line) : (s.modLine n f).alarms = s.alarms := rfl
@[simp] theorem State.modLine_overflow (s : State) (n : LineNo) (f : Line → Line) : (s.modLine n f).overflow = s.overflow := rfl
@[simp] theorem State.modLine_walk (s : State) (n : LineNo) (f : Line → Line) : (s.modLine n f).walk = s.walk := rfl
@[simp] theorem State.modLine_phase (s : State) (n : LineNo) (f : Line → Line) : (s.modLine n f).phase = s.phase := rfl
@[simp] theorem State.modLine_portA (s : State) (n : LineNo) (f : Line → Line) : (s.modLine n f).portA = s.portA := rfl
@[simp] theorem State.modLine_portB (s : State) (n : LineNo) (f : Line → Line) : (s.modLine n f).portB = s.portB := rfl
@[simp] theorem State.modLine_outputs (s : State) (n : LineNo) (f : Line → Line) : (s.modLine n f).outputs = s.outputs := rfl

/-! ### State.modAllLines -/

@[simp] theorem State.modAllLines_pending (s : State) (f : Line → Line) : (s.modAllLines f).pending = s.pending := rfl
@[simp] theorem State.modAllLines_inReset (s : State) (f : Line → Line) : (s.modAllLines f).inReset = s.inReset := rfl
@[simp] theorem State.modAllLines_clock (s : State) (f : Line → Line) : (s.modAllLines f).clock = s.clock := rfl
@[simp] theorem State.modAllLines_agenda (s : State) (f : Line → Line) : (s.modAllLines f).agenda = s.agenda := rfl
@[simp] theorem State.modAllLines_shortPulses (s : State) (f : Line → Line) : (s.modAllLines f).shortPulses = s.shortPulses := rfl
@[simp] theorem State.modAllLines_records (s : State) (f : Line → Line) : (s.modAllLines f).records = s.records := rfl
@[simp] theorem State.modAllLines_directory (s : State) (f : Line → Line) : (s.modAllLines f).directory = s.directory := rfl
@[simp] theorem State.modAllLines_zoneLists (s : State) (f : Line → Line) : (s.modAllLines f).zoneLists = s.zoneLists := rfl
@[simp] theorem State.modAllLines_slots (s : State) (f : Line → Line) : (s.modAllLines f).slots = s.slots := rfl
@[simp] theorem State.modAllLines_stack (s : State) (f : Line → Line) : (s.modAllLines f).stack = s.stack := rfl
@[simp] theorem State.modAllLines_pendingOrders (s : State) (f : Line → Line) : (s.modAllLines f).pendingOrders = s.pendingOrders := rfl
@[simp] theorem State.modAllLines_arrivals (s : State) (f : Line → Line) : (s.modAllLines f).arrivals = s.arrivals := rfl
@[simp] theorem State.modAllLines_eclosePin (s : State) (f : Line → Line) : (s.modAllLines f).eclosePin = s.eclosePin := rfl
@[simp] theorem State.modAllLines_ecloseState (s : State) (f : Line → Line) : (s.modAllLines f).ecloseState = s.ecloseState := rfl
@[simp] theorem State.modAllLines_ecloseTimer (s : State) (f : Line → Line) : (s.modAllLines f).ecloseTimer = s.ecloseTimer := rfl
@[simp] theorem State.modAllLines_units (s : State) (f : Line → Line) : (s.modAllLines f).units = s.units := rfl
@[simp] theorem State.modAllLines_shipM (s : State) (f : Line → Line) : (s.modAllLines f).shipM = s.shipM := rfl
@[simp] theorem State.modAllLines_shipE (s : State) (f : Line → Line) : (s.modAllLines f).shipE = s.shipE := rfl
@[simp] theorem State.modAllLines_shipStrokes (s : State) (f : Line → Line) : (s.modAllLines f).shipStrokes = s.shipStrokes := rfl
@[simp] theorem State.modAllLines_lines (s : State) (f : Line → Line) : (s.modAllLines f).lines = s.lines.map f := rfl
@[simp] theorem State.modAllLines_calendar (s : State) (f : Line → Line) : (s.modAllLines f).calendar = s.calendar := rfl
@[simp] theorem State.modAllLines_alarms (s : State) (f : Line → Line) : (s.modAllLines f).alarms = s.alarms := rfl
@[simp] theorem State.modAllLines_overflow (s : State) (f : Line → Line) : (s.modAllLines f).overflow = s.overflow := rfl
@[simp] theorem State.modAllLines_walk (s : State) (f : Line → Line) : (s.modAllLines f).walk = s.walk := rfl
@[simp] theorem State.modAllLines_phase (s : State) (f : Line → Line) : (s.modAllLines f).phase = s.phase := rfl
@[simp] theorem State.modAllLines_portA (s : State) (f : Line → Line) : (s.modAllLines f).portA = s.portA := rfl
@[simp] theorem State.modAllLines_portB (s : State) (f : Line → Line) : (s.modAllLines f).portB = s.portB := rfl
@[simp] theorem State.modAllLines_outputs (s : State) (f : Line → Line) : (s.modAllLines f).outputs = s.outputs := rfl

/-! ### State.first -/

@[simp] theorem State.first_pending (s : State) (ts : List Task) : (s.first ts).pending = s.pending := rfl
@[simp] theorem State.first_inReset (s : State) (ts : List Task) : (s.first ts).inReset = s.inReset := rfl
@[simp] theorem State.first_clock (s : State) (ts : List Task) : (s.first ts).clock = s.clock := rfl
@[simp] theorem State.first_agenda (s : State) (ts : List Task) : (s.first ts).agenda = ts ++ s.agenda := rfl
@[simp] theorem State.first_shortPulses (s : State) (ts : List Task) : (s.first ts).shortPulses = s.shortPulses := rfl
@[simp] theorem State.first_records (s : State) (ts : List Task) : (s.first ts).records = s.records := rfl
@[simp] theorem State.first_directory (s : State) (ts : List Task) : (s.first ts).directory = s.directory := rfl
@[simp] theorem State.first_zoneLists (s : State) (ts : List Task) : (s.first ts).zoneLists = s.zoneLists := rfl
@[simp] theorem State.first_slots (s : State) (ts : List Task) : (s.first ts).slots = s.slots := rfl
@[simp] theorem State.first_stack (s : State) (ts : List Task) : (s.first ts).stack = s.stack := rfl
@[simp] theorem State.first_pendingOrders (s : State) (ts : List Task) : (s.first ts).pendingOrders = s.pendingOrders := rfl
@[simp] theorem State.first_arrivals (s : State) (ts : List Task) : (s.first ts).arrivals = s.arrivals := rfl
@[simp] theorem State.first_eclosePin (s : State) (ts : List Task) : (s.first ts).eclosePin = s.eclosePin := rfl
@[simp] theorem State.first_ecloseState (s : State) (ts : List Task) : (s.first ts).ecloseState = s.ecloseState := rfl
@[simp] theorem State.first_ecloseTimer (s : State) (ts : List Task) : (s.first ts).ecloseTimer = s.ecloseTimer := rfl
@[simp] theorem State.first_units (s : State) (ts : List Task) : (s.first ts).units = s.units := rfl
@[simp] theorem State.first_shipM (s : State) (ts : List Task) : (s.first ts).shipM = s.shipM := rfl
@[simp] theorem State.first_shipE (s : State) (ts : List Task) : (s.first ts).shipE = s.shipE := rfl
@[simp] theorem State.first_shipStrokes (s : State) (ts : List Task) : (s.first ts).shipStrokes = s.shipStrokes := rfl
@[simp] theorem State.first_lines (s : State) (ts : List Task) : (s.first ts).lines = s.lines := rfl
@[simp] theorem State.first_calendar (s : State) (ts : List Task) : (s.first ts).calendar = s.calendar := rfl
@[simp] theorem State.first_alarms (s : State) (ts : List Task) : (s.first ts).alarms = s.alarms := rfl
@[simp] theorem State.first_overflow (s : State) (ts : List Task) : (s.first ts).overflow = s.overflow := rfl
@[simp] theorem State.first_walk (s : State) (ts : List Task) : (s.first ts).walk = s.walk := rfl
@[simp] theorem State.first_phase (s : State) (ts : List Task) : (s.first ts).phase = s.phase := rfl
@[simp] theorem State.first_portA (s : State) (ts : List Task) : (s.first ts).portA = s.portA := rfl
@[simp] theorem State.first_portB (s : State) (ts : List Task) : (s.first ts).portB = s.portB := rfl
@[simp] theorem State.first_outputs (s : State) (ts : List Task) : (s.first ts).outputs = s.outputs := rfl

/-! ### State.later -/

@[simp] theorem State.later_pending (s : State) (ts : List Task) : (s.later ts).pending = s.pending := rfl
@[simp] theorem State.later_inReset (s : State) (ts : List Task) : (s.later ts).inReset = s.inReset := rfl
@[simp] theorem State.later_clock (s : State) (ts : List Task) : (s.later ts).clock = s.clock := rfl
@[simp] theorem State.later_agenda (s : State) (ts : List Task) : (s.later ts).agenda = s.agenda ++ ts := rfl
@[simp] theorem State.later_shortPulses (s : State) (ts : List Task) : (s.later ts).shortPulses = s.shortPulses := rfl
@[simp] theorem State.later_records (s : State) (ts : List Task) : (s.later ts).records = s.records := rfl
@[simp] theorem State.later_directory (s : State) (ts : List Task) : (s.later ts).directory = s.directory := rfl
@[simp] theorem State.later_zoneLists (s : State) (ts : List Task) : (s.later ts).zoneLists = s.zoneLists := rfl
@[simp] theorem State.later_slots (s : State) (ts : List Task) : (s.later ts).slots = s.slots := rfl
@[simp] theorem State.later_stack (s : State) (ts : List Task) : (s.later ts).stack = s.stack := rfl
@[simp] theorem State.later_pendingOrders (s : State) (ts : List Task) : (s.later ts).pendingOrders = s.pendingOrders := rfl
@[simp] theorem State.later_arrivals (s : State) (ts : List Task) : (s.later ts).arrivals = s.arrivals := rfl
@[simp] theorem State.later_eclosePin (s : State) (ts : List Task) : (s.later ts).eclosePin = s.eclosePin := rfl
@[simp] theorem State.later_ecloseState (s : State) (ts : List Task) : (s.later ts).ecloseState = s.ecloseState := rfl
@[simp] theorem State.later_ecloseTimer (s : State) (ts : List Task) : (s.later ts).ecloseTimer = s.ecloseTimer := rfl
@[simp] theorem State.later_units (s : State) (ts : List Task) : (s.later ts).units = s.units := rfl
@[simp] theorem State.later_shipM (s : State) (ts : List Task) : (s.later ts).shipM = s.shipM := rfl
@[simp] theorem State.later_shipE (s : State) (ts : List Task) : (s.later ts).shipE = s.shipE := rfl
@[simp] theorem State.later_shipStrokes (s : State) (ts : List Task) : (s.later ts).shipStrokes = s.shipStrokes := rfl
@[simp] theorem State.later_lines (s : State) (ts : List Task) : (s.later ts).lines = s.lines := rfl
@[simp] theorem State.later_calendar (s : State) (ts : List Task) : (s.later ts).calendar = s.calendar := rfl
@[simp] theorem State.later_alarms (s : State) (ts : List Task) : (s.later ts).alarms = s.alarms := rfl
@[simp] theorem State.later_overflow (s : State) (ts : List Task) : (s.later ts).overflow = s.overflow := rfl
@[simp] theorem State.later_walk (s : State) (ts : List Task) : (s.later ts).walk = s.walk := rfl
@[simp] theorem State.later_phase (s : State) (ts : List Task) : (s.later ts).phase = s.phase := rfl
@[simp] theorem State.later_portA (s : State) (ts : List Task) : (s.later ts).portA = s.portA := rfl
@[simp] theorem State.later_portB (s : State) (ts : List Task) : (s.later ts).portB = s.portB := rfl
@[simp] theorem State.later_outputs (s : State) (ts : List Task) : (s.later ts).outputs = s.outputs := rfl

/-! ### State.markBoth -/

@[simp] theorem State.markBoth_pending (s : State) (p : Nat) : (s.markBoth p).pending = s.pending := rfl
@[simp] theorem State.markBoth_inReset (s : State) (p : Nat) : (s.markBoth p).inReset = s.inReset := rfl
@[simp] theorem State.markBoth_clock (s : State) (p : Nat) : (s.markBoth p).clock = s.clock := rfl
@[simp] theorem State.markBoth_agenda (s : State) (p : Nat) : (s.markBoth p).agenda = s.agenda := rfl
@[simp] theorem State.markBoth_shortPulses (s : State) (p : Nat) : (s.markBoth p).shortPulses = s.shortPulses := rfl
@[simp] theorem State.markBoth_records (s : State) (p : Nat) : (s.markBoth p).records = s.records := rfl
@[simp] theorem State.markBoth_directory (s : State) (p : Nat) : (s.markBoth p).directory = s.directory := rfl
@[simp] theorem State.markBoth_zoneLists (s : State) (p : Nat) : (s.markBoth p).zoneLists = s.zoneLists := rfl
@[simp] theorem State.markBoth_slots (s : State) (p : Nat) : (s.markBoth p).slots = s.slots := rfl
@[simp] theorem State.markBoth_stack (s : State) (p : Nat) : (s.markBoth p).stack = s.stack := rfl
@[simp] theorem State.markBoth_pendingOrders (s : State) (p : Nat) : (s.markBoth p).pendingOrders = s.pendingOrders := rfl
@[simp] theorem State.markBoth_arrivals (s : State) (p : Nat) : (s.markBoth p).arrivals = s.arrivals := rfl
@[simp] theorem State.markBoth_eclosePin (s : State) (p : Nat) : (s.markBoth p).eclosePin = s.eclosePin := rfl
@[simp] theorem State.markBoth_ecloseState (s : State) (p : Nat) : (s.markBoth p).ecloseState = s.ecloseState := rfl
@[simp] theorem State.markBoth_ecloseTimer (s : State) (p : Nat) : (s.markBoth p).ecloseTimer = s.ecloseTimer := rfl
@[simp] theorem State.markBoth_units (s : State) (p : Nat) : (s.markBoth p).units = s.units := rfl
@[simp] theorem State.markBoth_shipM (s : State) (p : Nat) : (s.markBoth p).shipM = s.shipM := rfl
@[simp] theorem State.markBoth_shipE (s : State) (p : Nat) : (s.markBoth p).shipE = s.shipE := rfl
@[simp] theorem State.markBoth_shipStrokes (s : State) (p : Nat) : (s.markBoth p).shipStrokes = s.shipStrokes := rfl
@[simp] theorem State.markBoth_lines (s : State) (p : Nat) : (s.markBoth p).lines = s.lines := rfl
@[simp] theorem State.markBoth_calendar (s : State) (p : Nat) : (s.markBoth p).calendar = s.calendar := rfl
@[simp] theorem State.markBoth_alarms (s : State) (p : Nat) : (s.markBoth p).alarms = s.alarms := rfl
@[simp] theorem State.markBoth_overflow (s : State) (p : Nat) : (s.markBoth p).overflow = s.overflow := rfl
@[simp] theorem State.markBoth_walk (s : State) (p : Nat) : (s.markBoth p).walk = s.walk := rfl
@[simp] theorem State.markBoth_phase (s : State) (p : Nat) : (s.markBoth p).phase = s.phase := rfl
@[simp] theorem State.markBoth_portA (s : State) (p : Nat) : (s.markBoth p).portA = s.portA.addMark p := rfl
@[simp] theorem State.markBoth_portB (s : State) (p : Nat) : (s.markBoth p).portB = s.portB.addMark p := rfl
@[simp] theorem State.markBoth_outputs (s : State) (p : Nat) : (s.markBoth p).outputs = s.outputs := rfl

/-! ### State.joinDirectory -/

@[simp] theorem State.joinDirectory_pending (s : State) (n p : Nat) : (s.joinDirectory n p).pending = s.pending := rfl
@[simp] theorem State.joinDirectory_inReset (s : State) (n p : Nat) : (s.joinDirectory n p).inReset = s.inReset := rfl
@[simp] theorem State.joinDirectory_clock (s : State) (n p : Nat) : (s.joinDirectory n p).clock = s.clock := rfl
@[simp] theorem State.joinDirectory_agenda (s : State) (n p : Nat) : (s.joinDirectory n p).agenda = s.agenda := rfl
@[simp] theorem State.joinDirectory_shortPulses (s : State) (n p : Nat) : (s.joinDirectory n p).shortPulses = s.shortPulses := rfl
@[simp] theorem State.joinDirectory_records (s : State) (n p : Nat) : (s.joinDirectory n p).records = s.records := rfl
@[simp] theorem State.joinDirectory_directory (s : State) (n p : Nat) : (s.joinDirectory n p).directory = Keyed.put s.directory n p := rfl
@[simp] theorem State.joinDirectory_zoneLists (s : State) (n p : Nat) : (s.joinDirectory n p).zoneLists = s.zoneLists := rfl
@[simp] theorem State.joinDirectory_slots (s : State) (n p : Nat) : (s.joinDirectory n p).slots = s.slots := rfl
@[simp] theorem State.joinDirectory_stack (s : State) (n p : Nat) : (s.joinDirectory n p).stack = s.stack := rfl
@[simp] theorem State.joinDirectory_pendingOrders (s : State) (n p : Nat) : (s.joinDirectory n p).pendingOrders = s.pendingOrders := rfl
@[simp] theorem State.joinDirectory_arrivals (s : State) (n p : Nat) : (s.joinDirectory n p).arrivals = s.arrivals := rfl
@[simp] theorem State.joinDirectory_eclosePin (s : State) (n p : Nat) : (s.joinDirectory n p).eclosePin = s.eclosePin := rfl
@[simp] theorem State.joinDirectory_ecloseState (s : State) (n p : Nat) : (s.joinDirectory n p).ecloseState = s.ecloseState := rfl
@[simp] theorem State.joinDirectory_ecloseTimer (s : State) (n p : Nat) : (s.joinDirectory n p).ecloseTimer = s.ecloseTimer := rfl
@[simp] theorem State.joinDirectory_units (s : State) (n p : Nat) : (s.joinDirectory n p).units = s.units := rfl
@[simp] theorem State.joinDirectory_shipM (s : State) (n p : Nat) : (s.joinDirectory n p).shipM = s.shipM := rfl
@[simp] theorem State.joinDirectory_shipE (s : State) (n p : Nat) : (s.joinDirectory n p).shipE = s.shipE := rfl
@[simp] theorem State.joinDirectory_shipStrokes (s : State) (n p : Nat) : (s.joinDirectory n p).shipStrokes = s.shipStrokes := rfl
@[simp] theorem State.joinDirectory_lines (s : State) (n p : Nat) : (s.joinDirectory n p).lines = s.lines := rfl
@[simp] theorem State.joinDirectory_calendar (s : State) (n p : Nat) : (s.joinDirectory n p).calendar = s.calendar := rfl
@[simp] theorem State.joinDirectory_alarms (s : State) (n p : Nat) : (s.joinDirectory n p).alarms = s.alarms := rfl
@[simp] theorem State.joinDirectory_overflow (s : State) (n p : Nat) : (s.joinDirectory n p).overflow = s.overflow := rfl
@[simp] theorem State.joinDirectory_walk (s : State) (n p : Nat) : (s.joinDirectory n p).walk = s.walk := rfl
@[simp] theorem State.joinDirectory_phase (s : State) (n p : Nat) : (s.joinDirectory n p).phase = s.phase := rfl
@[simp] theorem State.joinDirectory_portA (s : State) (n p : Nat) : (s.joinDirectory n p).portA = s.portA := rfl
@[simp] theorem State.joinDirectory_portB (s : State) (n p : Nat) : (s.joinDirectory n p).portB = s.portB := rfl
@[simp] theorem State.joinDirectory_outputs (s : State) (n p : Nat) : (s.joinDirectory n p).outputs = s.outputs := rfl

/-! ### State.leaveDirectory -/

@[simp] theorem State.leaveDirectory_pending (s : State) (n : Nat) : (s.leaveDirectory n).pending = s.pending := rfl
@[simp] theorem State.leaveDirectory_inReset (s : State) (n : Nat) : (s.leaveDirectory n).inReset = s.inReset := rfl
@[simp] theorem State.leaveDirectory_clock (s : State) (n : Nat) : (s.leaveDirectory n).clock = s.clock := rfl
@[simp] theorem State.leaveDirectory_agenda (s : State) (n : Nat) : (s.leaveDirectory n).agenda = s.agenda := rfl
@[simp] theorem State.leaveDirectory_shortPulses (s : State) (n : Nat) : (s.leaveDirectory n).shortPulses = s.shortPulses := rfl
@[simp] theorem State.leaveDirectory_records (s : State) (n : Nat) : (s.leaveDirectory n).records = s.records := rfl
@[simp] theorem State.leaveDirectory_directory (s : State) (n : Nat) : (s.leaveDirectory n).directory = Keyed.remove s.directory n := rfl
@[simp] theorem State.leaveDirectory_zoneLists (s : State) (n : Nat) : (s.leaveDirectory n).zoneLists = s.zoneLists := rfl
@[simp] theorem State.leaveDirectory_slots (s : State) (n : Nat) : (s.leaveDirectory n).slots = s.slots := rfl
@[simp] theorem State.leaveDirectory_stack (s : State) (n : Nat) : (s.leaveDirectory n).stack = s.stack := rfl
@[simp] theorem State.leaveDirectory_pendingOrders (s : State) (n : Nat) : (s.leaveDirectory n).pendingOrders = s.pendingOrders := rfl
@[simp] theorem State.leaveDirectory_arrivals (s : State) (n : Nat) : (s.leaveDirectory n).arrivals = s.arrivals := rfl
@[simp] theorem State.leaveDirectory_eclosePin (s : State) (n : Nat) : (s.leaveDirectory n).eclosePin = s.eclosePin := rfl
@[simp] theorem State.leaveDirectory_ecloseState (s : State) (n : Nat) : (s.leaveDirectory n).ecloseState = s.ecloseState := rfl
@[simp] theorem State.leaveDirectory_ecloseTimer (s : State) (n : Nat) : (s.leaveDirectory n).ecloseTimer = s.ecloseTimer := rfl
@[simp] theorem State.leaveDirectory_units (s : State) (n : Nat) : (s.leaveDirectory n).units = s.units := rfl
@[simp] theorem State.leaveDirectory_shipM (s : State) (n : Nat) : (s.leaveDirectory n).shipM = s.shipM := rfl
@[simp] theorem State.leaveDirectory_shipE (s : State) (n : Nat) : (s.leaveDirectory n).shipE = s.shipE := rfl
@[simp] theorem State.leaveDirectory_shipStrokes (s : State) (n : Nat) : (s.leaveDirectory n).shipStrokes = s.shipStrokes := rfl
@[simp] theorem State.leaveDirectory_lines (s : State) (n : Nat) : (s.leaveDirectory n).lines = s.lines := rfl
@[simp] theorem State.leaveDirectory_calendar (s : State) (n : Nat) : (s.leaveDirectory n).calendar = s.calendar := rfl
@[simp] theorem State.leaveDirectory_alarms (s : State) (n : Nat) : (s.leaveDirectory n).alarms = s.alarms := rfl
@[simp] theorem State.leaveDirectory_overflow (s : State) (n : Nat) : (s.leaveDirectory n).overflow = s.overflow := rfl
@[simp] theorem State.leaveDirectory_walk (s : State) (n : Nat) : (s.leaveDirectory n).walk = s.walk := rfl
@[simp] theorem State.leaveDirectory_phase (s : State) (n : Nat) : (s.leaveDirectory n).phase = s.phase := rfl
@[simp] theorem State.leaveDirectory_portA (s : State) (n : Nat) : (s.leaveDirectory n).portA = s.portA := rfl
@[simp] theorem State.leaveDirectory_portB (s : State) (n : Nat) : (s.leaveDirectory n).portB = s.portB := rfl
@[simp] theorem State.leaveDirectory_outputs (s : State) (n : Nat) : (s.leaveDirectory n).outputs = s.outputs := rfl

/-! ### State.putZoneList -/

@[simp] theorem State.putZoneList_pending (s : State) (z : Nat) (ps : List Nat) : (s.putZoneList z ps).pending = s.pending := rfl
@[simp] theorem State.putZoneList_inReset (s : State) (z : Nat) (ps : List Nat) : (s.putZoneList z ps).inReset = s.inReset := rfl
@[simp] theorem State.putZoneList_clock (s : State) (z : Nat) (ps : List Nat) : (s.putZoneList z ps).clock = s.clock := rfl
@[simp] theorem State.putZoneList_agenda (s : State) (z : Nat) (ps : List Nat) : (s.putZoneList z ps).agenda = s.agenda := rfl
@[simp] theorem State.putZoneList_shortPulses (s : State) (z : Nat) (ps : List Nat) : (s.putZoneList z ps).shortPulses = s.shortPulses := rfl
@[simp] theorem State.putZoneList_records (s : State) (z : Nat) (ps : List Nat) : (s.putZoneList z ps).records = s.records := rfl
@[simp] theorem State.putZoneList_directory (s : State) (z : Nat) (ps : List Nat) : (s.putZoneList z ps).directory = s.directory := rfl
@[simp] theorem State.putZoneList_zoneLists (s : State) (z : Nat) (ps : List Nat) : (s.putZoneList z ps).zoneLists = if ps = [] then Keyed.remove s.zoneLists z else Keyed.put s.zoneLists z ps := rfl
@[simp] theorem State.putZoneList_slots (s : State) (z : Nat) (ps : List Nat) : (s.putZoneList z ps).slots = s.slots := rfl
@[simp] theorem State.putZoneList_stack (s : State) (z : Nat) (ps : List Nat) : (s.putZoneList z ps).stack = s.stack := rfl
@[simp] theorem State.putZoneList_pendingOrders (s : State) (z : Nat) (ps : List Nat) : (s.putZoneList z ps).pendingOrders = s.pendingOrders := rfl
@[simp] theorem State.putZoneList_arrivals (s : State) (z : Nat) (ps : List Nat) : (s.putZoneList z ps).arrivals = s.arrivals := rfl
@[simp] theorem State.putZoneList_eclosePin (s : State) (z : Nat) (ps : List Nat) : (s.putZoneList z ps).eclosePin = s.eclosePin := rfl
@[simp] theorem State.putZoneList_ecloseState (s : State) (z : Nat) (ps : List Nat) : (s.putZoneList z ps).ecloseState = s.ecloseState := rfl
@[simp] theorem State.putZoneList_ecloseTimer (s : State) (z : Nat) (ps : List Nat) : (s.putZoneList z ps).ecloseTimer = s.ecloseTimer := rfl
@[simp] theorem State.putZoneList_units (s : State) (z : Nat) (ps : List Nat) : (s.putZoneList z ps).units = s.units := rfl
@[simp] theorem State.putZoneList_shipM (s : State) (z : Nat) (ps : List Nat) : (s.putZoneList z ps).shipM = s.shipM := rfl
@[simp] theorem State.putZoneList_shipE (s : State) (z : Nat) (ps : List Nat) : (s.putZoneList z ps).shipE = s.shipE := rfl
@[simp] theorem State.putZoneList_shipStrokes (s : State) (z : Nat) (ps : List Nat) : (s.putZoneList z ps).shipStrokes = s.shipStrokes := rfl
@[simp] theorem State.putZoneList_lines (s : State) (z : Nat) (ps : List Nat) : (s.putZoneList z ps).lines = s.lines := rfl
@[simp] theorem State.putZoneList_calendar (s : State) (z : Nat) (ps : List Nat) : (s.putZoneList z ps).calendar = s.calendar := rfl
@[simp] theorem State.putZoneList_alarms (s : State) (z : Nat) (ps : List Nat) : (s.putZoneList z ps).alarms = s.alarms := rfl
@[simp] theorem State.putZoneList_overflow (s : State) (z : Nat) (ps : List Nat) : (s.putZoneList z ps).overflow = s.overflow := rfl
@[simp] theorem State.putZoneList_walk (s : State) (z : Nat) (ps : List Nat) : (s.putZoneList z ps).walk = s.walk := rfl
@[simp] theorem State.putZoneList_phase (s : State) (z : Nat) (ps : List Nat) : (s.putZoneList z ps).phase = s.phase := rfl
@[simp] theorem State.putZoneList_portA (s : State) (z : Nat) (ps : List Nat) : (s.putZoneList z ps).portA = s.portA := rfl
@[simp] theorem State.putZoneList_portB (s : State) (z : Nat) (ps : List Nat) : (s.putZoneList z ps).portB = s.portB := rfl
@[simp] theorem State.putZoneList_outputs (s : State) (z : Nat) (ps : List Nat) : (s.putZoneList z ps).outputs = s.outputs := rfl

/-! ### State.modWalk -/

@[simp] theorem State.modWalk_pending (s : State) (f : Walk → Walk) : (s.modWalk f).pending = s.pending := rfl
@[simp] theorem State.modWalk_inReset (s : State) (f : Walk → Walk) : (s.modWalk f).inReset = s.inReset := rfl
@[simp] theorem State.modWalk_clock (s : State) (f : Walk → Walk) : (s.modWalk f).clock = s.clock := rfl
@[simp] theorem State.modWalk_agenda (s : State) (f : Walk → Walk) : (s.modWalk f).agenda = s.agenda := rfl
@[simp] theorem State.modWalk_shortPulses (s : State) (f : Walk → Walk) : (s.modWalk f).shortPulses = s.shortPulses := rfl
@[simp] theorem State.modWalk_records (s : State) (f : Walk → Walk) : (s.modWalk f).records = s.records := rfl
@[simp] theorem State.modWalk_directory (s : State) (f : Walk → Walk) : (s.modWalk f).directory = s.directory := rfl
@[simp] theorem State.modWalk_zoneLists (s : State) (f : Walk → Walk) : (s.modWalk f).zoneLists = s.zoneLists := rfl
@[simp] theorem State.modWalk_slots (s : State) (f : Walk → Walk) : (s.modWalk f).slots = s.slots := rfl
@[simp] theorem State.modWalk_stack (s : State) (f : Walk → Walk) : (s.modWalk f).stack = s.stack := rfl
@[simp] theorem State.modWalk_pendingOrders (s : State) (f : Walk → Walk) : (s.modWalk f).pendingOrders = s.pendingOrders := rfl
@[simp] theorem State.modWalk_arrivals (s : State) (f : Walk → Walk) : (s.modWalk f).arrivals = s.arrivals := rfl
@[simp] theorem State.modWalk_eclosePin (s : State) (f : Walk → Walk) : (s.modWalk f).eclosePin = s.eclosePin := rfl
@[simp] theorem State.modWalk_ecloseState (s : State) (f : Walk → Walk) : (s.modWalk f).ecloseState = s.ecloseState := rfl
@[simp] theorem State.modWalk_ecloseTimer (s : State) (f : Walk → Walk) : (s.modWalk f).ecloseTimer = s.ecloseTimer := rfl
@[simp] theorem State.modWalk_units (s : State) (f : Walk → Walk) : (s.modWalk f).units = s.units := rfl
@[simp] theorem State.modWalk_shipM (s : State) (f : Walk → Walk) : (s.modWalk f).shipM = s.shipM := rfl
@[simp] theorem State.modWalk_shipE (s : State) (f : Walk → Walk) : (s.modWalk f).shipE = s.shipE := rfl
@[simp] theorem State.modWalk_shipStrokes (s : State) (f : Walk → Walk) : (s.modWalk f).shipStrokes = s.shipStrokes := rfl
@[simp] theorem State.modWalk_lines (s : State) (f : Walk → Walk) : (s.modWalk f).lines = s.lines := rfl
@[simp] theorem State.modWalk_calendar (s : State) (f : Walk → Walk) : (s.modWalk f).calendar = s.calendar := rfl
@[simp] theorem State.modWalk_alarms (s : State) (f : Walk → Walk) : (s.modWalk f).alarms = s.alarms := rfl
@[simp] theorem State.modWalk_overflow (s : State) (f : Walk → Walk) : (s.modWalk f).overflow = s.overflow := rfl
@[simp] theorem State.modWalk_walk (s : State) (f : Walk → Walk) : (s.modWalk f).walk = f s.walk := rfl
@[simp] theorem State.modWalk_phase (s : State) (f : Walk → Walk) : (s.modWalk f).phase = s.phase := rfl
@[simp] theorem State.modWalk_portA (s : State) (f : Walk → Walk) : (s.modWalk f).portA = s.portA := rfl
@[simp] theorem State.modWalk_portB (s : State) (f : Walk → Walk) : (s.modWalk f).portB = s.portB := rfl
@[simp] theorem State.modWalk_outputs (s : State) (f : Walk → Walk) : (s.modWalk f).outputs = s.outputs := rfl

/-! ### State.drive -/

@[simp] theorem State.drive_pending (s : State) : s.drive.pending = s.pending := rfl
@[simp] theorem State.drive_inReset (s : State) : s.drive.inReset = s.inReset := rfl
@[simp] theorem State.drive_clock (s : State) : s.drive.clock = s.clock := rfl
@[simp] theorem State.drive_agenda (s : State) : s.drive.agenda = s.agenda := rfl
@[simp] theorem State.drive_shortPulses (s : State) : s.drive.shortPulses = s.shortPulses := rfl
@[simp] theorem State.drive_records (s : State) : s.drive.records = s.records := rfl
@[simp] theorem State.drive_directory (s : State) : s.drive.directory = s.directory := rfl
@[simp] theorem State.drive_zoneLists (s : State) : s.drive.zoneLists = s.zoneLists := rfl
@[simp] theorem State.drive_slots (s : State) : s.drive.slots = s.slots := rfl
@[simp] theorem State.drive_stack (s : State) : s.drive.stack = s.stack := rfl
@[simp] theorem State.drive_pendingOrders (s : State) : s.drive.pendingOrders = s.pendingOrders := rfl
@[simp] theorem State.drive_arrivals (s : State) : s.drive.arrivals = s.arrivals := rfl
@[simp] theorem State.drive_eclosePin (s : State) : s.drive.eclosePin = s.eclosePin := rfl
@[simp] theorem State.drive_ecloseState (s : State) : s.drive.ecloseState = s.ecloseState := rfl
@[simp] theorem State.drive_ecloseTimer (s : State) : s.drive.ecloseTimer = s.ecloseTimer := rfl
@[simp] theorem State.drive_units (s : State) : s.drive.units = s.units := rfl
@[simp] theorem State.drive_shipM (s : State) : s.drive.shipM = s.shipM := rfl
@[simp] theorem State.drive_shipE (s : State) : s.drive.shipE = s.shipE := rfl
@[simp] theorem State.drive_shipStrokes (s : State) : s.drive.shipStrokes = s.shipStrokes := rfl
@[simp] theorem State.drive_lines (s : State) : s.drive.lines = s.lines := rfl
@[simp] theorem State.drive_calendar (s : State) : s.drive.calendar = s.calendar := rfl
@[simp] theorem State.drive_alarms (s : State) : s.drive.alarms = s.alarms := rfl
@[simp] theorem State.drive_overflow (s : State) : s.drive.overflow = s.overflow := rfl
@[simp] theorem State.drive_walk (s : State) : s.drive.walk = s.walk := rfl
@[simp] theorem State.drive_phase (s : State) : s.drive.phase = s.phase := rfl
@[simp] theorem State.drive_portA (s : State) : s.drive.portA = s.portA := rfl
@[simp] theorem State.drive_portB (s : State) : s.drive.portB = s.portB := rfl
@[simp] theorem State.drive_outputs (s : State) : s.drive.outputs = s.outputsNow := rfl

/-! ### State.startSweeps -/

@[simp] theorem State.startSweeps_pending (s : State) : s.startSweeps.pending = s.pending := rfl
@[simp] theorem State.startSweeps_inReset (s : State) : s.startSweeps.inReset = s.inReset := rfl
@[simp] theorem State.startSweeps_clock (s : State) : s.startSweeps.clock = s.clock := rfl
@[simp] theorem State.startSweeps_agenda (s : State) : s.startSweeps.agenda = s.agenda := rfl
@[simp] theorem State.startSweeps_shortPulses (s : State) : s.startSweeps.shortPulses = s.shortPulses := rfl
@[simp] theorem State.startSweeps_records (s : State) : s.startSweeps.records = s.records := rfl
@[simp] theorem State.startSweeps_directory (s : State) : s.startSweeps.directory = s.directory := rfl
@[simp] theorem State.startSweeps_zoneLists (s : State) : s.startSweeps.zoneLists = s.zoneLists := rfl
@[simp] theorem State.startSweeps_slots (s : State) : s.startSweeps.slots = s.slots := rfl
@[simp] theorem State.startSweeps_stack (s : State) : s.startSweeps.stack = s.stack := rfl
@[simp] theorem State.startSweeps_pendingOrders (s : State) : s.startSweeps.pendingOrders = s.pendingOrders := rfl
@[simp] theorem State.startSweeps_arrivals (s : State) : s.startSweeps.arrivals = s.arrivals := rfl
@[simp] theorem State.startSweeps_eclosePin (s : State) : s.startSweeps.eclosePin = s.eclosePin := rfl
@[simp] theorem State.startSweeps_ecloseState (s : State) : s.startSweeps.ecloseState = s.ecloseState := rfl
@[simp] theorem State.startSweeps_ecloseTimer (s : State) : s.startSweeps.ecloseTimer = s.ecloseTimer := rfl
@[simp] theorem State.startSweeps_units (s : State) : s.startSweeps.units = s.units := rfl
@[simp] theorem State.startSweeps_shipM (s : State) : s.startSweeps.shipM = s.shipM := rfl
@[simp] theorem State.startSweeps_shipE (s : State) : s.startSweeps.shipE = s.shipE := rfl
@[simp] theorem State.startSweeps_shipStrokes (s : State) : s.startSweeps.shipStrokes = s.shipStrokes := rfl
@[simp] theorem State.startSweeps_lines (s : State) : s.startSweeps.lines = s.lines.map fun l => { l with sweep := { active := true, cursor := 0, monitors := .pending 0 } } := rfl
@[simp] theorem State.startSweeps_calendar (s : State) : s.startSweeps.calendar = s.calendar := rfl
@[simp] theorem State.startSweeps_alarms (s : State) : s.startSweeps.alarms = s.alarms := rfl
@[simp] theorem State.startSweeps_overflow (s : State) : s.startSweeps.overflow = s.overflow := rfl
@[simp] theorem State.startSweeps_walk (s : State) : s.startSweeps.walk = s.walk := rfl
@[simp] theorem State.startSweeps_phase (s : State) : s.startSweeps.phase = s.phase := rfl
@[simp] theorem State.startSweeps_portA (s : State) : s.startSweeps.portA = s.portA := rfl
@[simp] theorem State.startSweeps_portB (s : State) : s.startSweeps.portB = s.portB := rfl
@[simp] theorem State.startSweeps_outputs (s : State) : s.startSweeps.outputs = s.outputs := rfl

/-! ### State.stopSweeps -/

@[simp] theorem State.stopSweeps_pending (s : State) : s.stopSweeps.pending = s.pending := rfl
@[simp] theorem State.stopSweeps_inReset (s : State) : s.stopSweeps.inReset = s.inReset := rfl
@[simp] theorem State.stopSweeps_clock (s : State) : s.stopSweeps.clock = s.clock := rfl
@[simp] theorem State.stopSweeps_agenda (s : State) : s.stopSweeps.agenda = s.agenda := rfl
@[simp] theorem State.stopSweeps_shortPulses (s : State) : s.stopSweeps.shortPulses = s.shortPulses := rfl
@[simp] theorem State.stopSweeps_records (s : State) : s.stopSweeps.records = s.records := rfl
@[simp] theorem State.stopSweeps_directory (s : State) : s.stopSweeps.directory = s.directory := rfl
@[simp] theorem State.stopSweeps_zoneLists (s : State) : s.stopSweeps.zoneLists = s.zoneLists := rfl
@[simp] theorem State.stopSweeps_slots (s : State) : s.stopSweeps.slots = s.slots := rfl
@[simp] theorem State.stopSweeps_stack (s : State) : s.stopSweeps.stack = s.stack := rfl
@[simp] theorem State.stopSweeps_pendingOrders (s : State) : s.stopSweeps.pendingOrders = s.pendingOrders := rfl
@[simp] theorem State.stopSweeps_arrivals (s : State) : s.stopSweeps.arrivals = s.arrivals := rfl
@[simp] theorem State.stopSweeps_eclosePin (s : State) : s.stopSweeps.eclosePin = s.eclosePin := rfl
@[simp] theorem State.stopSweeps_ecloseState (s : State) : s.stopSweeps.ecloseState = s.ecloseState := rfl
@[simp] theorem State.stopSweeps_ecloseTimer (s : State) : s.stopSweeps.ecloseTimer = s.ecloseTimer := rfl
@[simp] theorem State.stopSweeps_units (s : State) : s.stopSweeps.units = s.units := rfl
@[simp] theorem State.stopSweeps_shipM (s : State) : s.stopSweeps.shipM = s.shipM := rfl
@[simp] theorem State.stopSweeps_shipE (s : State) : s.stopSweeps.shipE = s.shipE := rfl
@[simp] theorem State.stopSweeps_shipStrokes (s : State) : s.stopSweeps.shipStrokes = s.shipStrokes := rfl
@[simp] theorem State.stopSweeps_lines (s : State) : s.stopSweeps.lines = s.lines.map fun l => { l with sweep := { l.sweep with active := false } } := rfl
@[simp] theorem State.stopSweeps_calendar (s : State) : s.stopSweeps.calendar = s.calendar := rfl
@[simp] theorem State.stopSweeps_alarms (s : State) : s.stopSweeps.alarms = s.alarms := rfl
@[simp] theorem State.stopSweeps_overflow (s : State) : s.stopSweeps.overflow = s.overflow := rfl
@[simp] theorem State.stopSweeps_walk (s : State) : s.stopSweeps.walk = s.walk := rfl
@[simp] theorem State.stopSweeps_phase (s : State) : s.stopSweeps.phase = s.phase := rfl
@[simp] theorem State.stopSweeps_portA (s : State) : s.stopSweeps.portA = s.portA := rfl
@[simp] theorem State.stopSweeps_portB (s : State) : s.stopSweeps.portB = s.portB := rfl
@[simp] theorem State.stopSweeps_outputs (s : State) : s.stopSweeps.outputs = s.outputs := rfl

/-! ### State.arbitrate -/

@[simp] theorem State.arbitrate_pending (s : State) : s.arbitrate.pending = s.pending := by
  simp only [State.arbitrate, State.putLine]
@[simp] theorem State.arbitrate_inReset (s : State) : s.arbitrate.inReset = s.inReset := by
  simp only [State.arbitrate, State.putLine]
@[simp] theorem State.arbitrate_clock (s : State) : s.arbitrate.clock = s.clock := by
  simp only [State.arbitrate, State.putLine]
@[simp] theorem State.arbitrate_agenda (s : State) : s.arbitrate.agenda = s.agenda := by
  simp only [State.arbitrate, State.putLine]
@[simp] theorem State.arbitrate_shortPulses (s : State) : s.arbitrate.shortPulses = s.shortPulses := by
  simp only [State.arbitrate, State.putLine]
@[simp] theorem State.arbitrate_records (s : State) : s.arbitrate.records = s.records := by
  simp only [State.arbitrate, State.putLine]
@[simp] theorem State.arbitrate_directory (s : State) : s.arbitrate.directory = s.directory := by
  simp only [State.arbitrate, State.putLine]
@[simp] theorem State.arbitrate_zoneLists (s : State) : s.arbitrate.zoneLists = s.zoneLists := by
  simp only [State.arbitrate, State.putLine]
@[simp] theorem State.arbitrate_slots (s : State) : s.arbitrate.slots = s.slots := by
  simp only [State.arbitrate, State.putLine]
@[simp] theorem State.arbitrate_stack (s : State) : s.arbitrate.stack = s.stack := by
  simp only [State.arbitrate, State.putLine]
@[simp] theorem State.arbitrate_pendingOrders (s : State) : s.arbitrate.pendingOrders = s.pendingOrders := by
  simp only [State.arbitrate, State.putLine]
@[simp] theorem State.arbitrate_arrivals (s : State) : s.arbitrate.arrivals = s.arrivals := by
  simp only [State.arbitrate, State.putLine]
@[simp] theorem State.arbitrate_eclosePin (s : State) : s.arbitrate.eclosePin = s.eclosePin := by
  simp only [State.arbitrate, State.putLine]
@[simp] theorem State.arbitrate_ecloseState (s : State) : s.arbitrate.ecloseState = s.ecloseState := by
  simp only [State.arbitrate, State.putLine]
@[simp] theorem State.arbitrate_ecloseTimer (s : State) : s.arbitrate.ecloseTimer = s.ecloseTimer := by
  simp only [State.arbitrate, State.putLine]
@[simp] theorem State.arbitrate_units (s : State) : s.arbitrate.units = s.units := by
  simp only [State.arbitrate, State.putLine]
@[simp] theorem State.arbitrate_shipM (s : State) : s.arbitrate.shipM = s.shipM := by
  simp only [State.arbitrate, State.putLine]
@[simp] theorem State.arbitrate_shipE (s : State) : s.arbitrate.shipE = s.shipE := by
  simp only [State.arbitrate, State.putLine]
@[simp] theorem State.arbitrate_shipStrokes (s : State) : s.arbitrate.shipStrokes = s.shipStrokes := by
  simp only [State.arbitrate, State.putLine]
@[simp] theorem State.arbitrate_calendar (s : State) : s.arbitrate.calendar = s.calendar := by
  simp only [State.arbitrate, State.putLine]
@[simp] theorem State.arbitrate_alarms (s : State) : s.arbitrate.alarms = s.alarms := by
  simp only [State.arbitrate, State.putLine]
@[simp] theorem State.arbitrate_overflow (s : State) : s.arbitrate.overflow = s.overflow := by
  simp only [State.arbitrate, State.putLine]
@[simp] theorem State.arbitrate_walk (s : State) : s.arbitrate.walk = s.walk := by
  simp only [State.arbitrate, State.putLine]
@[simp] theorem State.arbitrate_phase (s : State) : s.arbitrate.phase = s.phase := by
  simp only [State.arbitrate, State.putLine]
@[simp] theorem State.arbitrate_portA (s : State) : s.arbitrate.portA = s.portA := by
  simp only [State.arbitrate, State.putLine]
@[simp] theorem State.arbitrate_portB (s : State) : s.arbitrate.portB = s.portB := by
  simp only [State.arbitrate, State.putLine]
@[simp] theorem State.arbitrate_outputs (s : State) : s.arbitrate.outputs = s.outputs := by
  simp only [State.arbitrate, State.putLine]

/-! ### State.putPort and State.modPort -/

@[simp] theorem State.putPort_pending (s : State) (port : Port) (ps : PortState) :
    (s.putPort port ps).pending = s.pending := by cases port <;> rfl
@[simp] theorem State.modPort_pending (s : State) (port : Port) (f : PortState → PortState) :
    (s.modPort port f).pending = s.pending := by cases port <;> rfl
@[simp] theorem State.putPort_inReset (s : State) (port : Port) (ps : PortState) :
    (s.putPort port ps).inReset = s.inReset := by cases port <;> rfl
@[simp] theorem State.modPort_inReset (s : State) (port : Port) (f : PortState → PortState) :
    (s.modPort port f).inReset = s.inReset := by cases port <;> rfl
@[simp] theorem State.putPort_clock (s : State) (port : Port) (ps : PortState) :
    (s.putPort port ps).clock = s.clock := by cases port <;> rfl
@[simp] theorem State.modPort_clock (s : State) (port : Port) (f : PortState → PortState) :
    (s.modPort port f).clock = s.clock := by cases port <;> rfl
@[simp] theorem State.putPort_agenda (s : State) (port : Port) (ps : PortState) :
    (s.putPort port ps).agenda = s.agenda := by cases port <;> rfl
@[simp] theorem State.modPort_agenda (s : State) (port : Port) (f : PortState → PortState) :
    (s.modPort port f).agenda = s.agenda := by cases port <;> rfl
@[simp] theorem State.putPort_shortPulses (s : State) (port : Port) (ps : PortState) :
    (s.putPort port ps).shortPulses = s.shortPulses := by cases port <;> rfl
@[simp] theorem State.modPort_shortPulses (s : State) (port : Port) (f : PortState → PortState) :
    (s.modPort port f).shortPulses = s.shortPulses := by cases port <;> rfl
@[simp] theorem State.putPort_records (s : State) (port : Port) (ps : PortState) :
    (s.putPort port ps).records = s.records := by cases port <;> rfl
@[simp] theorem State.modPort_records (s : State) (port : Port) (f : PortState → PortState) :
    (s.modPort port f).records = s.records := by cases port <;> rfl
@[simp] theorem State.putPort_directory (s : State) (port : Port) (ps : PortState) :
    (s.putPort port ps).directory = s.directory := by cases port <;> rfl
@[simp] theorem State.modPort_directory (s : State) (port : Port) (f : PortState → PortState) :
    (s.modPort port f).directory = s.directory := by cases port <;> rfl
@[simp] theorem State.putPort_zoneLists (s : State) (port : Port) (ps : PortState) :
    (s.putPort port ps).zoneLists = s.zoneLists := by cases port <;> rfl
@[simp] theorem State.modPort_zoneLists (s : State) (port : Port) (f : PortState → PortState) :
    (s.modPort port f).zoneLists = s.zoneLists := by cases port <;> rfl
@[simp] theorem State.putPort_slots (s : State) (port : Port) (ps : PortState) :
    (s.putPort port ps).slots = s.slots := by cases port <;> rfl
@[simp] theorem State.modPort_slots (s : State) (port : Port) (f : PortState → PortState) :
    (s.modPort port f).slots = s.slots := by cases port <;> rfl
@[simp] theorem State.putPort_stack (s : State) (port : Port) (ps : PortState) :
    (s.putPort port ps).stack = s.stack := by cases port <;> rfl
@[simp] theorem State.modPort_stack (s : State) (port : Port) (f : PortState → PortState) :
    (s.modPort port f).stack = s.stack := by cases port <;> rfl
@[simp] theorem State.putPort_pendingOrders (s : State) (port : Port) (ps : PortState) :
    (s.putPort port ps).pendingOrders = s.pendingOrders := by cases port <;> rfl
@[simp] theorem State.modPort_pendingOrders (s : State) (port : Port) (f : PortState → PortState) :
    (s.modPort port f).pendingOrders = s.pendingOrders := by cases port <;> rfl
@[simp] theorem State.putPort_arrivals (s : State) (port : Port) (ps : PortState) :
    (s.putPort port ps).arrivals = s.arrivals := by cases port <;> rfl
@[simp] theorem State.modPort_arrivals (s : State) (port : Port) (f : PortState → PortState) :
    (s.modPort port f).arrivals = s.arrivals := by cases port <;> rfl
@[simp] theorem State.putPort_eclosePin (s : State) (port : Port) (ps : PortState) :
    (s.putPort port ps).eclosePin = s.eclosePin := by cases port <;> rfl
@[simp] theorem State.modPort_eclosePin (s : State) (port : Port) (f : PortState → PortState) :
    (s.modPort port f).eclosePin = s.eclosePin := by cases port <;> rfl
@[simp] theorem State.putPort_ecloseState (s : State) (port : Port) (ps : PortState) :
    (s.putPort port ps).ecloseState = s.ecloseState := by cases port <;> rfl
@[simp] theorem State.modPort_ecloseState (s : State) (port : Port) (f : PortState → PortState) :
    (s.modPort port f).ecloseState = s.ecloseState := by cases port <;> rfl
@[simp] theorem State.putPort_ecloseTimer (s : State) (port : Port) (ps : PortState) :
    (s.putPort port ps).ecloseTimer = s.ecloseTimer := by cases port <;> rfl
@[simp] theorem State.modPort_ecloseTimer (s : State) (port : Port) (f : PortState → PortState) :
    (s.modPort port f).ecloseTimer = s.ecloseTimer := by cases port <;> rfl
@[simp] theorem State.putPort_units (s : State) (port : Port) (ps : PortState) :
    (s.putPort port ps).units = s.units := by cases port <;> rfl
@[simp] theorem State.modPort_units (s : State) (port : Port) (f : PortState → PortState) :
    (s.modPort port f).units = s.units := by cases port <;> rfl
@[simp] theorem State.putPort_shipM (s : State) (port : Port) (ps : PortState) :
    (s.putPort port ps).shipM = s.shipM := by cases port <;> rfl
@[simp] theorem State.modPort_shipM (s : State) (port : Port) (f : PortState → PortState) :
    (s.modPort port f).shipM = s.shipM := by cases port <;> rfl
@[simp] theorem State.putPort_shipE (s : State) (port : Port) (ps : PortState) :
    (s.putPort port ps).shipE = s.shipE := by cases port <;> rfl
@[simp] theorem State.modPort_shipE (s : State) (port : Port) (f : PortState → PortState) :
    (s.modPort port f).shipE = s.shipE := by cases port <;> rfl
@[simp] theorem State.putPort_shipStrokes (s : State) (port : Port) (ps : PortState) :
    (s.putPort port ps).shipStrokes = s.shipStrokes := by cases port <;> rfl
@[simp] theorem State.modPort_shipStrokes (s : State) (port : Port) (f : PortState → PortState) :
    (s.modPort port f).shipStrokes = s.shipStrokes := by cases port <;> rfl
@[simp] theorem State.putPort_lines (s : State) (port : Port) (ps : PortState) :
    (s.putPort port ps).lines = s.lines := by cases port <;> rfl
@[simp] theorem State.modPort_lines (s : State) (port : Port) (f : PortState → PortState) :
    (s.modPort port f).lines = s.lines := by cases port <;> rfl
@[simp] theorem State.putPort_calendar (s : State) (port : Port) (ps : PortState) :
    (s.putPort port ps).calendar = s.calendar := by cases port <;> rfl
@[simp] theorem State.modPort_calendar (s : State) (port : Port) (f : PortState → PortState) :
    (s.modPort port f).calendar = s.calendar := by cases port <;> rfl
@[simp] theorem State.putPort_alarms (s : State) (port : Port) (ps : PortState) :
    (s.putPort port ps).alarms = s.alarms := by cases port <;> rfl
@[simp] theorem State.modPort_alarms (s : State) (port : Port) (f : PortState → PortState) :
    (s.modPort port f).alarms = s.alarms := by cases port <;> rfl
@[simp] theorem State.putPort_overflow (s : State) (port : Port) (ps : PortState) :
    (s.putPort port ps).overflow = s.overflow := by cases port <;> rfl
@[simp] theorem State.modPort_overflow (s : State) (port : Port) (f : PortState → PortState) :
    (s.modPort port f).overflow = s.overflow := by cases port <;> rfl
@[simp] theorem State.putPort_walk (s : State) (port : Port) (ps : PortState) :
    (s.putPort port ps).walk = s.walk := by cases port <;> rfl
@[simp] theorem State.modPort_walk (s : State) (port : Port) (f : PortState → PortState) :
    (s.modPort port f).walk = s.walk := by cases port <;> rfl
@[simp] theorem State.putPort_phase (s : State) (port : Port) (ps : PortState) :
    (s.putPort port ps).phase = s.phase := by cases port <;> rfl
@[simp] theorem State.modPort_phase (s : State) (port : Port) (f : PortState → PortState) :
    (s.modPort port f).phase = s.phase := by cases port <;> rfl
@[simp] theorem State.putPort_outputs (s : State) (port : Port) (ps : PortState) :
    (s.putPort port ps).outputs = s.outputs := by cases port <;> rfl
@[simp] theorem State.modPort_outputs (s : State) (port : Port) (f : PortState → PortState) :
    (s.modPort port f).outputs = s.outputs := by cases port <;> rfl

@[simp] theorem State.portState_putPort (s : State) (port : Port) (ps : PortState) :
    (s.putPort port ps).portState port = ps := by cases port <;> rfl

@[simp] theorem State.portState_modPort (s : State) (port : Port) (f : PortState → PortState) :
    (s.modPort port f).portState port = f (s.portState port) := by cases port <;> rfl

theorem State.portState_modPort_ne (s : State) {port q : Port} (f : PortState → PortState)
    (h : q ≠ port) : (s.modPort port f).portState q = s.portState q := by
  cases port <;> cases q <;> first | rfl | exact absurd rfl h

@[simp] theorem State.portState_drive (s : State) (port : Port) :
    s.drive.portState port = s.portState port := by cases port <;> rfl

@[simp] theorem State.line_drive (s : State) (n : LineNo) : s.drive.line n = s.line n := rfl
@[simp] theorem State.rec?_drive (s : State) (p : Nat) : s.drive.rec? p = s.rec? p := rfl
@[simp] theorem State.unit?_drive (s : State) (u : Nat) : s.drive.unit? u = s.unit? u := rfl
@[simp] theorem State.order?_drive (s : State) (k : Nat) : s.drive.order? k = s.order? k := rfl

end Sys2Proof.Machine
end

