-- ==== Sys2Proof/Laws/Events.lean ====
section
/-! SUPPORT. One event: what the agenda, the end of an event and the service of a request do. -/

namespace Sys2Proof.Machine

/-! ### The agenda -/

theorem run_nil (n : Nat) {s : State} (h : s.agenda = []) : run n s = s := by
  cases n with
  | zero => rfl
  | succ n => simp only [run, h]

theorem run_cons (n : Nat) {s : State} {t : Task} {ts : List Task} (h : s.agenda = t :: ts) :
    run (n + 1) s = run n (State.take { s with agenda := ts } t) := by simp only [run, h]

/-- One hand-off at the front is taken, and then the rest of the event runs with one hand-off less. -/
theorem run_passBound {s : State} {t : Task} {ts : List Task} (h : s.agenda = t :: ts) :
    run Config.passBound s = run 1048575 (State.take { s with agenda := ts } t) :=
  run_cons 1048575 h

/-! ### The end of an event -/

theorem State.settle_of_idle {s : State} (h : s.agenda = []) : s.settle = s.endSweep.arbitrate := by
  rw [State.settle, run_nil _ h]

theorem State.endSweep_of_not_sweep {s : State} (h : s.phase ≠ .sweep) : s.endSweep = s := by
  simp [State.endSweep, h]

@[simp] theorem State.endSweep_pending (s : State) : s.endSweep.pending = s.pending := by
  unfold State.endSweep; split <;> rfl
@[simp] theorem State.endSweep_inReset (s : State) : s.endSweep.inReset = s.inReset := by
  unfold State.endSweep; split <;> rfl
@[simp] theorem State.endSweep_clock (s : State) : s.endSweep.clock = s.clock := by
  unfold State.endSweep; split <;> rfl
@[simp] theorem State.endSweep_agenda (s : State) : s.endSweep.agenda = s.agenda := by
  unfold State.endSweep; split <;> rfl
@[simp] theorem State.endSweep_shortPulses (s : State) : s.endSweep.shortPulses = s.shortPulses := by
  unfold State.endSweep; split <;> rfl
@[simp] theorem State.endSweep_records (s : State) : s.endSweep.records = s.records := by
  unfold State.endSweep; split <;> rfl
@[simp] theorem State.endSweep_directory (s : State) : s.endSweep.directory = s.directory := by
  unfold State.endSweep; split <;> rfl
@[simp] theorem State.endSweep_zoneLists (s : State) : s.endSweep.zoneLists = s.zoneLists := by
  unfold State.endSweep; split <;> rfl
@[simp] theorem State.endSweep_slots (s : State) : s.endSweep.slots = s.slots := by
  unfold State.endSweep; split <;> rfl
@[simp] theorem State.endSweep_stack (s : State) : s.endSweep.stack = s.stack := by
  unfold State.endSweep; split <;> rfl
@[simp] theorem State.endSweep_pendingOrders (s : State) : s.endSweep.pendingOrders = s.pendingOrders := by
  unfold State.endSweep; split <;> rfl
@[simp] theorem State.endSweep_arrivals (s : State) : s.endSweep.arrivals = s.arrivals := by
  unfold State.endSweep; split <;> rfl
@[simp] theorem State.endSweep_eclosePin (s : State) : s.endSweep.eclosePin = s.eclosePin := by
  unfold State.endSweep; split <;> rfl
@[simp] theorem State.endSweep_ecloseState (s : State) : s.endSweep.ecloseState = s.ecloseState := by
  unfold State.endSweep; split <;> rfl
@[simp] theorem State.endSweep_ecloseTimer (s : State) : s.endSweep.ecloseTimer = s.ecloseTimer := by
  unfold State.endSweep; split <;> rfl
@[simp] theorem State.endSweep_units (s : State) : s.endSweep.units = s.units := by
  unfold State.endSweep; split <;> rfl
@[simp] theorem State.endSweep_shipM (s : State) : s.endSweep.shipM = s.shipM := by
  unfold State.endSweep; split <;> rfl
@[simp] theorem State.endSweep_shipE (s : State) : s.endSweep.shipE = s.shipE := by
  unfold State.endSweep; split <;> rfl
@[simp] theorem State.endSweep_shipStrokes (s : State) : s.endSweep.shipStrokes = s.shipStrokes := by
  unfold State.endSweep; split <;> rfl
@[simp] theorem State.endSweep_calendar (s : State) : s.endSweep.calendar = s.calendar := by
  unfold State.endSweep; split <;> rfl
@[simp] theorem State.endSweep_alarms (s : State) : s.endSweep.alarms = s.alarms := by
  unfold State.endSweep; split <;> rfl
@[simp] theorem State.endSweep_overflow (s : State) : s.endSweep.overflow = s.overflow := by
  unfold State.endSweep; split <;> rfl
@[simp] theorem State.endSweep_walk (s : State) : s.endSweep.walk = s.walk := by
  unfold State.endSweep; split <;> rfl
@[simp] theorem State.endSweep_portA (s : State) : s.endSweep.portA = s.portA := by
  unfold State.endSweep; split <;> rfl
@[simp] theorem State.endSweep_portB (s : State) : s.endSweep.portB = s.portB := by
  unfold State.endSweep; split <;> rfl
@[simp] theorem State.endSweep_outputs (s : State) : s.endSweep.outputs = s.outputs := by
  unfold State.endSweep; split <;> rfl

/-! With nothing on the agenda, the end of an event moves the phase and the lines alone. -/

theorem State.settle_pending {s : State} (h : s.agenda = []) : s.settle.pending = s.pending := by
  simp [State.settle_of_idle h]
theorem State.settle_inReset {s : State} (h : s.agenda = []) : s.settle.inReset = s.inReset := by
  simp [State.settle_of_idle h]
theorem State.settle_clock {s : State} (h : s.agenda = []) : s.settle.clock = s.clock := by
  simp [State.settle_of_idle h]
theorem State.settle_agenda {s : State} (h : s.agenda = []) : s.settle.agenda = s.agenda := by
  simp [State.settle_of_idle h]
theorem State.settle_shortPulses {s : State} (h : s.agenda = []) : s.settle.shortPulses = s.shortPulses := by
  simp [State.settle_of_idle h]
theorem State.settle_records {s : State} (h : s.agenda = []) : s.settle.records = s.records := by
  simp [State.settle_of_idle h]
theorem State.settle_directory {s : State} (h : s.agenda = []) : s.settle.directory = s.directory := by
  simp [State.settle_of_idle h]
theorem State.settle_zoneLists {s : State} (h : s.agenda = []) : s.settle.zoneLists = s.zoneLists := by
  simp [State.settle_of_idle h]
theorem State.settle_slots {s : State} (h : s.agenda = []) : s.settle.slots = s.slots := by
  simp [State.settle_of_idle h]
theorem State.settle_stack {s : State} (h : s.agenda = []) : s.settle.stack = s.stack := by
  simp [State.settle_of_idle h]
theorem State.settle_pendingOrders {s : State} (h : s.agenda = []) : s.settle.pendingOrders = s.pendingOrders := by
  simp [State.settle_of_idle h]
theorem State.settle_arrivals {s : State} (h : s.agenda = []) : s.settle.arrivals = s.arrivals := by
  simp [State.settle_of_idle h]
theorem State.settle_eclosePin {s : State} (h : s.agenda = []) : s.settle.eclosePin = s.eclosePin := by
  simp [State.settle_of_idle h]
theorem State.settle_ecloseState {s : State} (h : s.agenda = []) : s.settle.ecloseState = s.ecloseState := by
  simp [State.settle_of_idle h]
theorem State.settle_ecloseTimer {s : State} (h : s.agenda = []) : s.settle.ecloseTimer = s.ecloseTimer := by
  simp [State.settle_of_idle h]
theorem State.settle_units {s : State} (h : s.agenda = []) : s.settle.units = s.units := by
  simp [State.settle_of_idle h]
theorem State.settle_shipM {s : State} (h : s.agenda = []) : s.settle.shipM = s.shipM := by
  simp [State.settle_of_idle h]
theorem State.settle_shipE {s : State} (h : s.agenda = []) : s.settle.shipE = s.shipE := by
  simp [State.settle_of_idle h]
theorem State.settle_shipStrokes {s : State} (h : s.agenda = []) : s.settle.shipStrokes = s.shipStrokes := by
  simp [State.settle_of_idle h]
theorem State.settle_calendar {s : State} (h : s.agenda = []) : s.settle.calendar = s.calendar := by
  simp [State.settle_of_idle h]
theorem State.settle_alarms {s : State} (h : s.agenda = []) : s.settle.alarms = s.alarms := by
  simp [State.settle_of_idle h]
theorem State.settle_overflow {s : State} (h : s.agenda = []) : s.settle.overflow = s.overflow := by
  simp [State.settle_of_idle h]
theorem State.settle_walk {s : State} (h : s.agenda = []) : s.settle.walk = s.walk := by
  simp [State.settle_of_idle h]
theorem State.settle_portA {s : State} (h : s.agenda = []) : s.settle.portA = s.portA := by
  simp [State.settle_of_idle h]
theorem State.settle_portB {s : State} (h : s.agenda = []) : s.settle.portB = s.portB := by
  simp [State.settle_of_idle h]
theorem State.settle_outputs {s : State} (h : s.agenda = []) : s.settle.outputs = s.outputs := by
  simp [State.settle_of_idle h]

theorem State.settle_phase {s : State} (h : s.agenda = []) : s.settle.phase = s.endSweep.phase := by
  simp [State.settle_of_idle h]

theorem State.settle_portState {s : State} (h : s.agenda = []) (port : Port) :
    s.settle.portState port = s.portState port := by
  cases port
  · exact State.settle_portA h
  · exact State.settle_portB h

theorem State.settle_rec? {s : State} (h : s.agenda = []) (p : Nat) : s.settle.rec? p = s.rec? p := by
  simp only [State.rec?, State.settle_records h]

theorem State.settle_unit? {s : State} (h : s.agenda = []) (u : Nat) :
    s.settle.unit? u = s.unit? u := by simp only [State.unit?, State.settle_units h]

theorem State.settle_order? {s : State} (h : s.agenda = []) (k : Nat) :
    s.settle.order? k = s.order? k := by simp only [State.order?, State.settle_slots h]

/-! ### The lines in BUILD -/

@[simp] theorem State.putLine_line (s : State) (n : LineNo) : s.putLine n (s.line n) = s := by
  simp [State.putLine, State.line]

/-- In BUILD no line begins an exchange (R124). -/
theorem State.chooseExchange_build {s : State} (h : s.phase = .build) (n : LineNo) :
    s.chooseExchange n = s.line n := by simp [State.chooseExchange, h]

/-- In BUILD an event without hand-offs ends as it stands. -/
theorem State.settle_build {s : State} (ha : s.agenda = []) (h : s.phase = .build) : s.settle = s := by
  rw [State.settle_of_idle ha, State.endSweep_of_not_sweep (by simp [h])]
  simp [State.arbitrate, State.chooseExchange_build h]

/-- A line with an exchange in flight chooses nothing. -/
theorem State.chooseExchange_busy {s : State} {n : LineNo} (h : (s.line n).exchange.isSome) :
    s.chooseExchange n = s.line n := by simp [State.chooseExchange, h]

theorem State.line_putLine_ne (s : State) {n m : LineNo} (l : Line) (h : n ≠ m) :
    (s.putLine n l).line m = s.line m := by simp [State.line, State.putLine, PerLine.get_set_ne _ _ h]

@[simp] theorem State.line_putLine_self (s : State) (n : LineNo) (l : Line) :
    (s.putLine n l).line n = l := by simp [State.line, State.putLine]

/-- The choice of a line depends on the state of that line alone among the lines. -/
theorem State.chooseExchange_putLine_ne (s : State) {n m : LineNo} (l : Line) (h : n ≠ m) :
    (s.putLine n l).chooseExchange m = s.chooseExchange m := by
  have hl := s.line_putLine_ne l h
  have hr : ∀ ok, (s.putLine n l).firstRecord ok = s.firstRecord ok := fun _ => rfl
  have hm : ∀ k f, (s.putLine n l).nextMonitor k f = s.nextMonitor k f := fun _ _ => rfl
  have hc : ∀ x, (s.putLine n l).commandExchange x = s.commandExchange x := fun _ => rfl
  have hv : ∀ k c p q, (s.putLine n l).visitRecord k c p q = s.visitRecord k c p q :=
    fun _ _ _ _ => rfl
  have hcal : ∀ (fuel : Nat) (k : LineNo) (x : Line),
      (s.putLine n l).calendarExchange k x fuel = s.calendarExchange k x fuel := by
    intro fuel
    induction fuel with
    | zero => intros; rfl
    | succ fuel ih => intro k x; simp only [State.calendarExchange, ih, hm, hv, State.putLine_calendar]
  have hsf : ∀ k x c, (s.putLine n l).sweepFrom k x c = s.sweepFrom k x c := fun _ _ _ => rfl
  have hs : ∀ k x, (s.putLine n l).sweepExchange k x = s.sweepExchange k x := by
    intro k x; simp only [State.sweepExchange, hsf, hm]
  have hcl : ∀ k x, (s.putLine n l).closedLine k x = s.closedLine k x := fun _ _ => rfl
  simp only [State.chooseExchange, State.nextExchange, hl, hc, hs, hcal, hcl, State.putLine_phase,
    State.putLine_calendar]

/-- After the lines have chosen, each holds what it chose. -/
theorem State.arbitrate_line (s : State) (n : LineNo) :
    s.arbitrate.line n = s.chooseExchange n := by
  simp only [State.arbitrate]
  cases n
  · rw [State.line_putLine_ne _ _ (by decide), State.line_putLine_ne _ _ (by decide),
      State.line_putLine_ne _ _ (by decide), State.line_putLine_self]
  · rw [State.line_putLine_ne _ _ (by decide), State.line_putLine_ne _ _ (by decide),
      State.line_putLine_self, State.chooseExchange_putLine_ne _ _ (by decide)]
  · rw [State.line_putLine_ne _ _ (by decide), State.line_putLine_self,
      State.chooseExchange_putLine_ne _ _ (by decide), State.chooseExchange_putLine_ne _ _ (by decide)]
  · rw [State.line_putLine_self, State.chooseExchange_putLine_ne _ _ (by decide),
      State.chooseExchange_putLine_ne _ _ (by decide), State.chooseExchange_putLine_ne _ _ (by decide)]

/-! ### Events -/

theorem State.event_reset {s : State} (f : State → Option State) (h : s.inReset = true) :
    s.event f = s := by simp [State.event, h]

theorem State.event_none {s : State} {f : State → Option State} (h : f s = none) : s.event f = s := by
  simp only [State.event, h]; split <;> rfl

theorem State.event_some {s t : State} {f : State → Option State} (hr : s.inReset = false)
    (h : f s = some t) : s.event f = t.settle.drive := by simp [State.event, hr, h]

/-! ### Console requests (R188, R189) -/

section
variable {α : Type} {s : State} {port : Port} {code : Nat} {serve : α → State → Served}

theorem State.request_reset (body : Body α) (h : s.inReset = true) :
    s.request port code body serve = s := by simp [State.request, h]

theorem State.request_serving (body : Body α) (h : s.inReset = false)
    (hp : (s.portState port).isIdle = false) :
    s.request port code body serve = (s.modPort port PortState.overrun).drive := by
  simp [State.request, h, hp]

theorem State.request_badLength (h : s.inReset = false) (hp : (s.portState port).isIdle = true) :
    s.request port code .badLength serve
      = (s.modPort port fun ps => ps.respond code (.badField, .empty)).drive := by
  simp [State.request, h, hp]

theorem State.request_answer {a : α} {st : Status} {c : Content} (h : s.inReset = false)
    (hp : (s.portState port).isIdle = true) (hs : serve a s = .answer st c) :
    s.request port code (.fields a) serve
      = (s.modPort port fun ps => ps.respond code (st, c)).drive := by
  simp [State.request, h, hp, hs]

theorem State.request_change {a : α} {t : State} {reply : State → Status × Content}
    (h : s.inReset = false) (hp : (s.portState port).isIdle = true)
    (hs : serve a s = .change t reply) :
    s.request port code (.fields a) serve
      = (t.settle.modPort port fun ps => ps.respond code (reply t.settle)).drive := by
  simp [State.request, h, hp, hs]
end

theorem PortState.isIdle_iff (ps : PortState) : ps.isIdle = true ↔ ps.service = .idle := by
  simp [PortState.isIdle]

@[simp] theorem PortState.respond_service (ps : PortState) (code : Nat) (a : Status × Content) :
    (ps.respond code a).service
      = .serving { type := BitVec.ofNat 8 (code + 0x80), status := a.1, content := a.2 } := rfl
@[simp] theorem PortState.respond_marks (ps : PortState) (code : Nat) (a : Status × Content) :
    (ps.respond code a).marks = ps.marks := rfl
@[simp] theorem PortState.respond_freed (ps : PortState) (code : Nat) (a : Status × Content) :
    (ps.respond code a).freed = ps.freed := rfl
@[simp] theorem PortState.respond_badFrames (ps : PortState) (code : Nat) (a : Status × Content) :
    (ps.respond code a).badFrames = ps.badFrames := rfl
@[simp] theorem PortState.respond_overruns (ps : PortState) (code : Nat) (a : Status × Content) :
    (ps.respond code a).overruns = ps.overruns := rfl

/-! ### Every command answers a next state -/

theorem exec_next (i : Instr) (s : State) : ∃ t, exec i s = .next t := by
  cases i <;> exact ⟨_, rfl⟩

theorem step_next (s : State) : ∃ t, step s = .next t := by
  unfold step
  split
  · exact exec_next _ _
  · exact ⟨_, rfl⟩

end Sys2Proof.Machine
end

