-- ==== Sys2Proof/Laws/Closed.lean ====
section
/-! SUPPORT. What the hand-offs of an event keep. A predicate that the few primitive updates keep
(`Closed`) is kept by every shared operation, by every hand-off, and by the end of the event. Frames,
ranges and the canonical form are all such predicates. -/

namespace Sys2Proof.Machine

/-- A record altered by a hand-off: its configured fields stay, and its counts stay in range. -/
structure Record.Follows (r r' : Record) : Prop where
  cfg : r'.cfg = r.cfg
  missed : r.missed ≤ 3 → r'.missed ≤ 3
  attempts : r.attempts ≤ 3 → r'.attempts ≤ 3

/-- A unit altered by a hand-off: its set fields stay, its charge stays within the capacity and its
strokes within the concurrency. -/
structure PowerUnit.Follows (w w' : PowerUnit) : Prop where
  capacity : w'.capacity = w.capacity
  floor : w'.floor = w.floor
  rate : w'.rate = w.rate
  concurrency : w'.concurrency = w.concurrency
  spacing : w'.spacing = w.spacing
  tolerance : w'.tolerance = w.tolerance
  charge : w.charge ≤ 1000 * w.capacity → w'.charge ≤ 1000 * w.capacity
  strokes : w.strokes ≤ w.concurrency → w'.strokes ≤ w.concurrency
  monitorMissed : w.monitorMissed ≤ 3 → w'.monitorMissed ≤ 3

/-- An order altered by a hand-off. -/
structure Order.Follows (o o' : Order) : Prop where
  priority : o'.priority = o.priority
  repeats : o.repeats ≤ 65535 → o'.repeats ≤ 65535

/-- Closed under the primitive updates that hand-offs are made of. -/
structure Closed (P : State → Prop) : Prop where
  agenda : ∀ {s : State} (ts : List Task), P s → P { s with agenda := ts }
  putRec : ∀ {s : State} {p : Nat} {r r' : Record}, P s → s.rec? p = some r → r.Follows r' →
    P (s.putRec p r')
  freePosition : ∀ {s : State} {p : Nat} {r : Record} (why : FreedReason), P s → s.rec? p = some r →
    P (s.freePosition p r why)
  putUnit : ∀ {s : State} {u : Nat} {w w' : PowerUnit}, P s → s.unit? u = some w → w.Follows w' →
    P (s.putUnit u w')
  putOrder : ∀ {s : State} {k : Nat} {o o' : Order}, P s → s.order? k = some o → o.Follows o' →
    P (s.putOrder k o')
  putLine : ∀ {s : State} {n : LineNo} {l : Line}, P s → l.window = (s.line n).window →
    P (s.putLine n l)
  modAllLines : ∀ {s : State} {f : Line → Line}, P s → (∀ l, (f l).window = l.window) →
    P (s.modAllLines f)
  markBoth : ∀ {s : State} (p : Nat), P s → P (s.markBoth p)
  alarms : ∀ {s : State} {l : List Alarm}, P s → (s.alarms.length ≤ 64 → l.length ≤ 64) →
    P { s with alarms := l }
  overflow : ∀ {s : State} (b : Bool), P s → P { s with overflow := b }
  shipStrokes : ∀ {s : State} {n : Nat}, P s →
    (s.shipStrokes ≤ s.shipM + s.shipE → n ≤ s.shipM + s.shipE) → P { s with shipStrokes := n }
  stack : ∀ {s : State} (l : List Nat), P s → P { s with stack := l }
  pendingOrders : ∀ {s : State} (l : List Nat), P s → P { s with pendingOrders := l }
  walk : ∀ {s : State} {w : Walk}, P s → w.number = s.walk.number → P { s with walk := w }

theorem Record.Follows.refl (r : Record) : r.Follows r := ⟨rfl, id, id⟩

variable {P : State → Prop} {s : State}

theorem foldl_keeps {α : Type} {f : State → α → State} (hf : ∀ s a, P s → P (f s a)) :
    ∀ (l : List α) {s : State}, P s → P (l.foldl f s)
  | [], _, hs => hs
  | a :: l, s, hs => foldl_keeps hf l (hf s a hs)

/-! ### Agenda, records, units, orders, lines -/

theorem State.first_keeps (h : Closed P) (ts : List Task) (hs : P s) : P (s.first ts) := h.agenda _ hs

theorem State.later_keeps (h : Closed P) (ts : List Task) (hs : P s) : P (s.later ts) := h.agenda _ hs

theorem State.modRec_keeps (h : Closed P) {p : Nat} {f : Record → Record}
    (hf : ∀ r : Record, r.Follows (f r)) (hs : P s) : P (s.modRec p f) := by
  unfold State.modRec
  split
  · rename_i r hr
    split
    · exact h.putRec hs hr (hf r)
    · exact h.markBoth p (h.putRec hs hr (hf r))
  · exact hs

theorem State.modUnit_keeps (h : Closed P) {u : Nat} {f : PowerUnit → PowerUnit}
    (hf : ∀ w, s.unit? u = some w → w.Follows (f w)) (hs : P s) : P (s.modUnit u f) := by
  unfold State.modUnit
  split
  · exact h.putUnit hs ‹_› (hf _ ‹_›)
  · exact hs

theorem State.modOrder_keeps (h : Closed P) {k : Nat} {f : Order → Order}
    (hf : ∀ o : Order, o.Follows (f o)) (hs : P s) : P (s.modOrder k f) := by
  unfold State.modOrder
  split
  · exact h.putOrder hs ‹_› (hf _)
  · exact hs

theorem State.modLine_keeps (h : Closed P) {n : LineNo} {f : Line → Line}
    (hf : ∀ l, (f l).window = l.window) (hs : P s) : P (s.modLine n f) := h.putLine hs (hf _)

/-! ### Alarms -/

theorem State.listAlarm_keeps (h : Closed P) (x : Subject) (k : FaultKind) (hs : P s) :
    P (s.listAlarm x k) := by
  unfold State.listAlarm
  dsimp only
  split
  · exact h.alarms hs fun _ => by simpa using ‹_›
  · exact h.overflow _ hs

theorem State.setAlarm_keeps (h : Closed P) (x : Subject) (k : FaultKind) (st : AlarmState)
    (hs : P s) : P (s.setAlarm x k st) := h.alarms hs fun hl => by simpa using hl

theorem State.relist_keeps (h : Closed P) (hs : P s) : P s.relist := by
  unfold State.relist
  split
  · exact State.listAlarm_keeps h _ _ hs
  · exact h.overflow _ hs

theorem State.removeAlarm_keeps (h : Closed P) (x : Subject) (k : FaultKind) (hs : P s) :
    P (s.removeAlarm x k) := by
  unfold State.removeAlarm
  split
  · exact State.relist_keeps h (h.alarms hs fun hl => (List.length_filter_le _ _).trans hl)
  · exact hs

theorem State.relistTimes_keeps (h : Closed P) :
    ∀ (n : Nat) {s : State}, P s → P (s.relistTimes n)
  | 0, _, hs => hs
  | n + 1, _, hs => State.relistTimes_keeps h n (State.relist_keeps h hs)

theorem State.removeAlarmsOf_keeps (h : Closed P) (x : Subject) (hs : P s) :
    P (s.removeAlarmsOf x) :=
  State.relistTimes_keeps h _ (h.alarms hs fun hl => (List.length_filter_le _ _).trans hl)

theorem State.listCause_keeps (h : Closed P) (x : Subject) (k : FaultKind) (hs : P s) :
    P (s.listCause x k) := by
  unfold State.listCause
  repeat' split
  all_goals
    repeat' first
      | assumption
      | with_reducible apply State.setAlarm_keeps h
      | with_reducible apply State.listAlarm_keeps h

theorem State.clearCause_keeps (h : Closed P) (x : Subject) (k : FaultKind) (hs : P s) :
    P (s.clearCause x k) := by
  unfold State.clearCause
  repeat' split
  all_goals
    repeat' first
      | assumption
      | with_reducible apply State.setAlarm_keeps h
      | with_reducible apply State.removeAlarm_keeps h

/-! ### Causes -/

theorem State.reportDoorCause_keeps (h : Closed P) (p : Nat) (k : FaultKind) (hs : P s) :
    P (s.reportDoorCause p k) := by
  unfold State.reportDoorCause
  repeat' split
  all_goals
    repeat' first
      | assumption
      | with_reducible apply State.listCause_keeps h
      | with_reducible apply State.modRec_keeps h
      | exact fun _ => ⟨rfl, id, id⟩

theorem State.causeOn_keeps (h : Closed P) (p : Nat) (k : FaultKind) (hs : P s) : P (s.causeOn p k) := by
  unfold State.causeOn
  dsimp only
  repeat' split
  all_goals
    repeat' first
      | assumption
      | with_reducible apply State.first_keeps h
      | with_reducible apply State.reportDoorCause_keeps h
      | with_reducible apply State.modRec_keeps h
      | exact fun _ => ⟨rfl, id, id⟩

theorem State.causeOff_keeps (h : Closed P) (p : Nat) (k : FaultKind) (hs : P s) : P (s.causeOff p k) := by
  unfold State.causeOff
  repeat' split
  all_goals
    repeat' first
      | assumption
      | with_reducible apply State.clearCause_keeps h
      | with_reducible apply State.modRec_keeps h
      | exact fun _ => ⟨rfl, id, id⟩

theorem State.setDoorCause_keeps (h : Closed P) (p : Nat) (k : FaultKind) (b : Bool) (hs : P s) :
    P (s.setDoorCause p k b) := by
  unfold State.setDoorCause
  repeat' split
  all_goals
    repeat' first
      | assumption
      | with_reducible apply State.causeOn_keeps h
      | with_reducible apply State.causeOff_keeps h

theorem State.setUnitCause_keeps (h : Closed P) (u : Nat) (k : FaultKind) (b : Bool) (hs : P s) :
    P (s.setUnitCause u k b) := by
  unfold State.setUnitCause
  split
  · rename_i w hw
    have follows : ∀ ks, w.Follows { w with causes := ks } := fun ks =>
      ⟨rfl, rfl, rfl, rfl, rfl, rfl, id, id, id⟩
    split
    · exact hs
    · split
      · dsimp only
        split
        · exact State.listCause_keeps h _ _ (h.putUnit hs hw (follows _))
        · exact State.modUnit_keeps h (fun _ _ => ⟨rfl, rfl, rfl, rfl, rfl, rfl, id, id, id⟩)
            (h.putUnit hs hw (follows _))
      · exact State.clearCause_keeps h _ _ (h.putUnit hs hw (follows _))
  · exact hs

/-! ### Power units -/

theorem PowerUnit.follows_accrue (w : PowerUnit) (now : Nat) : w.Follows (w.accrue now) := by
  unfold PowerUnit.accrue
  split
  · exact ⟨rfl, rfl, rfl, rfl, rfl, rfl, fun _ => Nat.min_le_left _ _, id, id⟩
  · exact ⟨rfl, rfl, rfl, rfl, rfl, rfl, id, id, id⟩

theorem State.judgeUL_keeps (h : Closed P) (u : Nat) (hs : P s) : P (s.judgeUL u) := by
  unfold State.judgeUL
  repeat' split
  all_goals
    repeat' first
      | assumption
      | with_reducible apply State.setUnitCause_keeps h

theorem State.touchUnit_keeps (h : Closed P) (u : Nat) (hs : P s) : P (s.touchUnit u) :=
  State.judgeUL_keeps h u (State.modUnit_keeps h (fun w _ => w.follows_accrue _) hs)

theorem State.setQueue_keeps (h : Closed P) (u : Nat) (q : List Nat) (hs : P s) :
    P (s.setQueue u q) := by
  have ht : P (s.touchUnit u) := State.touchUnit_keeps h u hs
  unfold State.setQueue
  dsimp only
  split
  · rename_i w hw
    have hp := h.putUnit ht hw (w' := { w with queue := q }) ⟨rfl, rfl, rfl, rfl, rfl, rfl, id, id, id⟩
    split
    · exact hp
    · apply State.later_keeps h
      split
      · split
        · exact State.modRec_keeps h (fun _ => ⟨rfl, id, id⟩) hp
        · exact hp
      · exact hp
  · exact ht

theorem State.joinQueue_keeps (h : Closed P) (u p : Nat) (hs : P s) : P (s.joinQueue u p) :=
  State.setQueue_keeps h _ _ hs

theorem State.leaveQueue_keeps (h : Closed P) (u p : Nat) (hs : P s) : P (s.leaveQueue u p) :=
  State.setQueue_keeps h _ _ hs

theorem State.replaceInQueue_keeps (h : Closed P) (u p : Nat) (hs : P s) :
    P (s.replaceInQueue u p) := State.setQueue_keeps h _ _ hs

theorem State.startEvaluation_keeps (h : Closed P) (u : Nat) (hs : P s) : P (s.startEvaluation u) :=
  State.modUnit_keeps h (fun _ _ => ⟨rfl, rfl, rfl, rfl, rfl, rfl, id, id, id⟩)
    (State.touchUnit_keeps h u hs)

theorem State.armTimer_keeps (h : Closed P) (u p : Nat) (why : WaitReason) (hs : P s) :
    P (s.armTimer u p why) := by
  unfold State.armTimer
  split
  · rename_i w r hw hr
    repeat' split
    all_goals first
      | exact hs
      | exact h.putUnit hs hw ⟨rfl, rfl, rfl, rfl, rfl, rfl, id, id, id⟩
  · exact hs

theorem State.headWaits_keeps (h : Closed P) (u p : Nat) (why : WaitReason) (hs : P s) :
    P (s.headWaits u p why) :=
  State.armTimer_keeps h _ _ _ (State.modRec_keeps h (fun _ => ⟨rfl, id, id⟩) hs)

theorem State.failedTest_none {w : PowerUnit} {p : Nat} {r : Record} {pf : PowerFields}
    (hf : s.failedTest w p r pf = none) :
    w.strokes < w.concurrency ∧ s.shipStrokes < s.shipM + s.shipE := by
  unfold State.failedTest at hf
  by_cases h1 : w.strokes < w.concurrency
  · by_cases h4 : s.shipStrokes < s.shipM + s.shipE
    · exact ⟨h1, h4⟩
    · have h5 : ¬ (s.shipStrokes < s.shipM
          ∨ ((r.queueClass.map QueueClass.tier) = some .emergency
            ∧ s.shipStrokes < s.shipM + s.shipE)) := by omega
      simp only [h5, not_false_eq_true, if_true] at hf
      repeat' split at hf
      all_goals cases hf
  · simp [h1] at hf

/-- A head that passes the tests finds the unit below its concurrency and the ship below its budget. -/
theorem State.headTest_passes {u p cost : Nat} (ht : s.headTest u = .passes p cost) :
    (∃ w, s.unit? u = some w ∧ w.strokes < w.concurrency) ∧ s.shipStrokes < s.shipM + s.shipE := by
  unfold State.headTest at ht
  split at ht
  · cases ht
  · rename_i w hw
    split at ht
    · cases ht
    · split at ht
      · cases ht
      · split at ht
        · cases ht
        · split at ht
          · cases ht
          · split at ht
            · cases ht
            · rename_i hf
              have ⟨h1, h4⟩ := State.failedTest_none hf
              exact ⟨⟨w, hw, h1⟩, h4⟩

theorem State.debit_keeps (h : Closed P) {u p cost : Nat} (q c : Nat)
    (ht : s.headTest u = .passes p cost) (hs : P s) : P (s.debit u q c) := by
  obtain ⟨⟨w, hw, hlt⟩, hship⟩ := State.headTest_passes ht
  have hu : P (s.modUnit u fun w =>
      { w with charge := w.charge - 1000 * c, strokes := w.strokes + 1,
               lastStart := some s.clock, queue := removeNat q w.queue }) := by
    refine State.modUnit_keeps h (fun w' hw' => ?_) hs
    obtain rfl : w = w' := by rw [hw] at hw'; exact Option.some.inj hw'
    exact ⟨rfl, rfl, rfl, rfl, rfl, rfl, fun hc => (Nat.sub_le _ _).trans hc, fun _ => hlt, id⟩
  refine h.shipStrokes hu fun _ => ?_
  simp only [State.modUnit, hw, State.putUnit_shipStrokes, State.putUnit_shipM, State.putUnit_shipE]
  exact hship

theorem State.creditStroke_keeps (h : Closed P) (u refund : Nat) (hs : P s) :
    P (s.creditStroke u refund) := by
  unfold State.creditStroke
  refine State.judgeUL_keeps h u (h.shipStrokes (State.modUnit_keeps h (fun w _ => ?_)
    (State.touchUnit_keeps h u hs)) fun hl => (Nat.sub_le _ _).trans hl)
  refine ⟨rfl, rfl, rfl, rfl, rfl, rfl, fun hc => ?_, fun hl => (Nat.sub_le _ _).trans hl, id⟩
  dsimp only
  split
  · exact hc
  · exact Nat.min_le_left _ _

/-! ### Lines -/

theorem Line.window_enqueue (l : Line) (p : Nat) (c : DoorCommand) (once : Bool) :
    (l.enqueue p c once).window = l.window := by
  unfold Line.enqueue
  dsimp only
  repeat' split
  all_goals rfl

theorem State.queueCommand_keeps (h : Closed P) (p : Nat) (c : DoorCommand) (hs : P s) :
    P (s.queueCommand p c) := by
  unfold State.queueCommand
  repeat' split
  · exact State.modLine_keeps h (fun l => l.window_enqueue p c _) hs
  · exact State.first_keeps h _ hs
  · exact hs

theorem State.requeue_keeps (h : Closed P) (n : LineNo) (p : Nat) (c : DoorCommand) (hs : P s) :
    P (s.requeue n p c) := by
  unfold State.requeue
  split
  · exact hs
  · exact State.modLine_keeps h (fun _ => rfl) hs

theorem State.stopSweeps_keeps (h : Closed P) (hs : P s) : P s.stopSweeps :=
  h.modAllLines hs fun _ => rfl

theorem State.rejoinSweep_keeps (h : Closed P) (p : Nat) (hs : P s) : P (s.rejoinSweep p) := by
  unfold State.rejoinSweep
  repeat' split
  · exact State.modLine_keeps h (fun _ => rfl) hs
  · exact hs
  · exact hs

/-! ### Orders and counting -/

theorem Order.follows_count (o : Order) (p : Nat) (m : MemberOutcome) : o.Follows (o.count p m) := by
  unfold Order.count
  split
  · exact ⟨rfl, id⟩
  · exact ⟨rfl, id⟩

theorem State.countMember_keeps (h : Closed P) (k p : Nat) (m : MemberOutcome) (hs : P s) :
    P (s.countMember k p m) := by
  unfold State.countMember
  split
  · exact State.modOrder_keeps h (fun o => o.follows_count p m) hs
  · exact hs

theorem State.charge_keeps (h : Closed P) (k : Option Nat) (p : Nat) (why : FailReason) (hs : P s) :
    P (s.charge k p why) := by
  unfold State.charge
  repeat' split
  all_goals
    repeat' first
      | assumption
      | with_reducible apply State.countMember_keeps h

theorem State.chargeAll_keeps (h : Closed P) (p : Nat) (why : FailReason) (hs : P s) :
    P (s.chargeAll p why) := foldl_keeps (fun _ _ => State.countMember_keeps h _ _ _) _ hs

/-! ### Motion -/

theorem State.faultSees_keeps (h : Closed P) (p : Nat) (st : Indication) (hs : P s) :
    P (s.faultSees p st) := by
  unfold State.faultSees
  repeat' split
  all_goals
    repeat' first
      | assumption
      | with_reducible apply State.causeOff_keeps h

theorem State.moveRec_keeps (h : Closed P) {p : Nat} {f : Record → Record}
    (hf : ∀ r : Record, r.Follows (f r)) (hs : P s) : P (s.moveRec p f) := by
  unfold State.moveRec
  repeat' split
  · exact State.faultSees_keeps h _ _
      (State.modRec_keeps h (fun r => ⟨(hf r).cfg, (hf r).missed, (hf r).attempts⟩) hs)
  · exact State.modRec_keeps h hf hs
  · exact hs

theorem State.endStroke_keeps (h : Closed P) {p : Nat} {b : Bool} {f : Record → Record}
    (hf : ∀ r : Record, r.Follows (f r)) (hs : P s) : P (s.endStroke p b f) := by
  have hm : P (s.moveRec p fun r => { f r with heldDebit := none }) :=
    State.moveRec_keeps h (fun r => ⟨(hf r).cfg, (hf r).missed, (hf r).attempts⟩) hs
  unfold State.endStroke
  dsimp only
  repeat' split
  · exact State.creditStroke_keeps h _ _ hm
  · exact State.creditStroke_keeps h _ _ hm
  · exact hm
  · exact hs

theorem State.leaveWait_keeps (h : Closed P) (p : Nat) (hs : P s) : P (s.leaveWait p) := by
  unfold State.leaveWait
  dsimp only
  repeat' split
  all_goals
    repeat' first
      | assumption
      | with_reducible apply State.leaveQueue_keeps h
      | with_reducible apply State.moveRec_keeps h
      | exact fun _ => ⟨rfl, id, id⟩

theorem State.enterWait_keeps (h : Closed P) (p : Nat) (pu : Purpose) (t : Option Target) (k : Option Nat) (hs : P s) :
    P (s.enterWait p pu t k) := by
  unfold State.enterWait
  dsimp only
  repeat' split
  all_goals
    repeat' first
      | assumption
      | with_reducible apply State.joinQueue_keeps h
      | with_reducible apply State.moveRec_keeps h
      | exact fun _ => ⟨rfl, id, id⟩

theorem State.giveTarget_keeps (h : Closed P) (p : Nat) (t : Target) (pu : Purpose) (hs : P s) :
    P (s.giveTarget p t pu) := State.enterWait_keeps h _ _ _ _ hs

theorem State.rekey_keeps (h : Closed P) (p : Nat) (hs : P s) : P (s.rekey p) := by
  unfold State.rekey
  dsimp only
  repeat' split
  all_goals
    repeat' first
      | assumption
      | with_reducible apply State.replaceInQueue_keeps h
      | with_reducible apply State.modRec_keeps h
      | exact fun _ => ⟨rfl, id, id⟩

theorem State.alreadyThere_keeps (h : Closed P) (p : Nat) (r : Record) (hs : P s) :
    P (s.alreadyThere p r) := by
  unfold State.alreadyThere
  dsimp only
  all_goals
    repeat' first
      | assumption
      | with_reducible apply State.first_keeps h
      | with_reducible apply State.causeOff_keeps h
      | with_reducible apply State.endStroke_keeps h
      | exact fun _ => ⟨rfl, id, fun _ => Nat.zero_le 3⟩

theorem State.enterMoving_keeps (h : Closed P) (p : Nat) (hs : P s) : P (s.enterMoving p) := by
  unfold State.enterMoving
  dsimp only
  repeat' split
  all_goals
    repeat' first
      | assumption
      | with_reducible apply State.alreadyThere_keeps h
      | with_reducible apply State.queueCommand_keeps h
      | with_reducible apply State.moveRec_keeps h
      | exact fun _ => ⟨rfl, id, id⟩

theorem State.takeAdmission_keeps (h : Closed P) (p cost : Nat) (hs : P s) :
    P (s.takeAdmission p cost) := by
  unfold State.takeAdmission
  dsimp only
  repeat' split
  all_goals
    repeat' first
      | assumption
      | with_reducible apply State.enterMoving_keeps h
      | with_reducible apply State.queueCommand_keeps h
      | with_reducible apply State.causeOff_keeps h
      | with_reducible apply State.moveRec_keeps h
      | exact fun _ => ⟨rfl, id, id⟩

theorem State.motionSees_keeps (h : Closed P) (p : Nat) (st : Indication) (hs : P s) :
    P (s.motionSees p st) := by
  unfold State.motionSees
  dsimp only
  repeat' split
  all_goals
    repeat' first
      | assumption
      | with_reducible apply State.first_keeps h
      | with_reducible apply State.causeOff_keeps h
      | with_reducible apply State.endStroke_keeps h
      | exact fun _ => ⟨rfl, id, fun _ => Nat.zero_le 3⟩

theorem State.causeAround_keeps (h : Closed P) (p : Nat) (k : FaultKind) (f : State → State)
    (hf : ∀ {t : State}, P t → P (f t)) (hs : P s) : P (s.causeAround p k f) := by
  unfold State.causeAround
  split
  · exact hf hs
  · exact State.reportDoorCause_keeps h _ _ (hf (State.modRec_keeps h (fun _ => ⟨rfl, id, id⟩) hs))

theorem State.deadlineExpires_keeps (h : Closed P) (p : Nat) (r : Record) (hs : P s) :
    P (s.deadlineExpires p r) := by
  unfold State.deadlineExpires
  dsimp only
  all_goals
    repeat' first
      | assumption
      | with_reducible apply State.first_keeps h
      | with_reducible apply State.charge_keeps h
      | with_reducible apply State.endStroke_keeps h
      | with_reducible refine State.causeAround_keeps h _ _ _ (fun {_} _ => ?_) ?_
      | with_reducible apply State.queueCommand_keeps h
      | exact fun _ => ⟨rfl, id, id⟩

theorem State.obstructed_keeps (h : Closed P) (p : Nat) (hs : P s) : P (s.obstructed p) := by
  unfold State.obstructed
  dsimp only
  repeat' split
  all_goals
    repeat' first
      | assumption
      | with_reducible apply State.first_keeps h
      | with_reducible apply State.charge_keeps h
      | with_reducible apply State.endStroke_keeps h
      | with_reducible refine State.causeAround_keeps h _ _ _ (fun {_} _ => ?_) ?_
      | with_reducible apply State.queueCommand_keeps h
      | exact fun _ => ⟨rfl, id, fun _ => Nat.zero_le 3⟩
      | exact fun _ => ⟨rfl, id, fun _ => Nat.min_le_left _ _⟩

theorem State.checkPassage_keeps (h : Closed P) (p : Nat) (b : Bool) (hs : P s) :
    P (s.checkPassage p b) := by
  unfold State.checkPassage
  dsimp only
  repeat' split
  all_goals
    repeat' first
      | assumption
      | with_reducible apply State.enterWait_keeps h
      | with_reducible apply State.first_keeps h
      | with_reducible apply State.queueCommand_keeps h
      | with_reducible apply State.modRec_keeps h
      | exact fun _ => ⟨rfl, id, id⟩

theorem State.localRequest_keeps (h : Closed P) (p : Nat) (hs : P s) : P (s.localRequest p) := by
  unfold State.localRequest
  repeat' split
  all_goals
    repeat' first
      | assumption
      | with_reducible apply State.checkPassage_keeps h
      | with_reducible apply State.first_keeps h
      | with_reducible apply State.leaveWait_keeps h
      | with_reducible apply State.endStroke_keeps h
      | with_reducible apply State.queueCommand_keeps h
      | with_reducible apply State.moveRec_keeps h
      | exact fun _ => ⟨rfl, id, id⟩

theorem State.localCheck_keeps (h : Closed P) (p : Nat) (hs : P s) : P (s.localCheck p) := by
  unfold State.localCheck
  repeat' split
  all_goals
    repeat' first
      | assumption
      | with_reducible apply State.checkPassage_keeps h
      | with_reducible apply State.localRequest_keeps h

theorem State.localRelease_keeps (h : Closed P) (p : Nat) (hs : P s) : P (s.localRelease p) := by
  unfold State.localRelease
  dsimp only
  repeat' split
  all_goals
    repeat' first
      | assumption
      | with_reducible apply State.first_keeps h
      | with_reducible apply State.leaveWait_keeps h
      | with_reducible apply State.endStroke_keeps h
      | exact fun _ => ⟨rfl, id, id⟩

theorem State.localFlags_keeps (h : Closed P) (p : Nat) (b c : Bool) (hs : P s) :
    P (s.localFlags p b c) := by
  unfold State.localFlags
  dsimp only
  repeat' split
  all_goals
    repeat' first
      | assumption
      | with_reducible apply State.localRelease_keeps h
      | with_reducible apply State.localRequest_keeps h
      | with_reducible apply State.queueCommand_keeps h
      | with_reducible apply State.causeOff_keeps h

theorem State.recloseDecision_keeps (h : Closed P) (p : Nat) (hs : P s) : P (s.recloseDecision p) := by
  unfold State.recloseDecision
  repeat' split
  all_goals
    repeat' first
      | assumption
      | with_reducible apply State.giveTarget_keeps h
      | with_reducible apply State.first_keeps h
      | with_reducible apply State.moveRec_keeps h
      | exact fun _ => ⟨rfl, id, id⟩

theorem State.pauseExpires_keeps (h : Closed P) (p : Nat) (r : Record) (hs : P s) :
    P (s.pauseExpires p r) := by
  unfold State.pauseExpires
  repeat' split
  all_goals
    repeat' first
      | assumption
      | with_reducible apply State.recloseDecision_keeps h
      | with_reducible apply State.first_keeps h
      | with_reducible apply State.moveRec_keeps h
      | exact fun _ => ⟨rfl, id, id⟩

theorem State.becomesUndrivable_keeps (h : Closed P) (p : Nat) (hs : P s) : P (s.becomesUndrivable p) := by
  unfold State.becomesUndrivable
  dsimp only
  repeat' split
  all_goals
    repeat' first
      | assumption
      | with_reducible apply State.first_keeps h
      | with_reducible apply State.charge_keeps h
      | with_reducible apply State.leaveWait_keeps h
      | with_reducible apply State.endStroke_keeps h
      | with_reducible apply State.queueCommand_keeps h
      | with_reducible apply State.moveRec_keeps h
      | exact fun _ => ⟨rfl, id, id⟩

theorem State.commandDropped_keeps (h : Closed P) (p : Nat) (c : DoorCommand) (b : Bool) (hs : P s) :
    P (s.commandDropped p c b) := by
  unfold State.commandDropped
  dsimp only
  repeat' split
  all_goals
    repeat' first
      | assumption
      | with_reducible apply State.later_keeps h
      | with_reducible apply State.first_keeps h
      | with_reducible apply State.charge_keeps h
      | with_reducible apply State.endStroke_keeps h
      | exact fun _ => ⟨rfl, id, id⟩

theorem State.doorLineLost_keeps (h : Closed P) (p : Nat) (hs : P s) : P (s.doorLineLost p) := by
  unfold State.doorLineLost
  repeat' split
  all_goals
    repeat' first
      | assumption
      | with_reducible apply State.later_keeps h
      | with_reducible apply State.charge_keeps h
      | with_reducible apply State.leaveWait_keeps h
      | with_reducible apply State.endStroke_keeps h
      | with_reducible apply State.moveRec_keeps h
      | exact fun _ => ⟨rfl, id, id⟩

theorem State.lineLost_keeps (h : Closed P) (n : LineNo) (hs : P s) : P (s.lineLost n) :=
  foldl_keeps (fun _ _ => State.doorLineLost_keeps h _) _ hs

/-! ### The order engine -/

theorem State.evaluateMember_keeps (h : Closed P) (k p : Nat) (hs : P s) : P (s.evaluateMember k p) := by
  unfold State.evaluateMember
  repeat' split
  all_goals
    repeat' first
      | assumption
      | with_reducible apply State.giveTarget_keeps h
      | with_reducible apply State.countMember_keeps h

theorem State.evaluateAtRest_keeps (h : Closed P) (p : Nat) (hs : P s) : P (s.evaluateAtRest p) := by
  unfold State.evaluateAtRest
  repeat' split
  all_goals
    repeat' first
      | assumption
      | with_reducible apply State.first_keeps h
      | with_reducible apply State.evaluateMember_keeps h

theorem State.holdMember_keeps (h : Closed P) (p : Nat) (hs : P s) : P (s.holdMember p) := by
  unfold State.holdMember
  repeat' split
  all_goals
    repeat' first
      | assumption
      | with_reducible apply State.later_keeps h
      | with_reducible apply State.leaveWait_keeps h
      | with_reducible apply State.endStroke_keeps h
      | with_reducible apply State.queueCommand_keeps h
      | exact fun _ => ⟨rfl, id, id⟩

theorem State.activate_keeps (h : Closed P) (k : Nat) (hs : P s) : P (s.activate k) := by
  unfold State.activate
  repeat' split
  all_goals first
    | exact hs
    | exact foldl_keeps (fun _ _ => State.holdMember_keeps h _) _ hs
    | exact foldl_keeps (fun _ _ => State.evaluateMember_keeps h _ _) _ hs


theorem State.suspendDoor_keeps (h : Closed P) (p : Nat) (hs : P s) : P (s.suspendDoor p) := by
  unfold State.suspendDoor
  repeat' split
  all_goals
    repeat' first
      | assumption
      | with_reducible apply State.leaveWait_keeps h

theorem State.cancelDoor_keeps (h : Closed P) (p : Nat) (hs : P s) : P (s.cancelDoor p) := by
  unfold State.cancelDoor
  repeat' split
  all_goals
    repeat' first
      | assumption
      | with_reducible apply State.later_keeps h
      | with_reducible apply State.leaveWait_keeps h
      | with_reducible apply State.endStroke_keeps h
      | exact fun _ => ⟨rfl, id, id⟩

theorem State.regovernDoor_keeps (h : Closed P) (old : State) (p : Nat) (hs : P s) :
    P (s.regovernDoor old p) := by
  unfold State.regovernDoor
  split
  · refine State.rekey_keeps h p (State.modRec_keeps h (fun r => ⟨rfl, id, fun hr => ?_⟩) hs)
    dsimp only
    split
    · exact hr
    · exact Nat.zero_le 3
  · exact hs


theorem State.regovern_keeps (h : Closed P) (old : State) (k : Nat) (hs : P s) : P (s.regovern old k) := by
  unfold State.regovern
  split
  · exact foldl_keeps (fun _ _ => State.regovernDoor_keeps h _ _) _ hs
  · exact hs


theorem State.enterPending_keeps (h : Closed P) (k : Nat) (hs : P s) : P (s.enterPending k) :=
  h.pendingOrders _ hs

theorem State.restWaiters_keeps (h : Closed P) (k : Nat) (hs : P s) : P (s.restWaiters k) :=
  foldl_keeps (fun _ _ => State.suspendDoor_keeps h _) _ hs

theorem State.suspendTop_keeps (h : Closed P) (hs : P s) : P s.suspendTop := by
  unfold State.suspendTop
  split
  · exact State.restWaiters_keeps h _ (State.modOrder_keeps h (fun _ => ⟨rfl, id⟩) hs)
  · exact hs


theorem State.placeOnTop_keeps (h : Closed P) (k : Nat) (hs : P s) : P (s.placeOnTop k) :=
  State.modOrder_keeps h (fun _ => ⟨rfl, id⟩)
    (h.pendingOrders (removeNat k s.pendingOrders) (h.stack (k :: s.stack) hs))

theorem State.pushOrder_keeps (h : Closed P) (k : Nat) (hs : P s) : P (s.pushOrder k) :=
  State.first_keeps h _ (State.activate_keeps h _ (State.regovern_keeps h _ _
    (State.placeOnTop_keeps h k (State.suspendTop_keeps h hs))))

theorem State.nextTop_keeps (h : Closed P) (hs : P s) : P s.nextTop := by
  unfold State.nextTop
  repeat' split
  all_goals first
    | exact hs
    | exact State.pushOrder_keeps h _ hs
    | exact State.first_keeps h _ (State.activate_keeps h _
        (State.modOrder_keeps h (fun _ => ⟨rfl, id⟩) hs))

theorem State.finishOrder_keeps (h : Closed P) (k : Nat) (st : OrderState) (res : OrderResult)
    (hs : P s) : P (s.finishOrder k st res) := State.modOrder_keeps h (fun _ => ⟨rfl, id⟩) hs

theorem State.leaveStack_keeps (h : Closed P) (k : Nat) (hs : P s) : P (s.leaveStack k) :=
  State.regovern_keeps h _ _ (h.stack _ hs)

theorem State.completeOrder_keeps (h : Closed P) (k : Nat) (hs : P s) : P (s.completeOrder k) := by
  unfold State.completeOrder
  dsimp only
  repeat' split
  all_goals
    repeat' first
      | assumption
      | with_reducible apply State.first_keeps h
      | with_reducible apply State.leaveStack_keeps h
      | with_reducible apply State.finishOrder_keeps h

/-! ### Retirement, queues and the arbiter -/

theorem State.retirementEnds_keeps (h : Closed P) (p : Nat) (why : FreedReason) (hs : P s) :
    P (s.retirementEnds p why) := by
  unfold State.retirementEnds
  split
  · exact State.removeAlarmsOf_keeps h _ (h.freePosition why hs ‹_›)
  · exact hs

theorem State.dropCommand_keeps (h : Closed P) (p : Nat) (c : DoorCommand) (b : Bool) (hs : P s) :
    P (s.dropCommand p c b) := by
  unfold State.dropCommand
  repeat' split
  all_goals
    repeat' first
      | assumption
      | with_reducible apply State.retirementEnds_keeps h
      | with_reducible apply State.commandDropped_keeps h

theorem State.takeHead_keeps (h : Closed P) (u p : Nat) (hs : P s) : P (s.takeHead u p) :=
  State.modUnit_keeps h (fun _ _ => ⟨rfl, rfl, rfl, rfl, rfl, rfl, id, id, id⟩)
    (State.moveRec_keeps h (fun _ => ⟨rfl, id, id⟩) hs)

theorem State.turnAway_keeps (h : Closed P) (u p : Nat) (hs : P s) : P (s.turnAway u p) := by
  unfold State.turnAway
  repeat' split
  all_goals
    repeat' first
      | assumption
      | with_reducible apply State.queueCommand_keeps h
      | with_reducible apply State.first_keeps h
      | with_reducible apply State.charge_keeps h
      | with_reducible apply State.takeHead_keeps h

theorem State.evaluateQueue_keeps (h : Closed P) (u : Nat) (hs : P s) : P (s.evaluateQueue u) := by
  have he : P (s.startEvaluation u) := State.startEvaluation_keeps h u hs
  unfold State.evaluateQueue
  dsimp only
  split
  · exact he
  · exact State.turnAway_keeps h _ _ (State.first_keeps h _ he)
  · split
    · exact State.turnAway_keeps h _ _ (State.first_keeps h _ he)
    · exact State.headWaits_keeps h _ _ _ he
  · exact State.first_keeps h _ (State.debit_keeps h _ _ ‹_› he)


theorem State.arbiterTurn_keeps (h : Closed P) (us : List Nat) (hs : P s) : P (s.arbiterTurn us) := by
  unfold State.arbiterTurn
  split
  · exact hs
  · rename_i u _
    have he : P (s.startEvaluation u) := State.startEvaluation_keeps h u hs
    dsimp only
    split
    · exact State.first_keeps h _ he
    · exact State.later_keeps h _ (State.turnAway_keeps h _ _ (State.first_keeps h _ he))
    · split
      · exact State.later_keeps h _ (State.turnAway_keeps h _ _ (State.first_keeps h _ he))
      · split
        · exact State.first_keeps h _ (State.headWaits_keeps h _ _ _ he)
        · exact State.first_keeps h _ (State.headWaits_keeps h _ _ _ he)
    · exact State.first_keeps h _ (State.debit_keeps h _ _ ‹_› he)

theorem State.serveFreed_keeps (h : Closed P) (ended : Option Nat) (hs : P s) : P (s.serveFreed ended) :=
  State.arbiterTurn_keeps h _ (h.agenda _ hs)


/-! ### Replies -/

theorem State.deriveJudged_keeps (h : Closed P) (p : Nat) (ts : List Task) (hs : P s) :
    P (s.deriveJudged p ts) := by
  unfold State.deriveJudged
  dsimp only
  repeat' split
  all_goals
    repeat' first
      | assumption
      | with_reducible apply State.first_keeps h
      | with_reducible apply State.modRec_keeps h
      | exact fun _ => ⟨rfl, id, id⟩

theorem State.deriveUnjudged_keeps (h : Closed P) (p : Nat) (hs : P s) : P (s.deriveUnjudged p) := by
  unfold State.deriveUnjudged
  dsimp only
  repeat' split
  all_goals
    repeat' first
      | assumption
      | with_reducible apply State.first_keeps h
      | with_reducible apply State.modRec_keeps h
      | exact fun _ => ⟨rfl, id, id⟩

theorem Record.follows_takeReport (r : Record) (f : ReplyFields) (now : Nat) (ph : Phase) :
    r.Follows (r.takeReport f now ph) := ⟨rfl, fun _ => Nat.zero_le 3, id⟩

theorem State.goodDoorReply_keeps (h : Closed P) (p : Nat) (f : ReplyFields) (hs : P s) :
    P (s.goodDoorReply p f) :=
  State.deriveJudged_keeps h _ _ (State.causeOff_keeps h _ _
    (State.modRec_keeps h (fun r => r.follows_takeReport _ _ _) hs))

theorem State.doorMiss_keeps (h : Closed P) (n : LineNo) (p : Nat) (r : Record) (x : Exchange) (hs : P s) :
    P (s.doorMiss n p r x) := by
  have hm : P (s.modRec p fun r => { r with missed := min 3 (r.missed + 1) }) :=
    State.modRec_keeps h (fun _ => ⟨rfl, fun _ => Nat.min_le_left _ _, id⟩) hs
  unfold State.doorMiss
  dsimp only
  repeat' split
  all_goals first
    | exact hm
    | exact State.requeue_keeps h _ _ _ hm
    | exact State.first_keeps h _ hm


theorem State.contactLost_keeps (h : Closed P) (n : LineNo) (p : Nat) (c d : Option DoorCommand) (hs : P s) :
    P (s.contactLost n p c d) := by
  unfold State.contactLost
  refine State.first_keeps h _ ?_
  split
  · exact State.modLine_keeps h (fun _ => rfl) hs
  · exact hs


theorem State.releaseMiss_keeps (h : Closed P) (n : LineNo) (p : Nat) (r : Record) (hs : P s) :
    P (s.releaseMiss n p r) := by
  unfold State.releaseMiss
  dsimp only
  repeat' split
  all_goals
    repeat' first
      | assumption
      | with_reducible apply State.retirementEnds_keeps h
      | with_reducible apply State.requeue_keeps h
      | with_reducible apply State.modRec_keeps h
      | exact fun _ => ⟨rfl, id, id⟩

theorem State.monitorReply_keeps (h : Closed P) (u mv : Nat) (b : Bool) (hs : P s) :
    P (s.monitorReply u mv b) := by
  have ht : P (s.touchUnit u) := State.touchUnit_keeps h u hs
  unfold State.monitorReply
  refine State.first_keeps h _ (State.judgeUL_keeps h _ (State.setUnitCause_keeps h _ _ _
    (State.setUnitCause_keeps h _ _ _ (State.modUnit_keeps h
      (fun _ _ => ⟨rfl, rfl, rfl, rfl, rfl, rfl, id, id, fun _ => Nat.zero_le 3⟩) ?_))))
  dsimp only
  repeat' split
  · exact State.modUnit_keeps h (fun _ _ => ⟨rfl, rfl, rfl, rfl, rfl, rfl,
      fun hc => (Nat.min_le_left _ _).trans hc, id, id⟩) (State.setUnitCause_keeps h _ _ _ ht)
  · exact State.modUnit_keeps h (fun _ _ => ⟨rfl, rfl, rfl, rfl, rfl, rfl,
      fun _ => Nat.mul_le_mul_left _ (Nat.min_le_right _ _), id, id⟩)
      (State.setUnitCause_keeps h _ _ _ ht)
  · exact ht

theorem State.monitorMiss_keeps (h : Closed P) (u : Nat) (hs : P s) : P (s.monitorMiss u) := by
  have hm : P ((s.touchUnit u).modUnit u fun w => { w with monitorMissed := min 3 (w.monitorMissed + 1) }) :=
    State.modUnit_keeps h (fun _ _ => ⟨rfl, rfl, rfl, rfl, rfl, rfl, id, id,
      fun _ => Nat.min_le_left _ _⟩) (State.touchUnit_keeps h u hs)
  unfold State.monitorMiss
  dsimp only
  repeat' split
  all_goals first
    | exact hm
    | exact State.setUnitCause_keeps h _ _ _ hm


theorem State.takeOutcome_keeps (h : Closed P) (n : LineNo) (x : Exchange) (f : Option ReplyFields) (hs : P s) :
    P (s.takeOutcome n x f) := by
  unfold State.takeOutcome
  repeat' split
  all_goals
    repeat' first
      | assumption
      | with_reducible apply State.retirementEnds_keeps h
      | with_reducible apply State.goodDoorReply_keeps h
      | with_reducible apply State.releaseMiss_keeps h
      | with_reducible apply State.doorMiss_keeps h
      | with_reducible apply State.monitorReply_keeps h
      | with_reducible apply State.monitorMiss_keeps h

theorem State.endExchange_keeps (h : Closed P) (n : LineNo) (x : Exchange) (f : Option ReplyFields)
    (hs : P s) : P (s.endExchange n x f) :=
  State.takeOutcome_keeps h _ _ _ (State.modLine_keeps h (fun _ => rfl) hs)

/-! ### The bulk walk, every hand-off, the event -/

theorem State.modWalk_keeps (h : Closed P) {f : Walk → Walk} (hf : ∀ w, (f w).number = w.number)
    (hs : P s) : P (s.modWalk f) := h.walk hs (hf _)

theorem State.walkAdvances_keeps (h : Closed P) (hs : P s) : P s.walkAdvances := by
  unfold State.walkAdvances
  repeat' split
  · exact State.first_keeps h _ (State.modWalk_keeps h (fun _ => rfl) hs)
  · exact State.modWalk_keeps h (fun _ => rfl) hs
  · exact hs

theorem State.handOff_keeps (h : Closed P) (t : Task) (hs : P s) : P (s.handOff t) := by
  cases t
  · exact State.evaluateQueue_keeps h _ hs
  · exact State.serveFreed_keeps h _ hs
  · exact State.arbiterTurn_keeps h _ hs
  · exact State.arbiterTurn_keeps h _ hs
  · exact State.takeAdmission_keeps h _ _ hs
  · exact State.judgeUL_keeps h _ hs
  · exact State.evaluateAtRest_keeps h _ hs
  · exact State.completeOrder_keeps h _ hs
  · exact State.nextTop_keeps h hs
  · exact State.becomesUndrivable_keeps h _ hs
  · exact State.reportDoorCause_keeps h _ _ hs
  · exact State.setDoorCause_keeps h _ _ _ hs
  · exact State.motionSees_keeps h _ _ hs
  · exact State.faultSees_keeps h _ _ hs
  · exact State.obstructed_keeps h _ hs
  · exact State.localFlags_keeps h _ _ _ hs
  · exact State.localCheck_keeps h _ hs
  · exact State.dropCommand_keeps h _ _ _ hs
  · exact State.lineLost_keeps h _ hs
  · exact State.contactLost_keeps h _ _ _ _ hs
  · exact State.retirementEnds_keeps h _ _ hs
  · exact State.walkAdvances_keeps h hs

theorem State.take_keeps (h : Closed P) (t : Task) (hs : P s) : P (s.take t) := by
  unfold State.take
  split
  · exact State.later_keeps h _ hs
  · exact State.handOff_keeps h t hs

theorem run_keeps (h : Closed P) : ∀ (n : Nat) {s : State}, P s → P (run n s)
  | 0, _, hs => hs
  | n + 1, s, hs => by
    unfold run
    split
    · exact hs
    · exact run_keeps h n (State.take_keeps h _ (h.agenda _ hs))

theorem State.endSweep_keeps (h : Closed P)
    (hp : ∀ {s : State}, s.phase = .sweep → P s → P { s with phase := .service }) (hs : P s) :
    P s.endSweep := by
  unfold State.endSweep
  split
  · exact State.stopSweeps_keeps h (hp (by tauto) hs)
  · exact hs

theorem State.begin_window (l : Line) (k : ExchangeKind) (t : ExchangeTarget) (so : ExchangeSource) :
    (l.begin k t so).window = l.window := rfl

theorem State.calendarExchange_window {n : LineNo} :
    ∀ (fuel : Nat) {l l' : Line}, s.calendarExchange n l fuel = some l' → l'.window = l.window
  | 0, _, _, h => by cases h
  | fuel + 1, l, l', h => by
    unfold State.calendarExchange at h
    dsimp only at h
    repeat' split at h
    all_goals first
      | exact (State.calendarExchange_window fuel h :)
      | (cases h; rfl)

theorem State.sweepFrom_window {n : LineNo} {l l' : Line} {c : Nat}
    (h : s.sweepFrom n l c = some l') : l'.window = l.window := by
  unfold State.sweepFrom at h
  split at h
  · cases h; rfl
  · cases h

theorem State.sweepExchange_window (n : LineNo) (l : Line) :
    (s.sweepExchange n l).window = l.window := by
  unfold State.sweepExchange
  dsimp only
  repeat' split
  all_goals first
    | rfl
    | exact (State.sweepFrom_window ‹_› :)

/-- The choice of R124 leaves the reply window of the line. -/
theorem State.nextExchange_window (n : LineNo) (l : Line) : (s.nextExchange n l).window = l.window := by
  unfold State.nextExchange
  dsimp only
  split
  · rename_i l' hc
    unfold State.commandExchange at hc
    repeat' split at hc
    all_goals first
      | (cases hc; rfl)
      | cases hc
  · have hsw : (if s.phase = .sweep ∧ l.sweep.active then s.sweepExchange n l else l).window
        = l.window := by
      split
      · exact State.sweepExchange_window n _
      · rfl
    generalize (if s.phase = .sweep ∧ l.sweep.active then s.sweepExchange n l else l) = swept at hsw ⊢
    by_cases hx : swept.exchange.isSome
    · rw [if_pos hx]; exact hsw
    · rw [if_neg hx]
      generalize hq : s.calendarExchange n swept _ = q
      cases q with
      | none => exact hsw
      | some l' => exact (State.calendarExchange_window _ hq).trans hsw

/-- An idle line's choice leaves its reply window. -/
theorem State.chooseExchange_window (n : LineNo) :
    (s.chooseExchange n).window = (s.line n).window := by
  unfold State.chooseExchange
  dsimp only
  split
  · rfl
  · exact State.nextExchange_window n _

theorem State.arbitrate_keeps (h : Closed P) (hs : P s) : P s.arbitrate := by
  unfold State.arbitrate
  exact h.putLine (h.putLine (h.putLine (h.putLine hs (State.chooseExchange_window _))
    (State.chooseExchange_window _)) (State.chooseExchange_window _)) (State.chooseExchange_window _)

/-- What the primitive updates and the end of the sweep keep, the whole event keeps. -/
theorem State.settle_keeps (h : Closed P)
    (hp : ∀ {s : State}, s.phase = .sweep → P s → P { s with phase := .service }) (hs : P s) :
    P s.settle := State.arbitrate_keeps h (State.endSweep_keeps h hp (run_keeps h _ hs))

end Sys2Proof.Machine
end

