-- ==== Sys2Proof/Laws/Frames.lean ====
section
/-! SUPPORT. What no event touches: the frame that every hand-off keeps, and the phase. -/

namespace Sys2Proof.Machine

@[simp] theorem PortState.addMark_receiver (ps : PortState) (p : Nat) :
    (ps.addMark p).receiver = ps.receiver := rfl
@[simp] theorem PortState.addMark_service (ps : PortState) (p : Nat) :
    (ps.addMark p).service = ps.service := rfl
@[simp] theorem PortState.addMark_badFrames (ps : PortState) (p : Nat) :
    (ps.addMark p).badFrames = ps.badFrames := rfl
@[simp] theorem PortState.addMark_overruns (ps : PortState) (p : Nat) :
    (ps.addMark p).overruns = ps.overruns := rfl

theorem State.Untouched.refl (s : State) : s.Untouched s :=
  ⟨rfl, rfl, rfl, rfl, rfl, rfl, rfl, rfl, rfl, rfl, rfl, rfl, fun _ => rfl, fun _ => rfl,
    fun _ => rfl, fun _ => rfl⟩

theorem State.Untouched.trans {s t u : State} (h : s.Untouched t) (k : t.Untouched u) :
    s.Untouched u :=
  ⟨k.1.trans h.1, k.2.trans h.2, k.3.trans h.3, k.4.trans h.4, k.5.trans h.5, k.6.trans h.6,
    k.7.trans h.7, k.8.trans h.8, k.9.trans h.9, k.10.trans h.10, k.11.trans h.11, k.12.trans h.12,
    fun q => (k.13 q).trans (h.13 q), fun q => (k.14 q).trans (h.14 q),
    fun q => (k.15 q).trans (h.15 q), fun q => (k.16 q).trans (h.16 q)⟩

/-- The frame as one tuple, but for the walk and the ports. -/
def State.outside (s : State) :=
  (s.pending, s.inReset, s.clock, s.shortPulses, s.arrivals, s.eclosePin, s.ecloseState, s.ecloseTimer,
    s.shipM, s.shipE, s.calendar)

/-- An update that changes nothing of the frame. -/
theorem State.Untouched.same {s t u : State} (h : s.Untouched t) (ho : u.outside = t.outside)
    (hw : u.walk.number = t.walk.number)
    (hp : ∀ port, (u.portState port).receiver = (t.portState port).receiver
      ∧ (u.portState port).service = (t.portState port).service
      ∧ (u.portState port).badFrames = (t.portState port).badFrames
      ∧ (u.portState port).overruns = (t.portState port).overruns) : s.Untouched u := by
  simp only [State.outside, Prod.mk.injEq] at ho
  obtain ⟨h1, h2, h3, h4, h5, h6, h7, h8, h9, h10, h11⟩ := ho
  exact h.trans ⟨h1, h2, h3, h4, h5, h6, h7, h8, h9, h10, h11, hw, fun q => (hp q).1,
    fun q => (hp q).2.1, fun q => (hp q).2.2.1, fun q => (hp q).2.2.2⟩

/-- No primitive update of a hand-off leaves the frame. -/
theorem closed_untouched (s : State) : Closed s.Untouched where
  agenda _ h := h.same rfl rfl fun q => by cases q <;> exact ⟨rfl, rfl, rfl, rfl⟩
  putRec h _ _ := h.same rfl rfl fun q => by cases q <;> exact ⟨rfl, rfl, rfl, rfl⟩
  freePosition _ h _ := h.same rfl rfl fun q => by cases q <;> exact ⟨rfl, rfl, rfl, rfl⟩
  putUnit h _ _ := h.same rfl rfl fun q => by cases q <;> exact ⟨rfl, rfl, rfl, rfl⟩
  putOrder h _ _ := h.same rfl rfl fun q => by cases q <;> exact ⟨rfl, rfl, rfl, rfl⟩
  putLine h _ := h.same rfl rfl fun q => by cases q <;> exact ⟨rfl, rfl, rfl, rfl⟩
  modAllLines h _ := h.same rfl rfl fun q => by cases q <;> exact ⟨rfl, rfl, rfl, rfl⟩
  markBoth _ h := h.same rfl rfl fun q => by cases q <;> exact ⟨rfl, rfl, rfl, rfl⟩
  alarms h _ := h.same rfl rfl fun q => by cases q <;> exact ⟨rfl, rfl, rfl, rfl⟩
  overflow _ h := h.same rfl rfl fun q => by cases q <;> exact ⟨rfl, rfl, rfl, rfl⟩
  shipStrokes h _ := h.same rfl rfl fun q => by cases q <;> exact ⟨rfl, rfl, rfl, rfl⟩
  stack _ h := h.same rfl rfl fun q => by cases q <;> exact ⟨rfl, rfl, rfl, rfl⟩
  pendingOrders _ h := h.same rfl rfl fun q => by cases q <;> exact ⟨rfl, rfl, rfl, rfl⟩
  walk h hn := h.same rfl hn fun q => by cases q <;> exact ⟨rfl, rfl, rfl, rfl⟩

/-- The end of an event leaves the frame. -/
theorem State.settle_untouched (s : State) : s.Untouched s.settle :=
  State.settle_keeps (closed_untouched s)
    (fun _ h => h.same rfl rfl fun q => by cases q <;> exact ⟨rfl, rfl, rfl, rfl⟩)
    (State.Untouched.refl s)

/-- No hand-off changes the phase. -/
theorem closed_phase (ph : Phase) : Closed fun s => s.phase = ph :=
  { agenda := fun _ h => h, putRec := fun h _ _ => h, freePosition := fun _ h _ => h,
    putUnit := fun h _ _ => h, putOrder := fun h _ _ => h, 
    putLine := fun h _ => h, modAllLines := fun h _ => h, markBoth := fun _ h => h,
    
    alarms := fun h _ => h, overflow := fun _ h => h, shipStrokes := fun h _ => h,
    stack := fun _ h => h, pendingOrders := fun _ h => h, walk := fun h _ => h }

theorem run_phase (n : Nat) (s : State) : (run n s).phase = s.phase :=
  run_keeps (closed_phase s.phase) n rfl

@[simp] theorem State.arbitrate_phase' (s : State) : s.arbitrate.phase = s.phase :=
  State.arbitrate_keeps (closed_phase s.phase) rfl

/-- An event changes the phase in one way: the sweep ends (R178). -/
theorem State.settle_phase_cases (s : State) :
    s.settle.phase = s.phase ∨ (s.phase = .sweep ∧ s.settle.phase = .service) := by
  unfold State.settle
  rw [State.arbitrate_phase']
  unfold State.endSweep
  split
  · exact .inr ⟨by rw [← run_phase Config.passBound s]; tauto, rfl⟩
  · exact .inl (run_phase _ s)

end Sys2Proof.Machine
end

