-- ==== Sys2Proof/Laws/Requests.lean ====
section
/-! SUPPORT. The operations that requests and events start with keep whatever the hand-offs keep. -/

namespace Sys2Proof.Machine

variable {P : State → Prop} {s : State}

/-! ### Lifecycle -/

theorem State.isolate_keeps (h : Closed P) (p : Nat) (hs : P s) : P (s.isolate p) := by
  unfold State.isolate
  dsimp only
  repeat' split
  all_goals
    repeat' first
      | assumption
      | with_reducible apply State.first_keeps h
      | with_reducible apply State.charge_keeps h
      | with_reducible apply State.leaveWait_keeps h
      | with_reducible apply State.endStroke_keeps h
      | with_reducible apply State.queueCommand_keeps h
      | with_reducible apply State.modRec_keeps h
      | exact fun _ => ⟨rfl, id, id⟩
      | exact fun _ => ⟨rfl, id, fun _ => Nat.zero_le 3⟩

theorem State.unisolate_keeps (h : Closed P) (p : Nat) (hs : P s) : P (s.unisolate p) := by
  unfold State.unisolate
  repeat' split
  · exact State.later_keeps h _ (State.modRec_keeps h (fun _ => ⟨rfl, id, id⟩) hs)
  · exact hs
  · exact hs

theorem State.beginRetirement_keeps (h : Closed P) (p : Nat) (r : Record) (hs : P s) :
    P (s.beginRetirement p r) := by
  have hc : P (((s.modRec p fun r =>
      { r with lifecycle := .retiring, releaseAttempts := some 0, purpose := none,
               deadline := none }).chargeAll p .retired).first
      (State.stack (s.modRec p fun r =>
        { r with lifecycle := .retiring, releaseAttempts := some 0, purpose := none,
                 deadline := none }) |>.map Task.complete)) :=
    State.first_keeps h _ (State.chargeAll_keeps h _ _
      (State.modRec_keeps h (fun _ => ⟨rfl, id, id⟩) hs))
  unfold State.beginRetirement
  dsimp only
  split
  · exact State.queueCommand_keeps h _ _ hc
  · exact State.retirementEnds_keeps h _ _ hc

theorem State.costChanged_keeps (h : Closed P) (p : Nat) (old : Option PowerFields) (hs : P s) :
    P (s.costChanged p old) := by
  unfold State.costChanged
  repeat' split
  all_goals first
    | exact hs
    | exact State.later_keeps h _ hs

/-! ### Orders -/

theorem State.cancelOrder_keeps (h : Closed P) (k : Nat) (o : Order) (hs : P s) :
    P (s.cancelOrder k o) := by
  unfold State.cancelOrder
  split
  · exact State.first_keeps h _ (State.leaveStack_keeps h _ (State.finishOrder_keeps h _ _ _
      (foldl_keeps (fun _ _ => State.cancelDoor_keeps h _) _ hs)))
  · exact State.leaveStack_keeps h _ (State.finishOrder_keeps h _ _ _ (State.restWaiters_keeps h _ hs))
  · exact State.finishOrder_keeps h _ _ _ (h.pendingOrders _ hs)
  · exact hs
  · exact hs

theorem Order.follows_readBy (o : Order) (port : Port) : o.Follows (o.readBy port) := by
  unfold Order.readBy
  repeat' split
  all_goals exact ⟨rfl, id⟩

theorem Order.follows_absorb (o : Order) (port : Port) : o.Follows (o.absorb port) :=
  ⟨rfl, fun _ => Nat.min_le_left _ _⟩

/-! ### Alarms and flags -/

theorem State.ackOne_keeps (h : Closed P) (x : Subject) (k : FaultKind) (hs : P s) :
    P (s.ackOne x k).1 := by
  unfold State.ackOne
  repeat' split
  · exact State.setAlarm_keeps h _ _ _ hs
  · exact hs
  · exact State.removeAlarm_keeps h _ _ hs
  · exact hs

theorem ackFold_keeps (h : Closed P) :
    ∀ (l : List Alarm) (acc : State × Nat × Nat), P acc.1 →
      P (l.foldl (fun acc a =>
        let one := acc.1.ackOne a.subject a.kind
        (one.1, acc.2.1 + one.2.1, acc.2.2 + one.2.2)) acc).1
  | [], _, hs => hs
  | _ :: l, _, hs => ackFold_keeps h l _ (State.ackOne_keeps h _ _ hs)

theorem State.ackAll_keeps (h : Closed P) (hs : P s) : P s.ackAll.1 := ackFold_keeps h _ _ hs

theorem State.clearDoorFlags_keeps (h : Closed P) (p : Nat) (ks : List FaultKind) (hs : P s) :
    P (s.clearDoorFlags p ks) := State.modRec_keeps h (fun _ => ⟨rfl, id, id⟩) hs

theorem State.clearUnitFlags_keeps (h : Closed P) (u : Nat) (ks : List FaultKind) (hs : P s) :
    P (s.clearUnitFlags u ks) :=
  State.modUnit_keeps h (fun _ _ => ⟨rfl, rfl, rfl, rfl, rfl, rfl, id, id, id⟩) hs

theorem State.clearShipFlags_keeps (h : Closed P) (ks : List FaultKind) (hs : P s) :
    P (s.clearShipFlags ks) :=
  foldl_keeps (fun _ _ => State.clearUnitFlags_keeps h _ _) _
    (foldl_keeps (fun _ _ => State.clearDoorFlags_keeps h _ _) _ hs)

/-! ### Units -/

theorem State.switchUnitEnable_keeps (h : Closed P) (u : Nat) (on : Bool) (k : FaultKind) (hs : P s) :
    P (s.switchUnitEnable u on k) := by
  unfold State.switchUnitEnable
  split
  · rename_i w hw
    have hp : ∀ (ks fs : List FaultKind), P (s.putUnit u { w with enables := ks, flags := fs }) :=
      fun ks fs => h.putUnit hs hw ⟨rfl, rfl, rfl, rfl, rfl, rfl, id, id, id⟩
    dsimp only
    split
    · exact hs
    · split
      · split
        · exact State.listAlarm_keeps h _ _ (hp _ _)
        · exact hp _ _
      · exact State.removeAlarm_keeps h _ _ (hp _ _)
  · exact hs

theorem State.setUnitEnables_keeps (h : Closed P) (u : Nat) (ks : List FaultKind) (hs : P s) :
    P (s.setUnitEnables u ks) := foldl_keeps (fun _ _ => State.switchUnitEnable_keeps h _ _ _) _ hs

theorem State.judgeMS_keeps (h : Closed P) (u : Nat) (hs : P s) : P (s.judgeMS u) := by
  unfold State.judgeMS
  split
  · exact State.setUnitCause_keeps h _ _ _ hs
  · exact hs

theorem State.unitChanged_keeps (h : Closed P) (u : Nat) (hs : P s) : P (s.unitChanged u) :=
  State.later_keeps h _ (State.judgeUL_keeps h _ hs)

theorem State.setMonitor_keeps (h : Closed P) (u : Nat) (m : Option (LineNo × Nat)) (hs : P s) :
    P (s.setMonitor u m) := by
  unfold State.setMonitor
  split
  · rename_i w hw
    have hp : P (s.putUnit u { w with monitor := m, reconciled := m.isNone, monitorMissed := 0 }) :=
      h.putUnit hs hw ⟨rfl, rfl, rfl, rfl, rfl, rfl, id, id, fun _ => Nat.zero_le 3⟩
    dsimp only
    split
    · exact hs
    · split
      · exact State.setUnitCause_keeps h _ _ _ (State.setUnitCause_keeps h _ _ _ hp)
      · exact State.setUnitCause_keeps h _ _ _ hp
  · exact hs

theorem State.setSupply_keeps (h : Closed P) (u : Nat) (w : PowerUnit) (a : UnitArgs) (hs : P s) :
    P (s.setSupply u w a) := by
  unfold State.setSupply
  repeat' split
  · exact State.judgeMS_keeps h _
      (State.modUnit_keeps h (fun _ _ => ⟨rfl, rfl, rfl, rfl, rfl, rfl, id, id, id⟩) hs)
  · exact hs
  · exact hs

/-! ### Lines, the walk, the phase -/

theorem State.setEnabled_keeps (h : Closed P) (n : LineNo) (e : Option Bool) (hs : P s) :
    P (s.setEnabled n e) := by
  unfold State.setEnabled
  repeat' split
  · exact hs
  · exact State.modLine_keeps h (fun _ => rfl) hs
  · exact State.first_keeps h _ (State.modLine_keeps h (fun _ => rfl) hs)
  · exact hs
  · exact hs

theorem State.abortWalk_keeps (h : Closed P) (hs : P s) : P s.abortWalk := by
  unfold State.abortWalk
  split
  · exact State.later_keeps h _ (State.modWalk_keeps h (fun _ => rfl) hs)
  · exact hs

theorem State.clearMarks_keeps (h : Closed P) (hs : P s) : P s.clearMarks :=
  foldl_keeps (fun _ _ => State.modRec_keeps h (f := fun r => { r with mark := false })
    fun _ => ⟨rfl, id, id⟩) _ hs

theorem State.markAll_keeps (h : Closed P) (hs : P s) : P s.markAll :=
  foldl_keeps (fun _ p => h.markBoth p) _ hs

theorem State.startSweeps_keeps (h : Closed P) (hs : P s) : P s.startSweeps :=
  h.modAllLines hs fun _ => rfl

/-! ### Events and requests -/

/-- What the primitive updates, the end of the sweep and the drive of the outputs keep, an event keeps if
its own effect does. -/
theorem State.event_keeps (h : Closed P)
    (hp : ∀ {s : State}, s.phase = .sweep → P s → P { s with phase := .service })
    (hd : ∀ {s : State}, P s → P s.drive) {f : State → Option State}
    (hf : ∀ t, f s = some t → P t) (hs : P s) : P (s.event f) := by
  unfold State.event
  split
  · exact hs
  · split
    · exact hd (State.settle_keeps h hp (hf _ ‹_›))
    · exact hs

/-- The same for a request, whose response and overrun count the predicate must admit. -/
theorem State.request_keeps (h : Closed P)
    (hp : ∀ {s : State}, s.phase = .sweep → P s → P { s with phase := .service })
    (hd : ∀ {s : State}, P s → P s.drive) {port : Port}
    (ho : ∀ {s : State}, P s → P (s.modPort port PortState.overrun))
    (hr : ∀ {s : State} (code : Nat) (a : Status × Content), P s →
      P (s.modPort port fun ps => ps.respond code a))
    {α : Type} {code : Nat} {body : Body α} {serve : α → State → Served}
    (hf : ∀ a t reply, serve a s = .change t reply → P t) (hs : P s) :
    P (s.request port code body serve) := by
  unfold State.request
  split
  · exact hs
  · split
    · exact hd (ho hs)
    · split
      · exact hd (hr _ _ hs)
      · split
        · exact hd (hr _ _ hs)
        · exact hd (hr _ _ (State.settle_keeps h hp (hf _ _ _ ‹_›)))

end Sys2Proof.Machine
end

