-- ==== Sys2Proof/Laws/Sound.lean ====
section
/-! SUPPORT. The canonical form and the ranges of the manual: every hand-off keeps them, and so does what
each request and each event does before its hand-offs. -/

namespace Sys2Proof.Machine

variable {s : State}

/-! ### The canonical form -/

theorem State.wf_iff (s : State) : s.wf = true ↔
    Keyed.wf s.records = true ∧ Keyed.wf s.directory = true ∧ Keyed.wf s.zoneLists = true
      ∧ Keyed.wf s.slots = true ∧ Keyed.wf s.units = true ∧ s.portA.wf = true ∧ s.portB.wf = true
      ∧ s.alarms.length ≤ 64 := by
  simp [State.wf, and_assoc]

theorem PortState.wf_addMark {ps : PortState} (p : Nat) (h : ps.wf = true) :
    (ps.addMark p).wf = true := by
  simp only [PortState.wf, PortState.addMark, Bool.and_eq_true] at h ⊢
  exact ⟨rising_insertNat p h.1, h.2⟩

theorem PortState.wf_addFreed {ps : PortState} (p : Nat) (f : FreedReport) (h : ps.wf = true) :
    (ps.addFreed p f).wf = true := by
  simp only [PortState.wf, PortState.addFreed, Bool.and_eq_true] at h ⊢
  exact ⟨rising_insertNat p h.1, Keyed.wf_put p f h.2⟩

theorem PortState.wf_dropFreed {ps : PortState} (p : Nat) (h : ps.wf = true) :
    (ps.dropFreed p).wf = true := by
  simp only [PortState.wf, PortState.dropFreed, Bool.and_eq_true] at h ⊢
  exact ⟨h.1, Keyed.wf_remove p h.2⟩

theorem PortState.wf_readChanges {ps : PortState} (h : ps.wf = true) : ps.readChanges.wf = true := by
  simp only [PortState.wf, PortState.readChanges, Bool.and_eq_true] at h ⊢
  exact ⟨rising_drop 8 h.1, Keyed.wf_filter _ h.2⟩

theorem State.wf_putRec (p : Nat) (r : Record) (h : s.wf = true) : (s.putRec p r).wf = true := by
  simp only [State.wf_iff] at h ⊢
  exact ⟨Keyed.wf_put p r h.1, h.2⟩

theorem State.wf_markBoth (p : Nat) (h : s.wf = true) : (s.markBoth p).wf = true := by
  simp only [State.wf_iff] at h ⊢
  obtain ⟨h1, h2, h3, h4, h5, h6, h7, h8⟩ := h
  exact ⟨h1, h2, h3, h4, h5, PortState.wf_addMark p h6, PortState.wf_addMark p h7, h8⟩

theorem State.wf_putZoneList (z : Nat) (ps : List Nat) (h : s.wf = true) :
    (s.putZoneList z ps).wf = true := by
  simp only [State.wf_iff] at h ⊢
  obtain ⟨h1, h2, h3, h4, h5, h6, h7, h8⟩ := h
  refine ⟨h1, h2, ?_, h4, h5, h6, h7, h8⟩
  show Keyed.wf (if ps = [] then _ else _) = true
  split
  · exact Keyed.wf_remove z h3
  · exact Keyed.wf_put z ps h3

/-! ### Records, units and orders that follow sound ones are sound -/

theorem Record.Follows.sound {r r' : Record} (h : r.Follows r') (hr : r.Sound) : r'.Sound :=
  ⟨h.cfg ▸ hr.cfg, h.missed hr.missed, h.attempts hr.attempts⟩

theorem PowerUnit.Follows.sound {w w' : PowerUnit} (h : w.Follows w') (hw : w.Sound) : w'.Sound := by
  obtain ⟨h1, h2, h3, h4, h5, h6, h7, h8, h9⟩ := h
  obtain ⟨k1, k2, k3, k4, k5, k6, k7, k8, k9⟩ := hw
  exact ⟨h1 ▸ k1, by omega, by omega, by omega, by omega, by omega,
    by rw [h1]; exact h7 k7, by rw [h4]; exact h8 k8, h9 k9⟩

theorem Order.Follows.sound {o o' : Order} (h : o.Follows o') (ho : o.Sound) : o'.Sound :=
  ⟨h.priority ▸ ho.priority, h.repeats ho.repeats⟩

/-! ### Primitive updates -/

theorem State.Sound.putRec {p : Nat} {r : Record} (h : s.Sound) (hp : p ≤ 255) (hr : r.Sound) :
    (s.putRec p r).Sound := by
  refine ⟨State.wf_putRec p r h.wf, fun q r' hq => ?_, h.units, h.orders, h.budget, h.ship, h.windows,
    h.calendar, h.walk, h.ports⟩
  simp only [State.rec?, State.putRec_records, Keyed.get?_put] at hq
  split at hq
  · subst_vars; cases hq; exact ⟨hp, hr⟩
  · exact h.records q r' hq

theorem State.Sound.putUnit {u : Nat} {w : PowerUnit} (h : s.Sound) (hu : u ≤ 31) (hw : w.Sound) :
    (s.putUnit u w).Sound := by
  refine ⟨?_, h.records, fun q w' hq => ?_, h.orders, h.budget, h.ship, h.windows,
    h.calendar, h.walk, h.ports⟩
  · have := h.wf
    simp only [State.wf_iff] at this ⊢
    obtain ⟨h1, h2, h3, h4, h5, h6, h7, h8⟩ := this
    exact ⟨h1, h2, h3, h4, Keyed.wf_put u w h5, h6, h7, h8⟩
  · simp only [State.unit?, State.putUnit_units, Keyed.get?_put] at hq
    split at hq
    · subst_vars; cases hq; exact ⟨hu, hw⟩
    · exact h.units q w' hq

theorem State.Sound.putSlot {k : Nat} {o : Order} (h : s.Sound) (hk : k ≤ 15) (ho : o.Sound) :
    (s.putOrder k o).Sound := by
  refine ⟨?_, h.records, h.units, fun q o' hq => ?_, h.budget, h.ship, h.windows,
    h.calendar, h.walk, h.ports⟩
  · have := h.wf
    simp only [State.wf_iff] at this ⊢
    obtain ⟨h1, h2, h3, h4, h5, h6, h7, h8⟩ := this
    exact ⟨h1, h2, h3, Keyed.wf_put k o h4, h5, h6, h7, h8⟩
  · simp only [State.order?, State.putOrder_slots, Keyed.get?_put] at hq
    split at hq
    · subst_vars; cases hq; exact ⟨hk, ho⟩
    · exact h.orders q o' hq

theorem State.Sound.modLine {n : LineNo} {l : Line} (h : s.Sound)
    (hl : 2 ≤ l.window ∧ l.window ≤ 100) : (s.putLine n l).Sound := by
  refine ⟨h.wf, h.records, h.units, h.orders, h.budget, h.ship, fun m => ?_, h.calendar, h.walk,
    h.ports⟩
  by_cases hm : n = m
  · subst hm; rw [State.line_putLine_self]; exact hl
  · rw [State.line_putLine_ne s l hm]; exact h.windows m

/-- Every hand-off keeps a sound state sound. -/
theorem closed_sound : Closed State.Sound where
  agenda _ h := ⟨h.wf, h.records, h.units, h.orders, h.budget, h.ship, h.windows, h.calendar, h.walk,
    h.ports⟩
  putRec h hr hf := h.putRec (h.records _ _ hr).1 (hf.sound (h.records _ _ hr).2)
  freePosition {s p r} why h _ := by
    refine ⟨?_, fun q r hq => ?_, h.units, fun q o hq => ?_, h.budget, h.ship, fun n => ?_, h.calendar,
      h.walk, h.ports⟩
    · have := State.wf_putZoneList r.cfg.zone (removeNat p (s.zoneList r.cfg.zone)) h.wf
      simp only [State.wf_iff] at this ⊢
      obtain ⟨h1, h2, h3, h4, h5, h6, h7, h8⟩ := this
      exact ⟨Keyed.wf_remove p h1, Keyed.wf_remove _ h2, h3,
        Keyed.wf_map (fun (e : Nat × Order) => e.2.forget p) h4, h5, PortState.wf_addFreed p _ h6,
        PortState.wf_addFreed p _ h7, h8⟩
    · have hq' : Keyed.get? (Keyed.remove s.records p) q = some r := hq
      rw [Keyed.get?_remove] at hq'
      split at hq'
      · cases hq'
      · exact h.records q r hq'
    · have hg := Keyed.get?_map s.slots (fun e => e.2.forget p) q
      have hq' : Keyed.get? (s.slots.map fun e => (e.1, e.2.forget p)) q = some o := hq
      rw [hg] at hq'
      simp only [Option.map_eq_some_iff] at hq'
      obtain ⟨o', ho', rfl⟩ := hq'
      exact ⟨(h.orders q o' ho').1, ⟨(h.orders q o' ho').2.1, (h.orders q o' ho').2.2⟩⟩
    · have hw := h.windows n
      cases n <;> exact hw
  putUnit h hw hf := h.putUnit (h.units _ _ hw).1 (hf.sound (h.units _ _ hw).2)
  putOrder h ho hf := h.putSlot (h.orders _ _ ho).1 (hf.sound (h.orders _ _ ho).2)
  putLine h hl := h.modLine (hl ▸ h.windows _)
  modAllLines {s f} h hf := by
    refine ⟨h.wf, h.records, h.units, h.orders, h.budget, h.ship, fun n => ?_, h.calendar, h.walk,
      h.ports⟩
    have hw := h.windows n
    simp only [State.line, State.modAllLines_lines, PerLine.get_map, hf] at hw ⊢
    exact hw
  markBoth p h := ⟨State.wf_markBoth p h.wf, h.records, h.units, h.orders, h.budget, h.ship, h.windows,
    h.calendar, h.walk, h.ports⟩
  alarms {s l} h hl := by
    refine ⟨?_, h.records, h.units, h.orders, h.budget, h.ship, h.windows, h.calendar, h.walk,
      h.ports⟩
    have := h.wf
    simp only [State.wf_iff] at this ⊢
    obtain ⟨h1, h2, h3, h4, h5, h6, h7, h8⟩ := this
    exact ⟨h1, h2, h3, h4, h5, h6, h7, hl h8⟩
  overflow _ h := ⟨h.wf, h.records, h.units, h.orders, h.budget, h.ship, h.windows, h.calendar, h.walk,
    h.ports⟩
  shipStrokes h hn := ⟨h.wf, h.records, h.units, h.orders, h.budget, hn h.ship, h.windows, h.calendar,
    h.walk, h.ports⟩
  stack _ h := ⟨h.wf, h.records, h.units, h.orders, h.budget, h.ship, h.windows, h.calendar, h.walk,
    h.ports⟩
  pendingOrders _ h := ⟨h.wf, h.records, h.units, h.orders, h.budget, h.ship, h.windows, h.calendar,
    h.walk, h.ports⟩
  walk h hn := ⟨h.wf, h.records, h.units, h.orders, h.budget, h.ship, h.windows, h.calendar,
    hn ▸ h.walk, h.ports⟩

/-! ### The end of an event -/

theorem State.Sound.phase (h : s.Sound) (ph : Phase) : State.Sound { s with phase := ph } :=
  ⟨h.wf, h.records, h.units, h.orders, h.budget, h.ship, h.windows, h.calendar, h.walk, h.ports⟩

theorem State.Sound.drive (h : s.Sound) : s.drive.Sound :=
  ⟨h.wf, h.records, h.units, h.orders, h.budget, h.ship, h.windows, h.calendar, h.walk, h.ports⟩

theorem State.Sound.settle (h : s.Sound) : s.settle.Sound :=
  State.settle_keeps closed_sound (fun _ h => h.phase _) h

theorem State.Sound.event {f : State → Option State} (h : s.Sound) (hf : ∀ t, f s = some t → t.Sound) :
    (s.event f).Sound :=
  State.event_keeps closed_sound (fun _ h => h.phase _) (fun h => h.drive) hf h

/-- An altered port keeps the state sound, if the port stays so. -/
theorem State.Sound.modPort {port : Port} {f : PortState → PortState} (h : s.Sound)
    (hw : ∀ ps : PortState, ps.wf = true → (f ps).wf = true)
    (hc : ∀ ps : PortState, ps.countsOk = true → (f ps).countsOk = true) : (s.modPort port f).Sound := by
  have hwf := h.wf
  rw [State.wf_iff] at hwf
  obtain ⟨h1, h2, h3, h4, h5, h6, h7, h8⟩ := hwf
  cases port
  · refine ⟨?_, h.records, h.units, h.orders, h.budget, h.ship, h.windows, h.calendar, h.walk,
      ⟨hc _ h.ports.1, h.ports.2⟩⟩
    rw [State.wf_iff]; exact ⟨h1, h2, h3, h4, h5, hw _ h6, h7, h8⟩
  · refine ⟨?_, h.records, h.units, h.orders, h.budget, h.ship, h.windows, h.calendar, h.walk,
      ⟨h.ports.1, hc _ h.ports.2⟩⟩
    rw [State.wf_iff]; exact ⟨h1, h2, h3, h4, h5, h6, hw _ h7, h8⟩

theorem PortState.countsOk_overrun (ps : PortState) (h : ps.countsOk = true) :
    ps.overrun.countsOk = true := by
  simp only [PortState.countsOk, Bool.and_eq_true, decide_eq_true_eq] at h ⊢
  exact ⟨h.1, Nat.min_le_left _ _⟩

theorem PortState.countsOk_badFrame (ps : PortState) (h : ps.countsOk = true) :
    ps.badFrame.countsOk = true := by
  simp only [PortState.countsOk, Bool.and_eq_true, decide_eq_true_eq] at h ⊢
  exact ⟨Nat.min_le_left _ _, h.2⟩

theorem State.Sound.request {α : Type} {port : Port} {code : Nat} {body : Body α}
    {serve : α → State → Served} (h : s.Sound)
    (hf : ∀ a t reply, serve a s = .change t reply → t.Sound) :
    (s.request port code body serve).Sound :=
  State.request_keeps closed_sound (fun _ h => h.phase _) (fun h => h.drive)
    (fun h => h.modPort (fun _ hw => hw) fun ps => ps.countsOk_overrun)
    (fun _ _ h => h.modPort (fun _ hw => hw) fun _ hc => hc) hf h

end Sys2Proof.Machine
end

