-- ==== Sys2Proof/Laws/Steps.lean ====
section
/-! SUPPORT. What a step can do, said once: a predicate closed under the primitive updates of requests and
events (`StepClosed`) is kept by every request, by every event and by the passing of time. -/

namespace Sys2Proof.Machine

/-- The configured fields by which the directory and the zone lists name a record. -/
def Configured.listKey (c : Configured) : Nat × Nat × Byte := (c.number, c.zone, c.rank)

/-- A predicate of sound states that is closed under the primitive updates of requests and events, given
what the checks of the requests establish. -/
structure StepClosed (P : State → Prop) : Prop extends Closed P where
  sound : ∀ {s : State}, P s → s.Sound
  drive : ∀ {s : State}, P s → P s.drive
  phase : ∀ {s : State} (ph : Phase), P s → P { s with phase := ph }
  outside : ∀ {s : State} (q : List Instr) (b : Bool) (c n : Nat) (pin st : Bool) (tm : Option Nat), P s →
    P { s with pending := q, inReset := b, clock := c, shortPulses := n, eclosePin := pin,
               ecloseState := st, ecloseTimer := tm }
  port : ∀ {s : State} {port : Port} {f : PortState → PortState}, P s →
    (∀ ps, (f ps).marks = ps.marks ∧ (f ps).freed = ps.freed
      ∧ (ps.countsOk = true → (f ps).countsOk = true)) → P (s.modPort port f)
  readChanges : ∀ {s : State} (port : Port), P s → P (s.modPort port PortState.readChanges)
  putCfg : ∀ {s : State} {p : Nat} {r r' : Record}, P s → s.rec? p = some r → r'.Sound →
    r'.cfg.listKey = r.cfg.listKey → P (s.putRec p r')
  rezone : ∀ {s : State} {p z : Nat} {r : Record} (rank : Byte), P s → s.rec? p = some r →
    1 ≤ z ∧ z ≤ 24 → P (s.rezone p r z rank)
  enrol : ∀ {s : State} {p : Nat} {r : Record}, P s → s.rec? p = none →
    Keyed.get? s.directory r.cfg.number = none → p ≤ 255 → r.Sound → P (s.enterTable p r)
  newOrder : ∀ {s : State} {k : Nat} {o : Order} (n : Nat), P s → k ≤ 15 → o.Sound →
    P { s with slots := Keyed.put s.slots k o, arrivals := n }
  startWalk : ∀ {s : State} (b : BulkPlan), P s → P (s.startWalk b)
  newUnit : ∀ {s : State} {u : Nat} {w : PowerUnit}, P s → u ≤ 31 → w.Sound → P (s.putUnit u w)
  eraseUnit : ∀ {s : State} (u : Nat), P s → P { s with units := Keyed.remove s.units u }
  budget : ∀ {s : State} {m e : Nat}, P s → m ≤ 32 → e ≤ 16 → s.shipStrokes ≤ m + e →
    P { s with shipM := m, shipE := e }
  window : ∀ {s : State} {n : LineNo} {l : Line}, P s → 2 ≤ l.window ∧ l.window ≤ 100 → P (s.putLine n l)
  calendar : ∀ {s : State} {l : List CalSlot}, P s → 1 ≤ l.length → l.length ≤ 8 →
    (∀ c ∈ l, c.Sound) → P { s with calendar := l }
  restart : ∀ {s : State}, P s → P s.restartBlocks
  reset : ∀ {s : State}, P s → P s.enterReset

variable {P : State → Prop} {s t : State} {f : State → Status × Content}

/-! ### Quantities and configured fields -/

theorem clampTo_range {lo hi : Nat} (h : lo ≤ hi) (n : Nat) :
    lo ≤ clampTo lo hi n ∧ clampTo lo hi n ≤ hi := by unfold clampTo; omega

/-- A quantity lies in its range, where its default does. -/
theorem quantity_range {lo hi d : Nat} (h : lo ≤ hi) (hd : lo ≤ d ∧ d ≤ hi) (n : Option Nat) :
    lo ≤ (quantity lo hi n d).1 ∧ (quantity lo hi n d).1 ≤ hi := by
  unfold quantity
  split
  · exact clampTo_range h _
  · exact hd

theorem quantity_le {hi d : Nat} (hd : d ≤ hi) (n : Option Nat) : (quantity 0 hi n d).1 ≤ hi :=
  (quantity_range (Nat.zero_le hi) ⟨Nat.zero_le d, hd⟩ n).2

theorem PowerFields.Sound.withArgs {pf : PowerFields} (h : pf.Sound) (a : FieldArgs) :
    (pf.withArgs a).1.Sound where
  closeCost := quantity_range (by omega) h.closeCost _
  openCost := quantity_range (by omega) h.openCost _
  closeAllowance := quantity_range (by omega) h.closeAllowance _
  openAllowance := quantity_range (by omega) h.openAllowance _
  lead := quantity_le h.lead _
  recloseDelay := quantity_range (by omega) h.recloseDelay _
  passageLimit := quantity_range (by omega) h.passageLimit _
  unit := h.unit

theorem PowerFields.sound_defaults {u : Nat} (h : u ≤ 31) : (PowerFields.defaults u).Sound := by
  constructor <;> simp [PowerFields.defaults, h]

/-- The P fields of a record that becomes class P, with a unit that exists. -/
theorem FieldArgs.sound_newPower {a : FieldArgs} {pf : PowerFields × Bool}
    (hn : FieldArgs.newPower a = some pf) (hu : s.unitOk a.unit = true) : pf.1.Sound := by
  unfold FieldArgs.newPower at hn
  split at hn
  · rename_i u _ _ ha _ _
    cases hn
    refine PowerFields.Sound.withArgs (PowerFields.sound_defaults ?_) a
    rw [ha] at hu
    simp only [State.unitOk, Bool.and_eq_true, decide_eq_true_eq] at hu
    exact hu.1
  · cases hn

theorem mem_kindSet {k : FaultKind} {ks : List FaultKind} (h : k ∈ kindSet ks) : k ∈ ks := by
  simp only [kindSet, List.mem_filter, List.contains_iff_mem] at h
  exact h.2

theorem enables_maskable {e : Option (Naming FaultKind)} (h : enablesOk e = true) {n : Naming FaultKind}
    (hn : e = some n) : ∀ k ∈ kindSet n.items, k.maskable = true := by
  subst hn
  simp only [enablesOk, Bool.and_eq_true, List.all_eq_true] at h
  exact fun k hk => h.2 k (mem_kindSet hk)

/-! ### ENROL -/

theorem inRange_some {lo hi n : Nat} (h : inRange lo hi (some n) = true) : lo ≤ n ∧ n ≤ hi := by
  simpa [inRange] using h

/-- The configured fields of a new record are sound. -/
theorem State.sound_enrolForm {q : EnrolReq} {l : Lifecycle} {cfg : Configured} {b : Bool}
    (h : s.enrolForm q = some (l, cfg, b)) : q.position ≤ 255 ∧ cfg.Sound := by
  unfold State.enrolForm at h
  split at h
  · rename_i l' cfg' b' _ hc
    split at h
    · rename_i hok
      cases h
      obtain ⟨hp, hcom, hpow⟩ := hok
      refine ⟨hp, ?_⟩
      simp only [FieldArgs.commonOk, Bool.and_eq_true] at hcom
      obtain ⟨⟨⟨⟨hnum, -⟩, haddr⟩, hzone⟩, hen⟩ := hcom
      unfold FieldArgs.newConfig at hc
      split at hc
      · rename_i number cls line station zone h1 h2 h3 h4
        split at hc
        · cases hc
        · rename_i ln hln
          rw [h1] at hnum
          rw [h3] at haddr
          rw [h4] at hzone
          have hst : 1 ≤ station ∧ station ≤ 64 := by
            simp only [addressOk, Bool.and_eq_true, decide_eq_true_eq] at haddr
            exact ⟨haddr.1.2, haddr.2⟩
          have hen' : ∀ k ∈ FieldArgs.enablesOr q.args maskableKinds, k.maskable = true := by
            unfold FieldArgs.enablesOr
            split
            · exact enables_maskable hen ‹_›
            · decide
          have hlim := quantity_range (lo := 200) (hi := 20000) (by omega) ⟨by omega, by omega⟩
            q.args.staleLimit (d := 2000)
          dsimp only at hc
          split at hc
          · split at hc
            · rename_i pf hpf
              simp only [Option.some.injEq, Prod.mk.injEq] at hc
              obtain ⟨rfl, -⟩ := hc
              have hs := hpow rfl
              simp only [State.powerArgsOk, Bool.and_eq_true] at hs
              exact ⟨inRange_some hnum, hst, inRange_some hzone, hlim, hen', by simp,
                fun pf' e => by cases e; exact FieldArgs.sound_newPower hpf hs.2⟩
            · cases hc
          · simp only [Option.some.injEq, Prod.mk.injEq] at hc
            obtain ⟨rfl, -⟩ := hc
            exact ⟨inRange_some hnum, hst, inRange_some hzone, hlim, hen', by simp, by simp⟩
          · simp only [Option.some.injEq, Prod.mk.injEq] at hc
            obtain ⟨rfl, -⟩ := hc
            exact ⟨inRange_some hnum, hst, inRange_some hzone, hlim, hen', by simp, by simp⟩
      · cases hc
    · cases h
  · cases h

theorem State.enrolRecord_steps (h : StepClosed P) {p : Nat} {l : Lifecycle} {cfg : Configured}
    (hs : P s) (hp : p ≤ 255) (hc : cfg.Sound) (hr : s.rec? p = none)
    (hd : Keyed.get? s.directory cfg.number = none) : P (s.enrolRecord p l cfg) :=
  State.rejoinSweep_keeps h.toClosed p (h.markBoth p
    (h.enrol hs hr hd hp ⟨hc, Nat.zero_le 3, Nat.zero_le 3⟩))

theorem State.serveEnrol_steps (h : StepClosed P) {q : EnrolReq} (hs : P s)
    (he : State.serveEnrol q s = .change t f) : P t := by
  unfold State.serveEnrol at he
  dsimp only at he
  split at he
  · cases he
  · rename_i l cfg b hf
    obtain ⟨hp, hc⟩ := State.sound_enrolForm hf
    repeat' split at he
    · cases he
    · cases he
    · rename_i hfree hdup
      cases he
      simp only [State.enrolDuplicate, Bool.or_eq_true, not_or, Option.not_isSome_iff_eq_none] at hdup
      exact State.enrolRecord_steps h hs hp hc (Option.not_isSome_iff_eq_none.mp hfree) hdup.1

/-! ### Changes of a record -/

theorem State.modRec_steps (h : StepClosed P) {p : Nat} {g : Record → Record} (hs : P s)
    (hg : ∀ r, s.rec? p = some r → r.Sound → (g r).Sound)
    (hk : ∀ r, (g r).cfg.listKey = r.cfg.listKey) : P (s.modRec p g) := by
  unfold State.modRec
  split
  · rename_i r hr
    have hr' := h.putCfg hs hr (hg r hr ((h.sound hs).records p r hr).2) (hk r)
    split
    · exact hr'
    · exact h.markBoth p hr'
  · exact hs

theorem State.modCfg_steps (h : StepClosed P) {p : Nat} {g : Configured → Configured} (hs : P s)
    (hg : ∀ r, s.rec? p = some r → r.cfg.Sound → (g r.cfg).Sound)
    (hk : ∀ c, (g c).listKey = c.listKey) : P (s.modCfg p g) :=
  State.modRec_steps h hs (fun r hr k => ⟨hg r hr k.cfg, k.missed, k.attempts⟩) fun r => hk r.cfg

theorem State.modPower_steps (h : StepClosed P) {p : Nat} {g : PowerFields → PowerFields} (hs : P s)
    (hg : ∀ pf : PowerFields, pf.Sound → (g pf).Sound) : P (s.modPower p g) :=
  State.modCfg_steps h hs (fun r _ hc => ⟨hc.number, hc.station, hc.zone, hc.staleLimit, hc.enables,
    by simpa using hc.cls, fun pf e => by
      cases hp : r.cfg.power with
      | none => simp [hp] at e
      | some pf' => simp [hp] at e; exact e ▸ hg _ (hc.power _ hp)⟩) fun _ => rfl

theorem State.switchDoorEnable_steps (h : StepClosed P) (p : Nat) (on : Bool) {k : FaultKind}
    (hk : k.maskable = true) (hs : P s) : P (s.switchDoorEnable p on k) := by
  have ha : ∀ {ks : List FaultKind}, (∀ j ∈ ks, j.maskable = true) →
      ∀ j ∈ addKind k ks, j.maskable = true := fun hks j hj => by
    simp only [addKind, List.mem_filter, Bool.or_eq_true, decide_eq_true_eq,
      List.contains_iff_mem] at hj
    rcases hj.2 with rfl | hj
    · exact hk
    · exact hks j hj
  have hd : ∀ {ks : List FaultKind}, (∀ j ∈ ks, j.maskable = true) →
      ∀ j ∈ dropKind k ks, j.maskable = true := fun hks j hj => by
    simp only [dropKind, List.mem_filter] at hj
    exact hks j hj.1
  have h1 : P (s.modRec p fun r =>
      { r with cfg := { r.cfg with enables := addKind k r.cfg.enables } }) :=
    State.modRec_steps h hs (fun r _ hr => ⟨⟨hr.cfg.1, hr.cfg.2, hr.cfg.3, hr.cfg.4, ha hr.cfg.5,
      hr.cfg.6, hr.cfg.7⟩, hr.2, hr.3⟩) fun _ => rfl
  have h2 : P (s.modRec p fun r =>
      { r with cfg := { r.cfg with enables := dropKind k r.cfg.enables } }) :=
    State.modRec_steps h hs (fun r _ hr => ⟨⟨hr.cfg.1, hr.cfg.2, hr.cfg.3, hr.cfg.4, hd hr.cfg.5,
      hr.cfg.6, hr.cfg.7⟩, hr.2, hr.3⟩) fun _ => rfl
  unfold State.switchDoorEnable
  dsimp only
  split
  · split
    · exact hs
    · split
      · split
        · exact State.listAlarm_keeps h.toClosed _ _ h1
        · exact h1
      · refine State.removeAlarm_keeps h.toClosed _ _ ?_
        split
        · exact State.modRec_keeps h.toClosed (fun _ => ⟨rfl, id, id⟩) h2
        · exact h2
  · exact hs

theorem foldSwitch_steps (h : StepClosed P) {new : List FaultKind} (p : Nat) :
    ∀ (l : List FaultKind) {s : State}, (∀ k ∈ l, k.maskable = true) → P s →
      P (l.foldl (fun s k => s.switchDoorEnable p (new.contains k) k) s)
  | [], _, _, hs => hs
  | _ :: l, _, hl, hs => foldSwitch_steps h p l (fun j hj => hl j (List.mem_cons_of_mem _ hj))
      (State.switchDoorEnable_steps h p _ (hl _ List.mem_cons_self) hs)

theorem State.setDoorEnables_steps (h : StepClosed P) (p : Nat) (new : List FaultKind) (hs : P s) :
    P (s.setDoorEnables p new) := foldSwitch_steps h p _ (by decide) hs

theorem State.setUnit_steps (h : StepClosed P) {p u : Nat} (hu : u ≤ 31) (hs : P s) :
    P (s.setUnit p u) := by
  have hpf : ∀ pf : PowerFields, pf.Sound → PowerFields.Sound { pf with unit := u } :=
    fun pf k => ⟨k.1, k.2, k.3, k.4, k.5, k.6, k.7, hu⟩
  unfold State.setUnit
  dsimp only
  repeat' split
  · exact hs
  · exact State.joinQueue_keeps h.toClosed _ _ (State.modPower_steps h
      (State.modRec_keeps h.toClosed (fun _ => ⟨rfl, id, id⟩)
        (State.leaveQueue_keeps h.toClosed _ _ hs)) hpf)
  · exact State.joinQueue_keeps h.toClosed _ _ (State.modPower_steps h
      (State.modRec_keeps h.toClosed (fun _ => ⟨rfl, id, id⟩) hs) hpf)
  · exact State.modPower_steps h hs hpf
  · exact hs

theorem State.setStaleLimit_steps (h : StepClosed P) {p n : Nat} (hn : 200 ≤ n ∧ n ≤ 20000)
    (hs : P s) : P (s.setStaleLimit p n) := by
  unfold State.setStaleLimit
  split
  · have h1 : ∀ b, P (s.modRec p fun r =>
        { r with cfg := { r.cfg with staleLimit := n }, aged := b }) := fun b =>
      State.modRec_steps h hs (fun r _ hr => ⟨⟨hr.cfg.1, hr.cfg.2, hr.cfg.3, hn, hr.cfg.5, hr.cfg.6,
        hr.cfg.7⟩, hr.2, hr.3⟩) fun _ => rfl
    dsimp only
    split
    · exact State.deriveUnjudged_keeps h.toClosed _ (h1 _)
    · exact h1 _
  · exact hs

theorem State.setZoneRank_steps (h : StepClosed P) {p z : Nat} (hz : 1 ≤ z ∧ z ≤ 24) (rank : Byte)
    (hs : P s) : P (s.setZoneRank p z rank) := by
  unfold State.setZoneRank
  dsimp only
  repeat' split
  · exact State.replaceInQueue_keeps h.toClosed _ _ (h.rezone rank hs ‹_› hz)
  · exact h.rezone rank hs ‹_› hz
  · exact h.rezone rank hs ‹_› hz
  · exact hs

theorem State.setAddress_steps (h : StepClosed P) {p st : Nat} (n : LineNo) (hst : 1 ≤ st ∧ st ≤ 64)
    (hs : P s) : P (s.setAddress p n st) :=
  State.rejoinSweep_keeps h.toClosed p (State.modCfg_steps h hs
    (fun _ _ hc => ⟨hc.1, hst, hc.3, hc.4, hc.5, hc.6, hc.7⟩) fun _ => rfl)

theorem State.setClass_steps (h : StepClosed P) {p : Nat} {cls : DoorClass} {pf : Option PowerFields}
    (hc : cls = .P ↔ pf.isSome) (hpf : ∀ x, pf = some x → x.Sound) (hs : P s) :
    P (s.setClass p cls pf) := by
  unfold State.setClass
  dsimp only
  have h2 : ∀ {x : State}, P x →
      P ((x.modCfg p fun c => { c with cls := cls, power := pf }).deriveJudged p []) := fun hx =>
    State.deriveJudged_keeps h.toClosed _ _ (State.modCfg_steps h hx
      (fun _ _ k => ⟨k.1, k.2, k.3, k.4, k.5, hc, hpf⟩) fun _ => rfl)
  split
  · split
    · exact hs
    · split
      · exact h2 (State.first_keeps h.toClosed _ (State.causeOff_keeps h.toClosed _ _
          (State.causeOff_keeps h.toClosed _ _ (State.causeOff_keeps h.toClosed _ _
            (State.causeOff_keeps h.toClosed _ _ (State.modRec_keeps h.toClosed
              (fun _ => ⟨rfl, id, id⟩) (State.chargeAll_keeps h.toClosed _ _ hs)))))))
      · exact h2 hs
  · exact hs

/-! ### CHANGE -/

/-- No hand-off changes the configured fields of the record at a position, while it stands. -/
theorem closed_cfg (p : Nat) (c : Configured) : Closed fun s => ∀ r, s.rec? p = some r → r.cfg = c :=
  { agenda := fun _ h => h
    putRec := fun {s q r r'} h hr hf r'' hq => by
      simp only [State.rec?, State.putRec_records, Keyed.get?_put] at hq
      split at hq
      · subst_vars; cases hq; exact hf.cfg.trans (h r hr)
      · exact h r'' hq
    freePosition := fun {s q _} _ h _ r hq => by
      have hq' : Keyed.get? (Keyed.remove s.records q) p = some r := hq
      rw [Keyed.get?_remove] at hq'
      split at hq'
      · cases hq'
      · exact h r hq'
    putUnit := fun h _ _ => h, putOrder := fun h _ _ => h,
    putLine := fun h _ => h, modAllLines := fun h _ => h, markBoth := fun _ h => h,
    alarms := fun h _ => h, overflow := fun _ h => h, shipStrokes := fun h _ => h,
    stack := fun _ h => h, pendingOrders := fun _ h => h, walk := fun h _ => h }

/-- The P fields a record is given are sound and fit its class. -/
theorem FieldArgs.sound_powerFor {a : FieldArgs} {r : Record} (hr : r.cfg.Sound)
    (hfit : s.changeFits r a = true) :
    (FieldArgs.classOr a r.cfg.cls = .P
        ↔ (FieldArgs.powerFor a (FieldArgs.classOr a r.cfg.cls) r.cfg.power).isSome)
      ∧ ∀ pf, (FieldArgs.powerFor a (FieldArgs.classOr a r.cfg.cls) r.cfg.power).map Prod.fst = some pf
        → pf.Sound := by
  generalize hc : FieldArgs.classOr a r.cfg.cls = cls at *
  simp only [State.changeFits, hc, Bool.and_eq_true, Bool.or_eq_true, decide_eq_true_eq] at hfit
  obtain ⟨⟨-, hargs⟩, hnew⟩ := hfit
  cases cls with
  | H => simp [FieldArgs.powerFor]
  | S => simp [FieldArgs.powerFor]
  | P =>
    have hu : s.unitOk a.unit = true := by
      rcases hargs with hargs | hargs
      · exact absurd rfl hargs
      · simp only [State.powerArgsOk, Bool.and_eq_true] at hargs; exact hargs.2
    cases hp : r.cfg.power with
    | some pf =>
      refine ⟨by simp [FieldArgs.powerFor], fun x hx => ?_⟩
      simp only [FieldArgs.powerFor, Option.map_some, Option.some.injEq] at hx
      exact hx ▸ (hr.power pf hp).withArgs a
    | none =>
      have hnp : r.cfg.cls ≠ .P := fun e => by simpa [hp] using hr.cls.mp e
      rcases hnew with (hnew | hnew) | hnew
      · exact absurd rfl hnew
      · exact absurd hnew hnp
      · refine ⟨by simpa [FieldArgs.powerFor] using hnew, fun x hx => ?_⟩
        simp only [FieldArgs.powerFor, Option.map_eq_some_iff] at hx
        obtain ⟨y, hy, rfl⟩ := hx
        exact FieldArgs.sound_newPower hy hu

theorem State.changeClass_steps (h : StepClosed P) {p : Nat} {r : Record} {cls : DoorClass}
    {power : Option PowerFields} (hs : P s) (hcfg : ∀ r', s.rec? p = some r' → r'.cfg = r.cfg) (hr : r.cfg.Sound)
    (hc : cls = .P ↔ power.isSome) (hp : ∀ pf, power = some pf → pf.Sound) :
    P (s.changeClass p r cls power) := by
  unfold State.changeClass
  split
  · rename_i e
    refine State.modCfg_steps h hs (fun r' hr' _ => ?_) fun _ => rfl
    rw [hcfg r' hr']
    exact ⟨hr.1, hr.2, hr.3, hr.4, hr.5, e ▸ hc, hp⟩
  · exact State.setClass_steps h hc hp hs

theorem State.changeAddress_steps (h : StepClosed P) (hs : P s) (p : Nat) {a : Option (Nat × Nat)}
    (ha : addressOk a = true) : P (s.changeAddress p a) := by
  unfold State.changeAddress
  repeat' split
  · simp only [addressOk, Bool.and_eq_true, decide_eq_true_eq] at ha
    exact State.setAddress_steps h _ ⟨ha.1.2, ha.2⟩ hs
  · exact hs
  · exact hs

theorem State.changeUnitField_steps (h : StepClosed P) (hs : P s) (p : Nat) {cls : DoorClass} {unit : Option Nat}
    (hu : cls = .P → ∀ u, unit = some u → u ≤ 31) : P (s.changeUnitField p cls unit) := by
  unfold State.changeUnitField
  repeat' split
  · exact State.setUnit_steps h (hu ‹_› _ rfl) hs
  · exact hs
  · exact hs

theorem State.changeZoneRank_steps (h : StepClosed P) (hs : P s) (p : Nat) {c : Configured} {zone : Nat} (rank : Byte)
    (hz : 1 ≤ zone ∧ zone ≤ 24) : P (s.changeZoneRank p c zone rank) := by
  unfold State.changeZoneRank
  split
  · exact hs
  · exact State.setZoneRank_steps h hz rank hs

theorem State.changeStaleLimit_steps (h : StepClosed P) (hs : P s) (p : Nat) (n : Option Nat) :
    P (s.changeStaleLimit p n) := by
  unfold State.changeStaleLimit
  split
  · exact State.setStaleLimit_steps h (clampTo_range (by omega) _) hs
  · exact hs

theorem State.changeEnables_steps (h : StepClosed P) (hs : P s) (p : Nat) (e : Option (Naming FaultKind)) :
    P (s.changeEnables p e) := by
  unfold State.changeEnables
  split
  · exact State.setDoorEnables_steps h _ _ hs
  · exact hs

theorem State.applyChange_steps (h : StepClosed P) (hs : P s) {p : Nat} {r : Record} {q : ChangeReq}
    (hr : s.rec? p = some r) (hform : ChangeReq.formOk q = true)
    (hfit : s.changeFits r q.args = true) : P (s.applyChange p r q) := by
  have hrs := ((h.sound hs).records p r hr).2.cfg
  obtain ⟨hcls, hpow⟩ := FieldArgs.sound_powerFor (a := q.args) hrs hfit
  simp only [ChangeReq.formOk, FieldArgs.commonOk, Bool.and_eq_true] at hform
  obtain ⟨⟨-, ⟨⟨-, haddr⟩, hzone⟩, hen⟩, -⟩ := hform
  unfold State.applyChange
  dsimp only
  refine h.markBoth p (State.costChanged_keeps h.toClosed _ _ ?_)
  -- the state after isolation, with the record's own configured fields
  generalize ht : (if q.lifecycle = some (.is .isolated) then s.isolate p else s) = t
  have h0 : P t := by
    subst ht; split
    · exact State.isolate_keeps h.toClosed p hs
    · exact hs
  have hcfg : ∀ r', t.rec? p = some r' → r'.cfg = r.cfg := by
    have hk : ∀ r', s.rec? p = some r' → r'.cfg = r.cfg := fun r' e => by
      rw [hr] at e; cases e; rfl
    subst ht; split
    · exact State.isolate_keeps (closed_cfg p r.cfg) p hk
    · exact hk
  have h1 := State.changeClass_steps h h0 hcfg hrs (by simpa using hcls) hpow
  have h2 := State.changeAddress_steps h h1 p haddr
  have h3 := State.changeUnitField_steps h h2 p (cls := FieldArgs.classOr q.args r.cfg.cls) (unit := q.args.unit)
    fun e u hu => by
      simp only [State.changeFits, e, Bool.and_eq_true, Bool.or_eq_true, decide_eq_true_eq,
        State.powerArgsOk, hu, State.unitOk] at hfit
      rcases hfit.1.2 with hx | hx
      · exact absurd rfl hx
      · exact hx.2.1
  have h4 := State.changeZoneRank_steps h h3 p (c := r.cfg) (zone := q.args.zone.getD r.cfg.zone)
    (q.args.rank.getD r.cfg.rank) (by
      cases hz : q.args.zone with
      | none => exact hrs.zone
      | some z => rw [hz] at hzone; exact inRange_some hzone)
  have h5 := State.modCfg_steps h (p := p) (g := fun c => { c with tag := q.args.tag.getD c.tag }) h4
    (fun _ _ hc => ⟨hc.1, hc.2, hc.3, hc.4, hc.5, hc.6, hc.7⟩) fun _ => rfl
  have h6 := State.changeEnables_steps h (State.changeStaleLimit_steps h h5 p q.args.staleLimit) p
    q.args.enables
  split
  · exact State.unisolate_keeps h.toClosed p h6
  · exact h6

/-! ### The bulk walk -/

theorem State.visitPlan_unit {p u : Nat} {r : Record} {b : BulkPlan}
    (h : (s.visitPlan p r b).unit = some u) : u ≤ 31 := by
  simp only [State.visitPlan] at h
  split at h
  · rename_i hb
    simp only [Bool.and_eq_true, Bool.not_eq_true', Bool.and_eq_false_iff, Bool.or_eq_false_iff,
      Bool.not_eq_false'] at hb
    obtain ⟨hg, hb⟩ := hb
    rcases hb with hb | hb
    · rcases hg with ⟨h1, h2⟩; rcases hb with hb | hb <;> simp_all
    · have := hb.2
      rw [h] at this
      simp only [State.unitOk, Bool.and_eq_true, decide_eq_true_eq] at this
      exact this.1
  · cases h

theorem State.applyVisit_steps (h : StepClosed P) {p : Nat} {v : VisitPlan}
    (hu : ∀ u, v.unit = some u → u ≤ 31) (hs : P s) : P (s.applyVisit p v) := by
  unfold State.applyVisit
  dsimp only
  generalize ht : (if v.lifecycle = some .isolated then s.isolate p else s) = t
  have h0 : P t := by
    subst ht; split
    · exact State.isolate_keeps h.toClosed p hs
    · exact hs
  have h1 : P ((t.modPower p fun pf =>
      { pf with perms := v.perms.getD pf.perms,
                normallyClosed := v.normallyClosed.getD pf.normallyClosed }).modCfg p fun c =>
        { c with tag := v.tag.getD c.tag }) :=
    State.modCfg_steps h (State.modPower_steps h h0
      fun _ k => ⟨k.1, k.2, k.3, k.4, k.5, k.6, k.7, k.8⟩)
      (fun _ _ hc => ⟨hc.1, hc.2, hc.3, hc.4, hc.5, hc.6, hc.7⟩) fun _ => rfl
  generalize State.modCfg _ p (fun c => { c with tag := v.tag.getD c.tag }) = x at h1 ⊢
  have h2 : P (x.visitUnit p v.unit) := by
    unfold State.visitUnit
    split
    · exact State.setUnit_steps h (hu _ ‹_›) h1
    · exact h1
  have h3 : P ((x.visitUnit p v.unit).visitEnables p v.enables) := by
    unfold State.visitEnables
    split
    · exact State.setDoorEnables_steps h _ _ h2
    · exact h2
  split
  · exact State.unisolate_keeps h.toClosed p h3
  · exact h3

theorem State.walkStep_steps (h : StepClosed P) (b : BulkPlan) (hs : P s) : P (s.walkStep b) := by
  unfold State.walkStep
  refine State.later_keeps h.toClosed _ ?_
  have h0 : P (s.modWalk fun w => { w with stepTimer := none }) :=
    State.modWalk_keeps h.toClosed (fun _ => rfl) hs
  generalize (s.modWalk fun w => { w with stepTimer := none }) = t at h0 ⊢
  have hmod : ∀ {x : State} (g : Walk → Walk), (∀ w, (g w).number = w.number) → P x →
      P (x.modWalk g) := fun _ hf hx => State.modWalk_keeps h.toClosed hf hx
  unfold State.visit
  dsimp only
  split
  · split
    · exact h0
    · have h1 := hmod (fun w => w.count fun c => { c with visited := c.visited + 1 }) (fun _ => rfl) h0
      split
      · rename_i r _ _ _
        generalize hv : State.visitPlan _ t.walk.cursor r b = v
        have hu : ∀ u, v.unit = some u → u ≤ 31 := fun u e =>
          State.visitPlan_unit (hv ▸ e)
        have h2 := hmod (fun w => w.count fun c =>
          { c with matched := c.matched + 1
                   skipped := if v.skipped then c.skipped + 1 else c.skipped
                   changed := if !v.skipped && v.applies then c.changed + 1 else c.changed })
          (fun _ => rfl) h1
        split
        · exact h.markBoth _ (State.applyVisit_steps h hu h2)
        · exact State.applyVisit_steps h hu h2
      · exact h1
  · exact h0

end Sys2Proof.Machine
end

