-- ==== Sys2Proof/Laws/StepEvents.lean ====
section
/-! SUPPORT. Every request, every event and the passing of time keep what is closed under the primitive
updates (`StepClosed`). -/

namespace Sys2Proof.Machine

variable {P : State → Prop} {s t : State} {f : State → Status × Content}

/-! ### Door requests -/

theorem State.resolve_found {d : DoorName} {p : Nat} {r : Record} (h : s.resolve d = .found p r) :
    s.rec? p = some r := by
  have hp : ∀ {q : Nat}, s.resolvePosition q = .found p r → s.rec? p = some r := fun {q} e => by
    unfold State.resolvePosition at e
    split at e
    · cases e; assumption
    · cases e
  unfold State.resolve at h
  repeat' split at h
  all_goals first
    | cases h
    | exact hp h

theorem State.serveChange_steps (h : StepClosed P) {q : ChangeReq} (hs : P s)
    (he : State.serveChange q s = .change t f) : P t := by
  unfold State.serveChange at he
  split at he
  · cases he
  · rename_i hform
    split at he
    · cases he
    · cases he
    · rename_i p r hp
      repeat' split at he
      · cases he
      · cases he
      · cases he
      · rename_i hfit _ _
        cases he
        exact State.applyChange_steps h hs (State.resolve_found hp) (not_not.mp hform)
          (not_not.mp hfit)

theorem State.serveRetire_steps (h : StepClosed P) {d : DoorName} (hs : P s)
    (he : State.serveRetire d s = .change t f) : P t := by
  unfold State.serveRetire at he
  split at he
  · cases he
  · cases he
  · split at he
    · cases he
    · cases he
      split
      · exact State.retirementEnds_keeps h.toClosed _ _ hs
      · exact State.beginRetirement_keeps h.toClosed _ _ hs

/-! ### Order requests -/

theorem State.acceptOrder_steps (h : StepClosed P) {k : Nat} {o : Order} (hk : k ≤ 15)
    (ho : o.Sound) (hs : P s) : P (s.acceptOrder k o) := by
  have h1 := h.newOrder (o := { o with arrival := s.arrivals + 1 }) (s.arrivals + 1) hs hk ⟨ho.1, ho.2⟩
  unfold State.acceptOrder
  dsimp only
  split
  · exact State.pushOrder_keeps h.toClosed _ h1
  · exact State.enterPending_keeps h.toClosed _ h1

/-- A slot among the candidates. -/
theorem State.oldestFinished_mem {l : List Nat} {k a : Nat} (h : s.oldestFinished l = some (k, a)) :
    k ∈ l := by
  induction l generalizing k a with
  | nil => cases h
  | cons x l ih =>
    unfold State.oldestFinished at h
    dsimp only at h
    repeat' split at h
    all_goals first
      | exact List.mem_cons_of_mem _ (ih h)
      | (cases h; exact List.mem_cons_of_mem _ (ih ‹_›))
      | (cases h; exact List.mem_cons_self)

theorem State.slotForOrder_le {k : Nat} (h : s.slotForOrder = some k) : k ≤ 14 := by
  unfold State.slotForOrder at h
  split at h
  · cases h
    have := List.mem_of_find?_eq_some ‹_›
    simp at this; omega
  · simp only [Option.map_eq_some_iff] at h
    obtain ⟨⟨x, a⟩, hx, rfl⟩ := h
    have := State.oldestFinished_mem hx
    simp at this; omega

theorem State.equalOrder_get (hw : s.wf = true) {k : OrderKind} {n slot : Nat} {sc : Scope} {o : Order}
    (h : s.equalOrder k n sc = some (slot, o)) : s.order? slot = some o := by
  rw [State.wf_iff] at hw
  exact Keyed.get?_of_mem hw.2.2.2.1 (List.mem_of_find?_eq_some h)

theorem State.serveOrder_steps (h : StepClosed P) {port : Port} {q : OrderReq} (hs : P s)
    (he : State.serveOrder port q s = .change t f) : P t := by
  unfold State.serveOrder at he
  split at he
  · cases he
  · split at he
    · cases he
    · split at he
      · cases he
      · rename_i hprio
        dsimp only at he
        split at he
        · rename_i slot o ho
          cases he
          exact h.putOrder hs (State.equalOrder_get (h.sound hs).wf ho) (o.follows_absorb port)
        · split at he
          · cases he
          · rename_i slot hslot
            cases he
            have hk := State.slotForOrder_le hslot
            refine State.acceptOrder_steps h (by omega) ⟨?_, Nat.zero_le _⟩ hs
            simp only [priorityBad, Bool.or_eq_true, decide_eq_true_eq, not_or] at hprio
            show q.priority ≤ 7
            omega

theorem State.serveCancel_steps (h : StepClosed P) {port : Port} {k : Nat} (hs : P s)
    (he : State.serveCancel port k s = .change t f) : P t := by
  unfold State.serveCancel at he
  repeat' split at he
  · cases he
  · cases he
  · cases he
  · cases he
    exact State.modOrder_keeps h.toClosed (fun o => o.follows_readBy port)
      (State.cancelOrder_keeps h.toClosed _ _ hs)

theorem State.serveOrderStatus_steps (h : StepClosed P) {port : Port} {q : OrderStatusReq} (hs : P s)
    (he : State.serveOrderStatus port q s = .change t f) : P t := by
  unfold State.serveOrderStatus at he
  repeat' split at he
  · cases he
  · cases he
  · cases he
  · cases he
    exact h.putOrder hs ‹_› (Order.follows_readBy _ port)

/-! ### Alarm and change requests -/

theorem State.serveAckAlarm_steps (h : StepClosed P) {q : AckReq} (hs : P s)
    (he : State.serveAckAlarm q s = .change t f) : P t := by
  unfold State.serveAckAlarm at he
  repeat' split at he
  · cases he; exact State.ackAll_keeps h.toClosed hs
  · cases he
  · cases he
  · cases he
  · cases he; exact State.ackOne_keeps h.toClosed _ _ hs

theorem State.serveClearFlags_steps (h : StepClosed P) {q : ClearFlagsReq} (hs : P s)
    (he : State.serveClearFlags q s = .change t f) : P t := by
  unfold State.serveClearFlags at he
  dsimp only at he
  repeat' split at he
  all_goals first
    | (cases he; exact State.clearShipFlags_keeps h.toClosed _ hs)
    | (cases he; exact State.clearUnitFlags_keeps h.toClosed _ _ hs)
    | (cases he; exact State.clearDoorFlags_keeps h.toClosed _ _ hs)
    | cases he

theorem State.serveReadChanges_steps (h : StepClosed P) {port : Port} {a : Unit} (hs : P s)
    (he : State.serveReadChanges port a s = .change t f) : P t := by
  cases he; exact h.readChanges port hs

/-! ### Bulk requests -/

theorem State.serveBulk_steps (h : StepClosed P) {q : BulkReq} (hs : P s)
    (he : State.serveBulk q s = .change t f) : P t := by
  unfold State.serveBulk at he
  repeat' split at he
  · cases he
  · cases he
  · cases he; exact h.startWalk _ hs

theorem State.serveBulkAbort_steps (h : StepClosed P) {a : Unit} (hs : P s)
    (he : State.serveBulkAbort a s = .change t f) : P t := by
  cases he; exact State.abortWalk_keeps h.toClosed hs

/-! ### Unit requests -/

theorem UnitArgs.sound_newUnit (a : UnitArgs) (now : Nat) : (UnitArgs.newUnit a now).1.Sound := by
  have hc := quantity_range (lo := 100) (hi := 60000) (d := 100) (by omega) (by omega) a.capacity
  exact
    { capacity := hc
      floor := quantity_le (Nat.zero_le _) _
      rate := quantity_le (by omega) _
      concurrency := quantity_range (by omega) (by omega) _
      spacing := quantity_le (by omega) _
      tolerance := quantity_le (Nat.min_le_right _ _) _
      charge := by
        show (if _ then 0 else 1000 * _) ≤ _
        split
        · exact Nat.zero_le _
        · exact Nat.le_refl _
      strokes := Nat.zero_le _
      monitorMissed := Nat.zero_le _ }

/-- A configured unit given new quantities is sound, if its concurrency still admits its strokes. -/
theorem UnitArgs.sound_quantities {a : UnitArgs} {w : PowerUnit} (h : w.Sound)
    (hk : ∀ k, a.concurrency = some k → w.strokes ≤ clampTo 1 4 k) : (UnitArgs.quantities a w).1.Sound := by
  have hc := quantity_range (by omega) h.capacity a.capacity
  exact
    { capacity := hc
      floor := quantity_le (Nat.zero_le _) _
      rate := quantity_le h.rate _
      concurrency := quantity_range (by omega) h.concurrency _
      spacing := quantity_le h.spacing _
      tolerance := quantity_le (Nat.zero_le _) _
      charge := Nat.min_le_right _ _
      strokes := by
        show w.strokes ≤ (quantity 1 4 a.concurrency w.concurrency).1
        cases ha : a.concurrency with
        | none => exact h.strokes
        | some k => exact hk k ha
      monitorMissed := h.monitorMissed }

theorem State.listAlarm_unit? (x : Subject) (k : FaultKind) (u : Nat) :
    (s.listAlarm x k).unit? u = s.unit? u := by
  unfold State.listAlarm; dsimp only; split <;> rfl

theorem State.relist_unit? (u : Nat) : s.relist.unit? u = s.unit? u := by
  unfold State.relist
  split
  · exact State.listAlarm_unit? _ _ _
  · rfl

theorem State.listCause_unit? (x : Subject) (k : FaultKind) (u : Nat) :
    (s.listCause x k).unit? u = s.unit? u := by
  unfold State.listCause
  repeat' split
  all_goals first
    | rfl
    | exact State.listAlarm_unit? _ _ _

theorem State.clearCause_unit? (x : Subject) (k : FaultKind) (u : Nat) :
    (s.clearCause x k).unit? u = s.unit? u := by
  unfold State.clearCause State.removeAlarm
  repeat' split
  all_goals first
    | rfl
    | exact (State.relist_unit? _).trans rfl

theorem State.unit?_putUnit_self (u : Nat) (w : PowerUnit) : (s.putUnit u w).unit? u = some w := by
  simp [State.unit?]

/-- A cause of a unit leaves its strokes. -/
theorem State.setUnitCause_strokes {u n : Nat} (k : FaultKind) (b : Bool)
    (h : ∀ w, s.unit? u = some w → w.strokes = n) :
    ∀ w, (s.setUnitCause u k b).unit? u = some w → w.strokes = n := by
  unfold State.setUnitCause
  split
  · rename_i w0 h0
    have hn := h w0 h0
    dsimp only
    split
    · exact h
    · intro w hw
      split at hw
      · split at hw
        · rw [State.listCause_unit?, State.unit?_putUnit_self] at hw
          cases hw; exact hn
        · unfold State.modUnit at hw
          rw [State.unit?_putUnit_self] at hw
          dsimp only at hw
          rw [State.unit?_putUnit_self] at hw
          cases hw; exact hn
      · rw [State.clearCause_unit?, State.unit?_putUnit_self] at hw
        cases hw; exact hn
  · exact h

/-- So does its accrual. -/
theorem State.touchUnit_strokes {u : Nat} {w : PowerUnit} (hu : s.unit? u = some w) :
    ∀ w', (s.touchUnit u).unit? u = some w' → w'.strokes = w.strokes := by
  have h1 : ∀ w', (s.modUnit u fun w => w.accrue s.clock).unit? u = some w' →
      w'.strokes = w.strokes := by
    intro w' e
    unfold State.modUnit at e
    rw [hu] at e
    dsimp only at e
    rw [State.unit?_putUnit_self] at e
    cases e
    unfold PowerUnit.accrue
    split <;> rfl
  unfold State.touchUnit State.judgeUL
  split
  · split
    · exact State.setUnitCause_strokes _ _ h1
    · exact h1
  · exact h1

theorem State.modUnit_steps (h : StepClosed P) {u : Nat} {g : PowerUnit → PowerUnit} (hs : P s)
    (hg : ∀ w, s.unit? u = some w → (g w).Sound) : P (s.modUnit u g) := by
  unfold State.modUnit
  split
  · exact h.newUnit hs ((h.sound hs).units _ _ ‹_›).1 (hg _ ‹_›)
  · exact hs

theorem State.changeUnit_steps (h : StepClosed P) {u : Nat} {w : PowerUnit} {a : UnitArgs}
    (hu : s.unit? u = some w) (hk : ∀ k, a.concurrency = some k → w.strokes ≤ clampTo 1 4 k)
    (hs : P s) : P (s.changeUnit u w a) := by
  have h1 : P (s.touchUnit u) := State.touchUnit_keeps h.toClosed u hs
  have h2 : P ((s.touchUnit u).modUnit u fun w => (UnitArgs.quantities a w).1) :=
    State.modUnit_steps h h1 fun w' hw' =>
      UnitArgs.sound_quantities ((h.sound h1).units u w' hw').2
        fun k e => by rw [State.touchUnit_strokes hu w' hw']; exact hk k e
  exact State.unitChanged_keeps h.toClosed _ (State.setUnitEnables_keeps h.toClosed _ _
    (State.setMonitor_keeps h.toClosed _ _ (State.setSupply_keeps h.toClosed _ _ _ h2)))

theorem State.serveUnitSet_steps (h : StepClosed P) {u : Nat} {a : UnitArgs} (hs : P s)
    (he : State.serveUnitSet u a s = .change t f) : P t := by
  unfold State.serveUnitSet at he
  split at he
  · cases he
  · rename_i hfail
    unfold State.unitSetFails at hfail
    split at hfail
    · cases hfail
    · split at hfail
      · cases hfail
      · rename_i hform
        split at hfail
        · cases hfail
        · rename_i hbusy
          have hu : u ≤ 31 := by omega
          split at he
          · split at he
            · cases he
            · cases he
              exact State.unitChanged_keeps h.toClosed _ (State.judgeMS_keeps h.toClosed _
                (h.newUnit hs hu (UnitArgs.sound_newUnit a _)))
          · rename_i w hw
            split at he
            · cases he
              exact State.removeAlarmsOf_keeps h.toClosed _ (h.eraseUnit u hs)
            · cases he
              refine State.changeUnit_steps h hw (fun k hk => ?_) hs
              simp only [State.unitSetBusy, hw, hk, Bool.or_eq_true, decide_eq_true_eq, not_or] at hbusy
              omega

theorem State.serveBudget_steps (h : StepClosed P) {m e : Option Nat} (hs : P s)
    (he : State.serveBudget m e s = .change t f) : P t := by
  unfold State.serveBudget at he
  dsimp only at he
  split at he
  · cases he
  · rename_i hlt
    have hb := (h.sound hs).budget
    have h1 := h.budget hs (quantity_le hb.1 m) (quantity_le hb.2 e) (Nat.le_of_not_lt hlt)
    cases he
    split
    · exact State.first_keeps h.toClosed _ h1
    · exact h1

theorem State.serveUnitSetReq_steps (h : StepClosed P) {q : UnitSetReq} (hs : P s)
    (he : State.serveUnitSetReq q s = .change t f) : P t := by
  cases q with
  | unit u a => exact State.serveUnitSet_steps h hs he
  | ship m e => exact State.serveBudget_steps h hs he

theorem State.serveUnitRead_steps (h : StepClosed P) {q : UnitReadReq} (hs : P s)
    (he : State.serveUnitRead q s = .change t f) : P t := by
  unfold State.serveUnitRead at he
  repeat' split at he
  · cases he
  · cases he
  · cases he
  · cases he; exact State.touchUnit_keeps h.toClosed _ hs

/-! ### Line requests -/

theorem State.serveLineSet_steps (h : StepClosed P) {q : LineSetReq} (hs : P s)
    (he : State.serveLineSet q s = .change t f) : P t := by
  unfold State.serveLineSet at he
  split at he
  · rename_i n _ _ _
    split at he
    · cases he
    · cases he
      exact State.setEnabled_keeps h.toClosed _ _
        (h.window hs (quantity_range (by omega) ((h.sound hs).windows n) _))
  · cases he

theorem State.serveCalendarSet_steps (h : StepClosed P) {q : CalendarReq} (hs : P s)
    (he : State.serveCalendarSet q s = .change t f) : P t := by
  unfold State.serveCalendarSet at he
  split at he
  · rename_i hok
    obtain ⟨h1, h2, h3, h4⟩ := hok
    cases he
    refine h.modAllLines (h.calendar hs (by simpa [h3] using h1) (by simpa [h3] using h2)
      fun c hc => ?_) fun _ => rfl
    simp only [List.mem_map] at hc
    obtain ⟨x, hx, rfl⟩ := hc
    have hx' := List.all_eq_true.mp h4 x hx
    simp only [CalSlotArg.placed, Bool.and_eq_true, decide_eq_true_eq] at hx'
    exact ⟨hx', clampTo_range (by omega) _⟩
  · cases he

/-! ### Phase requests -/

theorem State.serveCommission_steps (h : StepClosed P) {a : Unit} (hs : P s)
    (he : State.serveCommission a s = .change t f) : P t := by
  unfold State.serveCommission at he
  split at he
  · cases he
  · cases he
    exact State.first_keeps h.toClosed _ (State.startSweeps_keeps h.toClosed
      (h.phase _ (State.clearMarks_keeps h.toClosed hs)))

theorem State.serveResweep_steps (h : StepClosed P) {a : Unit} (hs : P s)
    (he : State.serveResweep a s = .change t f) : P t := by
  unfold State.serveResweep at he
  split at he
  · cases he
  · cases he
    exact State.startSweeps_keeps h.toClosed (h.phase _ (State.markAll_keeps h.toClosed
      (State.clearMarks_keeps h.toClosed hs)))

theorem sound_hardwiredOrder : hardwiredOrder.Sound := ⟨by decide, by decide⟩

theorem State.restart_steps (h : StepClosed P) (hs : P s) : P s.restart := by
  have hb := h.restart hs
  unfold State.restart
  dsimp only
  have hsw : P (if s.restartBlocks.phase = .sweep then s.restartBlocks.startSweeps
      else s.restartBlocks.stopSweeps) := by
    split
    · exact State.startSweeps_keeps h.toClosed hb
    · exact State.stopSweeps_keeps h.toClosed hb
  generalize (if s.restartBlocks.phase = .sweep then s.restartBlocks.startSweeps
      else s.restartBlocks.stopSweeps) = a at hsw ⊢
  have hm := State.markAll_keeps h.toClosed hsw
  have hu : ∀ l : List Nat, P (l.foldl (fun t u =>
      t.setUnitCause u .ms (decide ((t.unit? u).map PowerUnit.supply = some .stored))) a.markAll) :=
    fun l => foldl_keeps (fun _ _ => State.setUnitCause_keeps h.toClosed _ _ _) l hm
  have hq : ∀ (l : List (Nat × Record)) {x : State}, P x → P (l.foldl State.restartQueue x) :=
    fun l _ hx => foldl_keeps (fun x e hx => by
      unfold State.restartQueue
      repeat' split
      · exact State.modLine_keeps h.toClosed (fun l => l.window_enqueue _ _ _) hx
      · exact State.later_keeps h.toClosed _ hx
      · exact hx) l hx
  split
  · exact State.acceptOrder_steps h (by omega) sound_hardwiredOrder (hq s.records (hu _))
  · exact hq s.records (hu _)

theorem State.serveRestart_steps (h : StepClosed P) {a : Unit} (hs : P s)
    (he : State.serveRestart a s = .change t f) : P t := by
  cases he; exact State.restart_steps h hs

/-! ### The request and the event -/

theorem State.event_steps (h : StepClosed P) {g : State → Option State} (hs : P s)
    (hg : ∀ t, g s = some t → P t) : P (s.event g) :=
  State.event_keeps h.toClosed (fun _ h' => h.phase _ h') (fun h' => h.drive h') hg hs

theorem PortState.overrun_ok (ps : PortState) : ps.overrun.marks = ps.marks
    ∧ ps.overrun.freed = ps.freed ∧ (ps.countsOk = true → ps.overrun.countsOk = true) :=
  ⟨rfl, rfl, ps.countsOk_overrun⟩

theorem PortState.badFrame_ok (ps : PortState) : ps.badFrame.marks = ps.marks
    ∧ ps.badFrame.freed = ps.freed ∧ (ps.countsOk = true → ps.badFrame.countsOk = true) :=
  ⟨rfl, rfl, ps.countsOk_badFrame⟩

theorem State.request_steps (h : StepClosed P) {port : Port} {α : Type} {code : Nat} {body : Body α}
    {serve : α → State → Served} (hs : P s)
    (hg : ∀ a t reply, serve a s = .change t reply → P t) : P (s.request port code body serve) :=
  State.request_keeps h.toClosed (fun _ h' => h.phase _ h') (fun h' => h.drive h')
    (fun h' => h.port h' PortState.overrun_ok) (fun _ _ h' => h.port h' fun _ => ⟨rfl, rfl, id⟩) hg hs

/-! ### Link and pin events -/

theorem State.portEvent_steps (h : StepClosed P) {port : Port} {g : PortState → PortState} (hs : P s)
    (hg : ∀ ps, (g ps).marks = ps.marks ∧ (g ps).freed = ps.freed
      ∧ (ps.countsOk = true → (g ps).countsOk = true)) : P (s.portEvent port g) := by
  unfold State.portEvent
  split
  · exact hs
  · exact h.drive (h.port hs hg)

theorem State.rstnLow_steps (h : StepClosed P) (n : Nat) (hs : P s) : P (s.rstnLow n) := by
  unfold State.rstnLow
  dsimp only
  have hr : ∀ x : State, P x → P { x with shortPulses := s.shortPulses + 1 } := fun x hx =>
    h.outside x.pending x.inReset x.clock (s.shortPulses + 1) x.eclosePin x.ecloseState x.ecloseTimer hx
  split
  · exact h.reset hs
  · refine hr _ ?_
    split
    · exact h.reset hs
    · exact hs

theorem State.leaveReset_steps (h : StepClosed P) (hs : P s) : P s.leaveReset := by
  unfold State.leaveReset
  split
  · exact h.drive (h.outside s.pending false 0 s.shortPulses s.eclosePin s.ecloseState _ hs)
  · exact hs

theorem State.ecloseChange_steps (h : StepClosed P) (b : Bool) (hs : P s) : P (s.ecloseChange b) := by
  unfold State.ecloseChange
  split
  · exact h.outside s.pending s.inReset s.clock s.shortPulses b s.ecloseState s.ecloseTimer hs
  · refine State.event_steps h hs fun t e => ?_
    split at e
    · cases e
    · cases e
      exact h.outside s.pending s.inReset s.clock s.shortPulses b s.ecloseState _ hs

theorem State.createHardwired_steps (h : StepClosed P) (hs : P s) : P s.createHardwired :=
  State.acceptOrder_steps h (by omega) sound_hardwiredOrder hs

theorem State.assertionEdge_steps (h : StepClosed P) (hs : P s) : P s.assertionEdge := by
  unfold State.assertionEdge
  split
  · rename_i o ho
    split
    · exact h.putOrder hs ho ⟨rfl, fun _ => Nat.min_le_left _ _⟩
    · exact State.createHardwired_steps h hs
  · exact State.createHardwired_steps h hs

theorem State.ecloseExpires_steps (h : StepClosed P) (hs : P s) : P s.ecloseExpires := by
  have h1 := h.outside s.pending s.inReset s.clock s.shortPulses s.eclosePin s.eclosePin none hs
  unfold State.ecloseExpires
  dsimp only
  split
  · exact State.assertionEdge_steps h h1
  · exact h1

/-! ### Field-line and timer events, and the passing of time -/

theorem State.lineEvent_steps (h : StepClosed P) {n : LineNo} {ph : ExchangePhase}
    {g : State → Exchange → State} (hs : P s) (hg : ∀ x, P (g s x)) : P (s.lineEvent n ph g) :=
  State.event_steps h hs fun t e => by
    simp only [Option.map_eq_some_iff] at e
    obtain ⟨x, -, rfl⟩ := e
    exact hg x

theorem State.motionExpiry_steps (h : StepClosed P) {p : Nat} {m : Motion}
    {g : State → Record → State} (hs : P s) (hg : ∀ (x : State) r, P x → P (g x r)) :
    P (s.motionExpiry p m g) :=
  State.event_steps h hs fun t e => by
    split at e
    · split at e
      · cases e
        exact hg _ _ (State.modRec_keeps h.toClosed (fun _ => ⟨rfl, id, id⟩) hs)
      · cases e
    · cases e

theorem State.tick_steps (h : StepClosed P) (hs : P s) : P s.tick := by
  unfold State.tick
  repeat' split
  · exact hs
  · exact h.drive (State.settle_keeps h.toClosed (fun _ h' => h.phase _ h') hs)
  · exact h.drive (h.outside _ s.inReset _ s.shortPulses s.eclosePin s.ecloseState s.ecloseTimer hs)

/-! ### Requests that only answer, messages and bytes (R187 to R189) -/

theorem State.serveLookup_answers {d : DoorName} : State.serveLookup d s ≠ .change t f := by
  unfold State.serveLookup
  split <;> exact nofun

theorem State.serveListZone_answers {q : ListZoneReq} : State.serveListZone q s ≠ .change t f := by
  unfold State.serveListZone
  split <;> exact nofun

theorem State.serveSummary_answers {z : ZoneName} : State.serveSummary z s ≠ .change t f := by
  unfold State.serveSummary
  repeat' split
  all_goals exact nofun

theorem State.serveReadAlarms_answers {n : Nat} : State.serveReadAlarms n s ≠ .change t f := by
  unfold State.serveReadAlarms
  split <;> exact nofun

theorem State.takeMessage_steps (h : StepClosed P) {port : Port} {type : Byte} {body : List Byte}
    (hs : P s) : P (s.takeMessage port type body) := by
  unfold State.takeMessage
  split
  case h_4 => exact State.request_steps h hs fun _ _ _ he => absurd he State.serveLookup_answers
  case h_5 => exact State.request_steps h hs fun _ _ _ he => absurd he State.serveListZone_answers
  case h_6 => exact State.request_steps h hs fun _ _ _ he => absurd he State.serveSummary_answers
  case h_10 => exact State.request_steps h hs fun _ _ _ he => absurd he State.serveReadAlarms_answers
  case h_16 => exact State.request_steps h hs fun _ _ _ he => by cases he
  case h_24 => exact State.request_steps h hs fun _ _ _ he => by cases he
  case h_25 =>
    refine State.portEvent_steps h hs fun ps => ?_
    unfold PortState.takeBadType
    repeat' split
    · exact ⟨rfl, rfl, id⟩
    · exact ⟨rfl, rfl, id⟩
    · exact ps.overrun_ok
  case h_1 => exact State.request_steps h hs fun _ _ _ he => State.serveEnrol_steps h hs he
  case h_2 => exact State.request_steps h hs fun _ _ _ he => State.serveChange_steps h hs he
  case h_3 => exact State.request_steps h hs fun _ _ _ he => State.serveRetire_steps h hs he
  case h_7 => exact State.request_steps h hs fun _ _ _ he => State.serveOrder_steps h hs he
  case h_8 => exact State.request_steps h hs fun _ _ _ he => State.serveCancel_steps h hs he
  case h_9 => exact State.request_steps h hs fun _ _ _ he => State.serveOrderStatus_steps h hs he
  case h_11 => exact State.request_steps h hs fun _ _ _ he => State.serveAckAlarm_steps h hs he
  case h_12 => exact State.request_steps h hs fun _ _ _ he => State.serveClearFlags_steps h hs he
  case h_13 => exact State.request_steps h hs fun _ _ _ he => State.serveReadChanges_steps h hs he
  case h_14 => exact State.request_steps h hs fun _ _ _ he => State.serveBulk_steps h hs he
  case h_15 => exact State.request_steps h hs fun _ _ _ he => State.serveBulkAbort_steps h hs he
  case h_17 => exact State.request_steps h hs fun _ _ _ he => State.serveUnitSetReq_steps h hs he
  case h_18 => exact State.request_steps h hs fun _ _ _ he => State.serveUnitRead_steps h hs he
  case h_19 => exact State.request_steps h hs fun _ _ _ he => State.serveLineSet_steps h hs he
  case h_20 => exact State.request_steps h hs fun _ _ _ he => State.serveCalendarSet_steps h hs he
  case h_21 => exact State.request_steps h hs fun _ _ _ he => State.serveCommission_steps h hs he
  case h_22 => exact State.request_steps h hs fun _ _ _ he => State.serveResweep_steps h hs he
  case h_23 => exact State.request_steps h hs fun _ _ _ he => State.serveRestart_steps h hs he

/-- One byte at a port keeps what every step keeps. -/
theorem State.takeByte_steps (h : StepClosed P) {port : Port} {b : LinkByte} (hs : P s) :
    P (State.takeByte port s b) := by
  unfold State.takeByte
  split
  · exact h.port hs fun _ => ⟨rfl, rfl, id⟩
  · exact h.port hs fun _ => ⟨rfl, rfl, id⟩
  · exact State.takeMessage_steps h hs
  · exact h.port hs PortState.badFrame_ok

/-- Bytes at a port keep what every step keeps. -/
theorem State.takeBytes_steps (h : StepClosed P) {port : Port} (bytes : List LinkByte) (hs : P s) :
    P (s.takeBytes port bytes) :=
  foldl_keeps (fun _ _ hx => State.takeByte_steps h hx) bytes hs

/-- A gap at a port keeps what every step keeps. -/
theorem State.gap_steps (h : StepClosed P) {port : Port} (hs : P s) :
    P (s.modPort port PortState.gap) := by
  refine h.port hs fun ps => ?_
  unfold PortState.gap
  split
  · exact ⟨rfl, rfl, id⟩
  · exact ps.badFrame_ok

end Sys2Proof.Machine
end

