-- ==== Sys2Proof/Laws/Invariants.lean ====
section
/-! SUPPORT. Two invariants are closed under what a step can do: the ranges and the canonical form
(`State.Sound`), and the lists that name the records (`State.Listed`). -/

namespace Sys2Proof.Machine

variable {s t : State}

/-! ### Ranges and canonical form -/

theorem State.Sound.lists {p : Nat} {r : Record} (h : s.Sound) (hp : p ≤ 255) (hr : r.Sound) :
    (((s.putRec p r).joinDirectory r.cfg.number p).joinZone r.cfg.zone p).Sound := by
  have h1 := h.putRec hp hr
  have h2 : ((s.putRec p r).joinDirectory r.cfg.number p).Sound := by
    refine ⟨?_, h1.records, h1.units, h1.orders, h1.budget, h1.ship, h1.windows, h1.calendar, h1.walk,
      h1.ports⟩
    have := h1.wf
    simp only [State.wf_iff] at this ⊢
    obtain ⟨k1, k2, k3⟩ := this
    exact ⟨k1, Keyed.wf_put _ p k2, k3⟩
  exact ⟨State.wf_putZoneList _ _ h2.wf, h2.records, h2.units, h2.orders, h2.budget, h2.ship,
    h2.windows, h2.calendar, h2.walk, h2.ports⟩

theorem State.Sound.enterTable {p : Nat} {r : Record} (h : s.Sound) (hp : p ≤ 255) (hr : r.Sound) :
    (s.enterTable p r).Sound := by
  have h1 := h.lists hp hr
  refine ⟨?_, h1.records, h1.units, h1.orders, h1.budget, h1.ship, h1.windows, h1.calendar, h1.walk,
    h1.ports⟩
  have := h1.wf
  rw [State.wf_iff] at this ⊢
  obtain ⟨k1, k2, k3, k4, k5, k6, k7, k8⟩ := this
  exact ⟨k1, k2, k3, k4, k5, PortState.wf_dropFreed p k6, PortState.wf_dropFreed p k7, k8⟩

theorem State.Sound.putZoneList (z : Nat) (ps : List Nat) (h : s.Sound) : (s.putZoneList z ps).Sound :=
  ⟨State.wf_putZoneList z ps h.wf, h.records, h.units, h.orders, h.budget, h.ship, h.windows, h.calendar,
    h.walk, h.ports⟩

theorem State.Sound.rezone {p z : Nat} {r : Record} (rank : Byte) (h : s.Sound) (hz : 1 ≤ z ∧ z ≤ 24) :
    (s.rezone p r z rank).Sound := by
  have h1 : (s.leaveZone r.cfg.zone p).Sound := h.putZoneList _ _
  have h2 : ((s.leaveZone r.cfg.zone p).modCfg p fun c => { c with zone := z, rank := rank }).Sound := by
    unfold State.modCfg State.modRec
    split
    · rename_i r' hr'
      have hk := h1.records p r' hr'
      have h3 : ((s.leaveZone r.cfg.zone p).putRec p
          { r' with cfg := { r'.cfg with zone := z, rank := rank } }).Sound :=
        h1.putRec hk.1 ⟨⟨hk.2.cfg.1, hk.2.cfg.2, hz, hk.2.cfg.4, hk.2.cfg.5, hk.2.cfg.6, hk.2.cfg.7⟩,
          hk.2.missed, hk.2.attempts⟩
      dsimp only
      split
      · exact h3
      · exact closed_sound.markBoth p h3
    · exact h1
  exact h2.putZoneList _ _

/-- The parts of a state that soundness does not look at. -/
theorem State.Sound.outside (h : s.Sound) (q : List Instr) (b : Bool) (c n : Nat) (pin st : Bool)
    (tm : Option Nat) :
    State.Sound { s with pending := q, inReset := b, clock := c, shortPulses := n, eclosePin := pin,
                         ecloseState := st, ecloseTimer := tm } :=
  ⟨h.wf, h.records, h.units, h.orders, h.budget, h.ship, h.windows, h.calendar, h.walk, h.ports⟩

theorem State.Sound.port {port : Port} {f : PortState → PortState} (h : s.Sound)
    (hf : ∀ ps, (f ps).marks = ps.marks ∧ (f ps).freed = ps.freed
      ∧ (ps.countsOk = true → (f ps).countsOk = true)) : (s.modPort port f).Sound :=
  h.modPort (fun ps hw => by
    unfold PortState.wf at hw ⊢
    rw [(hf ps).1, (hf ps).2.1]; exact hw) fun ps => (hf ps).2.2

theorem State.Sound.restartBlocks (h : s.Sound) : s.restartBlocks.Sound := by
  have hw := h.wf
  rw [State.wf_iff] at hw
  obtain ⟨h1, h2, h3, h4, h5, h6, h7, h8⟩ := hw
  refine ⟨?_, fun p r hr => ?_, fun u w hu => ?_, ?_, h.budget, Nat.zero_le _, fun n => ?_,
    h.calendar, ?_, h.ports⟩
  · rw [State.wf_iff]
    exact ⟨Keyed.wf_map (fun e => Record.restarted s.clock e.2) h1, h2, h3, rfl,
      Keyed.wf_map (fun e => PowerUnit.restarted s.clock e.2) h5, h6, h7, Nat.zero_le _⟩
  · have hg := Keyed.get?_map s.records (fun e => Record.restarted s.clock e.2) p
    have hr' : Keyed.get? (s.records.map fun e => (e.1, Record.restarted s.clock e.2)) p = some r := hr
    rw [hg] at hr'
    simp only [Option.map_eq_some_iff] at hr'
    obtain ⟨r0, e0, rfl⟩ := hr'
    have hk := h.records p r0 e0
    exact ⟨hk.1, ⟨hk.2.cfg, Nat.zero_le 3, Nat.zero_le 3⟩⟩
  · have hg := Keyed.get?_map s.units (fun e => PowerUnit.restarted s.clock e.2) u
    have hu' : Keyed.get? (s.units.map fun e => (e.1, PowerUnit.restarted s.clock e.2)) u = some w := hu
    rw [hg] at hu'
    simp only [Option.map_eq_some_iff] at hu'
    obtain ⟨w0, e0, rfl⟩ := hu'
    have hk := (h.units u w0 e0).2
    refine ⟨(h.units u w0 e0).1, ⟨hk.1, hk.2, hk.3, hk.4, hk.5, hk.6, ?_, Nat.zero_le _,
      Nat.zero_le _⟩⟩
    show (if _ then 0 else 1000 * _) ≤ _
    split
    · exact Nat.zero_le _
    · exact Nat.le_refl _
  · intro k o ho; cases ho
  · have := h.windows n
    have hl : s.restartBlocks.lines = s.lines.map (Line.restarted s.slotFirsts) := rfl
    simp only [State.line] at this ⊢
    rw [hl, PerLine.get_map]
    exact this
  · show s.walk.restarted.number ≤ 65535
    unfold Walk.restarted
    split <;> exact h.walk

/-- A part in reset is sound, whatever it was before. -/
theorem State.Sound.enterReset : s.enterReset.Sound where
  wf := rfl
  records _ _ h := by cases h
  units _ _ h := by cases h
  orders _ _ h := by cases h
  budget := ⟨(by decide : 8 ≤ 32), (by decide : 4 ≤ 16)⟩
  ship := (by decide : 0 ≤ 8 + 4)
  windows n := by cases n <;> exact ⟨(by decide : 2 ≤ 10), (by decide : 10 ≤ 100)⟩
  calendar := ⟨(by decide : 1 ≤ 1), (by decide : 1 ≤ 8), fun c hc => by
    obtain rfl := List.mem_singleton.mp hc
    exact ⟨by decide, by decide⟩⟩
  walk := (by decide : 0 ≤ 65535)
  ports := ⟨rfl, rfl⟩

/-- Soundness is closed under what a step can do. -/
theorem stepClosed_sound : StepClosed State.Sound where
  toClosed := closed_sound
  sound h := h
  drive h := h.drive
  phase ph h := h.phase ph
  outside q b c n pin st tm h := h.outside q b c n pin st tm
  port h hf := h.port hf
  readChanges _ h := h.modPort (fun _ hw => PortState.wf_readChanges hw) fun _ hc => hc
  putCfg h hr hs _ := h.putRec (h.records _ _ hr).1 hs
  rezone rank h _ hz := h.rezone rank hz
  enrol h _ _ hp hr := h.enterTable hp hr
  newOrder _ h hk ho := by
    have h2 := h.putSlot hk ho
    exact ⟨h2.wf, h2.records, h2.units, h2.orders, h2.budget, h2.ship, h2.windows, h2.calendar,
      h2.walk, h2.ports⟩
  startWalk {s} b h := by
    refine ⟨h.wf, h.records, h.units, h.orders, h.budget, h.ship, h.windows, h.calendar, ?_, h.ports⟩
    have := h.walk
    show nextWalkNumber s.walk.number ≤ 65535
    unfold nextWalkNumber
    split <;> omega
  newUnit h hu hw := h.putUnit hu hw
  eraseUnit {s} u h := by
    refine ⟨?_, h.records, fun v w hv => ?_, h.orders, h.budget, h.ship, h.windows, h.calendar, h.walk,
      h.ports⟩
    · have := h.wf
      simp only [State.wf_iff] at this ⊢
      obtain ⟨h1, h2, h3, h4, h5, h6⟩ := this
      exact ⟨h1, h2, h3, h4, Keyed.wf_remove u h5, h6⟩
    · have hv' : Keyed.get? (Keyed.remove s.units u) v = some w := hv
      rw [Keyed.get?_remove] at hv'
      split at hv'
      · cases hv'
      · exact h.units v w hv'
  budget h hm he hl := ⟨h.wf, h.records, h.units, h.orders, ⟨hm, he⟩, hl, h.windows, h.calendar, h.walk,
    h.ports⟩
  window h hl := h.modLine hl
  calendar h h1 h2 h3 := ⟨h.wf, h.records, h.units, h.orders, h.budget, h.ship, h.windows, ⟨h1, h2, h3⟩,
    h.walk, h.ports⟩
  restart h := h.restartBlocks
  reset _ := State.Sound.enterReset

/-! ### The lists that name the records -/

/-- What the lists look at. -/
def State.keyAt (s : State) (p : Nat) : Option (Nat × Nat × Byte) :=
  (s.rec? p).map fun r => r.cfg.listKey

/-- A state with the same lists, and the same keys at every position, is listed as well. -/
theorem State.Listed.same (h : s.Listed) (hd : t.directory = s.directory)
    (hz : t.zoneLists = s.zoneLists) (hk : ∀ p, t.keyAt p = s.keyAt p) : t.Listed := by
  have key : ∀ {x y : State} {p : Nat} {r : Record}, (∀ p, y.keyAt p = x.keyAt p) →
      y.rec? p = some r → ∃ r', x.rec? p = some r' ∧ r'.cfg.listKey = r.cfg.listKey := by
    intro x y p r hk hr
    have := hk p
    simp only [State.keyAt, hr, Option.map_some] at this
    cases hx : x.rec? p with
    | none => simp [hx] at this
    | some r' => simp only [hx, Option.map_some, Option.some.injEq] at this; exact ⟨r', rfl, this.symm⟩
  have hzl : ∀ z, t.zoneList z = s.zoneList z := fun z => by simp only [State.zoneList, hz]
  have hb : ∀ p q, t.zoneBefore p q = s.zoneBefore p q := by
    intro p q
    have h1 := hk p
    have h2 := hk q
    simp only [State.keyAt, Configured.listKey] at h1 h2
    unfold State.zoneBefore
    cases ha : t.rec? p <;> cases hb : s.rec? p <;> cases hc : t.rec? q <;> cases hd : s.rec? q <;>
      simp_all
  refine ⟨fun n p => ?_, fun z p => ?_, fun z => ?_⟩
  · rw [hd, h.directory]
    constructor
    · rintro ⟨r, hr, hn⟩
      obtain ⟨r', hr', e⟩ := key (x := t) (y := s) (fun p => (hk p).symm) hr
      exact ⟨r', hr', by simp only [Configured.listKey, Prod.mk.injEq] at e; exact e.1.trans hn⟩
    · rintro ⟨r, hr, hn⟩
      obtain ⟨r', hr', e⟩ := key hk hr
      exact ⟨r', hr', by simp only [Configured.listKey, Prod.mk.injEq] at e; exact e.1.trans hn⟩
  · rw [hzl, h.zones]
    constructor
    · rintro ⟨r, hr, hn⟩
      obtain ⟨r', hr', e⟩ := key (x := t) (y := s) (fun p => (hk p).symm) hr
      exact ⟨r', hr', by simp only [Configured.listKey, Prod.mk.injEq] at e; exact e.2.1.trans hn⟩
    · rintro ⟨r, hr, hn⟩
      obtain ⟨r', hr', e⟩ := key hk hr
      exact ⟨r', hr', by simp only [Configured.listKey, Prod.mk.injEq] at e; exact e.2.1.trans hn⟩
  · rw [hzl]
    exact (h.order z).imp fun {p q} e => by rw [hb]; exact e

theorem State.keyAt_putRec {p : Nat} {r r' : Record} (hr : s.rec? p = some r)
    (hk : r'.cfg.listKey = r.cfg.listKey) (q : Nat) : (s.putRec p r').keyAt q = s.keyAt q := by
  simp only [State.keyAt, State.rec?, State.putRec_records, Keyed.get?_put] at hr ⊢
  split
  · subst_vars; simp [hr, hk]
  · rfl

theorem State.zoneList_putZoneList (z y : Nat) (ps : List Nat) :
    (s.putZoneList z ps).zoneList y = if z = y then ps else s.zoneList y := by
  show (Keyed.get? (if ps = [] then Keyed.remove s.zoneLists z else Keyed.put s.zoneLists z ps) y).getD []
    = _
  by_cases hps : ps = []
  · simp only [hps, if_true, Keyed.get?_remove]
    split
    · simp
    · rfl
  · simp only [hps, if_false, Keyed.get?_put]
    split
    · simp
    · rfl

/-- Under a listed state two records of one zone stand in one order or the other. -/
theorem State.zoneBefore_total (h : s.Listed) {p q : Nat} {a b : Record} (ha : s.rec? p = some a)
    (hb : s.rec? q = some b) (hne : p ≠ q) (hn : s.zoneBefore p q ≠ true) :
    s.zoneBefore q p = true := by
  have hnum : a.cfg.number ≠ b.cfg.number := by
    intro e
    have h1 := (h.directory a.cfg.number p).mpr ⟨a, ha, rfl⟩
    have h2 := (h.directory a.cfg.number q).mpr ⟨b, hb, e.symm⟩
    rw [h1] at h2
    exact hne (Option.some.inj h2)
  simp only [State.zoneBefore, ha, hb, ne_eq, Bool.or_eq_true, Bool.and_eq_true,
    decide_eq_true_eq] at hn ⊢
  omega

theorem State.zoneBefore_trans {p q m : Nat} (h1 : s.zoneBefore p q = true)
    (h2 : s.zoneBefore q m = true) : s.zoneBefore p m = true := by
  unfold State.zoneBefore at *
  cases ha : s.rec? p <;> cases hb : s.rec? q <;> cases hc : s.rec? m <;> simp_all
  omega

/-- An insertion by the zone order keeps it, where the new position is comparable with each. -/
theorem pairwise_insertBy {before : Nat → Nat → Bool} {p : Nat} :
    ∀ {l : List Nat}, l.Pairwise (fun a b => before a b = true) →
      (∀ q ∈ l, before q p ≠ true → before p q = true) →
      (∀ a b c, before a b = true → before b c = true → before a c = true) →
      (insertBy before p l).Pairwise fun a b => before a b = true
  | [], _, _, _ => List.pairwise_singleton _ _
  | x :: l, hl, ht, tr => by
    rw [List.pairwise_cons] at hl
    unfold insertBy
    split
    · rename_i hx
      refine List.pairwise_cons.mpr ⟨fun y hy => ?_, pairwise_insertBy hl.2
        (fun q hq => ht q (List.mem_cons_of_mem _ hq)) tr⟩
      rcases (mem_insertBy before p y l).mp hy with rfl | hy
      · exact hx
      · exact hl.1 y hy
    · rename_i hx
      have hp := ht x List.mem_cons_self hx
      refine List.pairwise_cons.mpr ⟨fun y hy => ?_, List.pairwise_cons.mpr hl⟩
      rcases List.mem_cons.mp hy with rfl | hy
      · exact hp
      · exact tr p x y hp (hl.1 y hy)

/-- A position joins the list of its zone (R8, R9): the other positions are listed, and the position
itself has a directory entry and stands in no zone list. -/
theorem State.joinZone_listed {p z : Nat} {r : Record} (hr : s.rec? p = some r) (hz : r.cfg.zone = z)
    (hd : ∀ n q, Keyed.get? s.directory n = some q ↔ ∃ a, s.rec? q = some a ∧ a.cfg.number = n)
    (hl : ∀ y q, q ∈ s.zoneList y ↔ q ≠ p ∧ ∃ a, s.rec? q = some a ∧ a.cfg.zone = y)
    (ho : ∀ y, (s.zoneList y).Pairwise fun a b => s.zoneBefore a b = true) :
    (s.joinZone z p).Listed := by
  have hrec : ∀ q, (s.joinZone z p).rec? q = s.rec? q := fun _ => rfl
  have hbef : ∀ a b, (s.joinZone z p).zoneBefore a b = s.zoneBefore a b := fun _ _ => rfl
  have hlist : ∀ y, (s.joinZone z p).zoneList y
      = if z = y then insertBy s.zoneBefore p (s.zoneList z) else s.zoneList y :=
    fun y => State.zoneList_putZoneList z y _
  refine ⟨hd, fun y q => ?_, fun y => ?_⟩
  · rw [hlist, hrec]
    split
    · subst_vars
      rw [mem_insertBy, hl]
      constructor
      · rintro (rfl | ⟨-, hq⟩)
        · exact ⟨r, hr, rfl⟩
        · exact hq
      · intro hq
        by_cases e : q = p
        · exact .inl e
        · exact .inr ⟨e, hq⟩
    · rename_i hne
      rw [hl]
      refine ⟨fun h => h.2, fun hq => ⟨?_, hq⟩⟩
      rintro rfl
      obtain ⟨a, ha, hy⟩ := hq
      rw [hr] at ha
      cases ha
      exact hne (hz ▸ hy)
  · rw [hlist]
    simp only [hbef]
    split
    · refine pairwise_insertBy (ho z) (fun q hq hn => ?_) fun _ _ _ => State.zoneBefore_trans
      obtain ⟨hqp, a, ha, -⟩ := (hl z q).mp hq
      have hnum : a.cfg.number ≠ r.cfg.number := by
        intro e
        have h1 := (hd a.cfg.number q).mpr ⟨a, ha, rfl⟩
        have h2 := (hd a.cfg.number p).mpr ⟨r, hr, e.symm⟩
        rw [h1] at h2
        exact hqp (Option.some.inj h2)
      simp only [State.zoneBefore, ha, hr, ne_eq, Bool.or_eq_true, Bool.and_eq_true,
        decide_eq_true_eq] at hn ⊢
      omega
    · exact ho y

/-- After a position has left the list of its zone, the lists hold every other position. -/
theorem State.Listed.leaveZone (h : s.Listed) {p : Nat} {r : Record} (hr : s.rec? p = some r) :
    (∀ y q, q ∈ (s.leaveZone r.cfg.zone p).zoneList y
        ↔ q ≠ p ∧ ∃ a, s.rec? q = some a ∧ a.cfg.zone = y)
      ∧ ∀ y, ((s.leaveZone r.cfg.zone p).zoneList y).Pairwise fun a b => s.zoneBefore a b = true := by
  have hlist : ∀ y, (s.leaveZone r.cfg.zone p).zoneList y
      = if r.cfg.zone = y then removeNat p (s.zoneList r.cfg.zone) else s.zoneList y :=
    fun y => State.zoneList_putZoneList _ y _
  refine ⟨fun y q => ?_, fun y => ?_⟩
  · rw [hlist]
    split
    · subst_vars
      rw [mem_removeNat, h.zones]
      exact and_comm
    · rename_i hne
      rw [h.zones]
      refine ⟨fun hq => ⟨?_, hq⟩, fun hq => hq.2⟩
      rintro rfl
      obtain ⟨a, ha, hy⟩ := hq
      rw [hr] at ha
      cases ha
      exact hne hy
  · rw [hlist]
    split
    · exact (h.order _).filter _
    · exact h.order y

theorem State.Listed.freePosition (h : s.Listed) {p : Nat} {r : Record} (why : FreedReason)
    (hr : s.rec? p = some r) : (s.freePosition p r why).Listed := by
  obtain ⟨hl, ho⟩ := h.leaveZone hr
  have hrec : ∀ q, (s.freePosition p r why).rec? q = if p = q then none else s.rec? q :=
    fun q => Keyed.get?_remove s.records p q
  have hdir : ∀ n, Keyed.get? (s.freePosition p r why).directory n
      = if r.cfg.number = n then none else Keyed.get? s.directory n :=
    fun n => Keyed.get?_remove s.directory _ n
  have hzl : ∀ y, (s.freePosition p r why).zoneList y = (s.leaveZone r.cfg.zone p).zoneList y :=
    fun _ => rfl
  refine ⟨fun n q => ?_, fun y q => ?_, fun y => ?_⟩
  · rw [hdir, hrec]
    split
    · subst_vars
      refine ⟨(fun e => nomatch e), fun ⟨a, ha, e⟩ => ?_⟩
      split at ha
      · cases ha
      · rename_i hne
        have h1 := (h.directory r.cfg.number p).mpr ⟨r, hr, rfl⟩
        have h2 := (h.directory r.cfg.number q).mpr ⟨a, ha, e⟩
        rw [h1] at h2
        exact absurd (Option.some.inj h2) hne
    · rename_i hne
      rw [h.directory]
      split
      · subst_vars
        refine ⟨fun ⟨a, ha, e⟩ => ?_, (fun ⟨a, ha, _⟩ => nomatch ha)⟩
        rw [hr] at ha
        cases ha
        exact absurd e hne
      · exact Iff.rfl
  · rw [hzl, hl, hrec]
    by_cases e : p = q
    · subst e; simp
    · simp [e, Ne.symm e]
  · rw [hzl]
    refine (List.Pairwise.and_mem.mp (ho y)).imp fun {a b} hab => ?_
    obtain ⟨ha, hb, hab⟩ := hab
    have ea := ((hl y a).mp ha).1
    have eb := ((hl y b).mp hb).1
    unfold State.zoneBefore at hab ⊢
    rw [hrec, hrec, if_neg (Ne.symm ea), if_neg (Ne.symm eb)]
    exact hab

/-- No hand-off changes a key or a list, but for the one that frees a position. -/
theorem closed_listed : Closed State.Listed where
  agenda _ h := h.same rfl rfl fun _ => rfl
  putRec h hr hf := h.same rfl rfl (State.keyAt_putRec hr (by rw [hf.cfg]))
  freePosition why h hr := h.freePosition why hr
  putUnit h _ _ := h.same rfl rfl fun _ => rfl
  putOrder h _ _ := h.same rfl rfl fun _ => rfl
  putLine h _ := h.same rfl rfl fun _ => rfl
  modAllLines h _ := h.same rfl rfl fun _ => rfl
  markBoth _ h := h.same rfl rfl fun _ => rfl
  alarms h _ := h.same rfl rfl fun _ => rfl
  overflow _ h := h.same rfl rfl fun _ => rfl
  shipStrokes h _ := h.same rfl rfl fun _ => rfl
  stack _ h := h.same rfl rfl fun _ => rfl
  pendingOrders _ h := h.same rfl rfl fun _ => rfl
  walk h _ := h.same rfl rfl fun _ => rfl

theorem State.modRec_zoneLists (p : Nat) (f : Record → Record) :
    (s.modRec p f).zoneLists = s.zoneLists := by
  unfold State.modRec
  repeat' split
  all_goals rfl

theorem State.modRec_directory (p : Nat) (f : Record → Record) :
    (s.modRec p f).directory = s.directory := by
  unfold State.modRec
  repeat' split
  all_goals rfl

theorem State.modRec_rec? (p q : Nat) (f : Record → Record) :
    (s.modRec p f).rec? q = if p = q then (s.rec? p).map f else s.rec? q := by
  have hput : ∀ r', (s.putRec p r').rec? q = if p = q then some r' else s.rec? q := fun r' =>
    Keyed.get?_put s.records p q r'
  unfold State.modRec
  split
  · rename_i r hr
    have h2 : ∀ x : State, (x.markBoth p).rec? q = x.rec? q := fun _ => rfl
    split
    · rw [hput, hr]; rfl
    · rw [h2, hput, hr]; rfl
  · rename_i hr
    split
    · subst_vars; rw [hr]; rfl
    · rfl

theorem State.Listed.rezone (h : s.Listed) {p z : Nat} {r : Record} (rank : Byte)
    (hr : s.rec? p = some r) : (s.rezone p r z rank).Listed := by
  obtain ⟨hl, ho⟩ := h.leaveZone hr
  have hrec : ∀ q, ((s.leaveZone r.cfg.zone p).modCfg p fun c =>
      { c with zone := z, rank := rank }).rec? q
      = if p = q then some { r with cfg := { r.cfg with zone := z, rank := rank } } else s.rec? q := by
    intro q
    unfold State.modCfg
    rw [State.modRec_rec?]
    have e : ∀ m, (s.leaveZone r.cfg.zone p).rec? m = s.rec? m := fun _ => rfl
    rw [e, e, hr]; rfl
  have hzl : ∀ y, ((s.leaveZone r.cfg.zone p).modCfg p fun c =>
      { c with zone := z, rank := rank }).zoneList y = (s.leaveZone r.cfg.zone p).zoneList y :=
    fun y => by simp only [State.zoneList, State.modCfg, State.modRec_zoneLists]
  have hdir : ((s.leaveZone r.cfg.zone p).modCfg p fun c =>
      { c with zone := z, rank := rank }).directory = s.directory := by
    simp only [State.modCfg, State.modRec_directory]; rfl
  unfold State.rezone
  refine State.joinZone_listed (by rw [hrec, if_pos rfl]) rfl (fun n q => ?_) (fun y q => ?_) fun y => ?_
  · rw [hdir, h.directory, hrec]
    by_cases e : p = q
    · subst e; simp [hr]
    · simp [e]
  · rw [hzl, hl, hrec]
    by_cases e : p = q
    · subst e; simp
    · simp [e]
  · rw [hzl]
    refine (List.Pairwise.and_mem.mp (ho y)).imp fun {a b} hab => ?_
    obtain ⟨ha, hb, hab⟩ := hab
    have ea := ((hl y a).mp ha).1
    have eb := ((hl y b).mp hb).1
    unfold State.zoneBefore at hab ⊢
    rw [hrec, hrec, if_neg (Ne.symm ea), if_neg (Ne.symm eb)]
    exact hab

theorem State.Listed.enterTable (h : s.Listed) {p : Nat} {r : Record} (hr : s.rec? p = none)
    (hd : Keyed.get? s.directory r.cfg.number = none) : (s.enterTable p r).Listed := by
  have hrec : ∀ q, ((s.putRec p r).joinDirectory r.cfg.number p).rec? q
      = if p = q then some r else s.rec? q := fun q => Keyed.get?_put s.records p q r
  have hdir : ∀ n, Keyed.get? ((s.putRec p r).joinDirectory r.cfg.number p).directory n
      = if r.cfg.number = n then some p else Keyed.get? s.directory n :=
    fun n => Keyed.get?_put s.directory _ n p
  have hzl : ∀ y, ((s.putRec p r).joinDirectory r.cfg.number p).zoneList y = s.zoneList y :=
    fun _ => rfl
  have hnot : ∀ y q, q ∈ s.zoneList y → q ≠ p := by
    rintro y q hq rfl
    obtain ⟨a, ha, -⟩ := (h.zones y q).mp hq
    rw [hr] at ha; cases ha
  have h1 : (((s.putRec p r).joinDirectory r.cfg.number p).joinZone r.cfg.zone p).Listed := by
    refine State.joinZone_listed (by rw [hrec, if_pos rfl]) rfl (fun n q => ?_) (fun y q => ?_)
      fun y => ?_
    · rw [hdir, hrec]
      by_cases e : r.cfg.number = n
      · subst e
        rw [if_pos rfl]
        constructor
        · intro e; cases e; exact ⟨r, by rw [if_pos rfl], rfl⟩
        · rintro ⟨a, ha, e⟩
          split at ha
          · subst_vars; rfl
          · have := (h.directory r.cfg.number q).mpr ⟨a, ha, e⟩
            rw [hd] at this; cases this
      · rw [if_neg e, h.directory]
        constructor
        · rintro ⟨a, ha, en⟩
          refine ⟨a, ?_, en⟩
          rw [if_neg]
          · exact ha
          · rintro rfl; rw [hr] at ha; cases ha
        · rintro ⟨a, ha, en⟩
          split at ha
          · cases ha; exact absurd en e
          · exact ⟨a, ha, en⟩
    · rw [hzl, hrec]
      constructor
      · intro hq
        have := hnot y q hq
        refine ⟨this, ?_⟩
        rw [if_neg (Ne.symm this)]
        exact (h.zones y q).mp hq
      · rintro ⟨hne, hq⟩
        rw [if_neg (Ne.symm hne)] at hq
        exact (h.zones y q).mpr hq
    · rw [hzl]
      refine (List.Pairwise.and_mem.mp (h.order y)).imp fun {a b} hab => ?_
      obtain ⟨ha, hb, hab⟩ := hab
      unfold State.zoneBefore at hab ⊢
      rw [hrec, hrec, if_neg (Ne.symm (hnot y a ha)), if_neg (Ne.symm (hnot y b hb))]
      exact hab
  exact h1.same rfl rfl fun _ => rfl

theorem State.Listed.restartBlocks (h : s.Listed) : s.restartBlocks.Listed := by
  refine h.same rfl rfl fun p => ?_
  have hg : s.restartBlocks.rec? p = (s.rec? p).map fun r => Record.restarted s.clock r :=
    Keyed.get?_map s.records (fun e => Record.restarted s.clock e.2) p
  simp only [State.keyAt, hg, Option.map_map]
  rfl

theorem State.Listed.enterReset : s.enterReset.Listed := by
  have hr : ∀ p, s.enterReset.rec? p = none := fun _ => rfl
  have hz : ∀ z, s.enterReset.zoneList z = [] := fun _ => rfl
  have hd : ∀ n, Keyed.get? s.enterReset.directory n = none := fun _ => rfl
  exact ⟨fun n p => by rw [hd, hr]; simp, fun z p => by rw [hz, hr]; simp, fun z => by rw [hz]; simp⟩

/-- Being sound and listed is closed under what a step can do. -/
theorem stepClosed_listed : StepClosed fun s => s.Sound ∧ s.Listed where
  agenda ts h := ⟨closed_sound.agenda ts h.1, closed_listed.agenda ts h.2⟩
  putRec h hr hf := ⟨closed_sound.putRec h.1 hr hf, closed_listed.putRec h.2 hr hf⟩
  freePosition why h hr := ⟨closed_sound.freePosition why h.1 hr, h.2.freePosition why hr⟩
  putUnit h hw hf := ⟨closed_sound.putUnit h.1 hw hf, closed_listed.putUnit h.2 hw hf⟩
  putOrder h ho hf := ⟨closed_sound.putOrder h.1 ho hf, closed_listed.putOrder h.2 ho hf⟩
  putLine h hl := ⟨closed_sound.putLine h.1 hl, closed_listed.putLine h.2 hl⟩
  modAllLines h hf := ⟨closed_sound.modAllLines h.1 hf, closed_listed.modAllLines h.2 hf⟩
  markBoth p h := ⟨closed_sound.markBoth p h.1, closed_listed.markBoth p h.2⟩
  alarms h hl := ⟨closed_sound.alarms h.1 hl, closed_listed.alarms h.2 hl⟩
  overflow b h := ⟨closed_sound.overflow b h.1, closed_listed.overflow b h.2⟩
  shipStrokes h hn := ⟨closed_sound.shipStrokes h.1 hn, closed_listed.shipStrokes h.2 hn⟩
  stack l h := ⟨closed_sound.stack l h.1, closed_listed.stack l h.2⟩
  pendingOrders l h := ⟨closed_sound.pendingOrders l h.1, closed_listed.pendingOrders l h.2⟩
  walk h hn := ⟨closed_sound.walk h.1 hn, closed_listed.walk h.2 hn⟩
  sound h := h.1
  drive h := ⟨h.1.drive, h.2.same rfl rfl fun _ => rfl⟩
  phase ph h := ⟨h.1.phase ph, h.2.same rfl rfl fun _ => rfl⟩
  outside q b c n pin st tm h := ⟨h.1.outside q b c n pin st tm, h.2.same rfl rfl fun _ => rfl⟩
  port {_ port _} h hf := ⟨h.1.port hf, by cases port <;> exact h.2.same rfl rfl fun _ => rfl⟩
  readChanges port h := ⟨stepClosed_sound.readChanges port h.1, by
    cases port <;> exact h.2.same rfl rfl fun _ => rfl⟩
  putCfg h hr hs hk := ⟨stepClosed_sound.putCfg h.1 hr hs hk, h.2.same rfl rfl
    (State.keyAt_putRec hr hk)⟩
  rezone rank h hr hz := ⟨h.1.rezone rank hz, h.2.rezone rank hr⟩
  enrol h hr hd hp hs := ⟨h.1.enterTable hp hs, h.2.enterTable hr hd⟩
  newOrder n h hk ho := ⟨stepClosed_sound.newOrder n h.1 hk ho, h.2.same rfl rfl fun _ => rfl⟩
  startWalk b h := ⟨stepClosed_sound.startWalk b h.1, h.2.same rfl rfl fun _ => rfl⟩
  newUnit h hu hw := ⟨stepClosed_sound.newUnit h.1 hu hw, h.2.same rfl rfl fun _ => rfl⟩
  eraseUnit u h := ⟨stepClosed_sound.eraseUnit u h.1, h.2.same rfl rfl fun _ => rfl⟩
  budget h hm he hl := ⟨stepClosed_sound.budget h.1 hm he hl, h.2.same rfl rfl fun _ => rfl⟩
  window h hl := ⟨stepClosed_sound.window h.1 hl, h.2.same rfl rfl fun _ => rfl⟩
  calendar h h1 h2 h3 := ⟨stepClosed_sound.calendar h.1 h1 h2 h3, h.2.same rfl rfl fun _ => rfl⟩
  restart h := ⟨h.1.restartBlocks, h.2.restartBlocks⟩
  reset _ := ⟨State.Sound.enterReset, State.Listed.enterReset⟩

end Sys2Proof.Machine
end

