-- ==== Sys2Proof/Tests/Slice0.lean ====
section
/-! SUPPORT. The model's own tests: ill-formed commands, the worked examples of the manual, small steps of
each family, and for each statement with hypotheses a state and operands that meet them together. -/

namespace Sys2Proof.Tests

open Sys2Proof Sys2Proof.Machine

/-- The state after a command; the same state where it stopped. -/
def after (c : Instr) (s : State) : State :=
  match exec c s with
  | .next t => t
  | .fault _ => s
  | .refused _ => s

/-- What a port is answering: the response it sends. -/
def answer? (s : State) (port : Port) : Option Response :=
  match (s.portState port).service with
  | .serving r => some r
  | .idle => none

def statusOf (s : State) (port : Port) : Option Status := (answer? s port).map Response.status

/-! ### Checks of the state

The invariants of the statements, as Booleans that can be decided on one state. -/

def settledB (s : State) : Bool :=
  !s.inReset && s.agenda.isEmpty && (decide (s.phase ≠ .sweep) || decide (s.outstandingCount ≠ 0))
    && allLines.all fun n => decide (s.chooseExchange n = s.line n)

theorem settled_of_check {s : State} (h : settledB s = true) : s.Settled := by
  simp only [settledB, Bool.and_eq_true, Bool.or_eq_true, List.all_eq_true, decide_eq_true_eq,
    Bool.not_eq_true', List.isEmpty_iff] at h
  obtain ⟨⟨⟨h1, h2⟩, h3⟩, h4⟩ := h
  refine ⟨⟨h1, h2⟩, fun hp => ?_, fun n => h4 n ?_⟩
  · rcases h3 with h3 | h3
    · exact absurd hp h3
    · exact h3
  · cases n <;> decide

def powerB (pf : PowerFields) : Bool :=
  decide (1 ≤ pf.closeCost ∧ pf.closeCost ≤ 4000 ∧ 1 ≤ pf.openCost ∧ pf.openCost ≤ 4000
    ∧ 5 ≤ pf.closeAllowance ∧ pf.closeAllowance ≤ 120 ∧ 5 ≤ pf.openAllowance ∧ pf.openAllowance ≤ 120
    ∧ pf.lead ≤ 20 ∧ 2 ≤ pf.recloseDelay ∧ pf.recloseDelay ≤ 30 ∧ 10 ≤ pf.passageLimit
    ∧ pf.passageLimit ≤ 600 ∧ pf.unit ≤ 31)

def recordB (r : Record) : Bool :=
  decide (1 ≤ r.cfg.number ∧ r.cfg.number ≤ 4095 ∧ 1 ≤ r.cfg.station ∧ r.cfg.station ≤ 64
    ∧ 1 ≤ r.cfg.zone ∧ r.cfg.zone ≤ 24 ∧ 200 ≤ r.cfg.staleLimit ∧ r.cfg.staleLimit ≤ 20000
    ∧ r.missed ≤ 3 ∧ r.attempts ≤ 3)
  && r.cfg.enables.all FaultKind.maskable && (decide (r.cfg.cls = .P) == r.cfg.power.isSome)
  && r.cfg.power.all powerB

def unitB (w : PowerUnit) : Bool :=
  decide (100 ≤ w.capacity ∧ w.capacity ≤ 60000 ∧ w.floor ≤ w.capacity ∧ w.rate ≤ 2000
    ∧ 1 ≤ w.concurrency ∧ w.concurrency ≤ 4 ∧ w.spacing ≤ 5000 ∧ w.tolerance ≤ w.capacity
    ∧ w.charge ≤ 1000 * w.capacity ∧ w.strokes ≤ w.concurrency ∧ w.monitorMissed ≤ 3)

def soundB (s : State) : Bool :=
  s.wf
  && s.records.all (fun e => decide (e.1 ≤ 255) && recordB e.2)
  && s.units.all (fun e => decide (e.1 ≤ 31) && unitB e.2)
  && s.slots.all (fun e => decide (e.1 ≤ 15 ∧ e.2.priority ≤ 7 ∧ e.2.repeats ≤ 65535))
  && decide (s.shipM ≤ 32 ∧ s.shipE ≤ 16 ∧ s.shipStrokes ≤ s.shipM + s.shipE)
  && allLines.all (fun n => decide (2 ≤ (s.line n).window ∧ (s.line n).window ≤ 100))
  && decide (1 ≤ s.calendar.length ∧ s.calendar.length ≤ 8)
  && s.calendar.all (fun c => decide (c.first ≤ c.last ∧ c.last ≤ 255 ∧ 1 ≤ c.visits ∧ c.visits ≤ 64))
  && decide (s.walk.number ≤ 65535) && s.portA.countsOk && s.portB.countsOk

theorem power_of_check {pf : PowerFields} (h : powerB pf = true) : pf.Sound := by
  simp only [powerB, decide_eq_true_eq] at h
  obtain ⟨h1, h2, h3, h4, h5, h6, h7, h8, h9, h10, h11, h12, h13, h14⟩ := h
  exact ⟨⟨h1, h2⟩, ⟨h3, h4⟩, ⟨h5, h6⟩, ⟨h7, h8⟩, h9, ⟨h10, h11⟩, ⟨h12, h13⟩, h14⟩

theorem record_of_check {r : Record} (h : recordB r = true) : r.Sound := by
  simp only [recordB, Bool.and_eq_true, decide_eq_true_eq, beq_iff_eq] at h
  obtain ⟨⟨⟨⟨h1, h2, h3, h4, h5, h6, h7, h8, h9, h10⟩, h11⟩, h12⟩, h13⟩ := h
  refine ⟨⟨⟨h1, h2⟩, ⟨h3, h4⟩, ⟨h5, h6⟩, ⟨h7, h8⟩, by simpa using h11, ?_, fun pf hpf => ?_⟩, h9, h10⟩
  · rw [← h12]; simp
  · rw [hpf] at h13; exact power_of_check (by simpa using h13)

theorem unit_of_check {w : PowerUnit} (h : unitB w = true) : w.Sound := by
  simp only [unitB, decide_eq_true_eq] at h
  obtain ⟨h1, h2, h3, h4, h5, h6, h7, h8, h9, h10, h11⟩ := h
  exact ⟨⟨h1, h2⟩, h3, h4, ⟨h5, h6⟩, h7, h8, h9, h10, h11⟩

theorem sound_of_check {s : State} (h : soundB s = true) : s.Sound := by
  simp only [soundB, Bool.and_eq_true, List.all_eq_true, decide_eq_true_eq] at h
  obtain ⟨⟨⟨⟨⟨⟨⟨⟨⟨⟨h1, h2⟩, h3⟩, h4⟩, h5, h6, h7⟩, h8⟩, h9, h10⟩, h11⟩, h12⟩, h13⟩, h14⟩ := h
  refine ⟨h1, fun p r hr => ?_, fun u w hw => ?_, fun k o ho => ?_, ⟨h5, h6⟩, h7, fun n => h8 n ?_,
    ⟨h9, h10, fun c hc => ?_⟩, h12, h13, h14⟩
  · exact ⟨(h2 _ (Keyed.mem_of_get? hr)).1, record_of_check (h2 _ (Keyed.mem_of_get? hr)).2⟩
  · exact ⟨(h3 _ (Keyed.mem_of_get? hw)).1, unit_of_check (h3 _ (Keyed.mem_of_get? hw)).2⟩
  · have := h4 _ (Keyed.mem_of_get? ho); exact ⟨this.1, this.2.1, this.2.2⟩
  · cases n <;> decide
  · have := h11 c hc; exact ⟨⟨this.1, this.2.1⟩, ⟨this.2.2.1, this.2.2.2⟩⟩

/-- What an exchange in flight asks of its target. -/
def inFlightB (s : State) (x : Exchange) : Bool :=
  match x.target with
  | .door p _ => x.targetFreed || (s.rec? p).any fun r =>
      decide (x.kind = .command .release → r.lifecycle = .retiring)
  | .monitor _ _ => true

/-- The accounts of one state, as something to decide. -/
def accountedB (s : State) : Bool :=
  decide ((∀ e ∈ s.records, (∀ u ∈ e.2.unit?, (s.unit? u).isSome)
      ∧ (e.2.unit? = none ∨ e.2.lifecycle = .retiring → e.2.motion = .rest ∧ e.2.deadline = none)
      ∧ (e.2.motion = .waitUnit → e.2.purpose = some .passage ∨ e.2.target.isSome))
    ∧ (∀ e ∈ s.units, (∀ p ∈ e.2.queue, (s.rec? p).any fun r =>
        decide (r.motion = .waitUnit ∧ r.unit? = some e.1))
      ∧ (∀ d ∈ s.records, d.2.motion = .waitUnit → d.2.unit? = some e.1 → d.1 ∈ e.2.queue)
      ∧ (e.2.queue.Pairwise fun p q => s.queueBefore p q = true)
      ∧ e.2.strokes = s.records.countP fun d => decide (d.2.unit? = some e.1) && d.2.inStroke)
    ∧ s.shipStrokes = (s.units.map fun e => e.2.strokes).sum
    ∧ ∀ n ∈ allLines, (∀ e ∈ (s.line n).queue, (s.rec? e.position).any fun r =>
        decide (e.command = .release → r.lifecycle = .retiring))
      ∧ ∀ x ∈ (s.line n).exchange, inFlightB s x)

theorem any_some {α : Type} {o : Option α} {f : α → Prop} [DecidablePred f]
    (h : (o.any fun a => decide (f a)) = true) : ∃ a, o = some a ∧ f a := by
  cases o with
  | none => simp at h
  | some a => exact ⟨a, rfl, by simpa using h⟩

theorem accounted_of_check {s : State} (h : accountedB s = true) : s.Accounted := by
  obtain ⟨hr, hu, hs, hl⟩ := of_decide_eq_true h
  have line : ∀ n, n ∈ allLines := fun n => by cases n <;> decide
  refine ⟨fun p r u h1 h2 => (hr _ (Keyed.mem_of_get? h1)).1 u h2,
    fun p r h1 h2 => (hr _ (Keyed.mem_of_get? h1)).2.1 h2, fun u w h1 p => ⟨fun hp => ?_, ?_⟩,
    fun u w h1 => (hu _ (Keyed.mem_of_get? h1)).2.2.1, fun p r h1 h2 => (hr _ (Keyed.mem_of_get? h1)).2.2 h2,
    fun u w h1 => (hu _ (Keyed.mem_of_get? h1)).2.2.2, hs, fun n e he => ?_, fun n x p st hx ht hf => ?_⟩
  · exact any_some ((hu _ (Keyed.mem_of_get? h1)).1 p hp)
  · rintro ⟨r, h2, h3, h4⟩
    exact (hu _ (Keyed.mem_of_get? h1)).2.1 _ (Keyed.mem_of_get? h2) h3 h4
  · exact any_some ((hl n (line n)).1 e he)
  · have h5 := (hl n (line n)).2 x hx
    simp only [inFlightB, ht, hf, Bool.false_or] at h5
    exact any_some h5

/-! ### The states the tests start from

One ship in SERVICE: door 101 at position 3, class P, zone 7, line 2 station 17, unit 4; and door 205 at
position 9, class H, zone 7, line 2 station 18. Line 2 has a poll of door 205 in its window. -/

def door : Record :=
  { lifecycle := .inService
    cfg := { number := 101, cls := .P, line := .l2, station := 17, zone := 7, rank := 1,
             staleLimit := 2000, tag := 0x21, enables := [.lc, .ct, .ob, .sf, .ot]
             power := some { unit := 4, closeCost := 2200, openCost := 2600, closeAllowance := 40,
                             openAllowance := 35, lead := 5, recloseDelay := 10, passageLimit := 120,
                             perms := Perms.all, normallyClosed := false } }
    report := some { closedLimit := false, openLimit := true, secured := false, moving := false,
                     obstruction := false, stroke := some 100, faultCode := 0 }
    lastGood := some 9000, missed := 0, mark := true, indicated := .opened, aged := false, causes := [],
    flags := [], motion := .rest, purpose := none, target := none, govSlot := none, waitReason := none,
    queueClass := none, deadline := none, attempts := 0, heldDebit := none, releaseAttempts := none }

def hatch : Record :=
  { door with
    cfg := { door.cfg with number := 205, cls := .H, station := 18, rank := 2, tag := 0, power := none }
    report := some { closedLimit := true, openLimit := false, secured := true, moving := false,
                     obstruction := false, stroke := none, faultCode := 0 }
    indicated := .closed }

/-- The power fields of `door`. -/
def doorPower : PowerFields := door.cfg.power.getD (PowerFields.defaults 0)

def unit4 : PowerUnit :=
  { capacity := 12000, floor := 3000, rate := 150, concurrency := 2, spacing := 1000, tolerance := 500,
    monitor := none, supply := .mains, enables := unitKinds, charge := 4050500, lastAccrual := 10000,
    reconciled := true, strokes := 0, lastStart := none, queue := [], monitorMissed := 0, causes := [],
    flags := [], chargeTimer := none, spacingTimer := none }

def pollOf (p station : Nat) (ph : ExchangePhase) : Exchange :=
  { phase := ph, kind := .poll, target := .door p station, source := .calendar, window := 10,
    targetFreed := false, once := false }

def busyLine : Line := { Line.reset with exchange := some (pollOf 9 18 .window), pointers := [10] }

/-- The ship with its door and its unit as given. -/
def ship (r : Record) (w : PowerUnit) : State :=
  { State.reset with
    clock := 10000, phase := .service, records := [(3, r), (9, hatch)],
    directory := [(101, 3), (205, 9)], zoneLists := [(7, [3, 9])], units := [(4, w)],
    lines := { l0 := Line.reset, l1 := Line.reset, l2 := busyLine, l3 := Line.reset } }

/-- The ship with line 2 as given. -/
def shipOn (r : Record) (l : Line) : State :=
  { ship r unit4 with lines := { l0 := Line.reset, l1 := Line.reset, l2 := l, l3 := Line.reset } }

def stopped : State := ship door unit4

/-- An order of console A, with the door as its uncounted member. -/
def anOrder : Order :=
  { source := .consoleA, tag := 7, priority := 4, kind := .close, scope := .zones [7],
    withdraw := { localOpen := true, remoteOpen := false }, state := .active, arrival := 1,
    snapshot := some [{ position := 3, outcome := .uncounted, freed := false },
                      { position := 9, outcome := .done, freed := false }]
    done := 1, failed := 0, repeats := 0, issuing := { a := true, b := false }, result := none,
    finished := none, unread := { a := false, b := false } }

/-- The ship with one ACTIVE order in slot 0. -/
def ordered (r : Record) (w : PowerUnit) : State :=
  { ship r w with slots := [(0, anOrder)], stack := [0], arrivals := 1 }

/-- A moving door, 12 s into its close. -/
def moving : Record :=
  { door with
    report := some { closedLimit := false, openLimit := false, secured := false, moving := true,
                     obstruction := false, stroke := some 60, faultCode := 0 }
    indicated := .movingClose, motion := .moving, purpose := some .order, target := some .closed,
    govSlot := some 0, deadline := some 10000, heldDebit := some 2200, attempts := 1 }

def warning : Record :=
  { door with motion := .warning, purpose := some .order, target := some .closed, govSlot := some 0,
              deadline := some 10000, heldDebit := some 2200 }

def passing : Record :=
  { door with motion := .inLocal, purpose := some .passage, deadline := some 10000, heldDebit := some 2600 }

def waiting : Record :=
  { door with motion := .waitUnit, purpose := some .order, target := some .closed, govSlot := some 0,
              waitReason := some .charge, queueClass := some { tier := .other, priority := 4 } }

/-- The unit with the door at the head of its queue. -/
def queued : PowerUnit := { unit4 with queue := [3] }

/-- The unit with one stroke running. -/
def running1 : PowerUnit := { unit4 with strokes := 1, lastStart := some 5000 }

theorem settled_stopped : stopped.Settled := settled_of_check (by decide)
theorem sound_stopped : stopped.Sound := sound_of_check (by decide)
theorem settled_ordered : (ordered door unit4).Settled := settled_of_check (by decide)

/-- The lists of the ship name its two records, whatever else the door holds. -/
theorem listed_ship (r : Record) (w : PowerUnit) (hn : r.cfg.number = 101) (hz : r.cfg.zone = 7)
    (hr : r.cfg.rank = 1) : (ship r w).Listed where
  directory n p := by
    simp only [ship, State.rec?, Keyed.get?]
    by_cases h1 : 101 = n <;> by_cases h2 : 205 = n <;> by_cases h3 : 3 = p <;> by_cases h4 : 9 = p <;>
      simp_all [hatch] <;> omega
  zones z p := by
    simp only [ship, State.rec?, State.zoneList, Keyed.get?]
    by_cases h1 : 7 = z <;> by_cases h3 : 3 = p <;> by_cases h4 : 9 = p
    all_goals simp_all [hatch, door]
    all_goals omega
  order z := by
    simp only [ship, State.zoneList, Keyed.get?]
    by_cases h1 : 7 = z
    · simp [h1, State.zoneBefore, State.rec?, Keyed.get?, hr, hatch]
    · simp [h1]

theorem listed_stopped : stopped.Listed := listed_ship door unit4 rfl rfl rfl
theorem listed_waiting : (ordered waiting queued).Listed :=
  have h := listed_ship waiting queued rfl rfl rfl
  ⟨h.directory, h.zones, h.order⟩

theorem accounted_stopped : stopped.Accounted := accounted_of_check (by decide)

theorem agree_stopped : stopped.AlarmsAgree where
  distinct := .nil
  states _ h := nomatch h
  complete _ subject k h := by
    cases subject with
    | door n =>
      obtain ⟨p, r, hr, -, hc, -⟩ := h
      have h2 := Keyed.mem_of_get? hr
      simp only [stopped, ship, List.mem_cons, Prod.mk.injEq, List.not_mem_nil, or_false] at h2
      rcases h2 with ⟨-, rfl⟩ | ⟨-, rfl⟩ <;> simp [door, hatch] at hc
    | unit u =>
      obtain ⟨w, hw, hc, -⟩ := h
      have h2 := Keyed.mem_of_get? hw
      simp only [stopped, ship, List.mem_cons, Prod.mk.injEq, List.not_mem_nil, or_false] at h2
      obtain ⟨-, rfl⟩ := h2
      simp [unit4] at hc

theorem bytes_stopped : ¬ stopped.TakesBytes := by
  rintro ⟨port, bytes, rest, h | h⟩ <;> nomatch h

/-! ### Ill-formed commands: one for each check -/

theorem test_wf_list_zone_start :
    WellFormed (.listZone .A (.fields { which := .ship, start := 256 })) = false := by decide
theorem test_wf_member_start :
    WellFormed (.orderStatus .A (.fields { which := .slot 0, memberStart := 256 })) = false := by decide
theorem test_wf_queue_start : WellFormed (.unitRead .A (.fields (.unit 0 (some 256)))) = false := by decide
theorem test_wf_bad_type : WellFormed (.badType .A 0x01) = false ∧ WellFormed (.badType .A 0x18) = false
    ∧ WellFormed (.badType .A 0x19) = true ∧ WellFormed (.badType .A 0x00) = true := by decide
theorem test_wf_bad_frame : WellFormed (.badFrame .A []) = false := by decide
theorem test_wf_reply : WellFormed (.replyReceived .l0 (List.replicate 8 0)) = false := by decide
theorem test_wf_positions : WellFormed (.stalenessDeadlineExpiry 256) = false
    ∧ WellFormed (.warningLeadExpiry 256) = false ∧ WellFormed (.deadlineExpiry 256) = false
    ∧ WellFormed (.obstructionPauseExpiry 256) = false ∧ WellFormed (.passageLimitExpiry 256) = false
    ∧ WellFormed (.recloseDelayExpiry 256) = false := by decide
theorem test_wf_units : WellFormed (.spacingTimerExpiry 32) = false
    ∧ WellFormed (.chargeTimerExpiry 32) = false := by decide

/-! ### Frames and receivers -/

/-- The worked example of R128: a POLL to station 17. -/
theorem test_poll_frame :
    (pollOf 3 17 .sending).request = [0xA5, 0x11, 0x01, 0x00, 0x00, 0xB7] := by decide
/-- The worked example of R128: its reply, closed limit on, stroke 2. -/
theorem test_reply_frame :
    (pollOf 3 17 .receiving).goodReply [0x5A, 0x11, 0x01, 0x01, 0x02, 0x00, 0x00, 0x00, 0x6F]
      = some { flags := 0x01, stroke := 0x02, data := 0 } := by decide
/-- The check is wrong by one. -/
theorem test_reply_check :
    (pollOf 3 17 .receiving).goodReply [0x5A, 0x11, 0x01, 0x01, 0x02, 0x00, 0x00, 0x00, 0x70] = none := by
  decide
/-- WARN of 20 s, MOVE OPEN and REFUSE ISOLATED, from the table of kinds of R128. -/
theorem test_command_frames :
    ({ pollOf 3 17 .sending with kind := .command (.warn 20) } : Exchange).request
        = [0xA5, 0x11, 0x02, 0x14, 0x00, 0xCC]
      ∧ ({ pollOf 3 17 .sending with kind := .command (.move .opened) } : Exchange).request
        = [0xA5, 0x11, 0x03, 0x02, 0x00, 0xBB]
      ∧ ({ pollOf 3 64 .sending with kind := .command (.refuse .isolated) } : Exchange).request
        = [0xA5, 0x40, 0x06, 0x03, 0x00, 0xEE] := by decide
/-- A message of one body byte: sync, length, type, and the sum of length and type (R186, R187). -/
theorem test_message_completes :
    Receiver.feed (.check 1 [0x18]) { value := 0x19 } = .complete [0x18]
      ∧ Receiver.feed (.check 1 [0x18]) { value := 0x18 } = .bad
      ∧ envelope [0x18] = [0xC3, 0x01, 0x18, 0x19] := by decide
theorem test_length_bounds :
    Receiver.feed .length ⟨0, false⟩ = .bad ∧ Receiver.feed .length ⟨251, false⟩ = .bad
      ∧ Receiver.feed .length ⟨250, false⟩ = .more (.body 250 []) := by decide

/-! ### Small steps -/

/-- A class P record without its costs. -/
def enrolDoor : EnrolReq :=
  { position := 5
    args := { number := some 231, cls := some (.is .P), address := some (0, 17), zone := some 7,
              unit := some 4 } }
theorem test_enrol_needs_costs :
    statusOf (after (.enrol .A (.fields enrolDoor)) stopped) .A = some .badField := by decide
/-- A class H record needs neither unit nor costs; the calendar of reset covers it. -/
def enrolHatch (number station : Nat) : EnrolReq :=
  { position := 5
    args := { number := some number, cls := some (.is .H), address := some (0, station), zone := some 7,
              staleLimit := some 20001 } }
theorem test_enrol_clamps :
    statusOf (after (.enrol .A (.fields (enrolHatch 231 17))) stopped) .A = some .clamped
      ∧ ((after (.enrol .A (.fields (enrolHatch 231 17))) stopped).rec? 5).map
          (fun r => (r.cfg.staleLimit, r.lifecycle, r.indicated)) = some (20000, .enrolled, .unknown) := by
  decide
theorem test_enrol_duplicate :
    statusOf (after (.enrol .A (.fields (enrolHatch 101 17))) stopped) .A = some .duplicate := by decide
/-- The zone list goes by rank and door number (R8): rank 0 comes before rank 1. -/
theorem test_enrol_zone_place :
    (after (.enrol .A (.fields (enrolHatch 231 17))) stopped).zoneList 7 = [5, 3, 9] := by decide
theorem test_change_rank_moves :
    (after (.change .B (.fields { name := .number 101, args := { rank := some 9 } })) stopped).zoneList 7
      = [9, 3] := by decide
theorem test_retire_busy :
    statusOf (after (.retire .A (.fields (.position 3))) (ordered moving running1)) .A = some .busy := by
  decide
theorem test_retire_queues_release :
    (((after (.retire .A (.fields (.position 9))) stopped).line .l2).queue)
      = [{ position := 9, command := .release }] := by decide
theorem test_lookup_not_found :
    statusOf (after (.lookup .A (.fields (.number 102))) stopped) .A = some .notFound
      ∧ statusOf (after (.lookup .A (.fields (.number 0))) stopped) .A = some .badField := by decide
theorem test_list_zone :
    (answer? (after (.listZone .A (.fields { which := .zone 7, start := 1 })) stopped) .A).map Response.type
      = some 0x85 := by decide
theorem test_summary_zone :
    (answer? (after (.summary .A (.fields (.zone 7))) stopped) .A).map Response.content
      = some (.zone { total := 2, proven := 1, notClosed := 1, unproven := 0, moving := 0,
                      state := .notClosed }) := by decide

/-- A CLOSE of zone 7 at priority 4. -/
def closeOrder : OrderReq :=
  { tag := 7, priority := 4, kind := .is .close, scope := .zones [7], withdraw := ⟨[], false⟩ }

/-- The order is pushed, the hatch counts DONE and the door waits for charge (ch. 5, case one). -/
theorem test_order_pushed :
    let t := after (.order .A (.fields closeOrder)) stopped
    t.stack = [0] ∧ (t.order? 0).map (fun o => (o.done, o.failed)) = some (1, 0)
      ∧ (t.rec? 3).map (fun r => (r.motion, r.waitReason)) = some (.waitUnit, some .charge)
      ∧ (t.unit? 4).bind PowerUnit.chargeTimer = some 17664 := by decide
/-- The emergency close is admitted at once and presents UL (ch. 5, case two). -/
theorem test_order_emergency :
    let t := after (.order .A (.fields { closeOrder with priority := 6 })) stopped
    (t.rec? 3).map (fun r => (r.motion, r.heldDebit)) = some (.warning, some 2200)
      ∧ (t.unit? 4).map (fun w => (w.charge, w.causes)) = some (1850500, [.ul]) := by decide
/-- The charge timer of the worked example expires 7664 ms later: admitted, 3,000,100 mcu left. -/
theorem test_charge_timer_example :
    let s := { ordered waiting { queued with chargeTimer := some 17664 } with clock := 17664 }
    ((after (.chargeTimerExpiry 4) s).unit? 4).map (fun w => (w.charge, w.strokes, w.causes))
      = some (3000100, 1, []) := by decide
theorem test_spacing_timer :
    let s := ordered waiting { queued with spacing := 5000, lastStart := some 6000,
                                           spacingTimer := some 10000, charge := 9000000 }
    ((after (.spacingTimerExpiry 4) s).unit? 4).map (fun w => (w.spacingTimer, w.strokes))
      = some (some 11000, 0) := by decide
theorem test_cancel_active :
    let t := after (.cancel .B (.fields 0)) (ordered waiting queued)
    t.stack = [] ∧ (t.rec? 3).map Record.motion = some .rest
      ∧ (t.order? 0).map (fun o => (o.state, o.unread)) = some (.cancelled, { a := true, b := false }) := by
  decide
theorem test_order_status_reads :
    let s := { stopped with slots := [(2, { anOrder with
      state := .done, result := some .done, finished := some 9000, unread := { a := true, b := true } })] }
    ((after (.orderStatus .B (.fields { which := .nextUnread, memberStart := 0 })) s).order? 2).map
      Order.unread = some { a := true, b := false } := by decide

/-- A full report of the closed door: its stroke ends, it counts DONE and the order completes. -/
def closedReply : List Byte := [0x5A, 0x11, 0x01, 0x01, 0x02, 0x00, 0x00, 0x00, 0x6F]
def answering (r : Record) (w : PowerUnit) : State :=
  { ordered r w with
    lines := { l0 := Line.reset, l1 := Line.reset, l3 := Line.reset,
               l2 := { busyLine with exchange := some (pollOf 3 17 .receiving) } } }

theorem test_good_reply_ends_stroke :
    let t := after (.replyReceived .l2 closedReply) (answering moving running1)
    (t.rec? 3).map (fun r => (r.indicated, r.motion, r.attempts)) = some (.closed, .rest, 0)
      ∧ (t.order? 0).map (fun o => (o.state, o.result)) = some (.done, some .done)
      ∧ t.outputs.allClosed = true ∧ t.outputs.attnA = true := by decide
theorem test_short_reply_misses :
    ((after (.replyByteGap .l2) (answering moving running1)).rec? 3).map Record.missed = some 1 := by decide
/-- The third miss of a warning door: LC, the warning ends with a refund and the order fails it (R133). -/
theorem test_third_miss :
    let s := answering { warning with missed := 2 } running1
    let t := after (.replyByteGap .l2) s
    (t.rec? 3).map (fun r => (r.causes, r.motion)) = some ([.lc], .rest)
      ∧ (t.order? 0).map (fun o => (o.failed, o.result)) = some (1, some .doneWithFailures)
      ∧ (t.alarm? (.door 101) .lc).isSome := by decide
theorem test_window_expiry :
    ((after (.windowExpiry .l2) stopped).rec? 9).map Record.missed = some 1 := by decide
theorem test_guard_end_polls_next :
    let s := shipOn door { busyLine with exchange := some (pollOf 9 18 .guard) }
    ((after (.guardEnd .l2) s).line .l2).exchange.map (fun x => x.target) = some (.door 3 17) := by decide
theorem test_request_sent :
    let s := shipOn door { busyLine with exchange := some (pollOf 9 18 .sending) }
    ((after (.requestSent .l2) s).line .l2).exchange.map (fun x => x.phase) = some .window
      ∧ (after (.requestSent .l2) s).outputs.driveEnable.l2 = false := by decide
theorem test_reply_start :
    ((after (.replyStart .l2) stopped).line .l2).exchange.map (fun x => x.phase) = some .receiving := by
  decide

theorem test_warning_lead :
    let t := after (.warningLeadExpiry 3) (ordered warning running1)
    (t.rec? 3).map (fun r => (r.motion, r.deadline)) = some (.moving, some 50000)
      ∧ (t.line .l2).queue = [{ position := 3, command := .move .closed }] := by decide
/-- The order completes with the door's failure and ceases to govern it, which clears the attempt count
(R63, R65, R81). -/
theorem test_deadline :
    let t := after (.deadlineExpiry 3) (ordered moving running1)
    (t.rec? 3).map (fun r => (r.motion, r.causes, r.attempts)) = some (.rest, [.ct], 0)
      ∧ (t.order? 0).map (fun o => (o.state, o.result)) = some (.done, some .doneWithFailures)
      ∧ t.alarms.map (fun a => (a.subject, a.kind)) = [(.door 101, .ct)] := by decide
/-- LP is not among the door's enables: the flag is set and nothing is listed (R140). -/
theorem test_passage_limit :
    let t := after (.passageLimitExpiry 3) (ship passing running1)
    (t.rec? 3).map (fun r => (r.motion, r.causes, r.flags)) = some (.inLocal, [.lp], [.lp])
      ∧ t.alarms = [] := by decide
theorem test_obstruction_pause :
    let r := { door with indicated := .intermediate, deadline := some 10000, purpose := some .order }
    ((after (.obstructionPauseExpiry 3) (ordered r unit4)).rec? 3).map (fun r => r.motion)
      = some .waitUnit := by decide
theorem test_reclose_delay :
    let r := { door with motion := .recloseDelay, deadline := some 10000,
                         cfg := { door.cfg with power := some { doorPower with normallyClosed := true } } }
    ((after (.recloseDelayExpiry 3) (ship r unit4)).rec? 3).map (fun r => (r.motion, r.purpose))
      = some (.waitUnit, some .reclose) := by decide
theorem test_staleness :
    let s := { stopped with clock := 11001 }
    ((after (.stalenessDeadlineExpiry 3) s).rec? 3).map Record.qualifiers = some [.stale]
      ∧ ((after (.stalenessDeadlineExpiry 3) { s with clock := 11000 }).rec? 3).map Record.qualifiers
        = some [] := by decide

theorem test_unit_set_clamps :
    ((after (.unitSet .A (.fields (.unit 5 { capacity := some 400 }))) stopped).unit? 5).map
      (fun w => (w.tolerance, w.charge, w.reconciled)) = some (400, 400000, true) := by decide
theorem test_unit_read_accrues :
    ((after (.unitRead .A (.fields (.unit 4 none))) { stopped with clock := 10010 }).unit? 4).map
      PowerUnit.charge = some 4052000 := by decide
theorem test_line_set_rate :
    statusOf (after (.lineSet .A (.fields { line := 2, rate := some 115200 })) stopped) .A
      = some .wrongPhase := by decide
theorem test_line_disable :
    let l := { busyLine with queue := [{ position := 3, command := .warn 5 }] }
    let s := { ordered warning running1 with lines := (shipOn warning l).lines }
    let t := after (.lineSet .A (.fields { line := 2, enabled := some false })) s
    (t.rec? 3).map Record.motion = some .rest ∧ (t.line .l2).queue = []
      ∧ (t.order? 0).map (fun o => o.failed) = some 1 := by decide
theorem test_calendar_set :
    let t := after (.calendarSet .A (.fields { length := 1, slots := [⟨0, 3, 65⟩] })) stopped
    statusOf t .A = some .clamped ∧ t.calendar = [{ first := 0, last := 3, visits := 64 }] := by decide

def alarmed (st : AlarmState) : State :=
  { stopped with alarms := [{ subject := .door 101, kind := .ct, state := st, raised := 9000 }] }
theorem test_ack_cleared_removes :
    (after (.ackAlarm .A (.fields .all)) (alarmed .unackCleared)).alarms = [] := by decide
theorem test_read_alarms :
    (answer? (after (.readAlarms .B (.fields 0)) (alarmed .unackActive)) .B).map Response.content
      = some (.alarms 1 false 1 [{ index := 0, subject := .door 101, position := some 3, kind := .ct,
                                   state := .unackActive, age := 1000 }]) := by decide +kernel
/-- R153: entries of one kind and age go by subject, doors by number. -/
theorem test_alarm_order_by_subject :
    let entry := fun (n : Nat) =>
      ({ subject := .door n, kind := .ct, state := .unackActive, raised := 9000 } : Alarm)
    ({ stopped with alarms := [entry 205, entry 101] } : State).alarmList = [entry 101, entry 205] := by decide
theorem test_clear_flags_keeps_masked :
    let r := { door with causes := [.pd], flags := [.pd, .lp] }
    ((after (.clearFlags .A (.fields { subject := .ship, kinds := none })) (ship r unit4)).rec? 3).map
      Record.flags = some [.pd] := by decide
theorem test_read_changes :
    let t := after (.readChanges .A (.fields ())) (stopped.markBoth 3)
    t.portA.marks = [] ∧ t.portB.marks = [3] := by decide

def bulkTag : BulkReq := { first := 3, last := 9, cls := some (.is .P), setTag := some 0x55 }
theorem test_bulk_starts :
    (after (.bulk .A (.fields bulkTag)) stopped).walk.stepTimer = some 10001 := by decide
theorem test_bulk_step :
    let s := { after (.bulk .A (.fields bulkTag)) stopped with clock := 10001 }
    ((after .bulkStepExpiry s).rec? 3).map (fun r => r.cfg.tag) = some 0x55
      ∧ (after .bulkStepExpiry s).walk.counts.map WalkCounts.changed = some 1 ∧ (after .bulkStepExpiry s).walk.cursor = 4 := by decide
theorem test_bulk_abort_status :
    let s := after (.bulk .A (.fields bulkTag)) stopped
    (after (.bulkAbort .B (.fields ())) s).walk.result = some .aborted
      ∧ (after (.bulkStatus .B (.fields ())) s).walk.state = .running := by decide

theorem test_commission_empty : (after (.commission .A (.fields ())) State.reset).phase = .service := by
  decide
theorem test_resweep_clears_marks :
    let t := after (.resweep .A (.fields ())) stopped
    t.phase = .sweep ∧ t.outputs.outstanding = 2 ∧ t.portB.marks = [3, 9] := by decide
theorem test_restart :
    let t := after (.restart .A (.fields ())) (ordered warning running1)
    t.phase = .sweep ∧ t.slots = [] ∧ (t.unit? 4).map PowerUnit.charge = some 12000000
      ∧ (t.line .l2).queue = [{ position := 3, command := .stop }] := by decide
theorem test_ident_type : (answer? (after (.ident .B (.fields ())) stopped) .B).map Response.type
    = some 0x98 := by decide
theorem test_serving_drops :
    (after (.ident .B (.fields ())) (after (.ident .B (.fields ())) stopped)).portB.overruns = 1
      ∧ (after (.responseSent .B) (after (.ident .B (.fields ())) stopped)).portB.service = .idle := by decide
theorem test_bad_type :
    statusOf (after (.badType .A 0x19) stopped) .A = some .badType
      ∧ statusOf (after (.ident .A .badLength) stopped) .A = some .badField := by decide
/-- The bytes of an IDENT, and a gap within them: the length 0 is bad and so is the gap after the second
sync, 2 bad frames (R186, R187). -/
theorem test_bytes_run :
    (answer? (after (.consoleByteGap .A [⟨0xC3, false⟩, ⟨0x01, false⟩, ⟨0x18, false⟩, ⟨0x19, false⟩]) stopped)
        .A).map (fun r => (r.type, r.status)) = some (0x98, .ok)
      ∧ (after (.consoleByteGap .A [⟨0xC3, false⟩, ⟨0x00, false⟩, ⟨0xC3, false⟩, ⟨0x05, false⟩]) stopped).portA.badFrames
        = 2 := by decide
/-- Port A holds all of a message of one byte, its type, but the check byte. -/
def holding (type : Byte) : State := { stopped with portA := { stopped.portA with receiver := .check 1 [type] } }

/-- R189: a LOOKUP, a CANCEL, a READ ALARMS and a CALENDAR SET with a body of no byte are too short. -/
theorem test_short_bodies : ∀ type ∈ [(0x04 : Byte), 0x08, 0x0A, 0x14],
    statusOf (State.takeByte .A (holding type) { value := 1 + type }) .A = some .badField := by decide

theorem test_bad_frame :
    (after (.badFrame .A [⟨0xC3, false⟩, ⟨0x00, false⟩]) stopped).portA.badFrames = 1
      ∧ (after (.consoleByteGap .A [⟨0xC3, false⟩]) stopped).portA.badFrames = 1
      ∧ (after (.consoleByteGap .A []) stopped).portA.badFrames = 0 := by decide
theorem test_overrun : (after (.overrun .A) stopped).portA.overruns = 0 := by decide
theorem test_rstn : (after (.rstnLow 10) stopped).inReset = true
    ∧ (after .rstnRelease (after (.rstnLow 10) stopped)).phase = .build := by decide
theorem test_eclose_change : (after (.ecloseInputChange true) stopped).ecloseTimer = some 10050 := by decide
theorem test_eclose_edge :
    let s := { stopped with eclosePin := true, ecloseTimer := some 10000 }
    (after .ecloseDebounceExpiry s).stack = [15] ∧ (after .ecloseDebounceExpiry s).ecloseState = true := by
  decide
theorem test_tick : stopped.tick.clock = 10001 ∧ stopped.tick.pending = []
    ∧ (State.tick { stopped with clock := 11000 }).pending
      = [.stalenessDeadlineExpiry 3, .stalenessDeadlineExpiry 9] := by decide
/-- No row of the table gives bits, so no word spells a command. -/
theorem test_no_words : decodeTableWord 0 0 = none ∧ decodeTableWord 32 0xFFFFFFFF = none := by decide

/-! ### The tables of the indication -/

theorem test_bands :
    (bandOf (some 3), bandOf (some 4), bandOf (some 96), bandOf (some 97))
      = (.closedBand, .travel, .travel, .openBand) := by decide
theorem test_closed_disagreement :
    deriveP { closedLimit := true, openLimit := false, secured := true, moving := false,
              obstruction := false, stroke := some 45, faultCode := 0 } .rest none
      = (.intermediate, .disagreement) := by decide

/-! ### Witnesses

For each statement with hypotheses, concrete values that meet them together; where it has clauses with
hypotheses of their own, values for each, at their bounds. -/

theorem witness_StepRunsTheFrontCommand :
    State.pending { stopped with pending := [.overrun .A, .overrun .B] } = .overrun .A :: [.overrun .B]
      ∧ stopped.pending = [] ∧ stopped.Calm := ⟨rfl, rfl, rfl, rfl⟩

theorem witness_RstnResetsThePart :
    (10 ≤ 10 ∧ 9 < 10) ∧ (after (.rstnLow 10) stopped).inReset = true
      ∧ (∀ micros, Instr.guardEnd .l0 ≠ .rstnLow micros) ∧ Instr.guardEnd .l0 ≠ .rstnRelease
      ∧ (∀ level, Instr.guardEnd .l0 ≠ .ecloseInputChange level) :=
  ⟨by decide, by decide, nofun, nofun, nofun⟩

/-- The ship after RESWEEP: two records outstanding. -/
def sweeping : State := after (.resweep .A (.fields ())) stopped

theorem settled_sweeping : sweeping.Settled := settled_of_check (by decide)

theorem answered_stopped : stopped.Answered := by
  intro p r h
  have h2 := Keyed.mem_of_get? h
  simp only [stopped, ship, List.mem_cons, Prod.mk.injEq, List.not_mem_nil, or_false] at h2
  rcases h2 with ⟨-, rfl⟩ | ⟨-, rfl⟩ <;> simp [door, hatch]

theorem witness_EveryStepKeepsTheStateSound : stopped.Sound ∧ step stopped = .next stopped.tick :=
  ⟨sound_stopped, rfl⟩
theorem witness_EveryStepKeepsTheLists :
    stopped.Sound ∧ stopped.Listed ∧ step stopped = .next stopped.tick :=
  ⟨sound_stopped, listed_stopped, rfl⟩
theorem witness_EveryStepLeavesTheOutputsCurrent :
    stopped.drive.OutputsCurrent ∧ step stopped.drive = .next stopped.drive.tick := ⟨rfl, rfl⟩
theorem witness_EveryStepEndsSweepsAndStartsLines :
    sweeping.SweepOpen ∧ sweeping.phase = .sweep ∧ sweeping.LinesChosen
      ∧ step sweeping = .next sweeping.tick :=
  ⟨settled_sweeping.sweep, by decide, settled_sweeping.lines, by
    have h : sweeping.pending = [] := by decide
    simp only [step, h]⟩
theorem witness_EveryStepKeepsUnansweredRecordsUnknown :
    stopped.Answered ∧ step stopped = .next stopped.tick := ⟨answered_stopped, rfl⟩
/-- Port A holds all of a RESWEEP but its check byte. -/
def resweepHeld : State := holding 0x16

theorem witness_OnlyTheirEventsChangeThePhaseOrLowerTheCounts :
    exec (.commission .A (.fields ())) State.reset = .next (after (.commission .A (.fields ())) State.reset)
      ∧ (after (.commission .A (.fields ())) State.reset).phase ≠ State.reset.phase
      ∧ (after (.windowExpiry .l2) { stopped with phase := .sweep }).phase = .service
      ∧ resweepHeld.inReset = false ∧ (State.takeByte .A resweepHeld { value := 0x17 }).phase = .sweep
      ∧ resweepHeld.portA.receiver.feed { value := 0x17 } = .complete [0x16]
      ∧ stopped.Sound ∧ (∀ micros, Instr.overrun .A ≠ .rstnLow micros)
      ∧ exec (.overrun .A) stopped = .next (after (.overrun .A) stopped) :=
  ⟨rfl, by decide, by decide, rfl, by decide, by decide, sound_stopped, nofun, rfl⟩

/-! Console ports. -/

theorem witness_RequestsAreAnsweredOnTheirPort :
    (Instr.resweep .A (.fields ())).request? = some ⟨.A, 0x16, true⟩ ∧ State.reset.inReset = false
      ∧ State.reset.TakesOn .A
      ∧ exec (.resweep .A (.fields ())) State.reset = .next (after (.resweep .A (.fields ())) State.reset)
      ∧ (after (.resweep .A (.fields ())) State.reset).Answers .A 0x16 .wrongPhase .empty
      ∧ Status.accepts .wrongPhase = false := ⟨rfl, rfl, rfl, rfl, rfl, rfl⟩

/-- The ship while port B sends a response. -/
def servingB : State := after (.ident .B (.fields ())) stopped

theorem witness_MessagesMeetTheServiceState :
    servingB.inReset = false ∧ (answer? servingB .B).isSome
      ∧ (Instr.ident .B (.fields ())).request? = some ⟨.B, 0x18, true⟩ ∧ WellFormed (.badType .B 0x19) = true
      ∧ stopped.inReset = false ∧ stopped.TakesOn .A ∧ WellFormed (.badType .A 0x00) = true
      ∧ (Instr.ident .A .badLength).request? = some ⟨.A, 0x18, false⟩ := by
  refine ⟨by decide, by decide, rfl, by decide, rfl, rfl, by decide, rfl⟩

theorem witness_BytesReachThePort :
    (⟨0xC3, true⟩ : LinkByte).framingError = true ∧ (⟨0xC3, false⟩ : LinkByte).framingError = false
      ∧ ([] : List Byte).length + 1 < (2 : Byte).toNat ∧ ([] : List Byte).length + 1 = (1 : Byte).toNat
      ∧ stopped.inReset = false ∧ stopped.TakesOn .A ∧ stopped.portA.receiver = .hunt
      ∧ stopped.portA.receiver.feed ⟨0xC2, false⟩ = .more .hunt
      ∧ Receiver.feed .length ⟨251, false⟩ = .bad
      ∧ resweepHeld.portA.receiver.feed ⟨0x17, false⟩ = .complete (0x16 :: []) ∧ resweepHeld.TakesOn .A
      ∧ servingB.inReset = false ∧ (answer? servingB .B).isSome
      ∧ 24 < (0x19 : Byte).toNat ∧ 1 ≤ (0x18 : Byte).toNat ∧ (0x18 : Byte).toNat ≤ 24
      ∧ ([⟨0xC3, false⟩].foldl (State.takeByte .A) stopped).portA.receiver ≠ .hunt
      ∧ 1 ≤ (List.replicate 250 (0 : Byte)).length ∧ (List.replicate 250 (0 : Byte)).length ≤ 250
      ∧ (holding 0x08).portA.receiver.feed ⟨0x09, false⟩ = .complete (0x08 :: []) ∧ ([] : List Byte).length < 1
      ∧ (holding 0x08).inReset = false ∧ (holding 0x08).TakesOn .A := by
  refine ⟨rfl, rfl, by decide, by decide, rfl, rfl, rfl, by decide, by decide, by decide, rfl, by decide,
    by decide, by decide, by decide, by decide, by decide, by rw [List.length_replicate]; omega,
    by rw [List.length_replicate], by decide, by decide, rfl, rfl⟩

theorem witness_ReadsAnswerAndChangeNothing :
    stopped.inReset = false ∧ stopped.TakesOn .A ∧ stopped.rec? 3 = some door
      ∧ (DoorName.position 3 = .position 3 ∧ 3 ≤ 255)
      ∧ Keyed.get? stopped.directory 101 = some 3 ∧ (1 ≤ 24 ∧ 24 ≤ 24) ∧ 63 ≤ 63
      ∧ (DoorName.position 256 = .position 256 ∧ 255 < 256) ∧ (DoorName.number 0 = .number 0 ∧ 0 < 1)
      ∧ stopped.rec? 5 = none ∧ Keyed.get? stopped.directory 4095 = none
      ∧ (24 < 25 ∧ 0 < 1) ∧ 63 < 64 ∧ stopped.Sound ∧ stopped.Listed
      ∧ (alarmed .unackActive).alarmList ≠ [] ∧ stopped.walk.state = .idle :=
  ⟨rfl, rfl, rfl, ⟨rfl, by decide⟩, rfl, by decide, by decide, ⟨rfl, by decide⟩, ⟨rfl, by decide⟩, rfl, rfl,
    by decide, by decide, sound_stopped, listed_stopped, by decide, rfl⟩

theorem witness_ReadChangesClearsWhatItReports :
    (stopped.markBoth 3).Settled ∧ (stopped.markBoth 3).TakesOn .B ∧ (stopped.markBoth 3).rec? 3 = some door
      ∧ stopped.rec? 5 = none ∧ Keyed.get? (stopped.portState .B).freed 5 = none
      ∧ Keyed.get? (({ stopped with portB := { stopped.portB with freed := [(5, ⟨4095, .noAck⟩)] } } : State).portState
          .B).freed 5 = some ⟨4095, .noAck⟩ :=
  ⟨settled_of_check (by decide), rfl, rfl, rfl, rfl, rfl⟩

/-! The door table and the indication. -/

theorem witness_EnrolCreatesTheRecordOrIsRefused :
    (∃ l cfg clamped, stopped.Calm ∧ stopped.TakesOn .A
        ∧ stopped.enrolForm (enrolHatch 231 17) = some (l, cfg, clamped) ∧ stopped.rec? 5 = none
        ∧ stopped.enrolDuplicate cfg = false)
      ∧ stopped.inReset = false ∧ stopped.enrolForm enrolDoor = none
      ∧ (stopped.enrolForm { enrolHatch 231 17 with position := 3 }).isSome ∧ (stopped.rec? 3).isSome
      ∧ (stopped.enrolForm (enrolHatch 101 17)).isSome ∧ (Keyed.get? stopped.directory 101).isSome :=
  ⟨⟨_, _, _, ⟨rfl, rfl⟩, rfl, rfl, rfl, by decide⟩, rfl, by decide, by decide, rfl, by decide, rfl⟩

/-- R12, R137: line 3 of the ship in a sweep has no record and its walk has ended; one enrolled on it starts it again,
and its first poll is of that record. -/
theorem test_enrol_rejoins_the_sweep :
    let s : State := { sweeping with lines := { sweeping.lines with
      l3 := { Line.reset with sweep := { active := false, cursor := 0, monitors := .done } } } }
    let t := after (.enrol .B (.fields { enrolHatch 231 17 with
      args := { (enrolHatch 231 17).args with address := some (3, 17) } })) { s with portA := State.reset.portA }
    (s.line .l3).exchange = none ∧ (t.line .l3).sweep = { active := true, cursor := 6, monitors := .done }
      ∧ (t.line .l3).exchange.map (fun x => (x.source, x.target)) = some (.sweep, .door 5 17)
      ∧ (t.line .l2).exchange = (s.line .l2).exchange := by decide

theorem witness_ChangeSetsTheCarriedFields :
    stopped.Settled ∧ stopped.Sound ∧ stopped.TakesOn .A ∧ stopped.rec? 3 = some door
      ∧ door.lifecycle ≠ .retiring ∧ door.motion ≠ .waitUnit
      ∧ ({ tag := some 1, closeCost := some 4001 } : FieldArgs).number = none
      ∧ (door.cfg.cls = .P → ∀ n, ({ tag := some 1 } : FieldArgs).perms = some n → n.outside = false)
      ∧ (ordered waiting queued).Sound ∧ (ordered waiting queued).rec? 3 = some waiting
      ∧ waiting.cfg.power = some doorPower ∧ waiting.motion = .waitUnit
      ∧ (PowerFields.withArgs doorPower { closeCost := some 2201 }).1.closeCost ≠ doorPower.closeCost
      ∧ (ordered waiting queued).headOf doorPower.unit = some 3 :=
  ⟨settled_stopped, sound_stopped, rfl, rfl, by decide, by decide, rfl, nofun, sound_of_check (by decide), rfl,
    rfl, rfl, by decide, by decide⟩

/-- A CHANGE of the record at a position, and the status of its answer. -/
def changeStatus (p : Nat) (a : FieldArgs) (s : State) : Option Status :=
  statusOf (after (.change .A (.fields { name := .position p, args := a })) s) .A

theorem witness_ChangeIsCheckedInItsOrder :
    stopped.inReset = false ∧ stopped.TakesOn .A ∧ stopped.Sound ∧ stopped.rec? 3 = some door
      ∧ changeStatus 256 {} stopped = some .badField ∧ changeStatus 5 {} stopped = some .notFound
      ∧ changeStatus 5 { unit := some 32 } stopped = some .badField
      ∧ changeStatus 5 { unit := some 32, cls := some (.is .H) } stopped = some .notFound
      ∧ changeStatus 3 { number := some 102 } stopped = some .badField
      ∧ changeStatus 3 { address := some (0, 64) } (ordered warning running1) = some .busy
      ∧ changeStatus 3 { address := some (2, 18) } stopped = some .duplicate
      ∧ changeStatus 3 { staleLimit := some 199 } stopped = some .clamped
      ∧ changeStatus 9 { lead := some 21 } stopped = some .ok :=
  ⟨rfl, rfl, sound_stopped, rfl, by decide, by decide, by decide, by decide, by decide, by decide, by decide,
    by decide, by decide⟩

/-- The ship with the door waiting, and a second unit. -/
def twoUnits (r : Record) (w : PowerUnit) : State := { ordered r w with units := [(4, w), (6, unit4)] }

theorem witness_ChangeMovesTheRecord :
    (∀ e ∈ [(door, unit4), (waiting, queued), ({ door with lifecycle := .isolated }, unit4)],
        soundB (twoUnits e.1 e.2) = true ∧ accountedB (twoUnits e.1 e.2) = true
        ∧ (twoUnits e.1 e.2).rec? 3 = some e.1 ∧ e.1.lifecycle ≠ .retiring)
      ∧ (twoUnits waiting queued).Listed ∧ (3 ≠ door.cfg.zone ∧ (200 ≤ 20000)) ∧ lineOf 3 = some .l3
      ∧ door.cfg.cls = .P ∧ door.motion = .rest ∧ hatch.cfg.cls ≠ .P ∧ stopped.rec? 9 = some hatch
      ∧ DoorClass.S ≠ hatch.cfg.cls ∧ door.cfg.power = some doorPower ∧ 6 ≠ doorPower.unit ∧ ((twoUnits door unit4).unit? 6).isSome :=
  ⟨by decide, ⟨listed_waiting.directory, listed_waiting.zones, listed_waiting.order⟩, by decide, rfl, rfl, rfl,
    by decide, rfl, by decide, rfl, by decide, rfl⟩

theorem witness_IsolationEndsTheMotion :
    (∀ r ∈ [door, waiting, warning, moving, passing], (ship r queued).rec? 3 = some r
        ∧ r.lifecycle ≠ .isolated ∧ r.unit? = some 4 ∧ (ship r queued).unit? 4 = some queued)
      ∧ door.motion = .rest ∧ waiting.motion = .waitUnit ∧ warning.motion = .warning
      ∧ moving.motion = .moving ∧ passing.motion = .inLocal
      ∧ ((ship moving queued).line moving.cfg.line).enabled = true := by decide

/-- The ship in BUILD. -/
def building : State := { stopped with phase := .build }

/-- The ship in SWEEP with line 2 disabled. -/
def offline : State :=
  { stopped with phase := .sweep, lines := { stopped.lines with l2 := { Line.reset with enabled := false } } }

theorem witness_RetireFreesOrReleases :
    (building.Calm ∧ building.TakesOn .A ∧ building.Sound ∧ building.Listed ∧ building.rec? 3 = some door
        ∧ door.lifecycle ≠ .retiring ∧ door.motion = .rest ∧ building.phase = .build)
      ∧ ((ship moving running1).rec? 3 = some moving ∧ moving.motion ≠ .rest)
      ∧ stopped.Calm ∧ stopped.TakesOn .A ∧ stopped.rec? 3 = some door ∧ stopped.phase = .service
      ∧ stopped.stack = [] ∧ (stopped.line door.cfg.line).enabled = true
      ∧ (ordered door unit4).Sound ∧ (ordered door unit4).Listed ∧ (ordered door unit4).phase ≠ .build
      ∧ ((ordered door unit4).rec? 3 = some door ∧ 0 ∈ (ordered door unit4).stack)
      ∧ (offline.Sound ∧ offline.Listed ∧ offline.TakesOn .A ∧ offline.rec? 3 = some door
        ∧ offline.phase = .sweep ∧ (offline.line door.cfg.line).enabled = false)
      ∧ (1 ≤ 101 ∧ 101 ≤ 4095 ∧ Keyed.get? building.directory 101 = some 3 ∧ Keyed.get? stopped.directory 101 = some 3
        ∧ Keyed.get? stopped.directory 4095 = none ∧ stopped.rec? 255 = none ∧ 0 < 1 ∧ 4095 < 4096 ∧ 255 < 256) :=
  ⟨⟨⟨rfl, rfl⟩, rfl, sound_of_check (by decide),
      ⟨listed_stopped.directory, listed_stopped.zones, listed_stopped.order⟩, rfl, by decide, rfl, rfl⟩,
    ⟨rfl, by decide⟩, ⟨rfl, rfl⟩, rfl, rfl, rfl, rfl, rfl, sound_of_check (by decide),
    ⟨listed_stopped.directory, listed_stopped.zones, listed_stopped.order⟩, by decide, ⟨rfl, by decide⟩,
    ⟨sound_of_check (by decide), ⟨listed_stopped.directory, listed_stopped.zones, listed_stopped.order⟩, rfl,
      rfl, rfl, rfl⟩, by decide⟩

theorem witness_IndicationFollowsItsTables :
    (door.cfg.cls = .P ∧ door.report.isSome ∧ (moving.motion = .moving ∧ moving.target = some .closed)
        ∧ (∀ n ∈ [0, 3, 4, 96, 97, 100], (0 ≤ n ∧ n ≤ 3) ∨ (4 ≤ n ∧ n ≤ 96) ∨ (97 ≤ n ∧ n ≤ 100)))
      ∧ ∃ rep, hatch.report = some rep ∧ hatch.cfg.cls ≠ .P ∧ rep.closedLimit = true
        ∧ rep.openLimit = false ∧ rep.secured = true := ⟨by decide, _, rfl, by decide⟩

theorem witness_AllClosedIsDrivenByItsCondition :
    stopped.drive.inReset = false ∧ stopped.drive.OutputsCurrent ∧ stopped.drive.Answered
      ∧ stopped.drive.Sound ∧ (∃ t, step stopped.drive = .next t ∧ t.inReset = false)
      ∧ ({ stopped with records := [(9, hatch)] } : State).drive.outputs.allClosed = true :=
  ⟨rfl, rfl, answered_stopped, sound_stopped.drive, ⟨_, rfl, rfl⟩, by decide⟩

theorem witness_SummariesCountAndDecide :
    stopped.Sound ∧ stopped.Listed ∧ 1 ≤ 7 ∧ 7 ≤ 24 ∧ stopped.zoneList 7 ≠ [] :=
  ⟨sound_stopped, listed_stopped, by decide, by decide, by decide⟩

/-- R38: zone 7 holds an open door and a closed hatch, zone 8 nothing. -/
theorem test_zone_summary_is_of_its_zone :
    ((stopped.zoneSummary 7).total, (stopped.zoneSummary 7).proven, (stopped.zoneSummary 7).notClosed) = (2, 1, 1)
      ∧ (stopped.zoneSummary 8).total = 0 := by decide

theorem witness_StalenessDeadlineAddsStale :
    stopped.Settled ∧ ({ stopped with clock := 11001 } : State).Settled ∧ stopped.rec? 3 = some door
      ∧ door.lastGood = some 9000 ∧ 11000 ≤ 9000 + door.cfg.staleLimit
      ∧ 9000 + door.cfg.staleLimit < 11001 ∧ door.aged = false ∧ FaultKind.lc ∉ door.causes :=
  ⟨settled_stopped, settled_of_check (by decide), rfl, rfl, by decide, by decide, rfl, by decide⟩

/-! Orders. -/

theorem placed_ship (r : Record) (w : PowerUnit) : (ship r w).OrdersPlaced where
  stacked _ h := nomatch h
  pending _ h := nomatch h
  falling := .nil
  ordered := .nil
  arrivals _ _ h := nomatch h

theorem placed_stopped : stopped.OrdersPlaced := placed_ship door unit4

theorem placed_ordered : (ordered door unit4).OrdersPlaced where
  stacked k h := by
    simp only [ordered, List.mem_cons, List.not_mem_nil, or_false] at h
    subst h; exact ⟨anOrder, rfl, .inl rfl⟩
  pending _ h := nomatch h
  falling := .cons (by simp) .nil
  ordered := .nil
  arrivals k o h := by
    have h2 := Keyed.mem_of_get? h
    simp only [ordered, List.mem_cons, Prod.mk.injEq, List.not_mem_nil, or_false] at h2
    obtain ⟨-, rfl⟩ := h2; decide

theorem top_ordered : (ordered door unit4).TopActive where
  top k h := by cases h; exact ⟨anOrder, rfl, rfl⟩
  beneath _ h := nomatch h

theorem witness_EveryStepKeepsTheOrdersPlaced :
    (ordered door unit4).wf = true ∧ (ordered door unit4).OrdersPlaced
      ∧ step (ordered door unit4) = .next (ordered door unit4).tick ∧ (ordered door unit4).agenda = []
      ∧ (ordered door unit4).TopActive ∧ (ordered door unit4).tick.agenda = [] :=
  ⟨by decide, placed_ordered, rfl, rfl, top_ordered, rfl⟩

theorem witness_OrderIsRefusedOrAbsorbed :
    stopped.inReset = false ∧ stopped.TakesOn .A ∧ stopped.wf = true ∧ building.phase = .build
      ∧ stopped.phase ≠ .build ∧ (6 < ({ closeOrder with priority := 7 } : OrderReq).priority)
      ∧ (∀ z ∈ [1, 24], 1 ≤ z ∧ z ≤ 24)
      ∧ (ordered door unit4).Settled ∧ (ordered door unit4).wf = true ∧ (ordered door unit4).TakesOn .B
      ∧ (ordered door unit4).order? 0 = some anOrder ∧ anOrder.state.live = true
      ∧ closeOrder.kind = .is anOrder.kind ∧ closeOrder.priority = anOrder.priority
      ∧ ScopeArg.scope? closeOrder.scope = some anOrder.scope :=
  ⟨rfl, rfl, by decide, rfl, by decide, by decide, by decide, settled_ordered, by decide, rfl, rfl, rfl, rfl,
    rfl, by decide⟩

/-- An OPEN of zone 7 at priority 4, at the priority of the stacked order. -/
def openOrder : OrderReq := { closeOrder with kind := .is .opening }

theorem witness_AcceptedOrderTakesItsPlace :
    ((ordered door unit4).Settled ∧ (ordered door unit4).Sound ∧ (ordered door unit4).Listed
        ∧ (ordered door unit4).OrdersPlaced ∧ (ordered door unit4).TakesOn .B
        ∧ (ordered door unit4).phase ≠ .build ∧ ScopeArg.scope? openOrder.scope = some (.zones [7])
        ∧ (∀ j o, (ordered door unit4).order? j = some o → o.state.live = true →
            ¬ (o.kind = .opening ∧ o.priority = openOrder.priority ∧ o.scope = .zones [7]))
        ∧ (ordered door unit4).order? 1 = none ∧ (∀ j, j < 1 → ((ordered door unit4).order? j).isSome)
        ∧ (ordered door unit4).stack = 0 :: [] ∧ openOrder.priority ≤ (ordered door unit4).priorityOf 0)
      ∧ stopped.OrdersPlaced ∧ stopped.stack = [] ∧ stopped.order? 0 = none := by
  refine ⟨⟨settled_ordered, sound_of_check (by decide),
    ⟨listed_stopped.directory, listed_stopped.zones, listed_stopped.order⟩, placed_ordered, rfl, by decide,
    by decide, fun j o h _ => ?_, rfl, fun j h => ?_, rfl, by decide⟩, placed_stopped, rfl, rfl⟩
  · have h2 := Keyed.mem_of_get? h
    simp only [ordered, List.mem_cons, Prod.mk.injEq, List.not_mem_nil, or_false] at h2
    obtain ⟨-, rfl⟩ := h2; decide
  · have : j = 0 := by omega
    subst this; rfl

/-- The ship with a finished order in every slot of a console, those of slots 3 and 7 the oldest. -/
def filled : State :=
  { stopped with
    arrivals := 1
    slots := (List.range 15).map fun k =>
      (k, { anOrder with state := .done, finished := some (if k = 3 ∨ k = 7 then 8000 else 9000) }) }

theorem placed_filled : filled.OrdersPlaced where
  stacked _ h := nomatch h
  pending _ h := nomatch h
  falling := .nil
  ordered := .nil
  arrivals k o h :=
    (by decide : ∀ e ∈ filled.slots, e.2.arrival ≤ filled.arrivals) (k, o) (Keyed.mem_of_get? h)

theorem witness_AcceptedOrderReusesTheEarliestFinished :
    filled.Settled ∧ filled.Sound ∧ filled.Listed ∧ filled.OrdersPlaced ∧ filled.TakesOn .A
      ∧ filled.phase ≠ .build ∧ ScopeArg.scope? openOrder.scope = some (.zones [7])
      ∧ (∀ j o, filled.order? j = some o → o.state.live = true →
          ¬ (o.kind = .opening ∧ o.priority = openOrder.priority ∧ o.scope = .zones [7]))
      ∧ filled.stack = []
      ∧ (∀ j, j < 15 → (filled.order? j).isSome) ∧ ∃ old, filled.order? 3 = some old ∧ old.state.live = false
        ∧ ∀ j o, j < 15 → filled.order? j = some o → o.state.live = false →
          heldAge filled.clock (o.finished.getD 0) < heldAge filled.clock (old.finished.getD 0)
          ∨ (heldAge filled.clock (o.finished.getD 0) = heldAge filled.clock (old.finished.getD 0) ∧ 3 ≤ j) := by
  refine ⟨settled_of_check (by decide), sound_of_check (by decide),
    ⟨listed_stopped.directory, listed_stopped.zones, listed_stopped.order⟩, placed_filled, rfl, by decide,
    by decide, fun j o h hl => ?_, rfl, by decide, _, rfl, rfl, fun j o _ h _ => ?_⟩
  · exact absurd hl ((by decide : ∀ e ∈ filled.slots, ¬ e.2.state.live = true) (j, o) (Keyed.mem_of_get? h))
  · exact (by decide : ∀ e ∈ filled.slots,
      heldAge filled.clock (e.2.finished.getD 0) < heldAge filled.clock 8000
        ∨ (heldAge filled.clock (e.2.finished.getD 0) = heldAge filled.clock 8000 ∧ 3 ≤ e.1))
      (j, o) (Keyed.mem_of_get? h)

theorem witness_EvaluationFollowsTheTable :
    (ordered door unit4).order? 0 = some anOrder ∧ (ordered door unit4).rec? 3 = some door
      ∧ 0 ∈ (ordered door unit4).stack ∧ anOrder.uncounted 3 = true ∧ anOrder.kind = .close
      ∧ door.indicated ≠ .closed ∧ door.cfg.power = some doorPower ∧ door.lifecycle = .inService
      ∧ (ordered door unit4).unit? doorPower.unit = some unit4 := by decide

/-- The order with both its members counted. -/
def countedOrder : Order := { anOrder with failed := 1 }

theorem witness_OrderCompletesWhenEveryMemberIsCounted :
    ∃ members, countedOrder.snapshot = some members ∧ countedOrder.kind ≠ .hold
      ∧ countedOrder.done + countedOrder.failed = members.length
      ∧ ({ stopped with slots := [(0, countedOrder)], stack := [0] } : State).order? 0 = some countedOrder
      ∧ anOrder.done + anOrder.failed ≠ members.length := ⟨_, rfl, by decide, rfl, rfl, by decide⟩

/-- The ship with a HOLD over a waiting door, and one with an order of priority 5 or 4 pending above it. -/
def held : State := { ordered waiting queued with slots := [(0, { anOrder with kind := .hold })] }
def pendingAt (priority : Nat) : State :=
  { ordered door unit4 with
    slots := [(0, anOrder), (1, { anOrder with priority := priority, state := .pending, snapshot := none })]
    pendingOrders := [1], arrivals := 2 }

/-- The ship with a HOLD over a door in its warning. -/
def heldWarning : State :=
  { ordered warning running1 with slots := [(0, { anOrder with kind := .hold })], shipStrokes := 1 }

theorem witness_HoldsSuspensionsAndTheNextTop :
    (held.Sound ∧ held.Accounted ∧ held.order? 0 = some { anOrder with kind := .hold }
        ∧ held.rec? 3 = some waiting ∧ anOrder.holds 3 = true ∧ waiting.purpose ≠ some .passage)
      ∧ (held.stack = 0 :: [] ∧ waiting.govSlot = some 0)
      ∧ ((pendingAt 5).pendingOrders = 1 :: [] ∧ (pendingAt 5).phase ≠ .build
        ∧ (pendingAt 5).priorityOf 0 < (pendingAt 5).priorityOf 1)
      ∧ (pendingAt 4).priorityOf 1 ≤ (pendingAt 4).priorityOf 0 ∧ stopped.stack = []
      ∧ stopped.pendingOrders = []
      ∧ (heldWarning.Sound ∧ heldWarning.Accounted ∧ heldWarning.order? 0 = some { anOrder with kind := .hold }
        ∧ heldWarning.unit? 4 = some running1 ∧ heldWarning.rec? 3 = some warning
        ∧ warning.unit? = some 4 ∧ 0 < warning.heldDebit.getD 0) :=
  ⟨⟨sound_of_check (by decide), accounted_of_check (by decide), rfl, rfl, rfl, by decide⟩, ⟨rfl, rfl⟩,
    ⟨rfl, by decide, by decide⟩, by decide, rfl, rfl,
    sound_of_check (by decide), accounted_of_check (by decide), rfl, rfl, rfl, rfl, by decide⟩

/-- A push, the activation, an arrival in REST and a completion, with the members that follow the stack. -/
theorem witness_MembersFollowTheStack :
    ((pendingAt 5).Sound ∧ (pendingAt 5).Listed ∧ (pendingAt 5).Accounted ∧ 1 ∉ (pendingAt 5).stack
        ∧ ((pendingAt 5).order? 1).map Order.snapshot = some none)
      ∧ (∃ members, anOrder.snapshot = some members ∧ (members.map Member.position).Pairwise (· < ·))
      ∧ ((ordered door unit4).stack = 0 :: [] ∧ anOrder.kind ≠ .hold ∧ anOrder.uncounted 9 = false)
      ∧ ({ stopped with slots := [(0, countedOrder)], stack := [0] } : State).Sound
      ∧ ({ stopped with slots := [(0, countedOrder)], stack := [0] } : State).Listed
      ∧ ({ stopped with slots := [(0, countedOrder)], stack := [0] } : State).Accounted
      ∧ countedOrder.holds 3 = true :=
  ⟨⟨sound_of_check (by decide), ⟨listed_stopped.directory, listed_stopped.zones, listed_stopped.order⟩,
      accounted_of_check (by decide), by decide, rfl⟩, ⟨_, rfl, by decide⟩, ⟨rfl, by decide, by decide⟩,
    sound_of_check (by decide), ⟨listed_stopped.directory, listed_stopped.zones, listed_stopped.order⟩,
    accounted_of_check (by decide), by decide⟩

/-- The ship with its order SUSPENDED under a HOLD that holds no door, while the door waits for a reclose. -/
def recloseWaits : Record := { waiting with purpose := some .reclose }
def buried : State :=
  { ordered recloseWaits queued with
    slots := [(0, { anOrder with state := .suspended }),
              (1, { anOrder with kind := .hold, priority := 5, arrival := 2, snapshot := some [] })]
    stack := [1, 0], arrivals := 2 }

/-- R76, row 1: the cancel of the governing order takes a remote waiter to REST, also under a SUSPENDED order. -/
theorem test_cancel_suspended :
    ((after (.cancel .A (.fields 0)) buried).rec? 3).map (fun r => (r.motion, r.target, r.govSlot))
        = some (.rest, none, none)
      ∧ (after (.cancel .A (.fields 0)) buried).queueOf 4 = []
      ∧ (after (.cancel .A (.fields 0)) buried).stack = [1] := by decide

theorem witness_CancelOfASuspendedOrder :
    buried.Settled ∧ buried.Sound ∧ buried.Listed ∧ buried.Accounted ∧ buried.TakesOn .A
      ∧ (buried.order? 0).map Order.state = some .suspended ∧ buried.rec? 3 = some recloseWaits
      ∧ recloseWaits.govSlot = some 0 ∧ recloseWaits.motion = .waitUnit ∧ recloseWaits.purpose ≠ some .passage :=
  have h := listed_ship recloseWaits queued rfl rfl rfl
  ⟨settled_of_check (by decide), sound_of_check (by decide), ⟨h.directory, h.zones, h.order⟩,
    accounted_of_check (by decide), rfl, rfl, rfl, rfl, rfl, by decide⟩

theorem witness_CancelFollowsTheState :
    (ordered waiting queued).Settled ∧ (ordered waiting queued).Sound ∧ (ordered waiting queued).TakesOn .A
      ∧ (ordered waiting queued).order? 0 = some anOrder ∧ anOrder.state = .active
      ∧ (ordered waiting queued).order? 15 = none ∧ (ordered waiting queued).rec? 3 = some waiting
      ∧ waiting.govSlot = some 0 ∧ waiting.purpose ≠ some .passage
      ∧ (ordered warning running1).Settled ∧ (ordered warning running1).Sound
      ∧ (ordered warning running1).order? 0 = some anOrder ∧ (ordered warning running1).unit? 4 = some running1
      ∧ warning.govSlot = some 0 ∧ warning.unit? = some 4 ∧ 0 < warning.heldDebit.getD 0 :=
  ⟨settled_of_check (by decide), sound_of_check (by decide), rfl, rfl, rfl, rfl, rfl, rfl, by decide,
    settled_of_check (by decide), sound_of_check (by decide), rfl, rfl, rfl, rfl, by decide⟩

/-- The ship with a finished order that neither port has read. -/
def finished : State :=
  { stopped with slots := [(2, { anOrder with
      state := .done, result := some .done, finished := some 9000, unread := { a := true, b := true } })] }

/-- The ship holds no order, so anything holds of each. -/
theorem no_orders {Q : Nat → Order → Prop} (n : Nat) (o : Order) (h : stopped.order? n = some o) : Q n o := by
  have h2 := Keyed.mem_of_get? h
  simp [stopped, ship, State.reset] at h2

theorem witness_OrderStatusReadsTheCompletion :
    finished.Settled ∧ finished.wf = true ∧ finished.TakesOn .A ∧ (finished.order? 2).isSome
      ∧ (finished.order? 2).map (fun o => o.unread.get .A) = some true ∧ finished.order? 15 = none
      ∧ (∀ n o, stopped.order? n = some o → o.unread.get .A = false)
      ∧ (anOrder.snapshot.getD [])[0 + 1]? = some { position := 9, outcome := .done, freed := false }
      ∧ finished.rec? 9 = some hatch
      ∧ (finished.orderReport 2 anOrder 1).listed = [{ position := 9, number := some 205, outcome := .done }] :=
  ⟨settled_of_check (by decide), by decide, rfl, rfl, rfl, rfl, no_orders, rfl, rfl, rfl⟩

/-- The ship with the ECLOSE pin high for 50 ms. -/
def pinHigh : State := { stopped with eclosePin := true, ecloseTimer := some 10000 }

theorem witness_EcloseActsOnItsDebouncedEdge :
    pinHigh.Settled ∧ pinHigh.wf = true ∧ pinHigh.ecloseTimer = some 10000 ∧ 10000 ≤ pinHigh.clock
      ∧ pinHigh.eclosePin = true ∧ pinHigh.ecloseState = false ∧ pinHigh.phase ≠ .build
      ∧ pinHigh.stack = [] ∧ (∀ o, pinHigh.order? 15 = some o → o.state.live = false) :=
  ⟨settled_of_check (by decide), by decide, rfl, by decide, rfl, rfl, by decide, rfl, fun o h =>
      no_orders (Q := fun _ o => o.state.live = false) 15 o h⟩

theorem witness_TheStackDecidesForItsDoors :
    (ordered door unit4).OrdersPlaced ∧ 0 ∈ (ordered door unit4).stack
      ∧ (ordered door unit4).order? 0 = some anOrder ∧ anOrder.holds 3 = true ∧ anOrder.holds 4 = false :=
  ⟨placed_ordered, by decide, rfl, by decide, by decide⟩

/-! Motion. -/

theorem witness_WarningLeadEndsInMovement :
    (∀ r ∈ [warning, { warning with indicated := .closed }],
      settledB (ordered r running1) = true ∧ (ordered r running1).rec? 3 = some r ∧ r.motion = .warning
        ∧ r.cfg.power = some doorPower ∧ r.target = some .closed ∧ r.deadline = some 10000
        ∧ (ordered r running1).unit? doorPower.unit = some running1
        ∧ ((ordered r running1).line r.cfg.line).enabled = true)
      ∧ 10000 ≤ (ordered warning running1).clock := by decide

theorem witness_DeadlineAndPassageLimitExpire :
    (ordered moving running1).Settled ∧ (ordered moving running1).rec? 3 = some moving
      ∧ moving.motion = .moving ∧ moving.cfg.power = some doorPower ∧ moving.target = some .closed
      ∧ moving.deadline = some 10000 ∧ (ordered moving running1).unit? doorPower.unit = some running1
      ∧ moving.derived.1 ≠ .closed ∧ (ship passing running1).Settled
      ∧ (ship passing running1).rec? 3 = some passing ∧ passing.motion = .inLocal
      ∧ passing.deadline = some 10000 :=
  ⟨settled_of_check (by decide), rfl, rfl, rfl, rfl, rfl, rfl, by decide, settled_of_check (by decide),
    rfl, rfl, rfl⟩

/-- A normally-closed door at the end of its reclose delay. -/
def reclosing : Record :=
  { door with motion := .recloseDelay, deadline := some 10000,
              cfg := { door.cfg with power := some { doorPower with normallyClosed := true } } }

theorem witness_RecloseIsDecidedAtTheExpiry :
    (ship reclosing unit4).Calm ∧ (ship reclosing unit4).rec? 3 = some reclosing
      ∧ reclosing.cfg.power = some { doorPower with normallyClosed := true }
      ∧ (ship reclosing unit4).unit? 4 = some unit4 ∧ reclosing.timerDue 10000
      ∧ reclosing.indicated ≠ .closed
      ∧ ({ reclosing with motion := .rest, purpose := some .order } : Record).timerDue 10000
      ∧ ¬ ({ reclosing with deadline := some 10001 } : Record).timerDue 10000
      ∧ (ship reclosing unit4).OrdersPlaced :=
  ⟨⟨rfl, rfl⟩, rfl, rfl, rfl, ⟨10000, rfl, by decide⟩, by decide, ⟨10000, rfl, by decide⟩,
    (by rintro ⟨d, h, h2⟩; cases h; omega), placed_ship reclosing unit4⟩

theorem witness_MovementEndsAtTargetOrObstruction :
    (ordered moving running1).rec? 3 = some moving ∧ moving.cfg.power = some doorPower
      ∧ (ordered moving running1).unit? doorPower.unit = some running1
      ∧ ((ordered moving running1).line moving.cfg.line).enabled = true ∧ moving.motion = .moving
      ∧ moving.target = some .closed ∧ moving.attempts < 2
      ∧ 2 ≤ ({ moving with attempts := 2 } : Record).attempts := by decide

theorem witness_LocalRequestsAndReleases :
    stopped.rec? 3 = some door ∧ (stopped.line door.cfg.line).enabled = true
      ∧ door.cfg.power = some doorPower ∧ stopped.unit? doorPower.unit = some unit4
      ∧ door.lifecycle ≠ .isolated ∧ door.motion = .rest ∧ (stopped.effectivePerms 3 doorPower).localOpen = true
      ∧ (ship passing running1).rec? 3 = some passing ∧ passing.motion = .inLocal
      ∧ (ship passing running1).underClosure 3 doorPower = false
      ∧ stopped.rec? 9 = some hatch ∧ hatch.cfg.power = none
      ∧ (∀ r ∈ [{ door with lifecycle := .isolated }, waiting, warning, moving,
            { door with motion := .waitUnit, purpose := some .passage }, { door with motion := .recloseDelay },
            { moving with target := some .opened }],
          (ordered r queued).rec? 3 = some r ∧ ((ordered r queued).line r.cfg.line).enabled = true
          ∧ r.cfg.power = some doorPower ∧ (ordered r queued).unit? doorPower.unit = some queued) := by decide

/-- The door in a motion state with its line disabled: what it is sent is dropped (R122, R127). -/
theorem witness_UndrivableOnADisabledLine :
    ∀ r ∈ [{ waiting with purpose := some .passage }, moving, passing],
      let s := shipOn r { busyLine with enabled := false }
      s.rec? 3 = some r ∧ r.cfg.power = some doorPower ∧ s.unit? doorPower.unit = some unit4
        ∧ (s.line r.cfg.line).enabled = false
        ∧ ((s.becomesUndrivable 3).rec? 3).map Record.motion = some .rest
        ∧ (s.becomesUndrivable 3).lines = s.lines := by decide

theorem witness_UndrivableDoorsAndDroppedCommands :
    (∀ r ∈ [door, waiting, warning, moving, passing, { door with motion := .recloseDelay }],
        (ordered r queued).rec? 3 = some r ∧ r.cfg.power = some doorPower
        ∧ (ordered r queued).unit? doorPower.unit = some queued
        ∧ ((ordered r queued).line r.cfg.line).enabled = true)
      ∧ DoorCommand.grant ≠ .release
      ∧ (ordered waiting queued).Sound ∧ (ordered waiting queued).Listed ∧ (ordered waiting queued).Accounted
      ∧ waiting.cfg.line = .l2 ∧ waiting.govSlot = some 0 ∧ 0 ∈ (ordered waiting queued).stack
      ∧ (ordered waiting queued).order? 0 = some anOrder ∧ anOrder.kind ≠ .hold
      ∧ anOrder.uncounted 3 = true ∧ (3, waiting) ∈ (ordered waiting queued).records
      ∧ ({ ship passing running1 with shipStrokes := 1 } : State).Sound
      ∧ ({ ship passing running1 with shipStrokes := 1 } : State).Accounted
      ∧ passing.cfg.line = .l2 ∧ passing.motion = .inLocal :=
  ⟨by decide, by decide, sound_of_check (by decide), listed_waiting, accounted_of_check (by decide),
    rfl, rfl, by decide, rfl, by decide, by decide, by decide, sound_of_check (by decide),
    accounted_of_check (by decide), rfl, rfl⟩

/-! Power units. -/

theorem witness_NeedOfTheHead :
    passing.purpose = some .passage ∧ waiting.purpose ≠ some .passage ∧ waiting.target = some .closed
      ∧ unit4.strokes < unit4.concurrency ∧ unit4.lastStart = none
      ∧ ¬ (∃ c, waiting.queueClass = some c ∧ c.tier = .emergency) := by
  refine ⟨rfl, by decide, rfl, by decide, rfl, ?_⟩
  rintro ⟨c, h, h2⟩; cases h; cases h2

theorem witness_EveryStepKeepsTheAccounts :
    stopped.Sound ∧ stopped.Listed ∧ stopped.agenda = [] ∧ stopped.Accounted ∧ ¬ stopped.TakesBytes
      ∧ step stopped = .next stopped.tick ∧ stopped.tick.agenda = [] ∧ stopped.inReset = false
      ∧ (State.takeByte .A stopped { value := 0xC3 }).agenda = [] :=
  ⟨sound_stopped, listed_stopped, rfl, accounted_stopped, bytes_stopped, rfl, rfl, rfl, rfl⟩

theorem witness_AdmissionFollowsItsTests :
    (ordered waiting queued).unit? 4 = some queued ∧ queued.queue = 3 :: []
      ∧ (ordered waiting queued).rec? 3 = some waiting ∧ waiting.cfg.power = some doorPower
      ∧ waiting.purpose ≠ some .passage ∧ waiting.strokeNeed doorPower 3000 ≤ queued.capacity
      ∧ queued.strokes < queued.concurrency
      ∧ ({ queued with strokes := 2 } : PowerUnit).concurrency ≤ 2
      ∧ waiting.strokeNeed doorPower 3000 ≤ ({ queued with charge := 5200000 } : PowerUnit).visible
      ∧ (ordered waiting { queued with capacity := 2199, floor := 0 }).unit? 4
          = some { queued with capacity := 2199, floor := 0 }
      ∧ 2199 < waiting.strokeNeed doorPower 0 := by
  decide

/-- A door that waits for its unit on a local request, and one without a warning lead. -/
def asking : Record :=
  { door with motion := .waitUnit, purpose := some .passage, waitReason := some .charge,
              queueClass := some { tier := .passage, priority := 0 } }
def unwarned : Record :=
  { waiting with cfg := { door.cfg with power := some { doorPower with lead := 0 } }, govSlot := none,
                 waitReason := some .shipLimit }

theorem witness_UnitTimersAndBudgetServeTheQueues :
    (ship door { unit4 with chargeTimer := some 10000 }).Settled
      ∧ (ship door { unit4 with chargeTimer := some 10000 }).unit? 4
          = some { unit4 with chargeTimer := some 10000 }
      ∧ unit4.queue = [] ∧ (ship door { unit4 with spacingTimer := some 10000 }).Settled
      ∧ ((ship asking queued).unit? 4 = some queued ∧ queued.queue = 3 :: []
        ∧ (ship asking queued).rec? 3 = some asking ∧ asking.cfg.power = some doorPower
        ∧ asking.motion = .waitUnit ∧ asking.purpose = some .passage
        ∧ ((ship asking queued).line asking.cfg.line).enabled = true
        ∧ queued.strokes < queued.concurrency ∧ queued.lastStart = none
        ∧ ¬ doorPower.openCost + doorPower.closeCost + queued.floor ≤ queued.charge / 1000
        ∧ doorPower.openCost + doorPower.closeCost + queued.floor ≤ queued.capacity)
      ∧ ((ship unwarned queued).Sound ∧ (ship unwarned queued).Listed ∧ (ship unwarned queued).Accounted
        ∧ (ship unwarned queued).rec? 3 = some unwarned ∧ unwarned.purpose ≠ some .passage
        ∧ unwarned.target = some .closed ∧ 4 ∈ (ship unwarned queued).candidates none
        ∧ (ship unwarned queued).headOf 4 = some 3 ∧ 0 < doorPower.lead)
      ∧ (({ ship { unwarned with waitReason := some .charge } queued with
            agenda := [.freed (some 4)] } : State).candidates none = [4]
        ∧ (ship { unwarned with waitReason := some .charge } queued).candidates none = [])
      ∧ (∃ e, Task.freed e ∈ ({ stopped with agenda := [.freed none] } : State).agenda)
      ∧ ∀ e, Task.freed e ∉ stopped.agenda :=
  ⟨settled_of_check (by decide), rfl, rfl, settled_of_check (by decide), by decide,
    ⟨sound_of_check (by decide), listed_ship unwarned queued rfl rfl rfl, accounted_of_check (by decide),
      by decide⟩, by decide, ⟨none, .head _⟩, nofun⟩

/-- A plan over the one door that sets its tag and isolates. -/
def isolating : BulkPlan :=
  { first := 3, last := 3, zone := some 7, unit := some 4, cls := some .P, mask := 0x0F, value1 := 1,
    value2 := 2, setLifecycle := some .isolated, setPerms := none, setUnit := none, setTag := some 0x55,
    setNormallyClosed := none, setEnables := none }

/-- The ship with that walk at its step timer, and with the cursor at an empty position. -/
def walking (cursor : Nat) : State :=
  { stopped with walk := { Walk.reset with
      state := .running, number := 1, plan := some isolating, cursor := cursor, stepTimer := some 10000
      counts := some { visited := 0, matched := 0, changed := 0, skipped := 0 } } }

/-- A local head that waits: for a stroke of its unit, for the spacing (1000 ms, 500 past), for the ship budget
and for a bulk walk. -/
theorem witness_LocalHeadsWait :
    (∀ w ∈ [{ queued with strokes := 2 }, { queued with lastStart := some 9500 },
        { queued with charge := 8000000 }], (ship asking w).unit? 4 = some w ∧ w.queue = 3 :: []
        ∧ doorPower.openCost + doorPower.closeCost + w.floor ≤ w.capacity)
      ∧ heldAge 10000 9500 < queued.spacing
      ∧ doorPower.openCost + doorPower.closeCost + queued.floor ≤ 8000000 / 1000
      ∧ ¬ ({ ship asking queued with shipStrokes := 8 } : State).shipStrokes < 8
      ∧ ({ ship asking queued with walk := (walking 3).walk } : State).bulkHolds 3 asking = true
      ∧ ((ship asking { queued with lastStart := some 9500 }).evaluateQueue 4 |>.unit? 4).map
          PowerUnit.spacingTimer = some (some 10500) := by decide

/-- R99: a UNIT READ that carries no queue start index reads from 0. -/
theorem test_unit_read_without_a_start :
    after (.unitRead .A (.fields (.unit 4 none))) (ship waiting queued)
      = after (.unitRead .A (.fields (.unit 4 (some 0)))) (ship waiting queued) := by decide

theorem witness_UnitsAreSetAndRead :
    stopped.Settled ∧ stopped.TakesOn .A ∧ stopped.unit? 31 = none
      ∧ ({ capacity := some 60001 } : UnitArgs).configured ≠ some false ∧ stopped.unit? 4 = some unit4
      ∧ stopped.shipStrokes ≤ 0 + 0 ∧ stopped.shipM < 32 ∧ 31 < 32
      ∧ (1 + 0 < ({ stopped with shipStrokes := 2 } : State).shipStrokes) :=
  ⟨settled_stopped, rfl, rfl, by decide, rfl, by decide, by decide, by decide, by decide⟩

/-- The status of the answer to a UNIT SET. -/
def unitStatus (n : Nat) (a : UnitArgs) (s : State) : Option Status :=
  statusOf (after (.unitSet .A (.fields (.unit n a))) s) .A

theorem witness_UnitSetChecksConfiguresAndChanges :
    stopped.Settled ∧ stopped.Sound ∧ stopped.TakesOn .A ∧ stopped.unit? 31 = none
      ∧ stopped.unit? 4 = some unit4
      ∧ unitStatus 31 {} stopped = some .badField ∧ unitStatus 32 { capacity := some 100 } stopped = some .badField
      ∧ unitStatus 4 { configured := some false } stopped = some .busy
      ∧ unitStatus 4 { monitor := some (.at 2 17) } stopped = some .duplicate
      ∧ unitStatus 31 { configured := some false } stopped = some .ok
      ∧ unitStatus 31 { capacity := some 100, monitor := some (.at 3 64) } stopped = some .ok
      ∧ unitStatus 31 { capacity := some 99, monitor := some (.at 3 64) } stopped = some .clamped
      ∧ unitStatus 6 { configured := some false } (twoUnits door unit4) = some .ok
      ∧ unitStatus 4 { capacity := some 2999 } stopped = some .clamped :=
  ⟨settled_stopped, sound_stopped, rfl, rfl, rfl, by decide, by decide, by decide, by decide, by decide,
    by decide, by decide, by decide, by decide⟩

/-! Field lines. -/

theorem witness_ExchangesHaveTheirFramesAndPhases :
    (1 ≤ (pollOf 3 64 .sending).target.station ∧ (pollOf 3 64 .sending).target.station ≤ 64
        ∧ (∀ seconds, (pollOf 3 64 .sending).kind = .command (.warn seconds) → 1 ≤ seconds ∧ seconds ≤ 20)
        ∧ (List.replicate 8 (0 : Byte)).length ≠ 9)
      ∧ ∀ ph ∈ [ExchangePhase.sending, .window, .receiving, .guard],
        settledB (shipOn door { busyLine with exchange := some (pollOf 9 18 ph) }) = true :=
  ⟨⟨by decide, by decide, nofun, by decide⟩, by decide⟩

/-- The ship with line 2 free. -/
def freeLine (l : Line) : State := shipOn door { l with exchange := none }

theorem witness_LineChoosesByTheOrder :
    ((freeLine busyLine).line .l2).exchange = none ∧ (freeLine busyLine).wf = true
      ∧ (freeLine busyLine).phase = .service
      ∧ ((freeLine { busyLine with queue := [⟨3, .stop, false⟩] }).line .l2).queue = ⟨3, .stop, false⟩ :: []
      ∧ ((freeLine busyLine).line .l2).place = .slot 0 [] 0
      ∧ (freeLine busyLine).calendar[0]? = some { first := 0, last := 255, visits := 1 }
      ∧ ((freeLine busyLine).line .l2).pointers[0]? = some 10
      ∧ ((freeLine { busyLine with pointers := [3] }).line .l2).pointers[0]? = some 3
      ∧ (freeLine busyLine).rec? 3 = some door := by decide

/-- The free line 2 under a calendar whose first two slots offer nothing, at one of its slots. -/
def barren (slot : Nat) : State :=
  { freeLine { busyLine with place := .slot slot [] 0, pointers := [20, 40, 0] } with
    calendar := [⟨20, 30, 1⟩, ⟨40, 50, 1⟩, ⟨0, 9, 1⟩] }

theorem test_barren_slots_are_passed :
    ((barren 0).chooseExchange .l2).exchange = some (pollOf 3 17 .sending)
      ∧ ((barren 0).chooseExchange .l2).place = .slot 2 [3] 1 := by decide

/-- The free line 2 in a sweep, with its sweep walk and the monitor of unit 4 on it; the hatch is proven, the door is
as given. -/
def inSweep (r : Record) (walk : SweepWalk) : State :=
  let w : PowerUnit := { unit4 with monitor := some (.l2, 30) }
  { freeLine { busyLine with sweep := walk } with phase := .sweep, records := [(3, r), (9, hatch)], units := [(4, w)] }

/-- A sweep walk: the due record at or above the cursor, the monitor next in its pass, the due record below the
cursor once the pass is done, and nothing left, which ends it. -/
theorem witness_LineSweepsByTheOrder :
    let unproven : Record := { door with mark := false }
    let begins := fun (r : Record) (walk : SweepWalk) =>
      let t := (inSweep r walk).chooseExchange .l2
      (t.exchange.map fun x => (x.source, x.target), t.sweep)
    (∀ r ∈ [door, unproven], ∀ cursor ∈ [3, 4], ∀ monitors ∈ [SweepMonitors.pending 0, .pending 5, .done],
      let s := inSweep r { active := true, cursor := cursor, monitors := monitors }
      s.wf = true ∧ s.phase = .sweep ∧ (s.line .l2).enabled = true ∧ (s.line .l2).exchange = none
        ∧ (s.line .l2).queue = [] ∧ (s.line .l2).sweep.active = true ∧ s.rec? 3 = some r)
      ∧ unproven.cfg.line = .l2 ∧ unproven.lifecycle ≠ .retiring ∧ unproven.missed < 3
      ∧ begins unproven ⟨true, 3, .pending 0⟩ = (some (.sweep, .door 3 17), ⟨true, 4, .pending 0⟩)
      ∧ begins unproven ⟨true, 4, .pending 0⟩ = (some (.sweep, .monitor 4 30), ⟨true, 4, .pending 5⟩)
      ∧ begins unproven ⟨true, 4, .pending 5⟩ = (some (.sweep, .door 3 17), ⟨true, 4, .done⟩)
      ∧ begins unproven ⟨true, 4, .done⟩ = (some (.sweep, .door 3 17), ⟨true, 4, .done⟩)
      ∧ begins door ⟨true, 4, .done⟩ = (some (.calendar, .door 3 17), ⟨false, 0, .done⟩) := by decide

theorem witness_BarrenSlots :
    (barren 0).wf = true ∧ ((barren 0).line .l2).place = .slot 0 [] 0
      ∧ (barren 0).closePlace .l2 ((barren 0).line .l2) = .slot 0 [] 0
      ∧ (∀ k c, k < 2 → (barren 0).calendar[k]? = some c → ∀ q r, (barren 0).rec? q = some r →
          ¬ (c.first ≤ q ∧ q ≤ c.last))
      ∧ ∀ u w, (barren 0).unit? u = some w → w.monitor = none := by
  refine ⟨by decide, rfl, by decide, fun k c hk hc q r hr => ?_, fun u w hw => ?_⟩
  · have hq := (by decide : ∀ e ∈ (barren 0).records, e.1 ≤ 9) (q, r) (Keyed.mem_of_get? hr)
    have hl : k = 0 ∨ k = 1 := by omega
    rcases hl with rfl | rfl <;> cases hc <;> dsimp only at hq ⊢ <;> omega
  · exact (by decide : ∀ e ∈ (barren 0).units, e.2.monitor = none) (u, w) (Keyed.mem_of_get? hw)

/-- Line 2 with an exchange for the door. -/
def exchanging (x : Exchange) : State := shipOn door { busyLine with exchange := some x }

theorem witness_MissesAreCounted :
    (exchanging (pollOf 3 17 .window)).Settled ∧ (exchanging (pollOf 3 17 .window)).wf = true
      ∧ ((exchanging (pollOf 3 17 .window)).line .l2).exchange = some (pollOf 3 17 .window)
      ∧ (exchanging (pollOf 3 17 .window)).rec? 3 = some door ∧ door.cfg.line = .l2 ∧ door.cfg.station = 17
      ∧ door.missed < 2 ∧ ({ door with missed := 2 } : Record).missed = 2
      ∧ (exchanging { pollOf 3 17 .receiving with kind := .command .stop }).Settled :=
  ⟨settled_of_check (by decide), by decide, rfl, rfl, rfl, rfl, by decide, rfl, settled_of_check (by decide)⟩

/-- Door 101 moved from station 19 to station 17 while its poll was in flight: the outcome, good or a miss, is
discarded (R125). A good reply of station 19: 0x5A + 0x13 + 1 + 1 + 2 = 113. -/
theorem witness_ExchangesOfAMovedDoor :
    let reply : List Byte := [0x5A, 0x13, 0x01, 0x01, 0x02, 0x00, 0x00, 0x00, 0x71]
    let waits := exchanging (pollOf 3 19 .window)
    let hears := exchanging (pollOf 3 19 .receiving)
    settledB waits = true ∧ waits.wf = true ∧ settledB hears = true ∧ hears.wf = true
      ∧ waits.rec? 3 = some door ∧ door.cfg.station ≠ 19
      ∧ ((pollOf 3 19 .receiving).goodReply reply).isSome
      ∧ (after (.windowExpiry .l2) waits).rec? 3 = some door
      ∧ (after (.replyReceived .l2 reply) hears).rec? 3 = some door
      ∧ ((after (.replyReceived .l2 reply) hears).line .l2).exchange = some (pollOf 3 19 .guard) := by decide

/-- R122, R132: a MOVE missed after its line was disabled is queued again, and the door goes on moving (R94). -/
theorem test_miss_on_a_disabled_line :
    let x : Exchange := { pollOf 3 17 .window with kind := .command (.move .closed), source := .command }
    let t := after (.windowExpiry .l2) (shipOn moving { busyLine with enabled := false, exchange := some x })
    (t.line .l2).queue = [⟨3, .move .closed, false⟩] ∧ (t.rec? 3).map Record.motion = some .moving := by decide

theorem witness_GoodRepliesAreTaken :
    ∃ f, (exchanging (pollOf 3 17 .receiving)).Settled ∧ (exchanging (pollOf 3 17 .receiving)).wf = true
      ∧ ((exchanging (pollOf 3 17 .receiving)).line .l2).exchange = some (pollOf 3 17 .receiving)
      ∧ (pollOf 3 17 .receiving).goodReply closedReply = some f ∧ door.lifecycle ≠ .retiring
      ∧ ({ door with lifecycle := .retiring } : Record).lifecycle = .retiring
      ∧ ({ pollOf 3 17 .receiving with kind := .command .release } : Exchange).kind = .command .release :=
  ⟨_, settled_of_check (by decide), by decide, rfl, rfl, by decide, rfl, rfl⟩

/-- Line 2 with the RELEASE of the RETIRING door in flight, in a phase of its exchange, after some attempts. -/
def releasing (attempts : Nat) (ph : ExchangePhase) : State :=
  shipOn { door with lifecycle := .retiring, releaseAttempts := some attempts }
    { busyLine with exchange := some { pollOf 3 17 ph with kind := .command .release, source := .command } }

/-- A missed RELEASE is queued again, the third one frees the position, and its good reply does too: statements
MissesAreCounted and GoodRepliesAreTaken for a RETIRING door. -/
theorem witness_ReleaseOfARetiringDoor :
    (∀ attempts ∈ [0, 2], ∀ ph ∈ [ExchangePhase.window, .receiving],
      let s := releasing attempts ph
      settledB s = true ∧ s.wf = true ∧ (s.rec? 3).map Record.lifecycle = some .retiring
        ∧ (s.rec? 3).map Record.releaseAttempts = some (some attempts)
        ∧ (s.line .l2).exchange.map Exchange.kind = some (.command .release)
        ∧ (s.line .l2).exchange.map Exchange.targetFreed = some false
        ∧ (∀ e ∈ (s.line .l2).queue, e.position ≠ 3) ∧ (s.line .l2).enabled = true)
      ∧ ({ pollOf 3 17 .receiving with kind := .command .release } : Exchange).goodReply
          [0x5A, 0x11, 0x07, 0x01, 0x02, 0x00, 0x00, 0x00, 0x75] = some ⟨0x01, 0x02, 0⟩
      ∧ ((after (.windowExpiry .l2) (releasing 0 .window)).line .l2).queue = [⟨3, .release, false⟩]
      ∧ (Keyed.get? (after (.windowExpiry .l2) (releasing 2 .window)).portA.freed 3).map FreedReport.reason
          = some .noAck
      ∧ (Keyed.get? (after (.replyReceived .l2 [0x5A, 0x11, 0x07, 0x01, 0x02, 0x00, 0x00, 0x00, 0x75])
          (releasing 0 .receiving)).portA.freed 3).map FreedReport.reason = some .released := by decide

/-- Unit 4 with its monitor on line 2, station 30, and the poll of it. -/
def monitored : PowerUnit := { unit4 with monitor := some (.l2, 30) }
def monitorPoll : Exchange := { pollOf 0 0 .receiving with target := .monitor 4 30 }
def monitoring (w : PowerUnit) : State :=
  { ship door w with
    lines := { l0 := Line.reset, l1 := Line.reset, l3 := Line.reset,
               l2 := { busyLine with exchange := some monitorPoll } } }

/-- Mains present, 4000 cu measured: 0x5A + 30 + 1 + 0x80 + 0x0F + 0xA0 = 424. -/
def monitorReply : List Byte := [0x5A, 30, 0x01, 0x80, 0x00, 0x0F, 0xA0, 0x01, 0xA8]

theorem test_monitor_reply :
    ((after (.replyReceived .l2 monitorReply) (monitoring monitored)).unit? 4).map
      (fun w => (w.charge, w.supply, w.causes)) = some (4000000, .mains, []) := by decide

theorem witness_MonitorExchangesReachTheirUnit :
    (monitoring monitored).Settled
      ∧ ((monitoring monitored).line .l2).exchange = some monitorPoll ∧ monitorPoll.phase = .receiving
      ∧ monitorPoll.target = .monitor 4 30 ∧ (monitoring monitored).unit? 4 = some monitored
      ∧ monitored.monitor = some (.l2, 30) ∧ (monitorPoll.goodReply monitorReply).isSome :=
  ⟨settled_of_check (by decide), rfl, rfl, rfl, rfl, rfl, by decide⟩

/-- The same poll in its reply window: its expiry is a miss. -/
def monitorWindow : State :=
  { monitoring monitored with
    lines := { (monitoring monitored).lines with
      l2 := { busyLine with exchange := some { monitorPoll with phase := .window } } } }

theorem witness_MonitorMissesByTheWindow :
    monitorWindow.Settled ∧ (monitorWindow.line .l2).exchange = some { monitorPoll with phase := .window }
      ∧ monitorWindow.unit? 4 = some monitored
      ∧ ((after (.windowExpiry .l2) monitorWindow).unit? 4).map PowerUnit.monitorMissed = some 1 :=
  ⟨settled_of_check (by decide), rfl, rfl, by decide⟩

/-- The unit of a poll in flight has lost its monitor: the outcome is discarded (R100, R125). -/
theorem witness_MonitorPollOfAUnitWithoutMonitor :
    (monitoring unit4).Settled ∧ ((monitoring unit4).line .l2).exchange = some monitorPoll
      ∧ (monitoring unit4).unit? 4 = some unit4 ∧ unit4.monitor ≠ some (.l2, 30)
      ∧ (after (.replyReceived .l2 monitorReply) (monitoring unit4)).unit? 4 = some unit4 :=
  ⟨settled_of_check (by decide), rfl, rfl, by decide, by decide⟩

/-- Line 2 enabled, with a STOP of the door waiting behind a poll: LINE SET disables it. -/
def inUse : State := shipOn door { busyLine with queue := [⟨3, .stop, false⟩] }
def disableL2 : LineSetReq := { line := 2, enabled := some false, rate := none, window := none }

theorem witness_LineIsDisabled :
    inUse.Settled ∧ inUse.TakesOn .A ∧ lineOf disableL2.line = some .l2
      ∧ (inUse.line .l2).enabled = true ∧ disableL2.enabled = some false ∧ disableL2.rate = none
      ∧ (inUse.line .l2).queue ≠ []
      ∧ ((after (.lineSet .A (.fields disableL2)) inUse).line .l2).queue = []
      ∧ ((after (.lineSet .A (.fields disableL2)) inUse).line .l2).enabled = false :=
  ⟨settled_of_check (by decide), rfl, rfl, rfl, rfl, rfl, by decide, by decide, by decide⟩

theorem witness_LinesAndCalendarAreSet :
    stopped.Settled ∧ stopped.TakesOn .A ∧ lineOf 3 = some .l3 ∧ 3 < 4 ∧ (stopped.line .l3).enabled = true
      ∧ (1 ≤ 8 ∧ (List.replicate 8 ({ first := 0, last := 255, visits := 65 } : CalSlotArg)).length = 8)
      ∧ (stopped.line .l2).exchange.isSome :=
  ⟨settled_stopped, rfl, rfl, by decide, rfl, by decide, rfl⟩

/-- A line that is idle for want of an eligible record, one that is disabled, and the lines in BUILD: CALENDAR SET
puts each walk back to slot 0, and the idle line begins the poll that the new calendar gives (R124, R134). -/
theorem witness_CalendarRestartsEveryWalk :
    let away : State :=
      { shipOn door { Line.reset with pointers := [200] } with
        calendar := [{ first := 200, last := 255, visits := 1 }] }
    let off : State := shipOn door { Line.reset with enabled := false, place := .monitors 3 }
    let all : CalendarReq := { length := 1, slots := [⟨0, 255, 1⟩] }
    let set := fun (s : State) => (after (.calendarSet .A (.fields all)) s).line .l2
    (∀ s ∈ [away, off, { off with phase := .build }],
      settledB s = true ∧ (s.line .l2).exchange = none ∧ (s.portState .A).service = .idle)
      ∧ (away.line .l2).enabled = true ∧ away.phase ≠ .build ∧ (off.line .l2).enabled = false
      ∧ set away = { Line.reset with exchange := some (pollOf 3 17 .sending), place := .slot 0 [3] 1, pointers := [4] }
      ∧ set off = { Line.reset with enabled := false } := by decide

/-! Alarms, the bulk walk, the phase. -/

theorem witness_CausesAreReportedByTheirEnables :
    stopped.wf = true ∧ stopped.Listed ∧ stopped.rec? 3 = some door ∧ FaultKind.stops .ct = false
      ∧ FaultKind.ct ∉ door.causes ∧ FaultKind.ct ∈ door.cfg.enables ∧ FaultKind.pd ∉ door.cfg.enables
      ∧ stopped.alarm? (.door 101) .ct = none ∧ stopped.alarms.length < 64
      ∧ ((alarmed .unackCleared).alarm? (.door 101) .ct).isSome :=
  ⟨by decide, listed_stopped, rfl, rfl, by decide, by decide, by decide, rfl, by decide, by decide⟩

/-- The ship with a cause of the door that has no entry, below the full list or not. -/
def unlisted : State := ship { door with causes := [.ct] } unit4

theorem witness_StoppingCausesScansAndEnables :
    stopped.Listed ∧ stopped.wf = true ∧ stopped.rec? 3 = some door ∧ FaultKind.stops .lc = true ∧ FaultKind.lc ∉ door.causes
      ∧ FaultKind.lc ∈ door.cfg.enables ∧ (∀ j ∈ door.causes, j.stops = false)
      ∧ (∃ j ∈ ({ door with causes := [.sf] } : Record).causes, j.stops = true)
      ∧ FaultKind.maskable .pd = true ∧ FaultKind.pd ∉ door.cfg.enables
      ∧ unlisted.wf = true ∧ unlisted.unlisted = some (.door 101, .ct) ∧ unlisted.alarms.length < 64
      ∧ (unlisted.relist.alarm? (.door 101) .ct).isSome ∧ stopped.unlisted = none
      ∧ stopped.unit? 4 = some unit4 ∧ FaultKind.isUnit .ul = true ∧ FaultKind.ul ∉ unit4.causes
      ∧ FaultKind.ul ∈ unit4.enables ∧ stopped.alarm? (.unit 4) .ul = none := ⟨listed_stopped, by decide⟩

theorem witness_EveryStepKeepsTheAlarmsAgreeing :
    stopped.Sound ∧ stopped.Listed ∧ stopped.agenda = [] ∧ stopped.AlarmsAgree ∧ ¬ stopped.TakesBytes
      ∧ step stopped = .next stopped.tick ∧ stopped.tick.agenda = [] ∧ stopped.inReset = false
      ∧ (State.takeByte .A stopped { value := 0xC3 }).agenda = [] :=
  ⟨sound_stopped, listed_stopped, rfl, agree_stopped, bytes_stopped, rfl, rfl, rfl, rfl⟩

/-- A cleared entry that a console has not seen agrees with the door, which has no cause. -/
theorem agree_cleared : (alarmed .unackCleared).AlarmsAgree where
  distinct := .cons (by simp) .nil
  states a h := by
    simp only [alarmed, List.mem_cons, List.not_mem_nil, or_false] at h
    subst h; exact ⟨3, door, rfl, rfl, by decide, .inr (by decide)⟩
  complete _ subject k h := by
    cases subject with
    | door n =>
      obtain ⟨p, r, hr, -, hc, -⟩ := h
      exact absurd hc ((by decide : ∀ e ∈ (alarmed .unackCleared).records, ∀ k ∈ allKinds,
        ¬ e.2.causes.contains k = true) (p, r) (Keyed.mem_of_get? hr) k (by cases k <;> decide))
    | unit u =>
      obtain ⟨w, hw, hc, -⟩ := h
      exact absurd hc ((by decide : ∀ e ∈ (alarmed .unackCleared).units, ∀ k ∈ allKinds,
        ¬ e.2.causes.contains k = true) (u, w) (Keyed.mem_of_get? hw) k (by cases k <;> decide))

/-- All entries of a list with a cleared one, an entry of a unit, and the flags of a unit and of the ship. -/
theorem witness_UnitsAreAcknowledgedAndCleared :
    settledB (alarmed .unackCleared) = true ∧ (alarmed .unackCleared).AlarmsAgree
      ∧ (∀ st ∈ [AlarmState.unackActive, .ackActive, .unackCleared],
        let s : State := { stopped with alarms := [{ subject := .unit 4, kind := .ul, state := st, raised := 9000 }] }
        settledB s = true ∧ (s.alarm? (.unit 4) .ul).map Alarm.state = some st)
      ∧ stopped.wf = true ∧ stopped.unit? 4 = some unit4 ∧ stopped.unit? 5 = none ∧ stopped.rec? 5 = none
      ∧ FaultKind.isUnit .rd = true ∧ FaultKind.maskable .rd = false ∧ FaultKind.isUnit .ct = false :=
  ⟨by decide, agree_cleared, by decide, by decide, rfl, rfl, rfl, rfl, rfl, rfl⟩

/-- R143: a unit's flag whose cause stands while its enable is off stays, the other goes. -/
theorem test_clear_flags_of_a_unit :
    let w := { unit4 with causes := [.ul], enables := [.rd], flags := [.ul, .rd] }
    (answer? (after (.clearFlags .A (.fields { subject := .unit 4, kinds := none })) (ship door w)) .A).map
      Response.content = some (.flagsLeft [.ul]) := by decide +kernel

theorem witness_AlarmsAreAcknowledgedAndFlagsCleared :
    (∀ st ∈ [AlarmState.unackActive, .ackActive, .unackCleared], settledB (alarmed st) = true
        ∧ ((alarmed st).alarm? (.door 101) .ct).map Alarm.state = some st)
      ∧ (alarmed .unackActive).TakesOn .A ∧ (alarmed .unackActive).rec? 3 = some door
      ∧ FaultKind.isUnit .ct = false ∧ FaultKind.isUnit .ul = true ∧ 31 < 32
      ∧ (∀ a ∈ (alarmed .unackActive).alarms, a.state = .unackActive)
      ∧ (∀ k ∈ [FaultKind.pd], k.maskable = true)
      ∧ Keyed.get? (alarmed .unackActive).directory 101 = some 3
      ∧ Keyed.get? (alarmed .unackActive).directory 4095 = none ∧ (alarmed .unackActive).rec? 5 = none :=
  ⟨by decide, rfl, rfl, rfl, rfl, by decide, by decide, by decide, rfl, rfl, rfl⟩

/-- A door named by its number: its entry is acknowledged and its flag cleared; 0 is no door number (R7). -/
theorem test_alarms_and_flags_by_number :
    let s := { alarmed .unackActive with records := [(3, { door with flags := [.lp] }), (9, hatch)] }
    (after (.ackAlarm .A (.fields (.one (.door (.number 101)) (.is .ct)))) s).alarms.map Alarm.state = [.ackActive]
      ∧ ((after (.clearFlags .A (.fields { subject := .door (.number 101), kinds := none })) s).rec? 3).map
          Record.flags = some []
      ∧ statusOf (after (.ackAlarm .A (.fields (.one (.door (.number 0)) (.is .ct)))) s) .A = some .badField := by
  decide

theorem witness_BulkCriteriaMatch :
    isolating.matches door = true ∧ isolating.matches hatch = false ∧ (walking 3).bulkHolds 3 door = true := by
  decide

theorem witness_BulkWalkStartsStepsAndEnds :
    stopped.Settled ∧ stopped.TakesOn .A ∧ (stopped.bulkPlan bulkTag).isSome
      ∧ stopped.bulkPlan { bulkTag with last := 256 } = none ∧ stopped.walk.state ≠ .running
      ∧ (walking 2).Settled ∧ (walking 2).rec? 2 = none ∧ (walking 4).rec? 4 = none
      ∧ 2 < isolating.last ∧ isolating.last ≤ 4
      ∧ ((walking 3).stack = [] ∧ (walking 3).rec? 3 = some door ∧ isolating.matches door = true
        ∧ isolating.setTag = some 0x55 ∧ door.motion = .rest)
      ∧ ((walking 9).rec? 9 = some hatch ∧ hatch.lifecycle ≠ .retiring ∧ isolating.matches hatch = false)
      ∧ ((walking 3).inReset = false ∧ (walking 3).walk.state = .running ∧ (walking 3).walk.plan = some isolating
        ∧ (walking 3).agenda = [] ∧ ∃ d, (walking 3).walk.stepTimer = some d ∧ d ≤ (walking 3).clock)
      ∧ stopped.bulkPlan { bulkTag with zone := some 25 } = none
      ∧ (stopped.bulkPlan { bulkTag with zone := some 24, last := 255 }).isSome :=
  ⟨settled_stopped, rfl, by decide, by decide, by decide, settled_of_check (by decide), rfl, rfl, by decide,
    by decide, ⟨rfl, rfl, by decide, rfl, rfl⟩, ⟨rfl, by decide, by decide⟩,
    ⟨rfl, rfl, rfl, rfl, 10000, rfl, by decide⟩, by decide, by decide⟩

/-- A plan that sets permissions, the unit, the enables and closing, for a waiting door and for a hatch. -/
def moving6 : BulkPlan :=
  { isolating with setLifecycle := none, setPerms := some Perms.all, setUnit := some 6, setTag := none,
                   setNormallyClosed := some true, zone := none, unit := none, cls := none, mask := 0, value1 := 0 }
def visiting (r : Record) (w : PowerUnit) (cursor : Nat) : State :=
  { twoUnits r w with walk := (walking cursor).walk }

theorem witness_VisitAppliesItsCommands :
    ((visiting waiting queued 3).Sound ∧ (visiting waiting queued 3).Listed ∧ (visiting waiting queued 3).Accounted
        ∧ (visiting waiting queued 3).walk.counts.isSome ∧ (visiting waiting queued 3).rec? 3 = some waiting
        ∧ waiting.lifecycle ≠ .retiring ∧ moving6.matches waiting = true)
      ∧ ((visiting waiting queued 9).rec? 9 = some hatch ∧ moving6.matches hatch = true) :=
  ⟨⟨sound_of_check (by decide), ⟨listed_waiting.directory, listed_waiting.zones, listed_waiting.order⟩,
    accounted_of_check (by decide), rfl, rfl, by decide, by decide⟩, rfl, by decide⟩

/-- R166: a waiting door moves to its new unit's queue and counts as changed; class H ignores the P commands; a
unit that is not configured is skipped. -/
theorem test_visit_moves_the_waiter :
    let u := (visiting waiting queued 3).visit moving6
    u.queueOf 4 = [] ∧ u.queueOf 6 = [3] ∧ u.walk.counts.map WalkCounts.changed = some 1
      ∧ ((visiting waiting queued 9).visit moving6).walk.counts.map WalkCounts.changed = some 0
      ∧ ((visiting waiting queued 3).visit { moving6 with setUnit := some 7 }).walk.counts.map
          WalkCounts.skipped = some 1 := by decide

theorem witness_SweepsStartFromTheirPhase :
    building.Calm ∧ building.wf = true ∧ building.TakesOn .A ∧ building.phase = .build
      ∧ stopped.Calm ∧ stopped.wf = true ∧ stopped.TakesOn .A ∧ stopped.phase = .service :=
  ⟨⟨rfl, rfl⟩, by decide, rfl, rfl, ⟨rfl, rfl⟩, by decide, rfl, rfl⟩

/-- The ship under its order with ECLOSE asserted, a unit on STORED supply, and the door in WARNING; and in BUILD
with no record. -/
def restarting : State :=
  { ordered warning { running1 with supply := .stored } with shipStrokes := 1, ecloseState := true }

theorem witness_RestartKeepsTheConfiguration :
    (∀ s ∈ [restarting, { restarting with ecloseState := false }, { State.reset with ecloseState := true },
        { offline with ecloseState := true }],
      settledB { s with phase := .service } = true ∧ soundB s = true ∧ accountedB s = true)
      ∧ restarting.Calm ∧ restarting.Sound ∧ restarting.Listed ∧ restarting.Accounted ∧ restarting.TakesOn .A
      ∧ restarting.records ≠ [] ∧ (restarting.unit? 4).map PowerUnit.supply = some .stored
      ∧ State.reset.records = [] ∧ (offline.line .l2).enabled = false
      ∧ (restarting.line .l2).exchange.map Exchange.kind = some .poll :=
  have h := listed_ship warning running1 rfl rfl rfl
  ⟨by decide, ⟨rfl, rfl⟩, sound_of_check (by decide), ⟨h.directory, h.zones, h.order⟩,
    accounted_of_check (by decide), rfl, by decide, rfl, rfl, rfl, rfl⟩

/-- R70: a door opened and at rest after the restart waits with the target CLOSED; the closed hatch is counted DONE. -/
theorem test_restart_pushes_the_hardwired_order :
    let u := restarting.restart
    (u.rec? 3).map (fun r => (r.motion, r.target, r.govSlot)) = some (.waitUnit, some .closed, some 15)
      ∧ (u.order? 15).map (fun o => (o.state, o.done, o.failed)) = some (.active, 1, 0)
      ∧ (u.line .l2).queue.map QueuedCommand.command = [.stop] := by decide

end Sys2Proof.Tests
end

/-! SUPPORT. What the qualifiers, the summaries and their states say (R33 to R39): the counts of a list of records,
the zones as the table and the zone lists give them, and the ship as the sum of its zones. Obligation O23. -/

namespace Sys2Proof.Machine

variable {s : State} {rs : List Record}

/-! ### Qualifiers -/

@[simp] theorem Record.stale_mem_qualifiers (r : Record) : Qualifier.stale ∈ r.qualifiers ↔ r.stale = true := by
  simp [Record.qualifiers]

@[simp] theorem Record.unproven_mem_qualifiers (r : Record) :
    Qualifier.unproven ∈ r.qualifiers ↔ r.mark = false := by
  simp [Record.qualifiers]

/-- The first test of R38, by the qualifiers that a record shows. -/
theorem Record.countsUnproven_eq (r : Record) :
    r.countsUnproven = (decide (r.lifecycle = .enrolled) || r.qualifiers.contains .stale
      || r.qualifiers.contains .unproven) := by
  simp only [Record.countsUnproven, List.contains_eq_mem, Record.stale_mem_qualifiers,
    Record.unproven_mem_qualifiers, Bool.decide_eq_true, ← Bool.not_eq_true, decide_not]

/-! ### The counts of a list -/

def Record.countsProven (r : Record) : Bool := !r.countsUnproven && decide (r.indicated = .closed)

def Record.countsNotClosed (r : Record) : Bool := !r.countsUnproven && decide (r.indicated ≠ .closed)

def Record.countsMoving (r : Record) : Bool :=
  decide (r.indicated = .movingClose) || decide (r.indicated = .movingOpen)

/-- A summary with the counts of R38 for a list of records; the three classes make up the total. -/
def Summary.Counts (c : Summary) (rs : List Record) : Prop :=
  let counted := rs.filter Record.counted
  c.total = counted.length ∧ c.proven + c.notClosed + c.unproven = c.total
    ∧ c.unproven = counted.countP Record.countsUnproven
    ∧ c.proven = counted.countP Record.countsProven
    ∧ c.notClosed = counted.countP Record.countsNotClosed
    ∧ c.moving = counted.countP Record.countsMoving

/-- Each record lies in one of the three classes of R38. -/
theorem classes_make_up_length (rs : List Record) :
    rs.countP Record.countsProven + rs.countP Record.countsNotClosed + rs.countP Record.countsUnproven
      = rs.length := by
  induction rs with
  | nil => rfl
  | cons r rs ih =>
    have hr : (if r.countsProven then 1 else 0) + (if r.countsNotClosed then 1 else 0)
        + (if r.countsUnproven then 1 else 0) = 1 := by
      cases hu : r.countsUnproven <;> by_cases hc : r.indicated = .closed <;>
        simp [Record.countsProven, Record.countsNotClosed, hu, hc]
    simp only [List.countP_cons, List.length_cons]
    omega

theorem summarize_counts (rs : List Record) : (summarize rs).Counts rs :=
  ⟨rfl, classes_make_up_length _, rfl, rfl, rfl, rfl⟩

/-- A summary does not depend on the order of its records. -/
theorem summarize_perm {rs rs' : List Record} (h : rs.Perm rs') : summarize rs = summarize rs' := by
  have hc := h.filter Record.counted
  simp only [summarize, hc.length_eq, hc.countP_eq]

/-! ### Zone lists and the table -/

/-- In the canonical form the records of the table are those that can be read. -/
theorem State.mem_allRecords (hw : Keyed.wf s.records = true) {r : Record} :
    r ∈ s.allRecords ↔ ∃ p, s.rec? p = some r := by
  constructor
  · intro hr
    obtain ⟨⟨p, r⟩, he, rfl⟩ := List.mem_map.mp hr
    exact ⟨p, Keyed.get?_of_mem hw he⟩
  · rintro ⟨p, hp⟩
    exact List.mem_map.mpr ⟨(p, r), Keyed.mem_of_get? hp, rfl⟩

/-- Every record of a sound table stands in a zone of 1 to 24. -/
theorem State.Sound.zone_of_mem (h : s.Sound) {r : Record} (hr : r ∈ s.allRecords) :
    1 ≤ r.cfg.zone ∧ r.cfg.zone ≤ 24 := by
  obtain ⟨p, hp⟩ := (State.mem_allRecords ((State.wf_iff s).mp h.wf).1).mp hr
  exact (h.records p r hp).2.cfg.zone

theorem State.zoneBefore_irrefl (p : Nat) : s.zoneBefore p p ≠ true := by
  unfold State.zoneBefore
  cases s.rec? p <;> simp

theorem State.Listed.nodup_zoneList (h : s.Listed) (z : Nat) : (s.zoneList z).Nodup :=
  (h.order z).imp (S := (· ≠ ·)) fun hb e => State.zoneBefore_irrefl _ (e ▸ hb)

/-- The positions of a zone, as the table gives them. -/
def State.positionsIn (s : State) (z : Nat) : List Nat :=
  (s.records.filter fun e => decide (e.2.cfg.zone = z)).map Prod.fst

theorem State.nodup_positionsIn (hw : Keyed.wf s.records = true) (z : Nat) : (s.positionsIn z).Nodup :=
  List.pairwise_map.mpr ((((Keyed.wf_iff _).mp hw).filter _).imp fun hlt => Nat.ne_of_lt hlt)

theorem State.mem_positionsIn (hw : Keyed.wf s.records = true) {z p : Nat} :
    p ∈ s.positionsIn z ↔ ∃ r, s.rec? p = some r ∧ r.cfg.zone = z := by
  simp only [State.positionsIn, List.mem_map, List.mem_filter, decide_eq_true_eq]
  constructor
  · rintro ⟨⟨p, r⟩, ⟨he, hz⟩, rfl⟩
    exact ⟨r, Keyed.get?_of_mem hw he, hz⟩
  · rintro ⟨r, hr, hz⟩
    exact ⟨(p, r), ⟨Keyed.mem_of_get? hr, hz⟩, rfl⟩

/-- The records of a zone, read through the table's positions. -/
theorem State.filterMap_positionsIn (hw : Keyed.wf s.records = true) (z : Nat) :
    (s.positionsIn z).filterMap s.rec? = s.allRecords.filter fun r => decide (r.cfg.zone = z) := by
  have hread : ∀ e ∈ s.records.filter (fun e => decide (e.2.cfg.zone = z)), s.rec? e.1 = some e.2 :=
    fun e he => Keyed.get?_of_mem hw (List.mem_filter.mp he).1
  rw [State.positionsIn, List.filterMap_map, State.allRecords, List.filter_map]
  exact (List.filterMap_congr hread).trans (congrFun List.filterMap_eq_map _)

/-- The zone list of a zone names exactly the records whose zone it is (R8). -/
theorem State.Listed.zoneList_perm (h : s.Listed) (hw : Keyed.wf s.records = true) (z : Nat) :
    ((s.zoneList z).filterMap s.rec?).Perm (s.allRecords.filter fun r => decide (r.cfg.zone = z)) := by
  have hp : (s.zoneList z).Perm (s.positionsIn z) :=
    (List.perm_ext_iff_of_nodup (h.nodup_zoneList z) (State.nodup_positionsIn hw z)).mpr fun p =>
      (h.zones z p).trans (State.mem_positionsIn hw).symm
  exact State.filterMap_positionsIn hw z ▸ hp.filterMap s.rec?

/-! ### The ship as the sum of its zones -/

/-- A count over records of zones 1 to 24 is the sum of the counts of the zones. -/
theorem sum_zones_countP (q : Record → Bool) (hz : ∀ r ∈ rs, 1 ≤ r.cfg.zone ∧ r.cfg.zone ≤ 24) :
    ((List.range 24).map fun i => (rs.filter fun r => decide (r.cfg.zone = i + 1)).countP q).sum
      = rs.countP q := by
  show ∑ i ∈ Finset.range 24, (rs.filter fun r => decide (r.cfg.zone = i + 1)).countP q = _
  induction rs with
  | nil => simp
  | cons r rs ih =>
    obtain ⟨h1, h24⟩ := hz r List.mem_cons_self
    have hterm : ∀ i, ((r :: rs).filter fun r => decide (r.cfg.zone = i + 1)).countP q
        = (rs.filter fun r => decide (r.cfg.zone = i + 1)).countP q
          + if r.cfg.zone - 1 = i then (if q r then 1 else 0) else 0 := by
      intro i
      have hi : r.cfg.zone - 1 = i ↔ r.cfg.zone = i + 1 := by omega
      by_cases h : r.cfg.zone = i + 1 <;> simp [List.countP_cons, hi, h]
    rw [Finset.sum_congr rfl fun i _ => hterm i, Finset.sum_add_distrib,
      ih fun r' hr' => hz r' (List.mem_cons_of_mem _ hr'), Finset.sum_ite_eq,
      if_pos (Finset.mem_range.mpr (by omega)), List.countP_cons]

/-- What counts the records that pass a test, the ship counts as the sum over its zones. -/
theorem State.Sound.shipSummary_eq_sum (h : s.Sound) {count : Summary → Nat} (q : Record → Bool)
    (hc : ∀ rs, count (summarize rs) = rs.countP q) :
    count s.shipSummary = (s.zoneSummaries.map count).sum := by
  rw [State.shipSummary, hc, ← sum_zones_countP q fun _ => h.zone_of_mem, State.zoneSummaries, List.map_map]
  simp only [Function.comp_def, State.zoneSummary, hc]

theorem summarize_total (rs : List Record) : (summarize rs).total = rs.countP Record.counted :=
  List.countP_eq_length_filter.symm

theorem countP_counted (q : Record → Bool) (rs : List Record) :
    (rs.filter Record.counted).countP q = rs.countP fun r => q r && r.counted :=
  List.countP_filter

theorem State.zoneSummaries_length (s : State) : s.zoneSummaries.length = 24 := by simp [State.zoneSummaries]

theorem State.zoneSummaries_getElem? (s : State) {z : Nat} (h1 : 1 ≤ z) (h24 : z ≤ 24) :
    s.zoneSummaries[z - 1]? = some (s.zoneSummary z) := by
  have hlt : z - 1 < 24 := by omega
  simp [State.zoneSummaries, hlt, Nat.sub_add_cancel h1]

/-- Settles O23: the counts are those of `summarize`, the zone lists name the table's records of their zone, and
each count of the ship is the sum over the zones in which the records stand. -/
theorem summariesCountAndDecide : Obligations.SummariesCountAndDecide := by
  unfold Obligations.SummariesCountAndDecide
  simp only [← Record.countsUnproven_eq]
  refine ⟨summarize_counts, fun s h => ?_⟩
  refine ⟨fun _ => rfl, fun hl z h1 h24 => ⟨summarize_counts _, ?_, s.zoneSummaries_getElem? h1 h24⟩,
    summarize_counts _, s.zoneSummaries_length, h.shipSummary_eq_sum _ summarize_total,
    h.shipSummary_eq_sum _ (countP_counted _), h.shipSummary_eq_sum _ (countP_counted _),
    h.shipSummary_eq_sum _ (countP_counted _), h.shipSummary_eq_sum _ (countP_counted _), rfl⟩
  have hp := hl.zoneList_perm ((State.wf_iff s).mp h.wf).1 z
  rw [State.zoneSummary, ← summarize_perm hp]
  exact summarize_counts _

end Sys2Proof.Machine

/-! SUPPORT. What every hand-off keeps of the table of records: each position is held once, and a record with no
good reply has no report, is indicated UNKNOWN, and alone can be ENROLLED (R1, R28). `Closed` allows any record
that keeps its configured fields, so this invariant needs a walk of its own through the operations. -/

namespace Sys2Proof.Machine

variable {s t : State} {p u : Nat} {k : FaultKind}

/-! ### Records and primitive updates -/

/-- A record with no good reply has no report and is UNKNOWN, and an ENROLLED one has had none (R1, R28). -/
def Record.Answered (r : Record) : Prop :=
  (r.lastGood = none → r.report = none ∧ r.indicated = .unknown)
    ∧ (r.lifecycle = .enrolled → r.lastGood = none)

/-- The table of records as the summaries need it: each position is held once, and every record is answered. -/
def State.Heard (s : State) : Prop :=
  Keyed.wf s.records = true ∧ ∀ p r, s.rec? p = some r → r.Answered

theorem State.heard_iff : s.Heard ↔ Keyed.wf s.records = true ∧ s.Answered := Iff.rfl

theorem State.Heard.same (hs : s.Heard) (h : t.records = s.records) : t.Heard := by
  unfold State.Heard State.rec? at *; rwa [h]

theorem State.Heard.putRec {r : Record} (hs : s.Heard) (hr : r.Answered) : (s.putRec p r).Heard :=
  ⟨Keyed.wf_put p r hs.1, fun q r' hq => by
    simp only [State.rec?, State.putRec_records, Keyed.get?_put] at hq
    split at hq
    · cases hq; exact hr
    · exact hs.2 q r' hq⟩

theorem State.freePosition_heard {r : Record} (why : FreedReason) (hs : s.Heard) :
    (s.freePosition p r why).Heard :=
  ⟨Keyed.wf_remove p hs.1, fun q r' hq => by
    have hq' : Keyed.get? (Keyed.remove s.records p) q = some r' := hq
    rw [Keyed.get?_remove] at hq'
    split at hq'
    · cases hq'
    · exact hs.2 q r' hq'⟩

/-- A record with no report derives UNKNOWN (R28). -/
theorem Record.derived_of_unreported {r : Record} (h : r.report = none) : r.derived.1 = .unknown := by
  simp [Record.derived, h]

/-- The indication may be derived afresh at any time. -/
theorem Record.Answered.derive {r : Record} (h : r.Answered) :
    Record.Answered { r with indicated := r.derived.1 } :=
  ⟨fun hn => ⟨(h.1 hn).1, Record.derived_of_unreported (h.1 hn).1⟩, h.2⟩

theorem State.modRec_heard_of {f : Record → Record}
    (hf : ∀ r, s.rec? p = some r → r.Answered → (f r).Answered) (hs : s.Heard) : (s.modRec p f).Heard := by
  unfold State.modRec
  split
  · rename_i r hr
    have hp := hs.putRec (p := p) (hf r hr (hs.2 p r hr))
    split
    · exact hp
    · exact hp.same rfl
  · exact hs

theorem State.modRec_heard {f : Record → Record} (hf : ∀ r : Record, r.Answered → (f r).Answered)
    (hs : s.Heard) : (s.modRec p f).Heard := State.modRec_heard_of (fun r _ => hf r) hs

theorem State.first_heard (ts : List Task) (hs : s.Heard) : (s.first ts).Heard := hs

theorem State.later_heard (ts : List Task) (hs : s.Heard) : (s.later ts).Heard := hs

theorem State.markBoth_heard (hs : s.Heard) : (s.markBoth p).Heard := hs

theorem State.putUnit_heard (w : PowerUnit) (hs : s.Heard) : (s.putUnit u w).Heard := hs

theorem State.putOrder_heard {n : Nat} (o : Order) (hs : s.Heard) : (s.putOrder n o).Heard := hs

theorem State.modLine_heard {n : LineNo} (f : Line → Line) (hs : s.Heard) : (s.modLine n f).Heard := hs

theorem State.modUnit_heard (f : PowerUnit → PowerUnit) (hs : s.Heard) : (s.modUnit u f).Heard := by
  unfold State.modUnit
  split <;> exact hs

theorem State.modOrder_heard {n : Nat} (f : Order → Order) (hs : s.Heard) : (s.modOrder n f).Heard := by
  unfold State.modOrder
  split <;> exact hs

/-! ### Alarms and causes -/

theorem State.listAlarm_heard (x : Subject) (hs : s.Heard) : (s.listAlarm x k).Heard := by
  unfold State.listAlarm
  dsimp only
  split <;> exact hs

theorem State.setAlarm_heard (x : Subject) (st : AlarmState) (hs : s.Heard) : (s.setAlarm x k st).Heard := hs

theorem State.relist_heard (hs : s.Heard) : s.relist.Heard := by
  unfold State.relist
  split
  · exact State.listAlarm_heard _ hs
  · exact hs

theorem State.removeAlarm_heard (x : Subject) (hs : s.Heard) : (s.removeAlarm x k).Heard := by
  unfold State.removeAlarm
  split
  · exact State.relist_heard hs
  · exact hs

theorem State.relistTimes_heard : ∀ (n : Nat) {s : State}, s.Heard → (s.relistTimes n).Heard
  | 0, _, hs => hs
  | n + 1, _, hs => State.relistTimes_heard n (State.relist_heard hs)

theorem State.removeAlarmsOf_heard (x : Subject) (hs : s.Heard) : (s.removeAlarmsOf x).Heard :=
  State.relistTimes_heard _ hs

theorem State.listCause_heard (x : Subject) (hs : s.Heard) : (s.listCause x k).Heard := by
  unfold State.listCause
  repeat' split
  all_goals with_reducible
    repeat' first | assumption | apply State.setAlarm_heard | apply State.listAlarm_heard

theorem State.clearCause_heard (x : Subject) (hs : s.Heard) : (s.clearCause x k).Heard := by
  unfold State.clearCause
  repeat' split
  all_goals with_reducible
    repeat' first | assumption | apply State.setAlarm_heard | apply State.removeAlarm_heard

theorem State.reportDoorCause_heard (hs : s.Heard) : (s.reportDoorCause p k).Heard := by
  unfold State.reportDoorCause
  repeat' split
  all_goals with_reducible
    repeat' first | assumption | apply State.modRec_heard | apply State.listCause_heard
  all_goals exact fun _ h => h

theorem State.causeOn_heard (hs : s.Heard) : (s.causeOn p k).Heard := by
  unfold State.causeOn
  dsimp only
  repeat' split
  all_goals with_reducible
    repeat' first
      | assumption | apply State.modRec_heard | apply State.first_heard | apply State.reportDoorCause_heard
  all_goals exact fun _ h => h

theorem State.causeOff_heard (hs : s.Heard) : (s.causeOff p k).Heard := by
  unfold State.causeOff
  repeat' split
  all_goals with_reducible
    repeat' first | assumption | apply State.modRec_heard | apply State.clearCause_heard
  all_goals exact fun _ h => h

theorem State.setDoorCause_heard (b : Bool) (hs : s.Heard) : (s.setDoorCause p k b).Heard := by
  unfold State.setDoorCause
  split
  · exact State.causeOn_heard hs
  · exact State.causeOff_heard hs

theorem State.setUnitCause_heard (b : Bool) (hs : s.Heard) : (s.setUnitCause u k b).Heard := by
  unfold State.setUnitCause
  dsimp only
  repeat' split
  all_goals with_reducible
    repeat' first
      | assumption | apply State.putUnit_heard | apply State.modUnit_heard | apply State.listCause_heard
      | apply State.clearCause_heard

/-! ### Power units and lines -/

theorem State.judgeUL_heard (hs : s.Heard) : (s.judgeUL u).Heard := by
  unfold State.judgeUL
  repeat' split
  all_goals with_reducible
    repeat' first | assumption | apply State.setUnitCause_heard

theorem State.touchUnit_heard (hs : s.Heard) : (s.touchUnit u).Heard :=
  State.judgeUL_heard (State.modUnit_heard _ hs)

theorem State.setQueue_heard (q : List Nat) (hs : s.Heard) : (s.setQueue u q).Heard := by
  have ht : (s.touchUnit u).Heard := State.touchUnit_heard hs
  unfold State.setQueue
  dsimp only
  repeat' split
  all_goals with_reducible
    repeat' first | assumption | apply State.later_heard | apply State.putUnit_heard | apply State.modRec_heard
  all_goals exact fun _ h => h

theorem State.joinQueue_heard (hs : s.Heard) : (s.joinQueue u p).Heard := State.setQueue_heard _ hs

theorem State.leaveQueue_heard (hs : s.Heard) : (s.leaveQueue u p).Heard := State.setQueue_heard _ hs

theorem State.replaceInQueue_heard (hs : s.Heard) : (s.replaceInQueue u p).Heard := State.setQueue_heard _ hs

theorem State.startEvaluation_heard (hs : s.Heard) : (s.startEvaluation u).Heard :=
  State.modUnit_heard _ (State.touchUnit_heard hs)

theorem State.armTimer_heard (why : WaitReason) (hs : s.Heard) : (s.armTimer u p why).Heard := by
  unfold State.armTimer
  repeat' split
  all_goals exact hs

theorem State.headWaits_heard (why : WaitReason) (hs : s.Heard) : (s.headWaits u p why).Heard :=
  State.armTimer_heard _ (State.modRec_heard (fun _ h => h) hs)

theorem State.debit_heard (cost : Nat) (hs : s.Heard) : (s.debit u p cost).Heard := State.modUnit_heard _ hs

theorem State.creditStroke_heard (refund : Nat) (hs : s.Heard) : (s.creditStroke u refund).Heard :=
  State.judgeUL_heard (State.modUnit_heard _ (State.touchUnit_heard hs))

theorem State.queueCommand_heard (c : DoorCommand) (hs : s.Heard) : (s.queueCommand p c).Heard := by
  unfold State.queueCommand
  repeat' split
  all_goals exact hs

theorem State.requeue_heard (n : LineNo) (c : DoorCommand) (hs : s.Heard) : (s.requeue n p c).Heard := by
  unfold State.requeue
  split <;> exact hs

theorem State.rejoinSweep_heard (hs : s.Heard) : (s.rejoinSweep p).Heard := by
  unfold State.rejoinSweep
  repeat' split
  all_goals exact hs

theorem State.countMember_heard {n : Nat} (m : MemberOutcome) (hs : s.Heard) : (s.countMember n p m).Heard := by
  unfold State.countMember
  split
  · exact State.modOrder_heard _ hs
  · exact hs

theorem State.charge_heard (n : Option Nat) (why : FailReason) (hs : s.Heard) : (s.charge n p why).Heard := by
  unfold State.charge
  split
  · exact State.countMember_heard _ hs
  · exact hs

theorem State.chargeAll_heard (why : FailReason) (hs : s.Heard) : (s.chargeAll p why).Heard :=
  foldl_keeps (fun _ _ => State.countMember_heard _) _ hs

/-! ### Motion -/

theorem State.faultSees_heard (st : Indication) (hs : s.Heard) : (s.faultSees p st).Heard := by
  unfold State.faultSees
  split
  all_goals with_reducible
    repeat' first | assumption | apply State.causeOff_heard

/-- The indication of a record is derived from what it holds once altered. -/
theorem State.derive_heard {r : Record} {f : Record → Record} (hr : s.rec? p = some r)
    (hf : ∀ r : Record, r.Answered → (f r).Answered) (hs : s.Heard) :
    (s.modRec p fun r' => { f r' with indicated := (f r).derived.1 }).Heard :=
  State.modRec_heard_of (fun r' hr' h => by
    obtain rfl : r = r' := Option.some.inj (hr.symm.trans hr')
    exact (hf r h).derive) hs

theorem State.moveRec_heard {f : Record → Record} (hf : ∀ r : Record, r.Answered → (f r).Answered)
    (hs : s.Heard) : (s.moveRec p f).Heard := by
  unfold State.moveRec
  split
  · split
    · exact State.faultSees_heard _ (State.derive_heard ‹_› hf hs)
    · exact State.modRec_heard hf hs
  · exact hs

theorem State.endStroke_heard {b : Bool} {f : Record → Record}
    (hf : ∀ r : Record, r.Answered → (f r).Answered) (hs : s.Heard) : (s.endStroke p b f).Heard := by
  have hm : (s.moveRec p fun r => { f r with heldDebit := none }).Heard := State.moveRec_heard hf hs
  unfold State.endStroke
  dsimp only
  repeat' split
  all_goals with_reducible
    repeat' first | assumption | apply State.creditStroke_heard

theorem State.leaveWait_heard (hs : s.Heard) : (s.leaveWait p).Heard := by
  unfold State.leaveWait
  dsimp only
  repeat' split
  all_goals with_reducible
    repeat' first | assumption | apply State.leaveQueue_heard | apply State.moveRec_heard
  all_goals exact fun _ h => h

theorem State.enterWait_heard (pu : Purpose) (x : Option Target) (n : Option Nat) (hs : s.Heard) :
    (s.enterWait p pu x n).Heard := by
  unfold State.enterWait
  split
  · exact State.joinQueue_heard (State.moveRec_heard (fun _ h => h) hs)
  · exact hs

theorem State.giveTarget_heard (x : Target) (pu : Purpose) (hs : s.Heard) : (s.giveTarget p x pu).Heard :=
  State.enterWait_heard _ _ _ hs

theorem State.rekey_heard (hs : s.Heard) : (s.rekey p).Heard := by
  unfold State.rekey
  dsimp only
  repeat' split
  all_goals with_reducible
    repeat' first | assumption | apply State.replaceInQueue_heard | apply State.modRec_heard
  all_goals exact fun _ h => h

theorem State.alreadyThere_heard (r : Record) (hs : s.Heard) : (s.alreadyThere p r).Heard :=
  State.first_heard _ (State.causeOff_heard (State.endStroke_heard (fun _ h => h) hs))

theorem State.enterMoving_heard (hs : s.Heard) : (s.enterMoving p).Heard := by
  unfold State.enterMoving
  dsimp only
  repeat' split
  all_goals with_reducible
    repeat' first
      | assumption | apply State.alreadyThere_heard | apply State.queueCommand_heard | apply State.moveRec_heard
  all_goals exact fun _ h => h

theorem State.takeAdmission_heard (cost : Nat) (hs : s.Heard) : (s.takeAdmission p cost).Heard := by
  unfold State.takeAdmission
  dsimp only
  repeat' split
  all_goals with_reducible
    repeat' first
      | assumption | apply State.enterMoving_heard | apply State.queueCommand_heard | apply State.causeOff_heard
      | apply State.moveRec_heard
  all_goals exact fun _ h => h

theorem State.motionSees_heard (st : Indication) (hs : s.Heard) : (s.motionSees p st).Heard := by
  unfold State.motionSees
  dsimp only
  repeat' split
  all_goals with_reducible
    repeat' first
      | assumption | apply State.first_heard | apply State.causeOff_heard | apply State.endStroke_heard
  all_goals exact fun _ h => h

theorem State.causeAround_heard {f : State → State} (hf : ∀ {t : State}, t.Heard → (f t).Heard)
    (hs : s.Heard) : (s.causeAround p k f).Heard := by
  unfold State.causeAround
  split
  · exact hf hs
  · exact State.reportDoorCause_heard (hf (State.modRec_heard (fun _ h => h) hs))

theorem State.deadlineExpires_heard (r : Record) (hs : s.Heard) : (s.deadlineExpires p r).Heard :=
  State.first_heard _ (State.causeAround_heard
    (fun ht => State.charge_heard _ _ (State.endStroke_heard (fun _ h => h) ht)) (State.queueCommand_heard _ hs))

theorem State.obstructed_heard (hs : s.Heard) : (s.obstructed p).Heard := by
  have hq : (s.queueCommand p .stop).Heard := State.queueCommand_heard _ hs
  unfold State.obstructed
  dsimp only
  repeat' split
  · exact State.first_heard _ (State.causeAround_heard (State.endStroke_heard fun _ h => h) hq)
  · exact State.first_heard _ (State.causeAround_heard
      (fun ht => State.charge_heard _ _ (State.endStroke_heard (fun _ h => h) ht)) hq)
  · exact hs
  · exact hs

theorem State.checkPassage_heard (b : Bool) (hs : s.Heard) : (s.checkPassage p b).Heard := by
  unfold State.checkPassage
  dsimp only
  repeat' split
  all_goals with_reducible
    repeat' first
      | assumption | apply State.enterWait_heard | apply State.first_heard | apply State.queueCommand_heard
      | apply State.modRec_heard
  all_goals exact fun _ h => h

theorem State.localRequest_heard (hs : s.Heard) : (s.localRequest p).Heard := by
  unfold State.localRequest
  repeat' split
  all_goals with_reducible
    repeat' first
      | assumption | apply State.checkPassage_heard | apply State.first_heard | apply State.leaveWait_heard
      | apply State.endStroke_heard | apply State.queueCommand_heard | apply State.moveRec_heard
  all_goals exact fun _ h => h

theorem State.localCheck_heard (hs : s.Heard) : (s.localCheck p).Heard := by
  unfold State.localCheck
  repeat' split
  all_goals with_reducible
    repeat' first | assumption | apply State.checkPassage_heard | apply State.localRequest_heard

theorem State.localRelease_heard (hs : s.Heard) : (s.localRelease p).Heard := by
  unfold State.localRelease
  dsimp only
  repeat' split
  all_goals with_reducible
    repeat' first
      | assumption | apply State.first_heard | apply State.leaveWait_heard | apply State.endStroke_heard
  all_goals exact fun _ h => h

theorem State.localFlags_heard (b c : Bool) (hs : s.Heard) : (s.localFlags p b c).Heard := by
  unfold State.localFlags
  dsimp only
  repeat' split
  all_goals with_reducible
    repeat' first
      | assumption | apply State.localRelease_heard | apply State.localRequest_heard
      | apply State.queueCommand_heard | apply State.causeOff_heard

theorem State.recloseDecision_heard (hs : s.Heard) : (s.recloseDecision p).Heard := by
  unfold State.recloseDecision
  repeat' split
  all_goals with_reducible
    repeat' first
      | assumption | apply State.giveTarget_heard | apply State.first_heard | apply State.moveRec_heard
  all_goals exact fun _ h => h

theorem State.pauseExpires_heard (r : Record) (hs : s.Heard) : (s.pauseExpires p r).Heard := by
  unfold State.pauseExpires
  split
  · exact State.recloseDecision_heard hs
  · exact State.first_heard _ (State.moveRec_heard (fun _ h => h) hs)

theorem State.becomesUndrivable_heard (hs : s.Heard) : (s.becomesUndrivable p).Heard := by
  unfold State.becomesUndrivable
  dsimp only
  repeat' split
  all_goals with_reducible
    repeat' first
      | assumption | apply State.first_heard | apply State.charge_heard | apply State.leaveWait_heard
      | apply State.endStroke_heard | apply State.queueCommand_heard | apply State.moveRec_heard
  all_goals exact fun _ h => h

theorem State.commandDropped_heard (c : DoorCommand) (b : Bool) (hs : s.Heard) :
    (s.commandDropped p c b).Heard := by
  unfold State.commandDropped
  dsimp only
  repeat' split
  all_goals with_reducible
    repeat' first
      | assumption | apply State.later_heard | apply State.first_heard | apply State.charge_heard
      | apply State.endStroke_heard
  all_goals exact fun _ h => h

theorem State.doorLineLost_heard (hs : s.Heard) : (s.doorLineLost p).Heard := by
  unfold State.doorLineLost
  repeat' split
  all_goals with_reducible
    repeat' first
      | assumption | apply State.later_heard | apply State.charge_heard | apply State.leaveWait_heard
      | apply State.endStroke_heard | apply State.moveRec_heard
  all_goals exact fun _ h => h

theorem State.lineLost_heard (n : LineNo) (hs : s.Heard) : (s.lineLost n).Heard :=
  foldl_keeps (fun _ _ => State.doorLineLost_heard) _ hs

/-! ### The order engine -/

theorem State.evaluateMember_heard (n : Nat) (hs : s.Heard) : (s.evaluateMember n p).Heard := by
  unfold State.evaluateMember
  repeat' split
  all_goals with_reducible
    repeat' first | assumption | apply State.giveTarget_heard | apply State.countMember_heard

theorem State.evaluateAtRest_heard (hs : s.Heard) : (s.evaluateAtRest p).Heard := by
  unfold State.evaluateAtRest
  split
  · exact hs
  · exact State.first_heard _ (State.evaluateMember_heard _ hs)

theorem State.holdMember_heard (hs : s.Heard) : (s.holdMember p).Heard := by
  unfold State.holdMember
  repeat' split
  all_goals with_reducible
    repeat' first
      | assumption | apply State.later_heard | apply State.leaveWait_heard | apply State.endStroke_heard
      | apply State.queueCommand_heard
  all_goals exact fun _ h => h

theorem State.activate_heard (n : Nat) (hs : s.Heard) : (s.activate n).Heard := by
  unfold State.activate
  repeat' split
  · exact foldl_keeps (fun _ _ => State.holdMember_heard) _ hs
  · exact foldl_keeps (fun _ _ => State.evaluateMember_heard _) _ hs
  · exact foldl_keeps (fun _ _ => State.evaluateMember_heard _) _ hs
  · exact hs

theorem State.suspendDoor_heard (hs : s.Heard) : (s.suspendDoor p).Heard := by
  unfold State.suspendDoor
  repeat' split
  all_goals with_reducible
    repeat' first | assumption | apply State.leaveWait_heard

theorem State.cancelDoor_heard (hs : s.Heard) : (s.cancelDoor p).Heard := by
  unfold State.cancelDoor
  repeat' split
  all_goals with_reducible
    repeat' first
      | assumption | apply State.later_heard | apply State.leaveWait_heard | apply State.endStroke_heard
  all_goals exact fun _ h => h

theorem State.regovernDoor_heard (old : State) (hs : s.Heard) : (s.regovernDoor old p).Heard := by
  unfold State.regovernDoor
  split
  · exact State.rekey_heard (State.modRec_heard (fun _ h => h) hs)
  · exact hs

theorem State.regovern_heard (old : State) (n : Nat) (hs : s.Heard) : (s.regovern old n).Heard := by
  unfold State.regovern
  split
  · exact foldl_keeps (fun _ _ => State.regovernDoor_heard _) _ hs
  · exact hs

theorem State.restWaiters_heard (n : Nat) (hs : s.Heard) : (s.restWaiters n).Heard :=
  foldl_keeps (fun _ _ => State.suspendDoor_heard) _ hs

theorem State.suspendTop_heard (hs : s.Heard) : s.suspendTop.Heard := by
  unfold State.suspendTop
  split
  · exact State.restWaiters_heard _ (State.modOrder_heard _ hs)
  · exact hs

theorem State.placeOnTop_heard (n : Nat) (hs : s.Heard) : (s.placeOnTop n).Heard := State.modOrder_heard _ hs

theorem State.pushOrder_heard (n : Nat) (hs : s.Heard) : (s.pushOrder n).Heard :=
  State.first_heard _ (State.activate_heard _ (State.regovern_heard _ _
    (State.placeOnTop_heard n (State.suspendTop_heard hs))))

theorem State.nextTop_heard (hs : s.Heard) : s.nextTop.Heard := by
  unfold State.nextTop
  repeat' split
  all_goals with_reducible
    repeat' first
      | assumption | apply State.pushOrder_heard | apply State.first_heard | apply State.activate_heard
      | apply State.modOrder_heard

theorem State.finishOrder_heard (n : Nat) (st : OrderState) (res : OrderResult) (hs : s.Heard) :
    (s.finishOrder n st res).Heard := State.modOrder_heard _ hs

theorem State.leaveStack_heard (n : Nat) (hs : s.Heard) : (s.leaveStack n).Heard :=
  State.regovern_heard _ _ hs

theorem State.completeOrder_heard (n : Nat) (hs : s.Heard) : (s.completeOrder n).Heard := by
  unfold State.completeOrder
  dsimp only
  repeat' split
  all_goals with_reducible
    repeat' first
      | assumption | apply State.first_heard | apply State.leaveStack_heard | apply State.finishOrder_heard

theorem State.acceptOrder_heard (n : Nat) (o : Order) (hs : s.Heard) : (s.acceptOrder n o).Heard := by
  unfold State.acceptOrder
  dsimp only
  split
  · exact State.pushOrder_heard _ hs
  · exact hs

/-! ### Retirement, queues and the arbiter -/

theorem State.retirementEnds_heard (why : FreedReason) (hs : s.Heard) : (s.retirementEnds p why).Heard := by
  unfold State.retirementEnds
  split
  · exact State.removeAlarmsOf_heard _ (State.freePosition_heard why hs)
  · exact hs

theorem State.dropCommand_heard (c : DoorCommand) (b : Bool) (hs : s.Heard) : (s.dropCommand p c b).Heard := by
  unfold State.dropCommand
  split
  all_goals with_reducible
    repeat' first | assumption | apply State.retirementEnds_heard | apply State.commandDropped_heard

theorem State.takeHead_heard (hs : s.Heard) : (s.takeHead u p).Heard :=
  State.modUnit_heard _ (State.moveRec_heard (fun _ h => h) hs)

theorem State.turnAway_heard (hs : s.Heard) : (s.turnAway u p).Heard := by
  unfold State.turnAway
  repeat' split
  all_goals with_reducible
    repeat' first
      | assumption | apply State.queueCommand_heard | apply State.first_heard | apply State.charge_heard
      | apply State.takeHead_heard

theorem State.evaluateQueue_heard (hs : s.Heard) : (s.evaluateQueue u).Heard := by
  have he : (s.startEvaluation u).Heard := State.startEvaluation_heard hs
  unfold State.evaluateQueue
  dsimp only
  repeat' split
  all_goals with_reducible
    repeat' first
      | assumption | apply State.turnAway_heard | apply State.first_heard | apply State.headWaits_heard
      | apply State.debit_heard

theorem State.arbiterTurn_heard (us : List Nat) (hs : s.Heard) : (s.arbiterTurn us).Heard := by
  unfold State.arbiterTurn
  dsimp only
  repeat' split
  all_goals with_reducible
    repeat' first
      | assumption | apply State.turnAway_heard | apply State.first_heard | apply State.later_heard
      | apply State.headWaits_heard | apply State.debit_heard | apply State.startEvaluation_heard

theorem State.serveFreed_heard (ended : Option Nat) (hs : s.Heard) : (s.serveFreed ended).Heard :=
  State.arbiterTurn_heard _ hs

/-! ### Replies -/

theorem State.deriveJudged_heard (ts : List Task) (hs : s.Heard) : (s.deriveJudged p ts).Heard := by
  unfold State.deriveJudged
  split
  · exact State.first_heard _ (State.derive_heard (f := id) ‹_› (fun _ h => h) hs)
  · exact hs

theorem State.deriveUnjudged_heard (hs : s.Heard) : (s.deriveUnjudged p).Heard := by
  unfold State.deriveUnjudged
  split
  · exact State.first_heard _ (State.derive_heard (f := id) ‹_› (fun _ h => h) hs)
  · exact hs

/-- A good reply leaves no record unanswered, and takes an ENROLLED one into service (R130). -/
theorem Record.answered_takeReport (r : Record) (f : ReplyFields) (now : Nat) (ph : Phase) :
    (r.takeReport f now ph).Answered := by
  refine ⟨nofun, fun h => ?_⟩
  simp only [Record.takeReport] at h
  split at h
  · cases h
  · contradiction

theorem State.goodDoorReply_heard (f : ReplyFields) (hs : s.Heard) : (s.goodDoorReply p f).Heard :=
  State.deriveJudged_heard _ (State.causeOff_heard
    (State.modRec_heard (fun r _ => r.answered_takeReport _ _ _) hs))

theorem State.doorMiss_heard (n : LineNo) (r : Record) (x : Exchange) (hs : s.Heard) :
    (s.doorMiss n p r x).Heard := by
  unfold State.doorMiss
  dsimp only
  repeat' split
  all_goals with_reducible
    repeat' first | assumption | apply State.first_heard | apply State.requeue_heard | apply State.modRec_heard
  all_goals exact fun _ h => h

theorem State.contactLost_heard (n : LineNo) (c d : Option DoorCommand) (hs : s.Heard) :
    (s.contactLost n p c d).Heard := by
  unfold State.contactLost
  dsimp only
  split <;> exact hs

theorem State.releaseMiss_heard (n : LineNo) (r : Record) (hs : s.Heard) : (s.releaseMiss n p r).Heard := by
  unfold State.releaseMiss
  dsimp only
  split
  · exact State.retirementEnds_heard _ hs
  · exact State.requeue_heard _ _ (State.modRec_heard (fun _ h => h) hs)

theorem State.monitorReply_heard (mv : Nat) (b : Bool) (hs : s.Heard) : (s.monitorReply u mv b).Heard := by
  have ht : (s.touchUnit u).Heard := State.touchUnit_heard hs
  unfold State.monitorReply
  dsimp only
  repeat' split
  all_goals with_reducible
    repeat' first
      | assumption | apply State.first_heard | apply State.judgeUL_heard | apply State.setUnitCause_heard
      | apply State.modUnit_heard

theorem State.monitorMiss_heard (hs : s.Heard) : (s.monitorMiss u).Heard := by
  have ht : (s.touchUnit u).Heard := State.touchUnit_heard hs
  unfold State.monitorMiss
  dsimp only
  repeat' split
  all_goals with_reducible
    repeat' first | assumption | apply State.setUnitCause_heard | apply State.modUnit_heard

theorem State.takeOutcome_heard (n : LineNo) (x : Exchange) (f : Option ReplyFields) (hs : s.Heard) :
    (s.takeOutcome n x f).Heard := by
  unfold State.takeOutcome
  repeat' split
  all_goals with_reducible
    repeat' first
      | assumption | apply State.retirementEnds_heard | apply State.goodDoorReply_heard
      | apply State.releaseMiss_heard | apply State.doorMiss_heard | apply State.monitorReply_heard
      | apply State.monitorMiss_heard

theorem State.endExchange_heard (n : LineNo) (x : Exchange) (f : Option ReplyFields) (hs : s.Heard) :
    (s.endExchange n x f).Heard := State.takeOutcome_heard _ _ _ (State.modLine_heard _ hs)

/-! ### Every hand-off, and the end of an event -/

theorem State.walkAdvances_heard (hs : s.Heard) : s.walkAdvances.Heard := by
  unfold State.walkAdvances
  repeat' split
  all_goals exact hs

theorem State.handOff_heard (x : Task) (hs : s.Heard) : (s.handOff x).Heard := by
  cases x with
  | evalQueue => exact State.evaluateQueue_heard hs
  | freed => exact State.serveFreed_heard _ hs
  | walkEnded => exact State.arbiterTurn_heard _ hs
  | arbiter => exact State.arbiterTurn_heard _ hs
  | admitted => exact State.takeAdmission_heard _ hs
  | judgeUL => exact State.judgeUL_heard hs
  | evalRest => exact State.evaluateAtRest_heard hs
  | complete => exact State.completeOrder_heard _ hs
  | nextTop => exact State.nextTop_heard hs
  | undrivable => exact State.becomesUndrivable_heard hs
  | reportCause => exact State.reportDoorCause_heard hs
  | setCause => exact State.setDoorCause_heard _ hs
  | motionSees => exact State.motionSees_heard _ hs
  | faultSees => exact State.faultSees_heard _ hs
  | obstruction => exact State.obstructed_heard hs
  | localFlags => exact State.localFlags_heard _ _ hs
  | localCheck => exact State.localCheck_heard hs
  | dropped => exact State.dropCommand_heard _ _ hs
  | lineLost => exact State.lineLost_heard _ hs
  | contactLost => exact State.contactLost_heard _ _ _ hs
  | retirementEnds => exact State.retirementEnds_heard _ hs
  | walkAdvances => exact State.walkAdvances_heard hs

theorem State.take_heard (x : Task) (hs : s.Heard) : (s.take x).Heard := by
  unfold State.take
  split
  · exact State.later_heard _ hs
  · exact State.handOff_heard x hs

theorem run_heard : ∀ (n : Nat) {s : State}, s.Heard → (run n s).Heard
  | 0, _, hs => hs
  | n + 1, s, hs => by
    unfold run
    split
    · exact hs
    · exact run_heard n (State.take_heard _ hs)

theorem State.settle_heard (hs : s.Heard) : s.settle.Heard :=
  (run_heard Config.passBound hs).same (by simp [State.settle])

end Sys2Proof.Machine

/-! SUPPORT. The operations that requests start with keep the table heard. -/

namespace Sys2Proof.Machine

variable {s t : State} {p u : Nat} {port : Port} {reply : State → Status × Content}

/-! ### Lifecycle and configured fields -/

theorem State.enrolRecord_heard (l : Lifecycle) (cfg : Configured) (hs : s.Heard) :
    (s.enrolRecord p l cfg).Heard := by
  have hr : (Record.enrolled l cfg).Answered := ⟨fun _ => ⟨rfl, rfl⟩, fun _ => rfl⟩
  exact State.rejoinSweep_heard (State.markBoth_heard ((hs.putRec hr).same rfl))

theorem State.isolate_heard (hs : s.Heard) : (s.isolate p).Heard := by
  unfold State.isolate
  dsimp only
  repeat' split
  all_goals with_reducible
    repeat' first
      | assumption | apply State.first_heard | apply State.charge_heard | apply State.leaveWait_heard
      | apply State.endStroke_heard | apply State.queueCommand_heard | apply State.modRec_heard
  all_goals first
    | exact fun _ h => h
    | exact fun _ h => ⟨h.1, nofun⟩

/-- A record that leaves isolation with no good reply is ENROLLED again (R20). -/
theorem State.unisolate_heard (hs : s.Heard) : (s.unisolate p).Heard := by
  unfold State.unisolate
  repeat' split
  · refine State.later_heard _ (State.modRec_heard (fun r h => ⟨h.1, fun e => ?_⟩) hs)
    cases hg : r.lastGood with
    | none => rfl
    | some => simp [hg] at e
  · exact hs
  · exact hs

theorem State.beginRetirement_heard (r : Record) (hs : s.Heard) : (s.beginRetirement p r).Heard := by
  unfold State.beginRetirement
  dsimp only
  split
  all_goals with_reducible
    repeat' first
      | assumption | apply State.queueCommand_heard | apply State.retirementEnds_heard | apply State.first_heard
      | apply State.chargeAll_heard | apply State.modRec_heard
  all_goals exact fun _ h => ⟨h.1, nofun⟩

theorem State.modCfg_heard (f : Configured → Configured) (hs : s.Heard) : (s.modCfg p f).Heard :=
  State.modRec_heard (fun _ h => h) hs

theorem State.modPower_heard (f : PowerFields → PowerFields) (hs : s.Heard) : (s.modPower p f).Heard :=
  State.modCfg_heard _ hs

theorem State.rezone_heard (r : Record) (z : Nat) (rank : Byte) (hs : s.Heard) :
    (s.rezone p r z rank).Heard :=
  (State.modCfg_heard (p := p) _ (hs.same (t := s.leaveZone r.cfg.zone p) rfl)).same rfl

theorem State.switchDoorEnable_heard (on : Bool) (k : FaultKind) (hs : s.Heard) :
    (s.switchDoorEnable p on k).Heard := by
  unfold State.switchDoorEnable
  dsimp only
  repeat' split
  all_goals with_reducible
    repeat' first
      | assumption | apply State.listAlarm_heard | apply State.removeAlarm_heard | apply State.modRec_heard
  all_goals exact fun _ h => h

theorem State.setDoorEnables_heard (ks : List FaultKind) (hs : s.Heard) : (s.setDoorEnables p ks).Heard :=
  foldl_keeps (fun _ _ => State.switchDoorEnable_heard _ _) _ hs

theorem State.setUnit_heard (hs : s.Heard) : (s.setUnit p u).Heard := by
  unfold State.setUnit
  dsimp only
  repeat' split
  all_goals with_reducible
    repeat' first
      | assumption | apply State.joinQueue_heard | apply State.leaveQueue_heard | apply State.modPower_heard
      | apply State.modRec_heard
  all_goals exact fun _ h => h

theorem State.setStaleLimit_heard (n : Nat) (hs : s.Heard) : (s.setStaleLimit p n).Heard := by
  unfold State.setStaleLimit
  dsimp only
  repeat' split
  all_goals with_reducible
    repeat' first | assumption | apply State.deriveUnjudged_heard | apply State.modRec_heard
  all_goals exact fun _ h => h

theorem State.setZoneRank_heard (z : Nat) (rank : Byte) (hs : s.Heard) : (s.setZoneRank p z rank).Heard := by
  unfold State.setZoneRank
  dsimp only
  repeat' split
  all_goals with_reducible
    repeat' first | assumption | apply State.replaceInQueue_heard | apply State.rezone_heard

theorem State.setClass_heard (cls : DoorClass) (pf : Option PowerFields) (hs : s.Heard) :
    (s.setClass p cls pf).Heard := by
  unfold State.setClass
  dsimp only
  repeat' split
  all_goals with_reducible
    repeat' first
      | assumption | apply State.deriveJudged_heard | apply State.modCfg_heard | apply State.first_heard
      | apply State.causeOff_heard | apply State.chargeAll_heard | apply State.modRec_heard
  all_goals exact fun _ h => h

/-! ### CHANGE and the bulk walk -/

theorem State.changeClass_heard (r : Record) (cls : DoorClass) (pf : Option PowerFields) (hs : s.Heard) :
    (s.changeClass p r cls pf).Heard := by
  unfold State.changeClass
  split
  · exact State.modCfg_heard _ hs
  · exact State.setClass_heard _ _ hs

theorem State.changeAddress_heard (a : Option (Nat × Nat)) (hs : s.Heard) : (s.changeAddress p a).Heard := by
  unfold State.changeAddress
  repeat' split
  · exact State.rejoinSweep_heard (State.modCfg_heard _ hs)
  · exact hs
  · exact hs

theorem State.changeUnitField_heard (cls : DoorClass) (x : Option Nat) (hs : s.Heard) :
    (s.changeUnitField p cls x).Heard := by
  unfold State.changeUnitField
  repeat' split
  all_goals with_reducible
    repeat' first | assumption | apply State.setUnit_heard

theorem State.changeZoneRank_heard (c : Configured) (z : Nat) (rank : Byte) (hs : s.Heard) :
    (s.changeZoneRank p c z rank).Heard := by
  unfold State.changeZoneRank
  split
  · exact hs
  · exact State.setZoneRank_heard _ _ hs

theorem State.changeStaleLimit_heard (n : Option Nat) (hs : s.Heard) : (s.changeStaleLimit p n).Heard := by
  unfold State.changeStaleLimit
  split
  · exact State.setStaleLimit_heard _ hs
  · exact hs

theorem State.changeEnables_heard (e : Option (Naming FaultKind)) (hs : s.Heard) :
    (s.changeEnables p e).Heard := by
  unfold State.changeEnables
  split
  · exact State.setDoorEnables_heard _ hs
  · exact hs

theorem State.costChanged_heard (old : Option PowerFields) (hs : s.Heard) : (s.costChanged p old).Heard := by
  unfold State.costChanged
  repeat' split
  all_goals exact hs

theorem State.applyChange_heard (r : Record) (q : ChangeReq) (hs : s.Heard) : (s.applyChange p r q).Heard := by
  unfold State.applyChange
  dsimp only
  repeat' split
  all_goals with_reducible
    repeat' first
      | assumption | apply State.markBoth_heard | apply State.costChanged_heard | apply State.unisolate_heard
      | apply State.changeEnables_heard | apply State.changeStaleLimit_heard | apply State.modCfg_heard
      | apply State.changeZoneRank_heard | apply State.changeUnitField_heard | apply State.changeAddress_heard
      | apply State.changeClass_heard | apply State.isolate_heard

theorem State.visitUnit_heard (x : Option Nat) (hs : s.Heard) : (s.visitUnit p x).Heard := by
  unfold State.visitUnit
  split
  · exact State.setUnit_heard hs
  · exact hs

theorem State.visitEnables_heard (ks : Option (List FaultKind)) (hs : s.Heard) :
    (s.visitEnables p ks).Heard := by
  unfold State.visitEnables
  split
  · exact State.setDoorEnables_heard _ hs
  · exact hs

theorem State.applyVisit_heard (v : VisitPlan) (hs : s.Heard) : (s.applyVisit p v).Heard := by
  unfold State.applyVisit
  dsimp only
  repeat' split
  all_goals with_reducible
    repeat' first
      | assumption | apply State.unisolate_heard | apply State.visitEnables_heard | apply State.visitUnit_heard
      | apply State.modCfg_heard | apply State.modPower_heard | apply State.isolate_heard

theorem State.modWalk_heard (f : Walk → Walk) (hs : s.Heard) : (s.modWalk f).Heard := hs

theorem State.walkStep_heard (b : BulkPlan) (hs : s.Heard) : (s.walkStep b).Heard := by
  unfold State.walkStep State.visit
  dsimp only
  repeat' split
  all_goals with_reducible
    repeat' first
      | assumption | apply State.later_heard | apply State.markBoth_heard | apply State.applyVisit_heard
      | apply State.modWalk_heard

/-! ### Units and phases -/

theorem State.switchUnitEnable_heard (on : Bool) (k : FaultKind) (hs : s.Heard) :
    (s.switchUnitEnable u on k).Heard := by
  unfold State.switchUnitEnable
  dsimp only
  repeat' split
  all_goals with_reducible
    repeat' first
      | assumption | apply State.listAlarm_heard | apply State.removeAlarm_heard | apply State.putUnit_heard

theorem State.setUnitEnables_heard (ks : List FaultKind) (hs : s.Heard) : (s.setUnitEnables u ks).Heard :=
  foldl_keeps (fun _ _ => State.switchUnitEnable_heard _ _) _ hs

theorem State.judgeMS_heard (hs : s.Heard) : (s.judgeMS u).Heard := by
  unfold State.judgeMS
  split
  · exact State.setUnitCause_heard _ hs
  · exact hs

theorem State.setMonitor_heard (m : Option (LineNo × Nat)) (hs : s.Heard) : (s.setMonitor u m).Heard := by
  unfold State.setMonitor
  dsimp only
  repeat' split
  all_goals with_reducible
    repeat' first | assumption | apply State.setUnitCause_heard | apply State.putUnit_heard

theorem State.setSupply_heard (w : PowerUnit) (a : UnitArgs) (hs : s.Heard) : (s.setSupply u w a).Heard := by
  unfold State.setSupply
  repeat' split
  all_goals with_reducible
    repeat' first | assumption | apply State.judgeMS_heard | apply State.modUnit_heard

theorem State.unitChanged_heard (hs : s.Heard) : (s.unitChanged u).Heard :=
  State.later_heard _ (State.judgeUL_heard hs)

theorem State.changeUnit_heard (w : PowerUnit) (a : UnitArgs) (hs : s.Heard) : (s.changeUnit u w a).Heard :=
  State.unitChanged_heard (State.setUnitEnables_heard _ (State.setMonitor_heard _ (State.setSupply_heard _ _
    (State.modUnit_heard _ (State.touchUnit_heard hs)))))

theorem State.clearMarks_heard (hs : s.Heard) : s.clearMarks.Heard :=
  foldl_keeps (P := State.Heard)
    (fun _ _ => State.modRec_heard (f := fun r => { r with mark := false }) fun _ h => h) _ hs

theorem State.markAll_heard (hs : s.Heard) : s.markAll.Heard :=
  foldl_keeps (P := State.Heard) (fun _ _ => State.markBoth_heard) _ hs

/-- A restart derives every indication from the report that the record keeps (R25). -/
theorem Record.Answered.restarted {r : Record} (now : Nat) (h : r.Answered) : (r.restarted now).Answered :=
  Record.Answered.derive (r := { r with
    missed := 0, mark := false, causes := [], motion := .rest, purpose := none, target := none,
    govSlot := none, waitReason := none, queueClass := none, deadline := none, heldDebit := none,
    attempts := 0, aged := r.overAge now,
    releaseAttempts := if r.lifecycle = .retiring then some 0 else none }) h

theorem State.restartBlocks_heard (hs : s.Heard) : s.restartBlocks.Heard :=
  ⟨Keyed.wf_map (fun e : Nat × Record => e.2.restarted s.clock) hs.1, fun p r hr => by
    have hg : s.restartBlocks.rec? p = (s.rec? p).map fun r => r.restarted s.clock :=
      Keyed.get?_map s.records (fun e => e.2.restarted s.clock) p
    obtain ⟨r', hr', rfl⟩ := Option.map_eq_some_iff.mp (hg.symm.trans hr)
    exact (hs.2 p r' hr').restarted _⟩

theorem State.restartQueue_heard (e : Nat × Record) (hs : s.Heard) : (s.restartQueue e).Heard := by
  unfold State.restartQueue
  repeat' split
  all_goals exact hs

theorem State.restart_heard (hs : s.Heard) : s.restart.Heard := by
  have hb : (if s.restartBlocks.phase = .sweep then s.restartBlocks.startSweeps
      else s.restartBlocks.stopSweeps).Heard := by
    split <;> exact State.restartBlocks_heard hs
  have hq : ∀ t : State, t.Heard → (s.records.foldl State.restartQueue t).Heard := fun t =>
    foldl_keeps (fun _ e => State.restartQueue_heard e) s.records
  unfold State.restart
  dsimp only
  generalize (if s.restartBlocks.phase = .sweep then s.restartBlocks.startSweeps
      else s.restartBlocks.stopSweeps) = a at hb ⊢
  have hu := hq _ (foldl_keeps (P := State.Heard) (f := fun t u =>
      t.setUnitCause u .ms (decide ((t.unit? u).map PowerUnit.supply = some .stored)))
    (fun _ _ => State.setUnitCause_heard _) (a.markAll.units.map Prod.fst) (State.markAll_heard hb))
  split
  · exact State.acceptOrder_heard _ _ hu
  · exact hu

/-! ### Orders, alarms and flags -/

theorem State.cancelDoors_heard (l : List Nat) (hs : s.Heard) :
    (l.foldl (fun s p => s.cancelDoor p) s).Heard := foldl_keeps (fun _ _ => State.cancelDoor_heard) _ hs

theorem State.cancelOrder_heard (n : Nat) (o : Order) (hs : s.Heard) : (s.cancelOrder n o).Heard := by
  unfold State.cancelOrder
  split
  · exact State.first_heard _ (State.leaveStack_heard _ (State.finishOrder_heard _ _ _
      (State.cancelDoors_heard _ hs)))
  · exact State.leaveStack_heard _ (State.finishOrder_heard _ _ _ (State.restWaiters_heard _ hs))
  · exact State.finishOrder_heard _ _ _ hs
  · exact hs
  · exact hs

theorem State.ackOne_heard (x : Subject) (k : FaultKind) (hs : s.Heard) : (s.ackOne x k).1.Heard := by
  unfold State.ackOne
  repeat' split
  all_goals with_reducible
    repeat' first | assumption | apply State.setAlarm_heard | apply State.removeAlarm_heard

theorem ackFold_heard : ∀ (l : List Alarm) (acc : State × Nat × Nat), acc.1.Heard →
    (l.foldl (fun acc a =>
      let one := acc.1.ackOne a.subject a.kind
      (one.1, acc.2.1 + one.2.1, acc.2.2 + one.2.2)) acc).1.Heard
  | [], _, hs => hs
  | _ :: l, _, hs => ackFold_heard l _ (State.ackOne_heard _ _ hs)

theorem State.clearDoorFlags_heard (ks : List FaultKind) (hs : s.Heard) : (s.clearDoorFlags p ks).Heard :=
  State.modRec_heard (fun _ h => h) hs

theorem State.clearShipFlags_heard (ks : List FaultKind) (hs : s.Heard) : (s.clearShipFlags ks).Heard :=
  foldl_keeps (P := State.Heard) (fun _ _ => State.modUnit_heard _) _
    (foldl_keeps (fun _ _ => State.clearDoorFlags_heard _) _ hs)

end Sys2Proof.Machine

/-! SUPPORT. Every request, every event and every step keep the table heard, and leave the outputs current. -/

namespace Sys2Proof.Machine

variable {s t : State} {p u : Nat} {port : Port} {reply : State → Status × Content}

/-! ### What a request hands to the end of its event -/

theorem State.serveEnrol_heard {q : EnrolReq} (he : State.serveEnrol q s = .change t reply) (hs : s.Heard) :
    t.Heard := by
  unfold State.serveEnrol at he
  dsimp only at he
  repeat' split at he
  all_goals cases he
  exact State.enrolRecord_heard _ _ hs

theorem State.serveChange_heard {q : ChangeReq} (he : State.serveChange q s = .change t reply)
    (hs : s.Heard) : t.Heard := by
  unfold State.serveChange at he
  repeat' split at he
  all_goals cases he
  exact State.applyChange_heard _ _ hs

theorem State.serveRetire_heard {d : DoorName} (he : State.serveRetire d s = .change t reply)
    (hs : s.Heard) : t.Heard := by
  unfold State.serveRetire at he
  repeat' split at he
  all_goals cases he
  · exact State.retirementEnds_heard _ hs
  · exact State.beginRetirement_heard _ hs

theorem State.serveOrder_heard {q : OrderReq} (he : State.serveOrder port q s = .change t reply)
    (hs : s.Heard) : t.Heard := by
  unfold State.serveOrder at he
  dsimp only at he
  repeat' split at he
  all_goals cases he
  · exact State.putOrder_heard _ hs
  · exact State.acceptOrder_heard _ _ hs

theorem State.serveCancel_heard {n : Nat} (he : State.serveCancel port n s = .change t reply)
    (hs : s.Heard) : t.Heard := by
  unfold State.serveCancel at he
  repeat' split at he
  all_goals cases he
  exact State.modOrder_heard _ (State.cancelOrder_heard _ _ hs)

theorem State.serveOrderStatus_heard {q : OrderStatusReq}
    (he : State.serveOrderStatus port q s = .change t reply) (hs : s.Heard) : t.Heard := by
  unfold State.serveOrderStatus at he
  repeat' split at he
  all_goals cases he
  exact State.putOrder_heard _ hs

theorem State.serveAckAlarm_heard {q : AckReq} (he : State.serveAckAlarm q s = .change t reply)
    (hs : s.Heard) : t.Heard := by
  unfold State.serveAckAlarm at he
  dsimp only at he
  repeat' split at he
  all_goals cases he
  · exact ackFold_heard _ _ hs
  · exact State.ackOne_heard _ _ hs

theorem State.serveClearFlags_heard {q : ClearFlagsReq} (he : State.serveClearFlags q s = .change t reply)
    (hs : s.Heard) : t.Heard := by
  unfold State.serveClearFlags at he
  dsimp only at he
  repeat' split at he
  all_goals cases he
  · exact State.clearShipFlags_heard _ hs
  · exact State.modUnit_heard _ hs
  · exact State.clearDoorFlags_heard _ hs

theorem State.modPort_heard (f : PortState → PortState) (hs : s.Heard) : (s.modPort port f).Heard :=
  hs.same (by simp)

theorem State.serveReadChanges_heard {a : Unit} (he : State.serveReadChanges port a s = .change t reply)
    (hs : s.Heard) : t.Heard := by
  cases he; exact State.modPort_heard _ hs

theorem State.serveBulk_heard {q : BulkReq} (he : State.serveBulk q s = .change t reply) (hs : s.Heard) :
    t.Heard := by
  unfold State.serveBulk at he
  repeat' split at he
  all_goals cases he
  exact State.modWalk_heard _ hs

theorem State.serveBulkAbort_heard {a : Unit} (he : State.serveBulkAbort a s = .change t reply)
    (hs : s.Heard) : t.Heard := by
  cases he
  unfold State.abortWalk
  split <;> exact hs

theorem State.serveUnitSetReq_heard {q : UnitSetReq} (he : State.serveUnitSetReq q s = .change t reply)
    (hs : s.Heard) : t.Heard := by
  unfold State.serveUnitSetReq State.serveUnitSet State.serveBudget at he
  dsimp only at he
  repeat' split at he
  all_goals cases he
  · exact State.unitChanged_heard (State.judgeMS_heard (State.putUnit_heard _ hs))
  · exact State.removeAlarmsOf_heard _ hs
  · exact State.changeUnit_heard _ _ hs
  · exact hs
  · exact hs

theorem State.serveUnitRead_heard {q : UnitReadReq} (he : State.serveUnitRead q s = .change t reply)
    (hs : s.Heard) : t.Heard := by
  unfold State.serveUnitRead at he
  repeat' split at he
  all_goals cases he
  exact State.touchUnit_heard hs

theorem State.serveLineSet_heard {q : LineSetReq} (he : State.serveLineSet q s = .change t reply)
    (hs : s.Heard) : t.Heard := by
  unfold State.serveLineSet at he
  dsimp only at he
  repeat' split at he
  all_goals cases he
  unfold State.setEnabled
  repeat' split
  all_goals exact hs

theorem State.serveCalendarSet_heard {q : CalendarReq} (he : State.serveCalendarSet q s = .change t reply)
    (hs : s.Heard) : t.Heard := by
  unfold State.serveCalendarSet at he
  dsimp only at he
  split at he
  all_goals cases he
  exact hs

theorem State.serveCommission_heard {a : Unit} (he : State.serveCommission a s = .change t reply)
    (hs : s.Heard) : t.Heard := by
  unfold State.serveCommission at he
  split at he
  all_goals cases he
  exact State.first_heard _ ((State.clearMarks_heard hs).same rfl)

theorem State.serveResweep_heard {a : Unit} (he : State.serveResweep a s = .change t reply)
    (hs : s.Heard) : t.Heard := by
  unfold State.serveResweep at he
  split at he
  all_goals cases he
  exact (State.markAll_heard (State.clearMarks_heard hs)).same rfl

theorem State.serveRestart_heard {a : Unit} (he : State.serveRestart a s = .change t reply)
    (hs : s.Heard) : t.Heard := by
  cases he; exact State.restart_heard hs

/-! ### Requests, events and bytes -/

theorem State.drive_heard (hs : s.Heard) : s.drive.Heard := hs

theorem State.event_heard {f : State → Option State} (hf : ∀ t, f s = some t → t.Heard) (hs : s.Heard) :
    (s.event f).Heard := by
  unfold State.event
  repeat' split
  · exact hs
  · exact State.drive_heard (State.settle_heard (hf _ ‹_›))
  · exact hs

section
variable {α : Type} {code : Nat} {serve : α → State → Served}

theorem State.request_heard (body : Body α)
    (hf : ∀ {a t reply}, serve a s = .change t reply → s.Heard → t.Heard) (hs : s.Heard) :
    (s.request port code body serve).Heard := by
  unfold State.request
  dsimp only
  repeat' split
  · exact hs
  · exact State.drive_heard (State.modPort_heard _ hs)
  · exact State.drive_heard (State.modPort_heard _ hs)
  · exact State.drive_heard (State.modPort_heard _ hs)
  · exact State.drive_heard (State.modPort_heard _ (State.settle_heard (hf ‹_› hs)))

/-- A request that only answers leaves the table as it is. -/
theorem State.request_heard_of_answers (body : Body α) (hf : ∀ a t reply, serve a s ≠ .change t reply)
    (hs : s.Heard) : (s.request port code body serve).Heard :=
  State.request_heard body (fun he => absurd he (hf _ _ _)) hs
end

theorem State.portEvent_heard (f : PortState → PortState) (hs : s.Heard) : (s.portEvent port f).Heard := by
  unfold State.portEvent
  split
  · exact hs
  · exact State.drive_heard (State.modPort_heard _ hs)

theorem State.lineEvent_heard {n : LineNo} {ph : ExchangePhase} {f : State → Exchange → State}
    (hf : ∀ x, (f s x).Heard) (hs : s.Heard) : (s.lineEvent n ph f).Heard :=
  State.event_heard (fun t he => by
    obtain ⟨x, -, rfl⟩ := Option.map_eq_some_iff.mp he
    exact hf x) hs

theorem State.motionExpiry_heard {m : Motion} {f : State → Record → State}
    (hf : ∀ {t : State} r, t.Heard → (f t r).Heard) (hs : s.Heard) : (s.motionExpiry p m f).Heard :=
  State.event_heard (fun t he => by
    repeat' split at he
    all_goals cases he
    exact hf _ (State.modRec_heard (fun _ h => h) hs)) hs

theorem State.takeMessage_heard (type : Byte) (body : List Byte) (hs : s.Heard) :
    (s.takeMessage port type body).Heard := by
  unfold State.takeMessage
  split
  case h_1 => exact State.request_heard _ State.serveEnrol_heard hs
  case h_2 => exact State.request_heard _ State.serveChange_heard hs
  case h_3 => exact State.request_heard _ State.serveRetire_heard hs
  case h_4 => exact State.request_heard_of_answers _ (fun _ _ _ => State.serveLookup_answers) hs
  case h_5 => exact State.request_heard_of_answers _ (fun _ _ _ => State.serveListZone_answers) hs
  case h_6 => exact State.request_heard_of_answers _ (fun _ _ _ => State.serveSummary_answers) hs
  case h_7 => exact State.request_heard _ State.serveOrder_heard hs
  case h_8 => exact State.request_heard _ State.serveCancel_heard hs
  case h_9 => exact State.request_heard _ State.serveOrderStatus_heard hs
  case h_10 => exact State.request_heard_of_answers _ (fun _ _ _ => State.serveReadAlarms_answers) hs
  case h_11 => exact State.request_heard _ State.serveAckAlarm_heard hs
  case h_12 => exact State.request_heard _ State.serveClearFlags_heard hs
  case h_13 => exact State.request_heard _ State.serveReadChanges_heard hs
  case h_14 => exact State.request_heard _ State.serveBulk_heard hs
  case h_15 => exact State.request_heard _ State.serveBulkAbort_heard hs
  case h_16 => exact State.request_heard_of_answers _ (fun _ _ _ => nofun) hs
  case h_17 => exact State.request_heard _ State.serveUnitSetReq_heard hs
  case h_18 => exact State.request_heard _ State.serveUnitRead_heard hs
  case h_19 => exact State.request_heard _ State.serveLineSet_heard hs
  case h_20 => exact State.request_heard _ State.serveCalendarSet_heard hs
  case h_21 => exact State.request_heard _ State.serveCommission_heard hs
  case h_22 => exact State.request_heard _ State.serveResweep_heard hs
  case h_23 => exact State.request_heard _ State.serveRestart_heard hs
  case h_24 => exact State.request_heard_of_answers _ (fun _ _ _ => nofun) hs
  case h_25 => exact State.portEvent_heard _ hs

theorem State.takeByte_heard (b : LinkByte) (hs : s.Heard) : (State.takeByte port s b).Heard := by
  unfold State.takeByte
  split
  · exact State.modPort_heard _ hs
  · exact State.modPort_heard _ hs
  · exact State.takeMessage_heard _ _ hs
  · exact State.modPort_heard _ hs

theorem State.takeBytes_heard (bytes : List LinkByte) (hs : s.Heard) : (s.takeBytes port bytes).Heard :=
  foldl_keeps (fun _ b => State.takeByte_heard b) bytes hs

/-! ### Pins, timers and the passing of time -/

theorem State.enterReset_heard (s : State) : s.enterReset.Heard := ⟨rfl, fun _ _ h => by cases h⟩

theorem State.rstnLow_heard (n : Nat) (hs : s.Heard) : (s.rstnLow n).Heard := by
  unfold State.rstnLow
  dsimp only
  repeat' split
  · exact s.enterReset_heard
  · exact s.enterReset_heard.same rfl
  · exact hs

theorem State.leaveReset_heard (hs : s.Heard) : s.leaveReset.Heard := by
  unfold State.leaveReset
  split <;> exact hs

theorem State.ecloseChange_heard (b : Bool) (hs : s.Heard) : (s.ecloseChange b).Heard := by
  unfold State.ecloseChange
  split
  · exact hs
  · refine State.event_heard (fun t he => ?_) hs
    split at he
    · cases he
    · cases he; exact hs

theorem State.ecloseExpires_heard (hs : s.Heard) : s.ecloseExpires.Heard := by
  unfold State.ecloseExpires State.assertionEdge
  dsimp only
  repeat' split
  · exact hs
  · exact State.acceptOrder_heard _ _ hs
  · exact State.acceptOrder_heard _ _ hs
  · exact hs

theorem State.tick_heard (hs : s.Heard) : s.tick.Heard := by
  unfold State.tick
  repeat' split
  · exact hs
  · exact State.drive_heard (State.settle_heard hs)
  · exact hs

/-! ### Every step -/

theorem exec_heard {c : Instr} (he : exec c s = .next t) (hs : s.Heard) : t.Heard := by
  cases c <;> cases he
  case enrol => exact State.request_heard _ State.serveEnrol_heard hs
  case change => exact State.request_heard _ State.serveChange_heard hs
  case retire => exact State.request_heard _ State.serveRetire_heard hs
  case lookup => exact State.request_heard_of_answers _ (fun _ _ _ => State.serveLookup_answers) hs
  case listZone => exact State.request_heard_of_answers _ (fun _ _ _ => State.serveListZone_answers) hs
  case summary => exact State.request_heard_of_answers _ (fun _ _ _ => State.serveSummary_answers) hs
  case order => exact State.request_heard _ State.serveOrder_heard hs
  case cancel => exact State.request_heard _ State.serveCancel_heard hs
  case orderStatus => exact State.request_heard _ State.serveOrderStatus_heard hs
  case readAlarms => exact State.request_heard_of_answers _ (fun _ _ _ => State.serveReadAlarms_answers) hs
  case ackAlarm => exact State.request_heard _ State.serveAckAlarm_heard hs
  case clearFlags => exact State.request_heard _ State.serveClearFlags_heard hs
  case readChanges => exact State.request_heard _ State.serveReadChanges_heard hs
  case bulk => exact State.request_heard _ State.serveBulk_heard hs
  case bulkAbort => exact State.request_heard _ State.serveBulkAbort_heard hs
  case bulkStatus => exact State.request_heard_of_answers _ (fun _ _ _ => nofun) hs
  case unitSet => exact State.request_heard _ State.serveUnitSetReq_heard hs
  case unitRead => exact State.request_heard _ State.serveUnitRead_heard hs
  case lineSet => exact State.request_heard _ State.serveLineSet_heard hs
  case calendarSet => exact State.request_heard _ State.serveCalendarSet_heard hs
  case commission => exact State.request_heard _ State.serveCommission_heard hs
  case resweep => exact State.request_heard _ State.serveResweep_heard hs
  case restart => exact State.request_heard _ State.serveRestart_heard hs
  case ident => exact State.request_heard_of_answers _ (fun _ _ _ => nofun) hs
  case badType => exact State.portEvent_heard _ hs
  case overrun => exact State.portEvent_heard _ hs
  case badFrame =>
    split
    · exact hs
    · exact State.drive_heard (State.takeBytes_heard _ hs)
  case consoleByteGap =>
    split
    · exact hs
    · exact State.drive_heard (State.modPort_heard _ (State.takeBytes_heard _ hs))
  case responseSent => exact State.portEvent_heard _ hs
  case rstnLow => exact State.rstnLow_heard _ hs
  case rstnRelease => exact State.leaveReset_heard hs
  case ecloseInputChange => exact State.ecloseChange_heard _ hs
  case ecloseDebounceExpiry =>
    refine State.event_heard (fun t he => ?_) hs
    split at he <;> cases he
    exact State.ecloseExpires_heard hs
  case guardEnd => exact State.lineEvent_heard (fun _ => State.modLine_heard _ hs) hs
  case requestSent => exact State.lineEvent_heard (fun _ => State.modLine_heard _ hs) hs
  case windowExpiry => exact State.lineEvent_heard (fun _ => State.endExchange_heard _ _ _ hs) hs
  case replyReceived => exact State.lineEvent_heard (fun _ => State.endExchange_heard _ _ _ hs) hs
  case replyByteGap => exact State.lineEvent_heard (fun _ => State.endExchange_heard _ _ _ hs) hs
  case replyStart => exact State.lineEvent_heard (fun _ => State.modLine_heard _ hs) hs
  case stalenessDeadlineExpiry =>
    refine State.event_heard (fun t he => ?_) hs
    repeat' split at he
    all_goals cases he
    exact State.modRec_heard (fun _ h => h) hs
  case spacingTimerExpiry =>
    refine State.event_heard (fun t he => ?_) hs
    repeat' split at he
    all_goals cases he
    exact State.first_heard _ (State.modUnit_heard _ hs)
  case chargeTimerExpiry =>
    refine State.event_heard (fun t he => ?_) hs
    repeat' split at he
    all_goals cases he
    exact State.first_heard _ (State.modUnit_heard _ hs)
  case warningLeadExpiry => exact State.motionExpiry_heard (fun _ => State.enterMoving_heard) hs
  case deadlineExpiry => exact State.motionExpiry_heard State.deadlineExpires_heard hs
  case obstructionPauseExpiry => exact State.motionExpiry_heard State.pauseExpires_heard hs
  case passageLimitExpiry => exact State.motionExpiry_heard (fun _ => State.causeOn_heard) hs
  case recloseDelayExpiry => exact State.motionExpiry_heard (fun _ => State.recloseDecision_heard) hs
  case bulkStepExpiry =>
    refine State.event_heard (fun t he => ?_) hs
    repeat' split at he
    all_goals cases he
    exact State.walkStep_heard _ hs

theorem step_heard (he : step s = .next t) (hs : s.Heard) : t.Heard := by
  unfold step at he
  split at he
  · exact exec_heard he (hs.same rfl)
  · cases he; exact State.tick_heard hs

/-! ### Current outputs -/

theorem State.drive_current (s : State) : s.drive.OutputsCurrent := rfl

theorem State.event_current (f : State → Option State) (h : s.OutputsCurrent) : (s.event f).OutputsCurrent := by
  unfold State.event
  repeat' split
  · exact h
  · exact State.drive_current _
  · exact h

theorem State.request_current {α : Type} {code : Nat} (body : Body α) (serve : α → State → Served)
    (h : s.OutputsCurrent) : (s.request port code body serve).OutputsCurrent := by
  unfold State.request
  dsimp only
  repeat' split
  · exact h
  all_goals exact State.drive_current _

theorem State.portEvent_current (f : PortState → PortState) (h : s.OutputsCurrent) :
    (s.portEvent port f).OutputsCurrent := by
  unfold State.portEvent
  split
  · exact h
  · exact State.drive_current _

/-- In reset every output is deasserted, whatever the part held before (R182). -/
theorem State.enterReset_current (s : State) : s.enterReset.OutputsCurrent := rfl

theorem State.rstnLow_current (n : Nat) (h : s.OutputsCurrent) : (s.rstnLow n).OutputsCurrent := by
  unfold State.rstnLow
  dsimp only
  repeat' split
  · exact s.enterReset_current
  · exact s.enterReset_current
  · exact h

theorem State.leaveReset_current (h : s.OutputsCurrent) : s.leaveReset.OutputsCurrent := by
  unfold State.leaveReset
  split
  · exact State.drive_current _
  · exact h

theorem State.ecloseChange_current (b : Bool) (h : s.OutputsCurrent) : (s.ecloseChange b).OutputsCurrent := by
  unfold State.ecloseChange
  split
  · exact h
  · exact State.event_current _ h

theorem exec_current {c : Instr} (he : exec c s = .next t) (h : s.OutputsCurrent) : t.OutputsCurrent := by
  cases c <;> cases he
  case badFrame =>
    split
    · exact h
    · exact State.drive_current _
  case consoleByteGap =>
    split
    · exact h
    · exact State.drive_current _
  case rstnLow => exact State.rstnLow_current _ h
  case rstnRelease => exact State.leaveReset_current h
  case ecloseInputChange => exact State.ecloseChange_current _ h
  case badType => exact State.portEvent_current _ h
  case overrun => exact State.portEvent_current _ h
  case responseSent => exact State.portEvent_current _ h
  case enrol | change | retire | lookup | listZone | summary | order | cancel | orderStatus | readAlarms
      | ackAlarm | clearFlags | readChanges | bulk | bulkAbort | bulkStatus | unitSet | unitRead | lineSet
      | calendarSet | commission | resweep | restart | ident =>
    exact State.request_current _ _ h
  all_goals exact State.event_current _ h

theorem step_current (he : step s = .next t) (h : s.OutputsCurrent) : t.OutputsCurrent := by
  unfold step at he
  split at he
  · exact exec_current he h
  · cases he
    unfold State.tick
    repeat' split
    · exact h
    · exact State.drive_current _
    · exact State.drive_current _

end Sys2Proof.Machine

/-! SUPPORT. ALLCLOSED follows the ship summary (R41). Obligation O22. -/

namespace Sys2Proof.Machine

variable {s t : State}

/-! ### ALLCLOSED -/

/-- A summary is CLOSED exactly when it counts a record and each record that it counts is proven closed (R38,
R39). -/
theorem summarize_closed_iff (rs : List Record) : (summarize rs).state = .closed ↔
    (∃ r ∈ rs, r.counted = true) ∧ ∀ r ∈ rs, r.counted = true → r.countsProven = true := by
  obtain ⟨htotal, hsum, hunproven, hproven, hnotClosed, -⟩ := summarize_counts rs
  have hstate : (summarize rs).state = .closed ↔
      0 < (summarize rs).total ∧ (summarize rs).proven = (summarize rs).total := by
    show summaryState (summarize rs).total (summarize rs).notClosed (summarize rs).unproven = _ ↔ _
    unfold summaryState
    split_ifs <;> simp <;> omega
  have hsome : 0 < (rs.filter Record.counted).length ↔ ∃ r ∈ rs, r.counted = true := by
    simp [List.length_pos_iff_exists_mem]
  have hall : (rs.filter Record.counted).countP Record.countsProven = (rs.filter Record.counted).length ↔
      ∀ r ∈ rs, r.counted = true → r.countsProven = true := by
    simp [List.countP_eq_length]
  rw [hstate, hproven, htotal, hsome, hall]

/-- An answered record counts as proven when it is proven closed: an ENROLLED one is indicated UNKNOWN (R37,
R38). -/
theorem Record.Answered.countsProven_iff {r : Record} (h : r.Answered) : r.countsProven = true ↔
    r.indicated = .closed ∧ Qualifier.stale ∉ r.qualifiers ∧ Qualifier.unproven ∉ r.qualifiers := by
  have hen : r.indicated = .closed → r.lifecycle ≠ .enrolled := fun hi hl => by
    have := (h.1 (h.2 hl)).2
    simp [hi] at this
  simp only [Record.countsProven, Record.countsUnproven, Record.stale_mem_qualifiers,
    Record.unproven_mem_qualifiers]
  simp
  tauto

/-- The ship summary is CLOSED exactly when a record is counted and every counted one is proven closed. -/
theorem State.Heard.shipClosed_iff (h : s.Heard) : s.shipSummary.state = .closed ↔
    (∃ p r, s.rec? p = some r ∧ r.lifecycle ≠ .retiring)
      ∧ ∀ p r, s.rec? p = some r → r.lifecycle ≠ .retiring →
        r.indicated = .closed ∧ Qualifier.stale ∉ r.qualifiers ∧ Qualifier.unproven ∉ r.qualifiers := by
  have hcounted : ∀ r : Record, r.counted = true ↔ r.lifecycle ≠ .retiring := fun r => by simp [Record.counted]
  rw [State.shipSummary, summarize_closed_iff]
  refine and_congr ⟨?_, ?_⟩ ⟨fun ha p r hr hl => ?_, fun ha r hr hl => ?_⟩
  · rintro ⟨r, hr, hl⟩
    obtain ⟨p, hp⟩ := (State.mem_allRecords h.1).mp hr
    exact ⟨p, r, hp, (hcounted r).mp hl⟩
  · rintro ⟨p, r, hp, hl⟩
    exact ⟨r, (State.mem_allRecords h.1).mpr ⟨p, hp⟩, (hcounted r).mpr hl⟩
  · exact (h.2 p r hr).countsProven_iff.mp
      (ha r ((State.mem_allRecords h.1).mpr ⟨p, hr⟩) ((hcounted r).mpr hl))
  · obtain ⟨p, hp⟩ := (State.mem_allRecords h.1).mp hr
    exact (h.2 p r hp).countsProven_iff.mpr (ha p r hp ((hcounted r).mp hl))

/-- Outside reset, ALLCLOSED is driven by the phase and the ship summary (R41). -/
theorem State.OutputsCurrent.allClosed_iff (h : s.OutputsCurrent) (hr : s.inReset = false) :
    s.outputs.allClosed = true ↔ s.phase = .service ∧ s.shipSummary.state = .closed := by
  rw [h]
  simp [State.outputsNow, hr, State.allClosedCond]

theorem State.OutputsCurrent.ship_eq (h : s.OutputsCurrent) (hr : s.inReset = false) :
    s.outputs.ship = s.shipSummary := by
  rw [h]
  simp [State.outputsNow, hr]

/-- What R41 says of a running part: the pin is asserted in SERVICE with every counted record proven closed, which
is while the ship summary is CLOSED. -/
def State.AllClosedDriven (s : State) : Prop :=
  (s.outputs.allClosed = true ↔
    s.phase = .service ∧ (∃ p r, s.rec? p = some r ∧ r.lifecycle ≠ .retiring)
      ∧ ∀ p r, s.rec? p = some r → r.lifecycle ≠ .retiring →
        r.indicated = .closed ∧ Qualifier.stale ∉ r.qualifiers ∧ Qualifier.unproven ∉ r.qualifiers)
  ∧ (s.outputs.allClosed = true ↔ s.phase = .service ∧ s.outputs.ship.state = .closed)

theorem State.Heard.allClosedDriven (h : s.Heard) (hc : s.OutputsCurrent) (hr : s.inReset = false) :
    s.AllClosedDriven :=
  ⟨by rw [hc.allClosed_iff hr, h.shipClosed_iff], by rw [hc.allClosed_iff hr, hc.ship_eq hr]⟩

/-- Settles O22: every step keeps the outputs current and the table heard, and in such a state the pin follows the
counts of the ship summary. -/
theorem allClosedIsDrivenByItsCondition : Obligations.AllClosedIsDrivenByItsCondition := by
  intro s hc ha hs
  have hh : s.Heard := State.heard_iff.mpr ⟨((State.wf_iff s).mp hs.wf).1, ha⟩
  exact ⟨hh.allClosedDriven hc, fun t ht => (step_heard ht hh).allClosedDriven (step_current ht hc)⟩

end Sys2Proof.Machine

/-! SUPPORT. The need of a head, its cost and the charge test (R75, R107, R108). Obligation O41. -/

namespace Sys2Proof.Machine

variable {s : State} {w : PowerUnit} {p : Nat} {r : Record} {pf : PowerFields} {floor : Nat}

/-! ### Costs and needs -/

/-- A stroke that opens: a local one (purpose PASSAGE, whatever its target) or one of target OPENED. -/
def Record.Opens (r : Record) : Prop := r.purpose = some .passage ∨ r.target = some .opened

theorem Record.Opens.strokeCost (h : r.Opens) : r.strokeCost pf = pf.openCost := by
  unfold Record.strokeCost
  obtain hp | ht := h
  · rw [hp]
  · rw [ht]
    split <;> simp_all

theorem Record.Opens.strokeNeed (h : r.Opens) :
    r.strokeNeed pf floor = pf.openCost + pf.closeCost + floor := by
  unfold Record.strokeNeed
  obtain hp | ht := h
  · rw [hp]
  · rw [ht]
    split <;> simp_all

theorem Record.strokeCost_closed (hp : r.purpose ≠ some .passage) (ht : r.target = some .closed) :
    r.strokeCost pf = pf.closeCost := by
  unfold Record.strokeCost
  split <;> simp_all

/-- A remote close must leave the floor in the unit, unless it is of the emergency tier (R108). -/
theorem Record.strokeNeed_closed (hp : r.purpose ≠ some .passage) (ht : r.target = some .closed) :
    r.strokeNeed pf floor
      = if r.queueClass.map QueueClass.tier = some .emergency then pf.closeCost
        else pf.closeCost + floor := by
  unfold Record.strokeNeed
  split <;> simp_all

/-! ### The emergency tier -/

theorem State.queueClassFor_order_emergency_iff {target : Option Target} :
    (s.queueClassFor p (some .order) target).tier = .emergency
      ↔ target = some .closed ∧ 6 ≤ (s.queueClassFor p (some .order) target).priority := by
  simp [State.queueClassFor]

theorem State.queueClassFor_reclose_emergency_iff {target : Option Target} :
    (s.queueClassFor p (some .reclose) target).tier = .emergency
      ↔ 6 ≤ (s.queueClassFor p (some .reclose) target).priority := by
  simp [State.queueClassFor]

/-! ### The charge test -/

/-- With a stroke to spare and no start to keep clear of, the first two tests of R107 pass, so the charge test is
the one that decides. -/
theorem State.failedTest_charge_iff (hc : w.strokes < w.concurrency) (hl : w.lastStart = none) :
    s.failedTest w p r pf = some .charge
      ↔ ¬ (w.reconciled = true ∧ r.strokeNeed pf w.floor ≤ w.visible) := by
  unfold State.failedTest
  rw [hl, if_neg (not_not.mpr hc), if_neg Bool.false_ne_true]
  split_ifs with hcharge
  all_goals simp [hcharge]

/-- Settles O41: the cost and the need by what the stroke does, the tier by the queue priority, and the charge test
once the two tests before it pass. -/
theorem needOfTheHead : Obligations.NeedOfTheHead := by
  intro s w p r pf floor
  refine ⟨fun hp => ?passage, fun _ ht => ?opened, fun hp ht => ⟨?cost, fun he => ?urgent, fun he => ?plain⟩,
    ?order, ?reclose, ?opening, ?test⟩
  case passage => exact ⟨Record.Opens.strokeNeed (.inl hp), Record.Opens.strokeCost (.inl hp)⟩
  case opened => exact ⟨Record.Opens.strokeNeed (.inr ht), Record.Opens.strokeCost (.inr ht)⟩
  case cost => exact Record.strokeCost_closed hp ht
  case urgent => rw [Record.strokeNeed_closed hp ht, if_pos (Option.map_eq_some_iff.mpr he)]
  case plain => rw [Record.strokeNeed_closed hp ht, if_neg (mt Option.map_eq_some_iff.mp he)]
  case order => exact State.queueClassFor_order_emergency_iff.trans (and_iff_right rfl)
  case reclose => exact State.queueClassFor_reclose_emergency_iff
  case opening => exact fun h => by cases (State.queueClassFor_order_emergency_iff.mp h).1
  case test => exact State.failedTest_charge_iff

end Sys2Proof.Machine

/-! SUPPORT. The criteria of a bulk walk and its hold on admission (R163, R167). Obligation O57. -/

namespace Sys2Proof.Machine

variable {s : State} {p : Nat} {r : Record} {b : BulkPlan}

/-! ### Criteria -/

theorem Record.unit?_eq_some_iff {u : Nat} :
    r.unit? = some u ↔ ∃ pf, r.cfg.power = some pf ∧ pf.unit = u :=
  Option.map_eq_some_iff

theorem BulkPlan.matches_iff :
    b.matches r = true ↔
      (∀ z, b.zone = some z → r.cfg.zone = z)
      ∧ (∀ u, b.unit = some u → ∃ pf, r.cfg.power = some pf ∧ pf.unit = u)
      ∧ (∀ c, b.cls = some c → r.cfg.cls = c)
      ∧ (r.cfg.tag &&& b.mask = b.value1 ∨ r.cfg.tag &&& b.mask = b.value2) := by
  simp only [BulkPlan.matches, Bool.and_eq_true, and_assoc, ← Record.unit?_eq_some_iff]
  refine and_congr ?zone (and_congr ?unit (and_congr ?cls ?tag))
  case zone => cases b.zone <;> simp
  case unit => cases b.unit <;> simp
  case cls => cases b.cls <;> simp
  case tag => simp

/-- With mask 0 the tag reads 0 whatever it holds, so a value of 0 leaves the tag open; the other parts are absent. -/
theorem BulkPlan.matches_of_no_criteria (hm : b.mask = 0) (hv : b.value1 = 0 ∨ b.value2 = 0)
    (hz : b.zone = none) (hu : b.unit = none) (hc : b.cls = none) : b.matches r = true := by
  have htag : r.cfg.tag &&& b.mask = 0 := by rw [hm]; exact BitVec.and_zero
  refine BulkPlan.matches_iff.mpr ⟨?zone, ?unit, ?cls, ?tag⟩
  case zone => simp [hz]
  case unit => simp [hu]
  case cls => simp [hc]
  case tag => rw [htag]; exact hv.imp Eq.symm Eq.symm

/-! ### The hold -/

theorem State.bulkHolds_iff :
    s.bulkHolds p r = true ↔ s.walk.state = .running
      ∧ ∃ b, s.walk.plan = some b ∧ b.first ≤ p ∧ p ≤ b.last ∧ b.matches r = true := by
  unfold State.bulkHolds
  split
  next b hrun hplan => simp [hrun, hplan, and_assoc]
  next hnot =>
    refine iff_of_false Bool.false_ne_true ?_
    rintro ⟨hrun, b, hplan, -⟩
    exact hnot b hrun hplan

/-- Settles O57: the criteria part by part, the criteria that leave every part open, and the hold. -/
theorem bulkCriteriaMatch : Obligations.BulkCriteriaMatch :=
  fun _ _ _ _ => ⟨BulkPlan.matches_iff, BulkPlan.matches_of_no_criteria, State.bulkHolds_iff⟩

end Sys2Proof.Machine
